-- ==== Sys2Proof/Word.lean ====
section
/-! DEFINITION. Word types and their plainest arithmetic. -/

namespace Sys2Proof

/-- One byte of memory (R4). -/
abbrev Byte := BitVec 8

/-- A workspace word (R26), an address word or a 64-bit register. -/
abbrev Word := BitVec 64

/-- The bits of one vector register at the widest grant, 9 groups of 512 bits (R135, R239). -/
abbrev VecBits := BitVec 4608

/-- An instruction word (R190, R193). -/
abbrev IWord := BitVec 96

end Sys2Proof
end

