-- ==== Sys2Proof/Config.lean ====
section
/-! DEFINITION. What the spec leaves open: free values, which no proof can see, and the constants of the part. -/

namespace Sys2Proof

/-- The byte a CXL address holds before anything is written to it (R459): free. (DESIGN CHOICE, log 3) -/
opaque Config.cxlByte : Nat → Byte

/-- A vector register the spec calls undefined (R216, R239, R240): free, a new value for each count.
(DESIGN CHOICE, log 9) -/
opaque Config.vecUndef : Nat → VecBits

/-- A volatile workspace word after a resume (R49): free. (DESIGN CHOICE, log 10) -/
opaque Config.volatileWord : Nat → Word

/-- A slice byte after a change of ctl.L1CO (R82): free. (DESIGN CHOICE, log 11) -/
opaque Config.sliceUndef : Nat → Byte

/-- The contents of a sync word after a plain store to it (R100): free. (DESIGN CHOICE, log 12) -/
opaque Config.syncUndef : Nat → Byte

/-- How many of a core's newest alias stores a load through its own window has not seen (R88): free.
(DESIGN CHOICE, log 13) -/
opaque Config.windowLag : Nat → Nat

/-- A destination byte of a copy that overlaps its source (R308): free. (DESIGN CHOICE, log 14) -/
opaque Config.overlapByte : Nat → Byte

/-- A correctly rounded function value whose enclosure does not decide the rounding (R234): free.
(DESIGN CHOICE, log 15) -/
opaque Config.roundTie : Nat → Bool

/-- A byte of an SPDM response message (R356): free. (DESIGN CHOICE, log 16) -/
opaque Config.spdmByte : Nat → Byte

/-- The digest of the n-th thing measured (R356): free. (DESIGN CHOICE, log 16) -/
opaque Config.measured : Nat → BitVec 256

/-- The measurement register the n-th thing measured goes to, mod 8, and the count of stages measured at reset (R356): free.
(DESIGN CHOICE, log 16) -/
opaque Config.measuredIn : Nat → Nat

/-- The KIND of a message's packet, which is not architectural (R340): free. (DESIGN CHOICE, log 58) -/
opaque Config.packetKind : Nat → BitVec 6

/-- What follows the header in a packet that is not of a route class (R340): free. (DESIGN CHOICE, log 58) -/
opaque Config.packetBody : Nat → List Byte

/-- Where the argument words of a Ready firing lie in its die's dispatch area (R54): free. (DESIGN CHOICE, log 80) -/
opaque Config.recAddr : Nat → BitVec 56

/-- A telemetry reading (R358): free. (DESIGN CHOICE, log 16) -/
opaque Config.sensor : Nat → BitVec 16

/-- The bytes of a die's dump section after its header (R452, R453): the spec names what they hold and gives no layout.
(DESIGN CHOICE, log 16) -/
opaque Config.dumpBody : List (List Nat) → List Byte

/-- A stop with B = 1 ends the halt of a halted core: R450 has it end there, R361 has the core stay halted. (DESIGN CHOICE, log 96) -/
opaque Config.stopEndsHalt : Bool

/-- A command that its capability does not allow and whose addresses fault raises the address fault, as the order of R397 has it,
and not the capability fault, as that of R304 has it. (DESIGN CHOICE, log 41) -/
opaque Config.addressFirst : Bool

end Sys2Proof
end

