-- ==== Sys2Proof/Syntax.lean ====
section
/-! DEFINITION. The syntax: one constructor for each row of the opcode table, the 148 instructions of R212 and
the 138 steps the device takes by itself. -/

namespace Sys2Proof

/-- Type codes 0x0 to 0xF (R201). -/
inductive Ty where
  | i8 | i16 | i32 | i64 | n8 | n16 | n32 | n64 | f16 | bf16 | f32 | f64 | e4m3 | e5m2 | e2m1 | q128
deriving DecidableEq, Repr

/-- Rounding modes (R141). -/
inductive Rnd where
  | rne | rtz | rdn | rup | rto | rna
deriving DecidableEq, Repr

/-- Scope codes (R2). -/
inductive Scope where
  | core | cas | die | pkg | pod
deriving DecidableEq, Repr

/-- Memory orders (R154, R204). -/
inductive Ord where
  | rlx | acq | rel | acqrel
deriving DecidableEq, Repr

/-- The guard field G (R195). -/
structure Guard where
  neg : Bool
  p : BitVec 3
deriving DecidableEq, Repr

/-- What every instruction carries: its guard and its hints (R195, R202). -/
structure Head where
  g : Guard
  hint : BitVec 10
deriving DecidableEq, Repr

/-- Special registers (R29), in the order of their codes. -/
inductive SReg where
  | core | cas | die | pkg | elem | firing | actor | lanes | time | path | tandem | ctx
deriving DecidableEq, Repr

/-- An operand field (R196). -/
inductive Opnd where
  | w (n : BitVec 8)
  | v (n : BitVec 4)
  | ic (k : BitVec 3)
  | oc (k : BitVec 3)
  | imm (x : BitVec 15)
  | sr (r : SReg)
deriving DecidableEq, Repr

/-- An operand field the instruction does not use: its bits are zero (R194). -/
abbrev Opnd.unused : Opnd := .w 0

/-- The fields of the integer, floating and vector classes, with MOD in its arithmetic form (R193, R203). -/
structure Arith where
  hd : Head
  ty : Ty
  d : Opnd
  a : Opnd
  b : Opnd
  lm : Bool
  rnd : Rnd
  sat : Bool
  ftz : Bool
deriving DecidableEq, Repr

/-- Conditions of cmp (R207). -/
inductive Cond where
  | eq | ne | lt | le | gt | ge | tz | tnz
deriving DecidableEq, Repr

/-- Conditions of fcmp (R207). -/
inductive FCond where
  | eq | ne | lt | le | gt | ge | un | ord
deriving DecidableEq, Repr

/-- The destination of a compare (R200). -/
inductive CmpDst where
  | p (n : BitVec 3)
  | v (n : BitVec 4)
deriving DecidableEq, Repr

/-- The fields of cmp and fcmp (R230). -/
structure Cmp where
  hd : Head
  ty : Ty
  d : CmpDst
  a : Opnd
  b : Opnd
  lm : Bool
deriving DecidableEq, Repr

/-- A predicate source, which NEG inverts (R200). -/
structure PSrc where
  neg : Bool
  p : BitVec 3
deriving DecidableEq, Repr

/-- The fields of pand to pmov (R231). -/
structure PredOp where
  hd : Head
  d : BitVec 3
  a : PSrc
  b : PSrc
deriving DecidableEq, Repr

/-- Operations of amo, amon and amov (R208). -/
inductive AtomFn where
  | add | min | max | and | or | xor | swap | fadd | fmin | fmax
  | padd | pmin | pmax | pfadd | pfmin | pfmax
deriving DecidableEq, Repr

/-- Operations of vred and vscan (R209). -/
inductive RedFn where
  | add | min | max | and | or | xor
deriving DecidableEq, Repr

/-- Forms of vperm (R211, R242). -/
inductive PermFn where
  | idx | rev | zipl | ziph | unzl | unzh
deriving DecidableEq, Repr

/-- Forms of vslide (R211, R243). -/
inductive SlideFn where
  | up | down | rotu | rotd
deriving DecidableEq, Repr

/-- The fields of the memory and atomic opcodes, with MOD in its memory form (R204, R254). -/
structure Mem where
  hd : Head
  ty : Ty
  d : Opnd
  a : Opnd
  b : Opnd
  lm : Bool
  scope : Scope
  ord : Ord
  ccls : BitVec 2
deriving DecidableEq, Repr

/-- The operand fields of an opcode at or above 0x80, where MOD is reserved (R205). -/
structure Task where
  hd : Head
  d : Opnd
  a : Opnd
  b : Opnd
deriving DecidableEq, Repr

/-- Barrier levels (R211, R269). -/
inductive Level where
  | cas | die | pkg | pod
deriving DecidableEq, Repr

/-- The guard kind of post (R211, R286). -/
inductive PostGuard where
  | none
  | sw
  | bar (l : Level)
deriving DecidableEq, Repr

/-- The form of handover (R297). -/
inductive HandKind where
  | ex | ro | rd
deriving DecidableEq, Repr

/-- The form of tlbinv (R319). -/
inductive TlbKind where
  | page | ctx | all
deriving DecidableEq, Repr

/-- What one step of the part does: an instruction (R212), or a step the device takes by itself. The arguments of
a device step name the unit that takes it or the tag of the message, firing or command it acts on. -/
inductive Instr where
  /-- ADD (R219). -/
  | add (x : Arith)
  /-- SUB (R219). -/
  | sub (x : Arith)
  /-- ADDC (R221). -/
  | addc (x : Arith)
  /-- SUBB (R221). -/
  | subb (x : Arith)
  /-- MUL (R219). -/
  | mul (x : Arith)
  /-- MULH (R219). -/
  | mulh (x : Arith)
  /-- MULHN (R219). -/
  | mulhn (x : Arith)
  /-- MADD (R222). -/
  | madd (x : Arith)
  /-- DIV (R219). -/
  | div (x : Arith)
  /-- DIVN (R219). -/
  | divn (x : Arith)
  /-- REM (R219). -/
  | rem (x : Arith)
  /-- REMN (R219). -/
  | remn (x : Arith)
  /-- AND (R219). -/
  | and (x : Arith)
  /-- OR (R219). -/
  | or (x : Arith)
  /-- XOR (R219). -/
  | xor (x : Arith)
  /-- ANDN (R219). -/
  | andn (x : Arith)
  /-- ORN (R219). -/
  | orn (x : Arith)
  /-- SHL (R219). -/
  | shl (x : Arith)
  /-- SHR (R219). -/
  | shr (x : Arith)
  /-- SAR (R219). -/
  | sar (x : Arith)
  /-- ROL (R219). -/
  | rol (x : Arith)
  /-- MIN (R219). -/
  | min (x : Arith)
  /-- MAX (R219). -/
  | max (x : Arith)
  /-- MINN (R219). -/
  | minn (x : Arith)
  /-- MAXN (R219). -/
  | maxn (x : Arith)
  /-- ABS (R223). -/
  | abs (x : Arith)
  /-- NEG (R223). -/
  | neg (x : Arith)
  /-- CLZ (R223). -/
  | clz (x : Arith)
  /-- CTZ (R223). -/
  | ctz (x : Arith)
  /-- POPC (R223). -/
  | popc (x : Arith)
  /-- BREV (R223). -/
  | brev (x : Arith)
  /-- BSWAP (R223). -/
  | bswap (x : Arith)
  /-- SEXT (R224). -/
  | sext (ts : Ty) (x : Arith)
  /-- ZEXT (R224). -/
  | zext (ts : Ty) (x : Arith)
  /-- BFX (R225). -/
  | bfx (x : Arith)
  /-- BFI (R225). -/
  | bfi (x : Arith)
  /-- SEL (R226). -/
  | sel (x : Arith)
  /-- MOV (R227). -/
  | mov (x : Arith)
  /-- LI (R228). -/
  | li (hd : Head) (d : Opnd) (k : BitVec 36)
  /-- LIH (R228). -/
  | lih (hd : Head) (d : Opnd) (k : BitVec 28)
  /-- LEA (R229). -/
  | lea (x : Task)
  /-- CMP (R230). -/
  | cmp (c : Cond) (x : Cmp)
  /-- FCMP (R230). -/
  | fcmp (c : FCond) (x : Cmp)
  /-- PAND (R231). -/
  | pand (x : PredOp)
  /-- POR (R231). -/
  | por (x : PredOp)
  /-- PXOR (R231). -/
  | pxor (x : PredOp)
  /-- PNOT (R231). -/
  | pnot (x : PredOp)
  /-- PMOV (R231). -/
  | pmov (x : PredOp)
  /-- FADD (R233). -/
  | fadd (x : Arith)
  /-- FSUB (R233). -/
  | fsub (x : Arith)
  /-- FMUL (R233). -/
  | fmul (x : Arith)
  /-- FFMA (R233). -/
  | ffma (x : Arith)
  /-- FFMS (R233). -/
  | ffms (x : Arith)
  /-- FNMA (R233). -/
  | fnma (x : Arith)
  /-- FDIV (R233). -/
  | fdiv (x : Arith)
  /-- FSQRT (R234). -/
  | fsqrt (x : Arith)
  /-- FMIN (R233). -/
  | fmin (nan : Bool) (x : Arith)
  /-- FMAX (R233). -/
  | fmax (nan : Bool) (x : Arith)
  /-- FABS (R235). -/
  | fabs (x : Arith)
  /-- FNEG (R235). -/
  | fneg (x : Arith)
  /-- FSGN (R235). -/
  | fsgn (x : Arith)
  /-- FRND (R236). -/
  | frnd (x : Arith)
  /-- FCVT (R237). -/
  | fcvt (ts : Ty) (x : Arith)
  /-- FICVT (R237). -/
  | ficvt (ts : Ty) (x : Arith)
  /-- IFCVT (R237). -/
  | ifcvt (ts : Ty) (x : Arith)
  /-- FCLASS (R238). -/
  | fclass (x : Arith)
  /-- FRCP (R234). -/
  | frcp (x : Arith)
  /-- FRSQ (R234). -/
  | frsq (x : Arith)
  /-- FEX2 (R234). -/
  | fex2 (x : Arith)
  /-- FLG2 (R234). -/
  | flg2 (x : Arith)
  /-- FSIN (R234). -/
  | fsin (x : Arith)
  /-- FCOS (R234). -/
  | fcos (x : Arith)
  /-- FTANH (R234). -/
  | ftanh (x : Arith)
  /-- VCLAIM (R239). -/
  | vclaim (x : Task)
  /-- VBCAST (R241). -/
  | vbcast (x : Arith)
  /-- VPERM (R242). -/
  | vperm (f : PermFn) (x : Arith)
  /-- VSLIDE (R243). -/
  | vslide (f : SlideFn) (x : Arith)
  /-- VSCAN (R248). -/
  | vscan (f : RedFn) (x : Arith)
  /-- VRED (R248). -/
  | vred (f : RedFn) (x : Arith)
  /-- VCOMP (R244). -/
  | vcomp (x : Arith)
  /-- VXPND (R244). -/
  | vxpnd (x : Arith)
  /-- VIOTA (R245). -/
  | viota (x : Arith)
  /-- VEXT (R246). -/
  | vext (x : Arith)
  /-- VINS (R246). -/
  | vins (x : Arith)
  /-- VANY (R247). -/
  | vany (x : Arith)
  /-- VALL (R247). -/
  | vall (x : Arith)
  /-- QPACK (R249). -/
  | qpack (ts : Ty) (x : Arith)
  /-- QUNPK (R250). -/
  | qunpk (ts : Ty) (x : Arith)
  /-- LD (R256). -/
  | ld (x : Mem)
  /-- ST (R256). -/
  | st (x : Mem)
  /-- LDV (R257). -/
  | ldv (x : Mem)
  /-- STV (R257). -/
  | stv (x : Mem)
  /-- LDG (R258). -/
  | ldg (x : Mem)
  /-- STS (R258). -/
  | sts (x : Mem)
  /-- PREF (R259). -/
  | pref (x : Mem)
  /-- FENCE (R260). -/
  | fence (x : Mem)
  /-- LBF (R261). -/
  | lbf (x : Mem)
  /-- CWB (R262). -/
  | cwb (x : Mem)
  /-- CINV (R263). -/
  | cinv (x : Mem)
  /-- AMO (R265). -/
  | amo (f : AtomFn) (x : Mem)
  /-- AMON (R265). -/
  | amon (f : AtomFn) (x : Mem)
  /-- CAS (R266). -/
  | cas (x : Mem)
  /-- CASQ (R266). -/
  | casq (x : Mem)
  /-- AMOV (R267). -/
  | amov (f : AtomFn) (x : Mem)
  /-- RED (R268). -/
  | red (j : BitVec 5) (x : Mem)
  /-- BR (R281). -/
  | br (hd : Head) (off : BitVec 36)
  /-- JMP (R281). -/
  | jmp (hd : Head) (off : BitVec 54)
  /-- JMPI (R281). -/
  | jmpi (hd : Head) (a : Opnd)
  /-- CALL (R281). -/
  | call (hd : Head) (d : Opnd) (off : BitVec 36)
  /-- CALLI (R281). -/
  | calli (hd : Head) (d : Opnd) (a : Opnd)
  /-- RET (R281). -/
  | ret (hd : Head) (a : Opnd)
  /-- LOOP (R281). -/
  | loop (hd : Head) (a : Opnd) (off : BitVec 18)
  /-- END (R282). -/
  | endFiring (hd : Head)
  /-- REGION (R283). -/
  | region (hd : Head)
  /-- BRK (R284). -/
  | brk (hd : Head) (code : BitVec 8)
  /-- NOP (R283). -/
  | nop (hd : Head)
  /-- POST (R286). -/
  | post (k : PostGuard) (x : Task)
  /-- SPAWN (R287). -/
  | spawn (x : Task)
  /-- FORK (R288). -/
  | fork (x : Task)
  /-- SEND (R289). -/
  | send (x : Task)
  /-- REPLY (R290). -/
  | reply (x : Task)
  /-- CHRES (R291). -/
  | chres (x : Task)
  /-- CHPUB (R292). -/
  | chpub (x : Task)
  /-- CLMASK (R294). -/
  | clmask (unmask : Bool) (x : Task)
  /-- COMPOSE (R295). -/
  | compose (logn : BitVec 3) (x : Task)
  /-- DECOMP (R296). -/
  | decomp (hd : Head)
  /-- HANDOVER (R297). -/
  | handover (k : HandKind) (x : Task)
  /-- CAPQ (R298). -/
  | capq (x : Task)
  /-- BARA (R269). -/
  | bara (l : Level) (x : Task)
  /-- SWINIT (R270). -/
  | swinit (x : Task)
  /-- SWARR (R271). -/
  | swarr (x : Task)
  /-- SWTEST (R272). -/
  | swtest (x : Task)
  /-- GJOIN (R273). -/
  | gjoin (x : Task)
  /-- GLEAVE (R273). -/
  | gleave (x : Task)
  /-- GLD (R274). -/
  | gld (x : Task)
  /-- MXLD (R305). -/
  | mxld (ty : Ty) (x : Task)
  /-- MXFLIP (R306). -/
  | mxflip (x : Task)
  /-- MXRUN (R307). -/
  | mxrun (acc tr : Bool) (ty : Ty) (x : Task)
  /-- CPY (R308). -/
  | cpy (crc rec : Bool) (x : Task)
  /-- CPYF (R309). -/
  | cpyf (crc rec : Bool) (x : Task)
  /-- QFENCE (R310). -/
  | qfence (mask : BitVec 5) (x : Task)
  /-- ENGQ (R311). -/
  | engq (x : Task)
  /-- TRAP (R313). -/
  | trap (hd : Head) (code : BitVec 8)
  /-- TRET (R314). -/
  | tret (x : Task)
  /-- CTLRD (R315). -/
  | ctlrd (num : BitVec 12) (x : Task)
  /-- CTLWR (R315). -/
  | ctlwr (num : BitVec 12) (x : Task)
  /-- TLBINV (R319). -/
  | tlbinv (k : TlbKind) (x : Task)
  /-- STOP (R320). -/
  | stop (x : Task)
  /-- FIRING_INSERT (R33). -/
  | firingInsert (f : Nat)
  /-- RELEASE_NOTICE (R103). -/
  | releaseNotice (f : Nat)
  /-- POP (R57). -/
  | pop (die : Nat)
  /-- LOCK_REQUEST (R72). -/
  | lockRequest (tag : Nat)
  /-- LOCK_RELEASE (R72). -/
  | lockRelease (tag : Nat)
  /-- TRY_RESULT (R71). -/
  | tryResult (f : Nat)
  /-- RESERVATION (R77). -/
  | reservation (f : Nat)
  /-- RESERVATION_RETRY (R77). -/
  | reservationRetry (f : Nat)
  /-- DISPLACEMENT_NOTICE (R77). -/
  | displacementNotice (f elem : Nat)
  /-- TICKETED_TRY_RETRY (R78). -/
  | ticketedTryRetry (f : Nat)
  /-- ROUND_RESOLVE (R182). -/
  | roundResolve (f : Nat)
  /-- ROUND_TRY_RETRY (R182). -/
  | roundTryRetry (f : Nat)
  /-- PLACEMENT (R63). -/
  | placement (f : Nat)
  /-- FOOTPRINT_RESIDENT (R65). -/
  | footprintResident (f : Nat)
  /-- NEXT_FIRING (R62). -/
  | nextFiring (core : Nat)
  /-- PRECISE_RESUME (R402). -/
  | preciseResume (f : Nat)
  /-- RETIRE (R34). -/
  | retire (core : Nat)
  /-- SLOT_COUNT (R40). -/
  | slotCount (chan : Nat)
  /-- CHANNEL_RESERVE (R291). -/
  | channelReserve (tag : Nat)
  /-- P7_RESULT (R277). -/
  | p7Result (tag : Nat)
  /-- SPAWN_ARRIVAL (R287). -/
  | spawnArrival (tag : Nat)
  /-- FORK_ARRIVAL (R288). -/
  | forkArrival (tag : Nat)
  /-- PACKET_ARRIVAL (R289). -/
  | packetArrival (tag : Nat)
  /-- MASKED_PACKET_RELEASE (R289). -/
  | maskedPacketRelease (core : Nat)
  /-- LOAD_RETURN (R255). -/
  | loadReturn (core : Nat)
  /-- L1_FILL (R89). -/
  | l1Fill (cas line : Nat)
  /-- STORE_PERFORM (R253). -/
  | storePerform (tag : Nat)
  /-- LINE_WRITEBACK (R262). -/
  | lineWriteback (tag : Nat)
  /-- ATOMIC_APPLY (R265). -/
  | atomicApply (tag : Nat)
  /-- ATOMIC_ACK (R264). -/
  | atomicAck (tag : Nat)
  /-- RED_APPLY (R268). -/
  | redApply (tag : Nat)
  /-- HANDOVER_APPLY (R178). -/
  | handoverApply (tag : Nat)
  /-- HANDOVER_COMPLETE (R178). -/
  | handoverComplete (tag : Nat)
  /-- TLBINV_COMPLETE (R319). -/
  | tlbinvComplete (tag : Nat)
  /-- REMOTE_CTL_ACCESS (R315). -/
  | remoteCtlAccess (tag : Nat)
  /-- BARRIER_ARRIVAL (R269). -/
  | barrierArrival (tag : Nat)
  /-- SYNC_WORD_UPDATE (R101). -/
  | syncWordUpdate (tag : Nat)
  /-- SWINIT_APPLY (R270). -/
  | swinitApply (tag : Nat)
  /-- GROUP_MEMBERSHIP (R112). -/
  | groupMembership (tag : Nat)
  /-- GROUP_REQUEST (R114). -/
  | groupRequest (tag : Nat)
  /-- HOLD_ADMIT (R116). -/
  | holdAdmit (slice : Nat)
  /-- HOLD_TIMER_EXPIRY (R115). -/
  | holdTimerExpiry (hold : Nat)
  /-- HOLD_READ_COMPLETE (R114). -/
  | holdReadComplete (hold : Nat)
  /-- PRIVATE_READ (R117). -/
  | soloRead (tag : Nat)
  /-- FILL_LAND (R118). -/
  | fillLand (tag : Nat)
  /-- ENGINE_COMMAND_ARRIVAL (R345). -/
  | engineCommandArrival (tag : Nat)
  /-- MXLD_PERFORM (R305). -/
  | mxldPerform (cas : Nat)
  /-- MXFLIP_PERFORM (R306). -/
  | mxflipPerform (cas : Nat)
  /-- MXRUN_PIECE (R307). -/
  | mxrunPiece (cas : Nat)
  /-- COPY_SECTOR (R441). -/
  | copySector (cas q : Nat)
  /-- COMPLETION_RECORD (R104). -/
  | completionRecord (cas q : Nat)
  /-- QFENCE_COMPLETE (R310). -/
  | qfenceComplete (cas : Nat)
  /-- ENGINE_REWALK (R440). -/
  | engineRewalk (cas q : Nat)
  /-- ENGINE_PREEMPT (R442). -/
  | enginePreempt (cas q : Nat)
  /-- TANDEM_START (R123). -/
  | tandemStart (f : Nat)
  /-- BLOCK_TOKEN (R127). -/
  | blockToken (core : Nat)
  /-- BLOCK_COMMIT (R130). -/
  | blockCommit (core : Nat)
  /-- TANDEM_FAULT (R437). -/
  | tandemFault (core : Nat)
  /-- PREEMPT_WINDOW_EXPIRY (R47). -/
  | preemptWindowExpiry (core : Nat)
  /-- FAULT_STOP (R399). -/
  | faultStop (core : Nat)
  /-- FAULT_RECORD_WRITE (R400). -/
  | faultRecordWrite (f : Nat)
  /-- TRET_ORDER (R314). -/
  | tretOrder (tag : Nat)
  /-- L1CO_TAKE_EFFECT (R82). -/
  | l1coTakeEffect (cas : Nat)
  /-- WSAREA_TAKE_EFFECT (R318). -/
  | wsareaTakeEffect (cas : Nat)
  /-- SPOWN_WRITE (R84). -/
  | spownWrite (tag : Nat)
  /-- L1CO_WRITE (R82). -/
  | l1coWrite (tag : Nat)
  /-- WSAREA_WRITE (R318). -/
  | wsareaWrite (tag : Nat)
  /-- DETCTL_WRITE (R174). -/
  | detctlWrite (tag : Nat)
  /-- CAPTAB_WRITE (R302). -/
  | captabWrite (tag : Nat)
  /-- DETSTAT_CLEAR (R189). -/
  | detstatClear (tag : Nat)
  /-- EVCNT_WRITE (R379). -/
  | evcntWrite (tag : Nat)
  /-- EVSEL_WRITE (R379). -/
  | evselWrite (tag : Nat)
  /-- TRCTL_WRITE (R373). -/
  | trctlWrite (tag : Nat)
  /-- TRRING_WRITE (R373). -/
  | trringWrite (tag : Nat)
  /-- FLTCH_WRITE (R401). -/
  | fltchWrite (tag : Nat)
  /-- GRPTAB_WRITE (R120). -/
  | grptabWrite (tag : Nat)
  /-- DSPILL_WRITE (R318). -/
  | dspillWrite (tag : Nat)
  /-- PREEMPTWIN_WRITE (R318). -/
  | preemptwinWrite (tag : Nat)
  /-- SPAWNQ_WRITE (R318). -/
  | spawnqWrite (tag : Nat)
  /-- PATIENCE_WRITE (R81). -/
  | patienceWrite (tag : Nat)
  /-- INBOX_LIMIT_WRITE (R344). -/
  | inboxLimitWrite (tag : Nat)
  /-- CTL_REGISTER_WRITE (R315). -/
  | ctlRegisterWrite (tag : Nat)
  /-- DEBUG_FORWARD (R367). -/
  | debugForward (chan : Nat)
  /-- HALT (R369). -/
  | halt (tag : Nat)
  /-- RESUME (R369). -/
  | resume (tag : Nat)
  /-- STEPI (R365). -/
  | stepi (tag : Nat)
  /-- STEPF (R365). -/
  | stepf (tag : Nat)
  /-- RDREG (R369). -/
  | rdreg (tag : Nat)
  /-- WRREG (R369). -/
  | wrreg (tag : Nat)
  /-- RDWS (R369). -/
  | rdws (tag : Nat)
  /-- WRWS (R369). -/
  | wrws (tag : Nat)
  /-- RDVEC (R369). -/
  | rdvec (tag : Nat)
  /-- RDACCT (R369). -/
  | rdacct (tag : Nat)
  /-- CLRACCT (R369). -/
  | clracct (tag : Nat)
  /-- DEBUG_RESPONSE_WRITE (R371). -/
  | debugResponseWrite (tag : Nat)
  /-- TRACE_RECORD_TAKE (R374). -/
  | traceRecordTake (die : Nat)
  /-- WATCH_POLL (R103). -/
  | watchPoll (f : Nat)
  /-- SPILL_REFILL (R56). -/
  | spillRefill (die bank ctx : Nat)
  /-- FOOTPRINT_FAULT (R439). -/
  | footprintFault (f : Nat)
  /-- ACTIVITY_FORECAST (R80). -/
  | activityForecast (die : Nat)
  /-- ATOMIC_RESEND (R443). -/
  | atomicResend (tag : Nat)
  /-- DRAM_REREAD (R444). -/
  | dramReread (tag : Nat)
  /-- CAPABILITY_REFETCH (R177). -/
  | capabilityRefetch (cas ctx addr : Nat)
  /-- PAGE_WALK (R98). -/
  | pageWalk (cas ctx addr : Nat)
  /-- ENGINE_OPERATION_FAULT (R440). -/
  | engineOperationFault (cas q : Nat)
  /-- ENGINE_RESUME (R442). -/
  | engineResume (die ctx : Nat)
  /-- BLOCK_SQUASH (R129). -/
  | blockSquash (core : Nat)
  /-- EVENT_COUNT (R379). -/
  | eventCount (core : Nat)
  /-- DEBUG_RESPONSE_RETRY (R371). -/
  | debugResponseRetry (core : Nat)
  /-- HALT_TAKE_EFFECT (R361). -/
  | haltTakeEffect (core : Nat)
  /-- BREAKPOINT_HIT (R363). -/
  | breakpointHit (core : Nat)
  /-- STEP_COMPLETE (R365). -/
  | stepComplete (core : Nat)
  /-- RIDX_READ (R374). -/
  | ridxRead (die : Nat)
  /-- TSYNC (R372). -/
  | tsync (die : Nat)
  /-- STOPF_TIMEOUT (R450). -/
  | stopfTimeout (die : Nat)
  /-- HOST_BAR2_WRITE (R353). -/
  | hostBar2Write (tag : Nat)
  /-- HOST_BAR2_READ (R353). -/
  | hostBar2Read (tag : Nat)
  /-- FACC_WRITE (R352). -/
  | faccWrite (tag : Nat)
  /-- BAR0_WRITE (R350). -/
  | bar0Write (tag : Nat)
  /-- TELEM (R358). -/
  | telem (pkg : Nat)
  /-- GETCAP (R358). -/
  | getcap (pkg : Nat)
  /-- SETCAP (R358). -/
  | setcap (pkg : Nat)
  /-- SPDM (R358). -/
  | spdm (pkg : Nat)
  /-- DUMPINFO (R358). -/
  | dumpinfo (pkg : Nat)
  /-- RESET (R459). -/
  | reset (pkg : Nat)
  /-- JUNCTION_WARNING (R20). -/
  | junctionWarning (die : Nat)
  /-- JUNCTION_CRITICAL (R20). -/
  | junctionCritical (die : Nat)
  /-- FATAL_ERROR (R452). -/
  | fatalError (pkg cause : Nat)
  /-- SPOKE_FLIT_RECEIVE (R348). -/
  | spokeFlitReceive (tag : Nat)
  /-- END_TO_END_ACK (R448). -/
  | endToEndAck (pkg dest seq : Nat)
  /-- END_TO_END_RESEND (R448). -/
  | endToEndResend (pkg dest : Nat)
  /-- LINK_OUT_OF_SERVICE (R448). -/
  | linkOutOfService (pkg link : Nat)
  /-- PACKAGE_LOST (R448). -/
  | packageLost (pkg lost : Nat)
  /-- DIE_LOST (R449). -/
  | dieLost (die : Nat)
  /-- SLICE_RETIREMENT (R447). -/
  | sliceRetirement (die slice : Nat)
  /-- RESTORE_CLAIM (R454). -/
  | restoreClaim (die : Nat)
  /-- PCIE_DOE_SPDM_REQUEST (R356). -/
  | pcieDoeSpdmRequest (tag : Nat)
  /-- TRACE_BURST_WRITE (R374). -/
  | traceBurstWrite (die : Nat)
deriving DecidableEq, Repr

end Sys2Proof
end

