-- ==== Sys2Proof/WellFormed.lean ====
section
/-! DEFINITION. Which instructions are legal: the checks of R194 that the shape of Instr leaves open, from the
entries of spec/10, spec/11 and spec/12 and the lists of spec/21. -/

namespace Sys2Proof

namespace Ty

/-- The width of a type in bits (R132, R136). -/
def width : Ty → Nat
  | .i8 | .n8 | .e4m3 | .e5m2 => 8
  | .i16 | .n16 | .f16 | .bf16 => 16
  | .i32 | .n32 | .f32 => 32
  | .i64 | .n64 | .f64 => 64
  | .e2m1 => 4
  | .q128 => 128

/-- The signed integer types (R132). -/
def isI : Ty → Bool
  | .i8 | .i16 | .i32 | .i64 => true
  | _ => false

/-- The unsigned integer types (R132). -/
def isN : Ty → Bool
  | .n8 | .n16 | .n32 | .n64 => true
  | _ => false

/-- The integer types from i8 to n64. -/
def isInt (t : Ty) : Bool := t.isI || t.isN

/-- The floating types (R136). -/
def isFloat : Ty → Bool
  | .f16 | .bf16 | .f32 | .f64 | .e4m3 | .e5m2 | .e2m1 => true
  | _ => false

/-- The types of floating arithmetic (R232). -/
def isArithFloat : Ty → Bool
  | .f16 | .bf16 | .f32 | .f64 => true
  | _ => false

/-- The types of fex2 to ftanh (R232). -/
def isFuncFloat : Ty → Bool
  | .f16 | .bf16 | .f32 => true
  | _ => false

/-- i32, i64, n32 and n64 (R221, R254). -/
def isWide : Ty → Bool
  | .i32 | .i64 | .n32 | .n64 => true
  | _ => false

/-- The types of ldg and sts (R254). -/
def isGather : Ty → Bool
  | .i32 | .i64 | .n32 | .n64 | .f32 | .f64 => true
  | _ => false

/-- The types of red (R254). -/
def isRed : Ty → Bool
  | .i32 | .i64 | .n32 | .n64 | .f16 | .bf16 | .f32 | .f64 => true
  | _ => false

/-- The formats of mxld and mxrun (R300). -/
def isEngine : Ty → Bool
  | .bf16 | .f16 | .e4m3 | .e5m2 | .i8 | .e2m1 => true
  | _ => false

end Ty

namespace Opnd

/-- The operand is a vector register. -/
def isV : Opnd → Bool
  | .v _ => true
  | _ => false

/-- The operand is a workspace word. -/
def isW : Opnd → Bool
  | .w _ => true
  | _ => false

/-- A scalar source of the compute classes (R214). -/
def isScalar : Opnd → Bool
  | .w _ | .ic _ | .imm _ | .sr _ => true
  | _ => false

/-- A source of the compute classes: a vector register only in a vector instruction (R198, R214). -/
def isSrc (vec : Bool) (o : Opnd) : Bool := o.isScalar || (vec && o.isV)

/-- A workspace word or an immediate (R199, R269, R285). -/
def isWI : Opnd → Bool
  | .w _ | .imm _ => true
  | _ => false

/-- A workspace word, an immediate or a special register (R285). -/
def isWIS : Opnd → Bool
  | .w _ | .imm _ | .sr _ => true
  | _ => false

/-- An output channel. -/
def isOc : Opnd → Bool
  | .oc _ => true
  | _ => false

/-- A field the instruction does not use (R194). -/
def isUnused (o : Opnd) : Bool := o == Opnd.unused

end Opnd

namespace Guard

/-- G is not 0b1000 (R195). -/
def wf (g : Guard) : Bool := !(g.neg && g.p == 0)

end Guard

namespace Arith

/-- The instruction is a vector instruction (R198). -/
def isVec (x : Arith) : Bool := x.d.isV

/-- The MOD bits the entry does not list are clear, and LM is set only in a vector form (R203, R217). -/
def modOk (x : Arith) (rnd sat ftz lm : Bool) : Bool :=
  (rnd || x.rnd == .rne) && (sat || !x.sat) && (ftz || !x.ftz) && (lm || !x.lm)

/-- Two sources and a destination of the same shape (R198, R214). -/
def wf2 (x : Arith) (tys : Ty → Bool) (rnd sat ftz : Bool) : Bool :=
  x.hd.g.wf && tys x.ty && (x.d.isW || x.d.isV) && x.a.isSrc x.isVec && x.b.isSrc x.isVec
    && x.modOk rnd sat ftz x.isVec

/-- One source (R223, R234): B is not used. -/
def wf1 (x : Arith) (tys : Ty → Bool) (rnd sat ftz : Bool) : Bool :=
  x.hd.g.wf && tys x.ty && (x.d.isW || x.d.isV) && x.a.isSrc x.isVec && x.b.isUnused
    && x.modOk rnd sat ftz x.isVec

/-- The head and the type of a lane move, with only LM legal in MOD (R241). -/
def wfLane (x : Arith) (lm : Bool) : Bool :=
  x.hd.g.wf && x.ty != .q128 && x.modOk false false false lm

end Arith

namespace Mem

/-- The fields every memory opcode shares: SCOPE is reserved with rlx (R204), LM only where the entry allows it. -/
def wf (x : Mem) (tys : Ty → Bool) (acq rel acqrel : Bool) (lm : Bool) : Bool :=
  x.hd.g.wf && tys x.ty && (lm || !x.lm)
    && (match x.ord with
        | .rlx => x.scope == .core
        | .acq => acq
        | .rel => rel
        | .acqrel => acqrel)

end Mem

namespace AtomFn

/-- A packed-pair operation (R208). -/
def packed : AtomFn → Bool
  | .padd | .pmin | .pmax | .pfadd | .pfmin | .pfmax => true
  | _ => false

/-- The types legal for an operation (R208). -/
def legal : AtomFn → Ty → Bool
  | .add, t | .min, t | .max, t => t.isWide
  | .and, t | .or, t | .xor, t | .swap, t => t == .n32 || t == .n64
  | .fadd, t | .fmin, t | .fmax, t => t == .bf16 || t == .f32 || t == .f64
  | .padd, t | .pmin, t | .pmax, t => t == .i16 || t == .n16 || t == .i32 || t == .n32
  | .pfadd, t | .pfmin, t | .pfmax, t => t == .bf16 || t == .f32

end AtomFn

namespace RedFn

/-- The types of vred and vscan (R209, R248). -/
def legal : RedFn → Ty → Bool
  | .add, t | .min, t | .max, t => t.isInt || t.isArithFloat
  | .and, t | .or, t | .xor, t => t.isN

/-- MOD bits legal for the operation and the type (R248): RND, SAT, FTZ. -/
def mods (f : RedFn) (t : Ty) : Bool × Bool × Bool :=
  match f with
  | .add => (t.isArithFloat, true, t.isArithFloat)
  | _ => (false, false, false)

end RedFn

namespace Instr

/-- The instruction passes every check of decode (R194, R408). A step of the device carries no field to check.
(DEDUCED, log 18; DEDUCED, log 40; DESIGN CHOICE, log 109) -/
def wf : Instr → Bool
  | .add x | .sub x | .mul x | .madd x | .shl x => x.wf2 Ty.isInt false true false
  | .addc x | .subb x => x.wf2 Ty.isWide false false false && x.d.isW
  | .mulh x | .rem x | .min x | .max x => x.wf2 Ty.isI false false false
  | .mulhn x | .divn x | .remn x | .minn x | .maxn x => x.wf2 Ty.isN false false false
  | .div x => x.wf2 Ty.isI false true false
  | .and x | .or x | .xor x | .andn x | .orn x | .shr x | .sar x | .rol x | .bfx x | .bfi x =>
      x.wf2 Ty.isInt false false false
  | .abs x => x.wf1 Ty.isI false true false
  | .neg x => x.wf1 Ty.isInt false true false
  | .clz x | .ctz x | .popc x | .brev x => x.wf1 Ty.isInt false false false
  | .bswap x => x.wf1 (fun t => t.isInt && t.width != 8) false false false
  | .sext ts x | .zext ts x =>
      x.wf1 Ty.isInt false false false && ts.isInt && decide (ts.width ≤ x.ty.width)
  | .sel x => x.wf2 (· != .q128) false false false && !x.lm
  | .mov x => x.wf1 (fun _ => true) false false false && (x.ty != .q128 || (x.d.isW && x.a.isW))
  | .li hd d _ | .lih hd d _ => hd.g.wf && d.isW
  | .lea x => x.hd.g.wf && x.d.isW && x.a.isW && x.b.isWI
  | .cmp _ x =>
      let v := match x.d with | .v _ => true | .p _ => false
      x.hd.g.wf && x.ty.isInt && x.a.isSrc v && x.b.isSrc v && (v || !x.lm)
  | .fcmp _ x =>
      let v := match x.d with | .v _ => true | .p _ => false
      x.hd.g.wf && x.ty.isFloat && x.a.isSrc v && x.b.isSrc v && (v || !x.lm)
  | .pand x | .por x | .pxor x => x.hd.g.wf
  | .pnot x | .pmov x => x.hd.g.wf && x.b == ⟨false, 0⟩
  | .fadd x | .fsub x | .fmul x | .ffma x | .ffms x | .fnma x | .fdiv x =>
      x.wf2 Ty.isArithFloat true true true
  | .fsqrt x | .frcp x | .frsq x => x.wf1 Ty.isArithFloat true true true
  | .fmin _ x | .fmax _ x => x.wf2 Ty.isArithFloat false false false
  | .fabs x | .fneg x => x.wf1 Ty.isFloat false false false
  | .fsgn x => x.wf2 Ty.isFloat false false false
  | .frnd x => x.wf1 Ty.isArithFloat true false false
  | .fcvt ts x => x.wf1 Ty.isFloat true true true && ts.isFloat
  | .ficvt ts x => x.wf1 Ty.isInt true true false && ts.isFloat
  | .ifcvt ts x => x.wf1 Ty.isFloat true true true && ts.isInt
  | .fclass x => x.wf1 Ty.isFloat false false false && (!x.isVec || x.ty.isArithFloat)
  | .fex2 x | .flg2 x | .fsin x | .fcos x | .ftanh x => x.wf1 Ty.isFuncFloat true true true
  | .vclaim x => x.hd.g.wf && x.d.isW && x.a.isScalar && x.b.isUnused
  | .vbcast x => x.wfLane true && x.d.isV
      && ((x.a.isScalar && x.b.isUnused) || (x.a.isV && x.b.isScalar))
  | .vperm f x => x.wfLane true && x.d.isV && x.a.isV
      && (match f with | .rev => x.b.isUnused | _ => x.b.isV)
  | .vslide _ x => x.wfLane true && x.d.isV && x.a.isV && x.b.isScalar
  | .vcomp x | .vxpnd x => x.wfLane true && x.d.isV && x.a.isV && x.b.isUnused
  | .viota x => x.wfLane true && x.ty.isInt && x.d.isV && x.a.isScalar && x.b.isUnused
  | .vext x => x.wfLane false && x.d.isW && x.a.isV && x.b.isScalar
  | .vins x => x.wfLane true && x.d.isV && x.a.isScalar && x.b.isScalar
  | .vany x | .vall x => x.wfLane true && x.d.isW && x.a.isV && x.b.isUnused
  | .vred f x => x.hd.g.wf && f.legal x.ty && x.d.isW && x.a.isV && x.b.isUnused
      && x.modOk (f.mods x.ty).1 (f.mods x.ty).2.1 (f.mods x.ty).2.2 true
  | .vscan f x => x.hd.g.wf && f.legal x.ty && x.d.isV && x.a.isV && x.b.isUnused
      && x.modOk (f.mods x.ty).1 (f.mods x.ty).2.1 (f.mods x.ty).2.2 true
  | .qpack ts x => x.hd.g.wf && x.ty == .e2m1 && ts.isFuncFloat && x.d.isV && x.a.isV && x.b.isScalar
      && x.modOk true false false false
  | .qunpk ts x => x.hd.g.wf && x.ty.isFuncFloat && ts == .e2m1 && x.d.isV && x.a.isV && x.b.isScalar
      && x.modOk true true true true
  | .ld x => x.wf (· != .e2m1) (x.ty != .q128) false false false && x.d.isW && x.a.isW && x.b.isWI
  | .st x => x.wf (· != .e2m1) false (x.ty != .q128) false false && x.d.isW && x.a.isW && x.b.isWI
  | .ldv x => x.wf (· != .q128) true false false (x.ty != .e2m1) && x.d.isV && x.a.isW && x.b.isWI
  | .stv x => x.wf (· != .q128) false true false (x.ty != .e2m1) && x.d.isV && x.a.isW && x.b.isWI
  | .ldg x => x.wf Ty.isGather true false false false && x.d.isV && x.a.isW && x.b.isV
  | .sts x => x.wf Ty.isGather false true false false && x.d.isV && x.a.isW && x.b.isV
  | .pref x | .cwb x | .cinv x =>
      x.wf (· == .i8) false false false false && x.d.isUnused && x.a.isW && x.b.isWI
  | .fence x => x.wf (· == .i8) true true true false && x.ord != .rlx && x.ccls == 0
      && x.d.isUnused && x.a.isUnused && x.b.isUnused
  | .lbf x => x.wf (· == .i8) false false false false && x.ccls == 0
      && x.d.isUnused && x.a.isUnused && x.b.isUnused
  | .amo f x => x.wf f.legal true true true false && x.d.isW && x.a.isW
      && (x.b.isW || (!f.packed && x.b.isWI))
  | .amon f x => x.wf f.legal false true false false && x.d.isUnused && x.a.isW
      && (x.b.isW || (!f.packed && x.b.isWI))
  | .cas x => x.wf Ty.isWide true true true false && x.d.isW && x.a.isW && x.b.isWI
  | .casq x => x.wf (· == .q128) true true true false && x.d.isW && x.a.isW && x.b.isW
  | .amov f x => x.wf f.legal false true false false && x.d.isUnused && x.a.isW && x.b.isV
  | .red j x => x.wf Ty.isRed false true false false && decide (j.toNat ≤ 16) && x.d.isW && x.a.isW
      && x.b.isWI
  | .br hd _ | .jmp hd _ | .endFiring hd | .region hd | .brk hd _ | .nop hd | .decomp hd | .trap hd _ => hd.g.wf
  | .jmpi hd a | .ret hd a | .loop hd a _ => hd.g.wf && a.isW
  | .call hd d _ => hd.g.wf && d.isW
  | .calli hd d a => hd.g.wf && d.isW && a.isW
  | .post k x => x.hd.g.wf && x.d.isW && x.a.isWIS
      && (match k with | .none => x.b.isUnused | .sw => x.b.isW | .bar _ => x.b.isWI)
  | .spawn x | .fork x | .send x | .reply x | .handover _ x | .tret x | .stop x =>
      x.hd.g.wf && x.d.isW && x.a.isWIS && x.b.isWI
  | .chres x => x.hd.g.wf && x.d.isOc && x.a.isW && x.b.isUnused
  | .chpub x => x.hd.g.wf && x.d.isOc && x.a.isW && x.b.isWI
  | .clmask _ x | .capq x => x.hd.g.wf && x.d.isW && x.a.isWIS && x.b.isUnused
  | .compose n x => x.hd.g.wf && decide (1 ≤ n.toNat ∧ n.toNat ≤ 5) && x.d.isUnused && x.a.isWIS && x.b.isWI
  | .bara _ x | .gjoin x | .gleave x => x.hd.g.wf && x.d.isW && x.a.isWI && x.b.isUnused
  | .swinit x | .swtest x | .gld x => x.hd.g.wf && x.d.isW && x.a.isW && x.b.isWI
  | .swarr x => x.hd.g.wf && x.d.isUnused && x.a.isW && x.b.isWI
  | .mxld t x => x.hd.g.wf && t.isEngine && x.d.isW && x.a.isWIS && x.b.isWIS
  | .mxrun _ tr t x => x.hd.g.wf && t.isEngine && (!tr || t == .bf16 || t == .f16) && x.d.isW && x.a.isWIS
      && x.b.isWIS
  | .mxflip x | .engq x => x.hd.g.wf && x.d.isW && x.a.isWIS && x.b.isWIS
  | .cpy crc rec x | .cpyf crc rec x => x.hd.g.wf && (!crc || rec) && x.d.isW && x.a.isWIS && x.b.isWIS
  | .qfence m x => x.hd.g.wf && m != 0 && x.d.isW && x.a.isWIS && x.b.isWIS
  | .ctlrd _ x | .ctlwr _ x => x.hd.g.wf && x.d.isW && x.a.isUnused && x.b.isWI
  | .tlbinv _ x => x.hd.g.wf && x.d.isW && x.a.isWIS && x.b.isUnused
  | .firingInsert _ | .releaseNotice _ | .watchPoll _ | .spillRefill _ _ _ | .pop _ | .lockRequest _
  | .lockRelease _ | .tryResult _ | .reservation _ | .reservationRetry _ | .displacementNotice _ _
  | .ticketedTryRetry _ | .roundResolve _ | .roundTryRetry _ | .placement _ | .footprintResident _
  | .footprintFault _ | .nextFiring _ | .preciseResume _ | .retire _ | .activityForecast _ | .slotCount _
  | .channelReserve _ | .p7Result _ | .spawnArrival _ | .forkArrival _ | .packetArrival _
  | .maskedPacketRelease _ | .loadReturn _ | .l1Fill _ _ | .storePerform _ | .lineWriteback _
  | .atomicApply _ | .atomicAck _ | .atomicResend _ | .dramReread _ | .redApply _ | .handoverApply _
  | .handoverComplete _ | .capabilityRefetch _ _ _ | .pageWalk _ _ _ | .tlbinvComplete _
  | .remoteCtlAccess _ | .barrierArrival _ | .syncWordUpdate _ | .swinitApply _ | .groupMembership _
  | .groupRequest _ | .holdAdmit _ | .holdTimerExpiry _ | .holdReadComplete _ | .soloRead _ | .fillLand _
  | .engineCommandArrival _ | .mxldPerform _ | .mxflipPerform _ | .mxrunPiece _ | .copySector _ _
  | .completionRecord _ _ | .qfenceComplete _ | .engineOperationFault _ _ | .engineRewalk _ _
  | .enginePreempt _ _ | .engineResume _ _ | .tandemStart _ | .blockToken _ | .blockSquash _
  | .blockCommit _ | .tandemFault _ | .preemptWindowExpiry _ | .faultStop _ | .faultRecordWrite _
  | .tretOrder _ | .l1coTakeEffect _ | .wsareaTakeEffect _ | .spownWrite _ | .l1coWrite _ | .wsareaWrite _
  | .detctlWrite _ | .captabWrite _ | .detstatClear _ | .evcntWrite _ | .evselWrite _ | .trctlWrite _
  | .trringWrite _ | .fltchWrite _ | .grptabWrite _ | .dspillWrite _ | .preemptwinWrite _
  | .spawnqWrite _ | .patienceWrite _ | .inboxLimitWrite _ | .ctlRegisterWrite _ | .eventCount _
  | .debugForward _ | .halt _ | .resume _ | .stepi _ | .stepf _ | .rdreg _ | .wrreg _ | .rdws _ | .wrws _
  | .rdvec _ | .rdacct _ | .clracct _ | .debugResponseWrite _ | .debugResponseRetry _ | .haltTakeEffect _
  | .breakpointHit _ | .stepComplete _ | .traceRecordTake _ | .traceBurstWrite _ | .ridxRead _ | .tsync _
  | .stopfTimeout _ | .hostBar2Write _ | .hostBar2Read _ | .faccWrite _ | .bar0Write _ | .telem _
  | .getcap _ | .setcap _ | .spdm _ | .dumpinfo _ | .reset _ | .junctionWarning _ | .junctionCritical _
  | .fatalError _ _ | .spokeFlitReceive _ | .endToEndAck _ _ _ | .endToEndResend _ _
  | .linkOutOfService _ _ | .packageLost _ _ | .dieLost _ | .sliceRetirement _ _ | .restoreClaim _
  | .pcieDoeSpdmRequest _ => true

end Instr

end Sys2Proof
end

