-- ==== Sys2Proof/Machine/Float.lean ====
section
/-! DEFINITION. Floating formats, exact values, rounding and the correctly rounded functions (spec/06, R233 to R237). -/

namespace Sys2Proof.Machine

/-- An exact value: NaN, an infinity, or sign · num / den (R136). -/
inductive FVal where
  | nan
  | inf (neg : Bool)
  | fin (neg : Bool) (num den : Nat)
deriving DecidableEq, Repr

/-- Fraction bits of a format (R136). -/
def fracBits : Ty → Nat
  | .f64 => 52 | .f32 => 23 | .f16 => 10 | .bf16 => 7 | .e5m2 => 2 | .e4m3 => 3 | .e2m1 => 1 | _ => 0

/-- Exponent bits of a format (R136). -/
def expBits : Ty → Nat
  | .f64 => 11 | .f32 => 8 | .f16 => 5 | .bf16 => 8 | .e5m2 => 5 | .e4m3 => 4 | .e2m1 => 2 | _ => 0

/-- Bias of a format (R136). -/
def bias : Ty → Nat
  | .f64 => 1023 | .f32 => 127 | .f16 => 15 | .bf16 => 127 | .e5m2 => 15 | .e4m3 => 7 | .e2m1 => 1 | _ => 0

/-- The format follows IEEE 754: E all ones is infinity or NaN (R136). -/
def ieee : Ty → Bool
  | .f64 | .f32 | .f16 | .bf16 | .e5m2 => true
  | _ => false

/-- The canonical NaN of a format; 0x0 for e2m1 (R137). -/
def canonNan : Ty → Nat
  | .f64 => 0x7FF8000000000000
  | .f32 => 0x7FC00000
  | .f16 => 0x7E00
  | .bf16 => 0x7FC0
  | .e5m2 => 0x7E
  | .e4m3 => 0x7F
  | _ => 0

/-- The largest finite code of a format (R136). -/
def maxCode : Ty → Nat
  | .f64 => 0x7FEFFFFFFFFFFFFF
  | .f32 => 0x7F7FFFFF
  | .f16 => 0x7BFF
  | .bf16 => 0x7F7F
  | .e5m2 => 0x7B
  | .e4m3 => 0x7E
  | .e2m1 => 0x7
  | _ => 0

/-- The code of positive infinity, in a format that has one (R136). -/
def infCode : Ty → Nat
  | .f64 => 0x7FF0000000000000
  | .f32 => 0x7F800000
  | .f16 => 0x7C00
  | .bf16 => 0x7F80
  | .e5m2 => 0x7C
  | _ => 0

/-- The sign bit of a format. -/
def signBit (t : Ty) : Nat := 2 ^ (t.width - 1)

/-- The code with a sign. -/
def withSign (t : Ty) (neg : Bool) (code : Nat) : Nat := if neg then signBit t + code else code

/-- 2^e as a fraction. -/
def pow2 (e : Int) : Nat × Nat := if e ≥ 0 then (2 ^ e.toNat, 1) else (1, 2 ^ (-e).toNat)

/-- Decode an encoding exactly, subnormals included (R136, R144). -/
def decodeF (t : Ty) (bits : Nat) : FVal :=
  let f := fracBits t
  let neg := bits / signBit t % 2 = 1
  let e := bits / 2 ^ f % 2 ^ expBits t
  let m := bits % 2 ^ f
  if ieee t && e = 2 ^ expBits t - 1 then (if m = 0 then .inf neg else .nan)
  else if t == .e4m3 && bits % 128 = 127 then .nan
  else
    let p := pow2 ((if e = 0 then 1 else (e : Int)) - bias t - f)
    .fin neg ((if e = 0 then m else 2 ^ f + m) * p.1) p.2

/-- floor(log2 (num / den)) for a positive fraction. -/
def ilog2 (num den : Nat) : Int :=
  let g : Int := (Nat.log2 num : Int) - (Nat.log2 den : Int)
  let p := pow2 g
  if num * p.2 < den * p.1 then g - 1 else g

/-- Take the integer neighbour a mode chooses of q + r/d, where q has its least significant bit as the tie bit
(R141). -/
def roundInt (m : Rnd) (neg : Bool) (q r d : Nat) : Nat :=
  if r = 0 then q
  else match m with
    | .rne => if 2 * r > d || (2 * r = d && q % 2 = 1) then q + 1 else q
    | .rtz => q
    | .rdn => if neg then q + 1 else q
    | .rup => if neg then q else q + 1
    | .rto => if q % 2 = 0 then q + 1 else q
    | .rna => if 2 * r ≥ d then q + 1 else q

/-- Overflow (R143). -/
def overflowF (t : Ty) (neg : Bool) (m : Rnd) (sat : Bool) : Nat :=
  if t == .e2m1 then withSign t neg (maxCode t)
  else if t == .e4m3 then (if sat then withSign t neg (maxCode t) else canonNan t)
  else if sat then withSign t neg (maxCode t)
  else
    let big := withSign t neg (infCode t)
    let mx := withSign t neg (maxCode t)
    match m with
    | .rne | .rna => big
    | .rtz | .rto => mx
    | .rdn => if neg then big else mx
    | .rup => if neg then mx else big

/-- An infinite result (R143). -/
def infResult (t : Ty) (neg : Bool) (sat : Bool) : Nat :=
  if t == .e2m1 then withSign t neg (maxCode t)
  else if t == .e4m3 then (if sat then withSign t neg (maxCode t) else canonNan t)
  else withSign t neg (infCode t)

/-- Round a positive fraction onto the grid of a format (R142): the code without sign, or none where it exceeds the
largest finite value. -/
def gridCode (t : Ty) (m : Rnd) (neg : Bool) (num den : Nat) : Option Nat :=
  let f := fracBits t
  let emin : Int := 1 - bias t
  let e := if num = 0 then emin else max emin (ilog2 num den)
  let p := pow2 (f - e)
  let n := num * p.1
  let d := den * p.2
  let q := roundInt m neg (n / d) (n % d) d
  let code : Nat :=
    if q < 2 ^ f then q
    else if q ≥ 2 ^ (f + 1) then ((e + 1) + bias t).toNat * 2 ^ f + (q / 2 - 2 ^ f)
    else (e + bias t).toNat * 2 ^ f + (q - 2 ^ f)
  if code > maxCode t then none else some code

/-- RoundTo (R142). -/
def roundTo (t : Ty) (m : Rnd) (sat ftz : Bool) (x : FVal) : Nat :=
  match x with
  | .nan => canonNan t
  | .inf neg => infResult t neg sat
  | .fin neg num den =>
    let p := pow2 (1 - bias t)
    if ftz && num != 0 && num * p.2 < den * p.1 then withSign t neg 0
    else match gridCode t m neg num den with
      | none => overflowF t neg m sat
      | some code => withSign t neg code

/-- The exact value of an integer. -/
def ofInt (x : Int) : FVal := .fin (x < 0) x.natAbs 1

/-- Negation. -/
def FVal.negate : FVal → FVal
  | .nan => .nan
  | .inf n => .inf (!n)
  | .fin n a b => .fin (!n) a b

/-- The exact product, its sign the exclusive or (R233). -/
def FVal.mul : FVal → FVal → FVal
  | .nan, _ | _, .nan => .nan
  | .inf a, .inf b => .inf (a != b)
  | .inf a, .fin b n _ | .fin b n _, .inf a => if n = 0 then .nan else .inf (a != b)
  | .fin a n d, .fin b n' d' => .fin (a != b) (n * n') (d * d')

/-- The exact sum; an exact zero is −0 only when both terms are −0 or the mode is RDN (R142). -/
def FVal.add (m : Rnd) : FVal → FVal → FVal
  | .nan, _ | _, .nan => .nan
  | .inf a, .inf b => if a = b then .inf a else .nan
  | .inf a, .fin _ _ _ | .fin _ _ _, .inf a => .inf a
  | .fin a n d, .fin b n' d' =>
    let x : Int := (if a then -1 else 1) * (n * d' : Nat)
    let y : Int := (if b then -1 else 1) * (n' * d : Nat)
    let z := x + y
    if z = 0 then
      if n = 0 && n' = 0 && a = b then .fin a 0 1 else .fin (m == .rdn) 0 1
    else .fin (z < 0) z.natAbs (d * d')

/-- The exact quotient (R233). -/
def FVal.div : FVal → FVal → FVal
  | .nan, _ | _, .nan => .nan
  | .inf _, .inf _ => .nan
  | .inf a, .fin b _ _ => .inf (a != b)
  | .fin a _ _, .inf b => .fin (a != b) 0 1
  | .fin a n d, .fin b n' d' =>
    if n' = 0 then (if n = 0 then .nan else .inf (a != b))
    else .fin (a != b) (n * d') (d * n')

/-- A value is NaN. -/
def FVal.isNan : FVal → Bool
  | .nan => true
  | _ => false

/-- The value is less than another; −0 equals +0 (R207). -/
def FVal.lt : FVal → FVal → Bool
  | .nan, _ | _, .nan => false
  | .inf a, .inf b => a && !b
  | .inf a, .fin _ _ _ => a
  | .fin _ _ _, .inf b => !b
  | .fin a n d, .fin b n' d' =>
    decide ((if a then -1 else (1 : Int)) * (n * d' : Nat) < (if b then -1 else (1 : Int)) * (n' * d : Nat))

/-- The values are equal; −0 equals +0 (R207). -/
def FVal.eqv (x y : FVal) : Bool := !x.isNan && !y.isNan && !x.lt y && !y.lt x

/-- The sign of a value. -/
def FVal.neg? : FVal → Bool
  | .nan => false
  | .inf n => n
  | .fin n _ _ => n

/-- fmin and fmax on encodings (R203, R233): an operand's encoding unchanged, −0 below +0, a NaN result canonical. -/
def minMaxF (t : Ty) (wantMax nanForm : Bool) (a b : Nat) : Nat :=
  let x := decodeF t a
  let y := decodeF t b
  if x.isNan && y.isNan then canonNan t
  else if x.isNan then (if nanForm then canonNan t else b)
  else if y.isNan then (if nanForm then canonNan t else a)
  else
    let less := x.lt y || (x.eqv y && x.neg? && !y.neg?)
    if less then (if wantMax then b else a) else (if wantMax then a else b)

/-- The integer nearest by a mode, of a finite value (R145, R236). -/
def toInteger (m : Rnd) (neg : Bool) (num den : Nat) : Int :=
  let q := roundInt m neg (num / den) (num % den) den
  if neg then -(q : Int) else q

/-! ## Functions of one source (R234)

Each is enclosed between two rationals; the result is the rounding both ends agree on. -/

/-- Bits of the fixed-point enclosures. -/
def fixBits : Nat := 400

/-- A closed interval of fixed-point numbers with fixBits fraction bits. (DESIGN CHOICE, log 15) -/
structure Ivl where
  lo : Int
  hi : Int
deriving DecidableEq, Repr

/-- One in fixed point. -/
def fixOne : Int := 2 ^ fixBits

/-- The interval of a fraction. -/
def Ivl.ofFrac (x : Int) (den : Nat) : Ivl := ⟨x * fixOne / den, x * fixOne / den + 1⟩

/-- Floor and ceiling of a product. -/
def mulLo (a b : Int) : Int := a * b / fixOne
/-- The ceiling of a product. -/
def mulHi (a b : Int) : Int := -((-(a * b)) / fixOne)

/-- The product of two intervals. -/
def Ivl.mul (x y : Ivl) : Ivl :=
  ⟨min (min (mulLo x.lo y.lo) (mulLo x.lo y.hi)) (min (mulLo x.hi y.lo) (mulLo x.hi y.hi)),
    max (max (mulHi x.lo y.lo) (mulHi x.lo y.hi)) (max (mulHi x.hi y.lo) (mulHi x.hi y.hi))⟩

/-- The sum of two intervals. -/
def Ivl.add (x y : Ivl) : Ivl := ⟨x.lo + y.lo, x.hi + y.hi⟩

/-- The negation of an interval. -/
def Ivl.negate (x : Ivl) : Ivl := ⟨-x.hi, -x.lo⟩

/-- The interval divided by a positive integer. -/
def Ivl.divNat (x : Ivl) (n : Nat) : Ivl := ⟨x.lo / n, -((-x.hi) / n)⟩

/-- The quotient of two intervals with positive divisor. -/
def Ivl.div (x y : Ivl) : Ivl :=
  let c := [x.lo * fixOne / y.lo, x.lo * fixOne / y.hi, x.hi * fixOne / y.lo, x.hi * fixOne / y.hi]
  ⟨c.foldl min (x.lo * fixOne / y.lo), c.foldl max (x.lo * fixOne / y.lo) + 1⟩

/-- The sum of x^k / k! for k = 0 to n − 1, and one more unit a term for the tail; for |x| ≤ 1 (Taylor). -/
def expSeries (x : Ivl) : Nat → Nat → Ivl → Ivl → Ivl
  | 0, _, term, acc => ⟨acc.lo - (term.hi - term.lo) - 2, acc.hi + (term.hi - term.lo) + 2⟩
  | n + 1, k, term, acc => expSeries x n (k + 1) ((term.mul x).divNat k) (acc.add ((term.mul x).divNat k))

/-- e^x for |x| ≤ 1: 90 terms leave a tail far below one unit. -/
def expIvl (x : Ivl) : Ivl := expSeries x 90 1 ⟨fixOne, fixOne⟩ ⟨fixOne, fixOne⟩

/-- The sum of z^(2k+1) / (2k+1) for k below n, |z| ≤ 1/3 (the inverse hyperbolic tangent). -/
def atanhSeries (z2 : Ivl) : Nat → Nat → Ivl → Ivl → Ivl
  | 0, _, _, acc => ⟨acc.lo - 2, acc.hi + 2⟩
  | n + 1, k, term, acc => atanhSeries z2 n (k + 1) (term.mul z2) (acc.add (term.divNat (2 * k + 1)))

/-- Twice the inverse hyperbolic tangent of an interval in |z| ≤ 1/3: the logarithm of (1 + z)/(1 − z). -/
def lnRatio (z : Ivl) : Ivl :=
  let r := atanhSeries (z.mul z) 140 0 z ⟨0, 0⟩
  r.add r

/-- The natural logarithm of 2. -/
def ln2 : Ivl := lnRatio (Ivl.ofFrac 1 3)

/-- The logarithm of a fraction in [1, 2). -/
def lnFrac (num den : Nat) : Ivl := lnRatio (Ivl.ofFrac ((num : Int) - den) (num + den))

/-- The sum of (−1)^k x^(2k+i) / (2k+i)! (sine for i = 1, cosine for i = 0), |x| ≤ 1. -/
def trigSeries (x2 : Ivl) : Nat → Nat → Ivl → Ivl → Ivl
  | 0, _, _, acc => ⟨acc.lo - 2, acc.hi + 2⟩
  | n + 1, k, term, acc =>
    let t := ((term.mul x2).divNat ((k + 1) * (k + 2))).negate
    trigSeries x2 n (k + 2) t (acc.add t)

/-- Sine for |x| ≤ 1. -/
def sinSmall (x : Ivl) : Ivl := trigSeries (x.mul x) 50 1 x x

/-- Cosine for |x| ≤ 1. -/
def cosSmall (x : Ivl) : Ivl := trigSeries (x.mul x) 50 0 ⟨fixOne, fixOne⟩ ⟨fixOne, fixOne⟩

/-- The sum of (−1)^k z^(2k+1) / (2k+1): the arc tangent of 1/n. -/
def atanInv (n : Nat) : Ivl :=
  let z := Ivl.ofFrac 1 n
  let r := atanhSeries ((z.mul z).negate) 140 0 z ⟨0, 0⟩
  r

/-- π by Machin's formula. -/
def piIvl : Ivl :=
  let a := atanInv 5
  let b := atanInv 239
  ⟨16 * a.lo - 4 * b.hi, 16 * a.hi - 4 * b.lo⟩

/-- Sine or cosine of a fraction: reduce by quarter turns, then by the series on a half of the rest. -/
def trigIvl (cosine : Bool) (neg : Bool) (num den : Nat) : Ivl :=
  let x := Ivl.ofFrac (if neg then -(num : Int) else num) den
  let n := (2 * x.lo + piIvl.lo / 2) / piIvl.lo
  let half : Ivl := ⟨piIvl.lo / 2, piIvl.hi / 2 + 1⟩
  let r := x.add (⟨min (n * half.lo) (n * half.hi), max (n * half.lo) (n * half.hi)⟩ : Ivl).negate
  let q := (n + (if cosine then 1 else 0)) % 4
  let h := r.divNat 2
  let s := sinSmall h
  let c := cosSmall h
  let sinr := (s.mul c).add (s.mul c)
  let cosr := (c.mul c).add ((s.mul s).negate)
  if q = 0 then sinr else if q = 1 then cosr else if q = 2 then sinr.negate else cosr.negate

/-- 2^x for a fraction: the interval of 2^frac in [1, 2) and the integer exponent. -/
def exp2Ivl (neg : Bool) (num den : Nat) : Ivl × Int :=
  let x : Int := if neg then -(num : Int) else num
  let n := x / den
  (expIvl ((Ivl.ofFrac (x - n * den) den).mul ln2), n)

/-- log2 of a positive fraction. -/
def log2Ivl (num den : Nat) : Ivl :=
  let e := ilog2 num den
  let p := pow2 (-e)
  let m := (lnFrac (num * p.1) (den * p.2)).div ln2
  ⟨m.lo + e * fixOne, m.hi + e * fixOne⟩

/-- tanh of a fraction of magnitude below 64: 1 − 2 / (e^(2x) + 1), with e^(2x) by squaring. -/
def tanhIvl (num den : Nat) : Ivl :=
  let y := (Ivl.ofFrac num den).divNat 64
  let e1 := expIvl y
  let sq := fun (e : Ivl) => e.mul e
  let e2 := sq (sq (sq (sq (sq (sq (sq e1))))))
  let one : Ivl := ⟨fixOne, fixOne⟩
  let d := e2.add one
  (e2.add one.negate).div d

/-- A value of an interval scaled by 2^e. -/
def ivlVal (x : Int) (e : Int) : FVal :=
  let p := pow2 e
  .fin (x < 0) (x.natAbs * p.1) (2 ^ fixBits * p.2)

/-- The rounding both ends agree on; else the free choice between them (R234: the exact value decides).
(DESIGN CHOICE, log 15) -/
def roundIvl (t : Ty) (m : Rnd) (sat ftz : Bool) (x : Ivl) (e : Int) : Nat :=
  let a := roundTo t m sat ftz (ivlVal x.lo e)
  let b := roundTo t m sat ftz (ivlVal x.hi e)
  if a = b then a else if Config.roundTie a then a else b

/-- Integer square root. -/
def isqrt (n : Nat) : Nat := Nat.sqrt n

/-- A square root to far more bits than any format, with a sticky bit below them: no midpoint of a format lies in
between. -/
def sqrtVal (neg : Bool) (num den : Nat) : FVal :=
  if num = 0 then .fin neg 0 1
  else
    let e := (ilog2 num den) / 2
    let p := pow2 (2 * (130 - e))
    let n := num * p.1
    let d := den * p.2
    let q := n / d
    let r := isqrt q
    let exact := r * r = q && n % d = 0
    let s := pow2 (e - 131)
    .fin neg ((2 * r + (if exact then 0 else 1)) * s.1) s.2

/-- The functions of R234. -/
inductive Fun1 where
  | sqrt | rcp | rsq | ex2 | lg2 | sin | cos | tanh
deriving DecidableEq, Repr

/-- A function of one operand, rounded once (R234). (DESIGN CHOICE, log 15) -/
def fun1 (fn : Fun1) (t : Ty) (m : Rnd) (sat ftz : Bool) (bits : Nat) : Nat :=
  let x := decodeF t bits
  let out := roundTo t m sat ftz
  match fn, x with
  | _, .nan => canonNan t
  | .sqrt, .inf neg => if neg then canonNan t else out (.inf false)
  | .sqrt, .fin neg n d => if n = 0 then out (.fin neg 0 1) else if neg then canonNan t else out (sqrtVal false n d)
  | .rcp, .inf neg => out (.fin neg 0 1)
  | .rcp, .fin neg n d => if n = 0 then out (.inf neg) else out (.fin neg d n)
  | .rsq, .inf neg => if neg then canonNan t else out (.fin false 0 1)
  | .rsq, .fin neg n d =>
    if n = 0 then out (.inf neg) else if neg then canonNan t else out (sqrtVal false d n)
  | .ex2, .inf neg => if neg then out (.fin false 0 1) else out (.inf false)
  | .ex2, .fin neg n d =>
    if n = 0 then out (.fin false 1 1)
    else if n ≥ 4096 * d then
      -- far beyond every format: a stand-in of the same rounding, below the smallest or above the largest value
      (let p := pow2 (if neg then -4096 else 4096); out (.fin false (p.1 * 3) (p.2 * 2)))
    else if n % d = 0 then (let p := pow2 (if neg then -(n / d : Int) else (n / d : Int)); out (.fin false p.1 p.2))
    else if ilog2 n d < -120 then
      -- 2^x lies strictly between 1 and a neighbour: a stand-in on the same side
      out (if neg then .fin false (2 ^ 100 - 1) (2 ^ 100) else .fin false (2 ^ 100 + 1) (2 ^ 100))
    else (let r := exp2Ivl neg n d; roundIvl t m sat ftz r.1 r.2)
  | .lg2, .inf neg => if neg then canonNan t else out (.inf false)
  | .lg2, .fin neg n d =>
    if n = 0 then out (.inf true)
    else if neg then canonNan t
    else
      let e := ilog2 n d
      let p := pow2 (-e)
      if n * p.1 = d * p.2 then out (if e = 0 then .fin false 0 1 else ofInt e)
      else roundIvl t m sat ftz (log2Ivl n d) 0
  | .sin, .inf _ | .cos, .inf _ => canonNan t
  | .sin, .fin neg n d =>
    if n = 0 then out (.fin neg 0 1)
    else if ilog2 n d < -60 then
      -- sin x lies strictly between x and its neighbour toward zero
      out (.fin neg (n * (2 ^ 110 - 1)) (d * 2 ^ 110))
    else roundIvl t m sat ftz (trigIvl false neg n d) 0
  | .cos, .fin neg n d =>
    if n = 0 then out (.fin false 1 1)
    else if ilog2 n d < -60 then out (.fin false (2 ^ 110 - 1) (2 ^ 110))
    else roundIvl t m sat ftz (trigIvl true neg n d) 0
  | .tanh, .inf neg => out (.fin neg 1 1)
  | .tanh, .fin neg n d =>
    if n = 0 then out (.fin neg 0 1)
    else if ilog2 n d < -60 then out (.fin neg (n * (2 ^ 110 - 1)) (d * 2 ^ 110))
    else if n ≥ 64 * d then out (.fin neg (2 ^ 110 - 1) (2 ^ 110))
    else
      let r := tanhIvl n d
      roundIvl t m sat ftz (if neg then r.negate else r) 0

/-- A rounding of A to an integral value of its type that keeps the sign (R236). -/
def frndF (t : Ty) (m : Rnd) (bits : Nat) : Nat :=
  match decodeF t bits with
  | .nan => canonNan t
  | .inf neg => withSign t neg (infCode t)
  | .fin neg n d =>
    if n % d = 0 then bits % 2 ^ t.width
    else roundTo t m false false (.fin neg (roundInt m neg (n / d) (n % d) d) 1)

/-- The class mask of an encoding (R238). -/
def classF (t : Ty) (bits : Nat) : Nat :=
  let sub := bits / 2 ^ fracBits t % 2 ^ expBits t = 0
  match decodeF t bits with
  | .nan => 256
  | .inf neg => if neg then 1 else 128
  | .fin neg n _ =>
    if n = 0 then (if neg then 8 else 16)
    else if sub then (if neg then 4 else 32)
    else if neg then 2 else 64

/-- An E3M5 block scale (R139). -/
def scaleVal (c : Nat) : FVal :=
  let e := c / 32
  let m := c % 32
  if e = 0 then .fin false m 128
  else
    let p := pow2 ((e : Int) - 3 - 5)
    .fin false ((32 + m) * p.1) p.2

/-- A conversion of a floating value to an integer type (R145): the nearer bound outside the range, 0 for a NaN. -/
def toIntRange (m : Rnd) (lo hi : Int) (x : FVal) : Int :=
  match x with
  | .nan => 0
  | .inf neg => if neg then lo else hi
  | .fin neg n d => min (max (toInteger m neg n d) lo) hi

end Sys2Proof.Machine
end

