-- ==== Sys2Proof/Decode.lean ====
section
/-! DEFINITION. The instruction word (spec/09): its fields, the decoder, total on any word and rejecting by name, and
the encoder, both written from R193 to R212. -/

namespace Sys2Proof

/-- The fields of the instruction word (R193). -/
structure Fields where
  op : BitVec 8
  g : BitVec 4
  fn : BitVec 8
  ty : BitVec 4
  d : BitVec 18
  a : BitVec 18
  b : BitVec 18
  hint : BitVec 10
  mod : BitVec 8
deriving DecidableEq, Repr

/-- Why a word is no instruction (R194, R408). The fault record does not say which (R409). -/
inductive DecodeError where
  /-- OP is 0x00 or unassigned (R212). -/
  | opcode
  /-- G is 0b1000 (R195). -/
  | guard
  /-- An FN code is not listed for the opcode (R206). -/
  | function
  /-- An operand kind is reserved, or a special register code is 0x0C or above (R196). -/
  | kind
  /-- A MOD code is reserved: RND 0b110 or 0b111, or SCOPE 0b101 to 0b111 (R203, R204). -/
  | modifier
  /-- A reserved bit is set (R194). -/
  | reserved
  /-- A type, a kind or a modifier is not legal for the opcode (R194). -/
  | notLegal
deriving DecidableEq, Repr

/-- The word with these fields (R193). (DEDUCED, log 1) -/
def pack (f : Fields) : IWord :=
  f.op ++ f.g ++ f.fn ++ f.ty ++ f.d ++ f.a ++ f.b ++ f.hint ++ f.mod

/-- The fields of a word (R193). (DEDUCED, log 1) -/
def unpack (w : IWord) : Fields where
  op := w.extractLsb' 88 8
  g := w.extractLsb' 84 4
  fn := w.extractLsb' 76 8
  ty := w.extractLsb' 72 4
  d := w.extractLsb' 54 18
  a := w.extractLsb' 36 18
  b := w.extractLsb' 18 18
  hint := w.extractLsb' 8 10
  mod := w.extractLsb' 0 8

/-! ## Codes of the fields -/

/-- Type codes (R201). -/
def tyCode : Ty → BitVec 4
  | .i8 => 0x0 | .i16 => 0x1 | .i32 => 0x2 | .i64 => 0x3
  | .n8 => 0x4 | .n16 => 0x5 | .n32 => 0x6 | .n64 => 0x7
  | .f16 => 0x8 | .bf16 => 0x9 | .f32 => 0xA | .f64 => 0xB
  | .e4m3 => 0xC | .e5m2 => 0xD | .e2m1 => 0xE | .q128 => 0xF

/-- The type of a code (R201). -/
def tyOf (c : BitVec 4) : Ty :=
  match c.toNat with
  | 0 => .i8 | 1 => .i16 | 2 => .i32 | 3 => .i64
  | 4 => .n8 | 5 => .n16 | 6 => .n32 | 7 => .n64
  | 8 => .f16 | 9 => .bf16 | 10 => .f32 | 11 => .f64
  | 12 => .e4m3 | 13 => .e5m2 | 14 => .e2m1 | _ => .q128

/-- Rounding codes (R141). -/
def rndCode : Rnd → BitVec 3
  | .rne => 0 | .rtz => 1 | .rdn => 2 | .rup => 3 | .rto => 4 | .rna => 5

/-- The rounding mode of a code; 6 and 7 are reserved (R141). -/
def rndOf (c : BitVec 3) : Option Rnd :=
  match c.toNat with
  | 0 => some .rne | 1 => some .rtz | 2 => some .rdn | 3 => some .rup | 4 => some .rto | 5 => some .rna
  | _ => none

/-- Scope codes (R2). -/
def scopeCode : Scope → BitVec 3
  | .core => 0 | .cas => 1 | .die => 2 | .pkg => 3 | .pod => 4

/-- The scope of a code; 5 to 7 are reserved (R2). -/
def scopeOf (c : BitVec 3) : Option Scope :=
  match c.toNat with
  | 0 => some .core | 1 => some .cas | 2 => some .die | 3 => some .pkg | 4 => some .pod
  | _ => none

/-- ORD codes (R204). -/
def ordCode : Ord → BitVec 2
  | .rlx => 0 | .acq => 1 | .rel => 2 | .acqrel => 3

/-- The order of a code (R204). -/
def ordOf (c : BitVec 2) : Ord :=
  match c.toNat with
  | 0 => .rlx | 1 => .acq | 2 => .rel | _ => .acqrel

/-- Special register codes (R29). -/
def sregCode : SReg → BitVec 8
  | .core => 0x00 | .cas => 0x01 | .die => 0x02 | .pkg => 0x03 | .elem => 0x04 | .firing => 0x05
  | .actor => 0x06 | .lanes => 0x07 | .time => 0x08 | .path => 0x09 | .tandem => 0x0A | .ctx => 0x0B

/-- The special register of a code; 0x0C and above are illegal (R196). -/
def sregOf (c : BitVec 8) : Option SReg :=
  match c.toNat with
  | 0 => some .core | 1 => some .cas | 2 => some .die | 3 => some .pkg | 4 => some .elem | 5 => some .firing
  | 6 => some .actor | 7 => some .lanes | 8 => some .time | 9 => some .path | 10 => some .tandem
  | 11 => some .ctx
  | _ => none

/-- The field of an operand: KIND in bits 17:15 and PAY in bits 14:0 (R196). -/
def opndCode : Opnd → BitVec 18
  | .w n => 0#3 ++ 0#7 ++ n
  | .v n => 1#3 ++ 0#11 ++ n
  | .ic k => 2#3 ++ 0#12 ++ k
  | .oc k => 3#3 ++ 0#12 ++ k
  | .imm x => 4#3 ++ x
  | .sr r => 5#3 ++ 0#7 ++ sregCode r

/-- The operand of a field (R196); the reserved bits of PAY are checked with the whole word. -/
def opndOf (f : BitVec 18) : Except DecodeError Opnd :=
  match (f.extractLsb' 15 3).toNat with
  | 0 => .ok (.w (f.extractLsb' 0 8))
  | 1 => .ok (.v (f.extractLsb' 0 4))
  | 2 => .ok (.ic (f.extractLsb' 0 3))
  | 3 => .ok (.oc (f.extractLsb' 0 3))
  | 4 => .ok (.imm (f.extractLsb' 0 15))
  | 5 => match sregOf (f.extractLsb' 0 8) with
         | some r => .ok (.sr r)
         | none => .error .kind
  | _ => .error .kind

/-- The guard field (R195). -/
def guardCode (g : Guard) : BitVec 4 := BitVec.ofBool g.neg ++ g.p

/-- The guard of a field (R195). -/
def guardOf (f : BitVec 4) : Guard := ⟨f.getLsbD 3, f.extractLsb' 0 3⟩

/-- The destination field of a compare (R200). -/
def cmpDstCode : CmpDst → BitVec 18
  | .p n => 0#3 ++ 0#12 ++ n
  | .v n => 1#3 ++ 0#11 ++ n

/-- The destination of a compare (R200). -/
def cmpDstOf (f : BitVec 18) : Except DecodeError CmpDst :=
  match (f.extractLsb' 15 3).toNat with
  | 0 => .ok (.p (f.extractLsb' 0 3))
  | 1 => .ok (.v (f.extractLsb' 0 4))
  | _ => .error .kind

/-- A raw predicate source (R200). -/
def psrcCode (s : PSrc) : BitVec 18 := 0#14 ++ BitVec.ofBool s.neg ++ s.p

/-- A raw predicate source of a field (R200). -/
def psrcOf (f : BitVec 18) : PSrc := ⟨f.getLsbD 3, f.extractLsb' 0 3⟩

/-- FN codes of cmp (R207). -/
def condCode : Cond → BitVec 8
  | .eq => 0 | .ne => 1 | .lt => 2 | .le => 3 | .gt => 4 | .ge => 5 | .tz => 6 | .tnz => 7

/-- The condition of a cmp FN code (R207). -/
def condOf (c : BitVec 8) : Option Cond :=
  match c.toNat with
  | 0 => some .eq | 1 => some .ne | 2 => some .lt | 3 => some .le | 4 => some .gt | 5 => some .ge
  | 6 => some .tz | 7 => some .tnz
  | _ => none

/-- FN codes of fcmp (R207). -/
def fcondCode : FCond → BitVec 8
  | .eq => 0 | .ne => 1 | .lt => 2 | .le => 3 | .gt => 4 | .ge => 5 | .un => 6 | .ord => 7

/-- The condition of an fcmp FN code (R207). -/
def fcondOf (c : BitVec 8) : Option FCond :=
  match c.toNat with
  | 0 => some .eq | 1 => some .ne | 2 => some .lt | 3 => some .le | 4 => some .gt | 5 => some .ge
  | 6 => some .un | 7 => some .ord
  | _ => none

/-- FN codes of amo, amon and amov (R208). -/
def atomCode : AtomFn → BitVec 8
  | .add => 0x00 | .min => 0x01 | .max => 0x02 | .and => 0x03 | .or => 0x04 | .xor => 0x05 | .swap => 0x06
  | .fadd => 0x08 | .fmin => 0x09 | .fmax => 0x0A | .padd => 0x10 | .pmin => 0x11 | .pmax => 0x12
  | .pfadd => 0x18 | .pfmin => 0x19 | .pfmax => 0x1A

/-- The operation of an atomic FN code (R208). -/
def atomOf (c : BitVec 8) : Option AtomFn :=
  match c.toNat with
  | 0x00 => some .add | 0x01 => some .min | 0x02 => some .max | 0x03 => some .and | 0x04 => some .or
  | 0x05 => some .xor | 0x06 => some .swap | 0x08 => some .fadd | 0x09 => some .fmin | 0x0A => some .fmax
  | 0x10 => some .padd | 0x11 => some .pmin | 0x12 => some .pmax | 0x18 => some .pfadd
  | 0x19 => some .pfmin | 0x1A => some .pfmax
  | _ => none

/-- FN codes of vred and vscan (R209). -/
def redCode : RedFn → BitVec 8
  | .add => 0 | .min => 1 | .max => 2 | .and => 3 | .or => 4 | .xor => 5

/-- The operation of a reduction FN code (R209). -/
def redOf (c : BitVec 8) : Option RedFn :=
  match c.toNat with
  | 0 => some .add | 1 => some .min | 2 => some .max | 3 => some .and | 4 => some .or | 5 => some .xor
  | _ => none

/-- FN codes of vperm (R211). -/
def permCode : PermFn → BitVec 8
  | .idx => 0 | .rev => 1 | .zipl => 2 | .ziph => 3 | .unzl => 4 | .unzh => 5

/-- The form of a vperm FN code (R211). -/
def permOf (c : BitVec 8) : Option PermFn :=
  match c.toNat with
  | 0 => some .idx | 1 => some .rev | 2 => some .zipl | 3 => some .ziph | 4 => some .unzl | 5 => some .unzh
  | _ => none

/-- FN codes of vslide (R211). -/
def slideCode : SlideFn → BitVec 8
  | .up => 0 | .down => 1 | .rotu => 2 | .rotd => 3

/-- The form of a vslide FN code (R211). -/
def slideOf (c : BitVec 8) : Option SlideFn :=
  match c.toNat with
  | 0 => some .up | 1 => some .down | 2 => some .rotu | 3 => some .rotd
  | _ => none

/-- Scope codes of a barrier level (R211). -/
def levelCode : Level → BitVec 3
  | .cas => 1 | .die => 2 | .pkg => 3 | .pod => 4

/-- The barrier level of a scope code, 0b001 to 0b100 (R211). -/
def levelOf (c : BitVec 3) : Option Level :=
  match c.toNat with
  | 1 => some .cas | 2 => some .die | 3 => some .pkg | 4 => some .pod
  | _ => none

/-- FN of post: the guard kind in bits 1:0, the level in bits 4:2 (R211). -/
def postCode : PostGuard → BitVec 8
  | .none => 0
  | .sw => 1
  | .bar l => 0#3 ++ levelCode l ++ 2#2

/-- The guard of a post FN code (R211). -/
def postOf (c : BitVec 8) : Option PostGuard :=
  match (c.extractLsb' 0 2).toNat with
  | 0 => some .none
  | 1 => some .sw
  | 2 => (levelOf (c.extractLsb' 2 3)).map .bar
  | _ => none

/-- FN codes of handover (R211). -/
def handCode : HandKind → BitVec 8
  | .ex => 0 | .ro => 1 | .rd => 2

/-- The form of a handover FN code (R211). -/
def handOf (c : BitVec 8) : Option HandKind :=
  match c.toNat with
  | 0 => some .ex | 1 => some .ro | 2 => some .rd
  | _ => none

/-- FN codes of tlbinv (R211). -/
def tlbCode : TlbKind → BitVec 8
  | .page => 0 | .ctx => 1 | .all => 2

/-- The form of a tlbinv FN code (R211). -/
def tlbOf (c : BitVec 8) : Option TlbKind :=
  match c.toNat with
  | 0 => some .page | 1 => some .ctx | 2 => some .all
  | _ => none

/-! ## Reading the fields of a class -/

/-- What every instruction carries (R195, R202). -/
def headOf (f : Fields) : Head := ⟨guardOf f.g, f.hint⟩

/-- The fields in arithmetic form (R203); CLS is read by fmin and fmax alone. -/
def arithOf (f : Fields) : Except DecodeError Arith := do
  let d ← opndOf f.d
  let a ← opndOf f.a
  let b ← opndOf f.b
  match rndOf (f.mod.extractLsb' 4 3) with
  | none => .error .modifier
  | some rnd =>
    .ok ⟨headOf f, tyOf f.ty, d, a, b, f.mod.getLsbD 7, rnd, f.mod.getLsbD 3, f.mod.getLsbD 2⟩

/-- The fields in memory form (R204). -/
def memOf (f : Fields) : Except DecodeError Mem := do
  let d ← opndOf f.d
  let a ← opndOf f.a
  let b ← opndOf f.b
  match scopeOf (f.mod.extractLsb' 4 3) with
  | none => .error .modifier
  | some scope =>
    .ok ⟨headOf f, tyOf f.ty, d, a, b, f.mod.getLsbD 7, scope, ordOf (f.mod.extractLsb' 2 2),
      f.mod.extractLsb' 0 2⟩

/-- The operand fields of an opcode whose MOD is reserved (R205). -/
def taskOf (f : Fields) : Except DecodeError Task := do
  let d ← opndOf f.d
  let a ← opndOf f.a
  let b ← opndOf f.b
  .ok ⟨headOf f, d, a, b⟩

/-- The fields of a compare (R200, R230). -/
def cmpOf (f : Fields) : Except DecodeError Cmp := do
  let d ← cmpDstOf f.d
  let a ← opndOf f.a
  let b ← opndOf f.b
  .ok ⟨headOf f, tyOf f.ty, d, a, b, f.mod.getLsbD 7⟩

/-- The raw predicate fields (R200). -/
def predOpOf (f : Fields) : PredOp := ⟨headOf f, f.d.extractLsb' 0 3, psrcOf f.a, psrcOf f.b⟩

/-- The raw 36-bit field in A:B (R200). -/
def rawAB (f : Fields) : BitVec 36 := f.a ++ f.b

/-- A function code that the opcode must list (R206). -/
def needFn {α : Type} (o : Option α) : Except DecodeError α :=
  match o with
  | some x => .ok x
  | none => .error .function

/-! ## The opcode map, one row of R212 at a time -/

/-- Row 0_ (R212). -/
def row0 (lo : Nat) (f : Fields) : Except DecodeError Instr :=
  match lo with
  | 0x1 => .add <$> arithOf f
  | 0x2 => .sub <$> arithOf f
  | 0x3 => .addc <$> arithOf f
  | 0x4 => .subb <$> arithOf f
  | 0x5 => .mul <$> arithOf f
  | 0x6 => .mulh <$> arithOf f
  | 0x7 => .mulhn <$> arithOf f
  | 0x8 => .madd <$> arithOf f
  | 0x9 => .div <$> arithOf f
  | 0xA => .divn <$> arithOf f
  | 0xB => .rem <$> arithOf f
  | 0xC => .remn <$> arithOf f
  | 0xD => .and <$> arithOf f
  | 0xE => .or <$> arithOf f
  | 0xF => .xor <$> arithOf f
  | _ => .error .opcode

/-- Row 1_ (R212). -/
def row1 (lo : Nat) (f : Fields) : Except DecodeError Instr :=
  match lo with
  | 0x0 => .andn <$> arithOf f
  | 0x1 => .orn <$> arithOf f
  | 0x2 => .shl <$> arithOf f
  | 0x3 => .shr <$> arithOf f
  | 0x4 => .sar <$> arithOf f
  | 0x5 => .rol <$> arithOf f
  | 0x6 => .min <$> arithOf f
  | 0x7 => .max <$> arithOf f
  | 0x8 => .minn <$> arithOf f
  | 0x9 => .maxn <$> arithOf f
  | 0xA => .abs <$> arithOf f
  | 0xB => .neg <$> arithOf f
  | 0xC => .clz <$> arithOf f
  | 0xD => .ctz <$> arithOf f
  | 0xE => .popc <$> arithOf f
  | 0xF => .brev <$> arithOf f
  | _ => .error .opcode

/-- Row 2_ (R212). -/
def row2 (lo : Nat) (f : Fields) : Except DecodeError Instr :=
  match lo with
  | 0x0 => .bswap <$> arithOf f
  | 0x1 => .sext (tyOf (f.fn.extractLsb' 0 4)) <$> arithOf f
  | 0x2 => .zext (tyOf (f.fn.extractLsb' 0 4)) <$> arithOf f
  | 0x3 => .bfx <$> arithOf f
  | 0x4 => .bfi <$> arithOf f
  | 0x5 => .sel <$> arithOf f
  | 0x6 => .mov <$> arithOf f
  | 0x7 => (fun d => .li (headOf f) d (rawAB f)) <$> opndOf f.d
  | 0x8 => (fun d => .lih (headOf f) d ((rawAB f).extractLsb' 0 28)) <$> opndOf f.d
  | 0x9 => .lea <$> taskOf f
  | _ => .error .opcode

/-- Row 3_ (R212). -/
def row3 (lo : Nat) (f : Fields) : Except DecodeError Instr :=
  match lo with
  | 0x0 => do .ok (.cmp (← needFn (condOf f.fn)) (← cmpOf f))
  | 0x1 => do .ok (.fcmp (← needFn (fcondOf f.fn)) (← cmpOf f))
  | 0x2 => .ok (.pand (predOpOf f))
  | 0x3 => .ok (.por (predOpOf f))
  | 0x4 => .ok (.pxor (predOpOf f))
  | 0x5 => .ok (.pnot (predOpOf f))
  | 0x6 => .ok (.pmov (predOpOf f))
  | 0x8 => .fadd <$> arithOf f
  | 0x9 => .fsub <$> arithOf f
  | 0xA => .fmul <$> arithOf f
  | 0xB => .ffma <$> arithOf f
  | 0xC => .ffms <$> arithOf f
  | 0xD => .fnma <$> arithOf f
  | 0xE => .fdiv <$> arithOf f
  | 0xF => .fsqrt <$> arithOf f
  | _ => .error .opcode

/-- Row 4_ (R212). -/
def row4 (lo : Nat) (f : Fields) : Except DecodeError Instr :=
  match lo with
  | 0x0 => .fmin (f.mod.getLsbD 0) <$> arithOf f
  | 0x1 => .fmax (f.mod.getLsbD 0) <$> arithOf f
  | 0x2 => .fabs <$> arithOf f
  | 0x3 => .fneg <$> arithOf f
  | 0x4 => .fsgn <$> arithOf f
  | 0x5 => .frnd <$> arithOf f
  | 0x6 => .fcvt (tyOf (f.fn.extractLsb' 0 4)) <$> arithOf f
  | 0x7 => .ficvt (tyOf (f.fn.extractLsb' 0 4)) <$> arithOf f
  | 0x8 => .ifcvt (tyOf (f.fn.extractLsb' 0 4)) <$> arithOf f
  | 0x9 => .fclass <$> arithOf f
  | 0xA => .frcp <$> arithOf f
  | 0xB => .frsq <$> arithOf f
  | 0xC => .fex2 <$> arithOf f
  | 0xD => .flg2 <$> arithOf f
  | 0xE => .fsin <$> arithOf f
  | 0xF => .fcos <$> arithOf f
  | _ => .error .opcode

/-- Row 5_ (R212). -/
def row5 (lo : Nat) (f : Fields) : Except DecodeError Instr :=
  match lo with
  | 0x0 => .ftanh <$> arithOf f
  | 0x8 => .vclaim <$> taskOf f
  | 0x9 => .vbcast <$> arithOf f
  | 0xA => do .ok (.vperm (← needFn (permOf f.fn)) (← arithOf f))
  | 0xB => do .ok (.vslide (← needFn (slideOf f.fn)) (← arithOf f))
  | 0xC => do .ok (.vscan (← needFn (redOf f.fn)) (← arithOf f))
  | 0xD => do .ok (.vred (← needFn (redOf f.fn)) (← arithOf f))
  | 0xE => .vcomp <$> arithOf f
  | 0xF => .vxpnd <$> arithOf f
  | _ => .error .opcode

/-- Row 6_ (R212). -/
def row6 (lo : Nat) (f : Fields) : Except DecodeError Instr :=
  match lo with
  | 0x0 => .viota <$> arithOf f
  | 0x1 => .vext <$> arithOf f
  | 0x2 => .vins <$> arithOf f
  | 0x3 => .vany <$> arithOf f
  | 0x4 => .vall <$> arithOf f
  | 0x5 => .qpack (tyOf (f.fn.extractLsb' 0 4)) <$> arithOf f
  | 0x6 => .qunpk (tyOf (f.fn.extractLsb' 0 4)) <$> arithOf f
  | 0x8 => .ld <$> memOf f
  | 0x9 => .st <$> memOf f
  | 0xA => .ldv <$> memOf f
  | 0xB => .stv <$> memOf f
  | 0xC => .ldg <$> memOf f
  | 0xD => .sts <$> memOf f
  | 0xE => .pref <$> memOf f
  | 0xF => .fence <$> memOf f
  | _ => .error .opcode

/-- Row 7_ (R212). -/
def row7 (lo : Nat) (f : Fields) : Except DecodeError Instr :=
  match lo with
  | 0x0 => .lbf <$> memOf f
  | 0x1 => .cwb <$> memOf f
  | 0x2 => .cinv <$> memOf f
  | 0x8 => do .ok (.amo (← needFn (atomOf f.fn)) (← memOf f))
  | 0x9 => do .ok (.amon (← needFn (atomOf f.fn)) (← memOf f))
  | 0xA => .cas <$> memOf f
  | 0xB => .casq <$> memOf f
  | 0xC => do .ok (.amov (← needFn (atomOf f.fn)) (← memOf f))
  | 0xD => .red (f.fn.extractLsb' 0 5) <$> memOf f
  | _ => .error .opcode

/-- Row 8_ (R212). -/
def row8 (lo : Nat) (f : Fields) : Except DecodeError Instr :=
  match lo with
  | 0x0 => .ok (.br (headOf f) (rawAB f))
  | 0x1 => .ok (.jmp (headOf f) (f.d ++ f.a ++ f.b))
  | 0x2 => .jmpi (headOf f) <$> opndOf f.a
  | 0x3 => (fun d => .call (headOf f) d (rawAB f)) <$> opndOf f.d
  | 0x4 => do .ok (.calli (headOf f) (← opndOf f.d) (← opndOf f.a))
  | 0x5 => .ret (headOf f) <$> opndOf f.a
  | 0x6 => (fun a => .loop (headOf f) a f.b) <$> opndOf f.a
  | 0x7 => .ok (.endFiring (headOf f))
  | 0x8 => .ok (.region (headOf f))
  | 0x9 => .ok (.brk (headOf f) f.fn)
  | 0xA => .ok (.nop (headOf f))
  | _ => .error .opcode

/-- Row 9_ (R212). -/
def row9 (lo : Nat) (f : Fields) : Except DecodeError Instr :=
  match lo with
  | 0x0 => do .ok (.post (← needFn (postOf f.fn)) (← taskOf f))
  | 0x1 => .spawn <$> taskOf f
  | 0x2 => .fork <$> taskOf f
  | 0x3 => .send <$> taskOf f
  | 0x4 => .reply <$> taskOf f
  | 0x5 => .chres <$> taskOf f
  | 0x6 => .chpub <$> taskOf f
  | 0x7 => .clmask (f.fn.getLsbD 0) <$> taskOf f
  | 0x8 => .compose (f.fn.extractLsb' 0 3) <$> taskOf f
  | 0x9 => .ok (.decomp (headOf f))
  | 0xA => do .ok (.handover (← needFn (handOf f.fn)) (← taskOf f))
  | 0xB => .capq <$> taskOf f
  | _ => .error .opcode

/-- Row A_ (R212). -/
def rowA (lo : Nat) (f : Fields) : Except DecodeError Instr :=
  match lo with
  | 0x0 => do .ok (.bara (← needFn (levelOf (f.fn.extractLsb' 0 3))) (← taskOf f))
  | 0x1 => .swinit <$> taskOf f
  | 0x2 => .swarr <$> taskOf f
  | 0x3 => .swtest <$> taskOf f
  | 0x4 => .gjoin <$> taskOf f
  | 0x5 => .gleave <$> taskOf f
  | 0x6 => .gld <$> taskOf f
  | _ => .error .opcode

/-- Row B_ (R212). -/
def rowB (lo : Nat) (f : Fields) : Except DecodeError Instr :=
  match lo with
  | 0x0 => .mxld (tyOf f.ty) <$> taskOf f
  | 0x1 => .mxflip <$> taskOf f
  | 0x2 => .mxrun (f.fn.getLsbD 0) (f.fn.getLsbD 1) (tyOf f.ty) <$> taskOf f
  | 0x3 => .cpy (f.fn.getLsbD 0) (f.fn.getLsbD 1) <$> taskOf f
  | 0x4 => .cpyf (f.fn.getLsbD 0) (f.fn.getLsbD 1) <$> taskOf f
  | 0x5 => .qfence (f.fn.extractLsb' 0 5) <$> taskOf f
  | 0x6 => .engq <$> taskOf f
  | _ => .error .opcode

/-- The fields of ctlrd and ctlwr: the raw register number stands in A (R200). -/
def ctlOf (f : Fields) : Except DecodeError Task := do
  let d ← opndOf f.d
  let b ← opndOf f.b
  .ok ⟨headOf f, d, Opnd.unused, b⟩

/-- Row E_ (R212). -/
def rowE (lo : Nat) (f : Fields) : Except DecodeError Instr :=
  match lo with
  | 0x0 => .ok (.trap (headOf f) f.fn)
  | 0x1 => .tret <$> taskOf f
  | 0x2 => .ctlrd (f.a.extractLsb' 0 12) <$> ctlOf f
  | 0x3 => .ctlwr (f.a.extractLsb' 0 12) <$> ctlOf f
  | 0x4 => do .ok (.tlbinv (← needFn (tlbOf f.fn)) (← taskOf f))
  | 0x5 => .stop <$> taskOf f
  | _ => .error .opcode

/-- The instruction the fields name, before reserved bits and legality are checked (R212). -/
def parse (f : Fields) : Except DecodeError Instr :=
  let lo := (f.op.extractLsb' 0 4).toNat
  match (f.op.extractLsb' 4 4).toNat with
  | 0x0 => row0 lo f
  | 0x1 => row1 lo f
  | 0x2 => row2 lo f
  | 0x3 => row3 lo f
  | 0x4 => row4 lo f
  | 0x5 => row5 lo f
  | 0x6 => row6 lo f
  | 0x7 => row7 lo f
  | 0x8 => row8 lo f
  | 0x9 => row9 lo f
  | 0xA => rowA lo f
  | 0xB => rowB lo f
  | 0xE => rowE lo f
  | _ => .error .opcode

/-! ## The encoder -/

/-- The word of an arithmetic-form instruction (R193, R203). -/
def encArith (op : BitVec 8) (x : Arith) (fn : BitVec 8 := 0) (cls : BitVec 2 := 0) : Fields :=
  ⟨op, guardCode x.hd.g, fn, tyCode x.ty, opndCode x.d, opndCode x.a, opndCode x.b, x.hd.hint,
    BitVec.ofBool x.lm ++ rndCode x.rnd ++ BitVec.ofBool x.sat ++ BitVec.ofBool x.ftz ++ cls⟩

/-- The word of a memory-form instruction (R193, R204). -/
def encMem (op : BitVec 8) (x : Mem) (fn : BitVec 8 := 0) : Fields :=
  ⟨op, guardCode x.hd.g, fn, tyCode x.ty, opndCode x.d, opndCode x.a, opndCode x.b, x.hd.hint,
    BitVec.ofBool x.lm ++ scopeCode x.scope ++ ordCode x.ord ++ x.ccls⟩

/-- The word of an instruction whose MOD is reserved (R193, R205). -/
def encTask (op : BitVec 8) (x : Task) (fn : BitVec 8 := 0) (ty : BitVec 4 := 0) : Fields :=
  ⟨op, guardCode x.hd.g, fn, ty, opndCode x.d, opndCode x.a, opndCode x.b, x.hd.hint, 0⟩

/-- The word of a compare (R193, R200). -/
def encCmp (op : BitVec 8) (fn : BitVec 8) (x : Cmp) : Fields :=
  ⟨op, guardCode x.hd.g, fn, tyCode x.ty, cmpDstCode x.d, opndCode x.a, opndCode x.b, x.hd.hint,
    BitVec.ofBool x.lm ++ 0#7⟩

/-- The word of a predicate instruction (R193, R200). -/
def encPred (op : BitVec 8) (x : PredOp) : Fields :=
  ⟨op, guardCode x.hd.g, 0, 0, 0#15 ++ x.d, psrcCode x.a, psrcCode x.b, x.hd.hint, 0⟩

/-- A word with raw operand fields (R193, R200). -/
def encRaw (op : BitVec 8) (hd : Head) (d a b : BitVec 18) (fn : BitVec 8 := 0) : Fields :=
  ⟨op, guardCode hd.g, fn, 0, d, a, b, hd.hint, 0⟩

/-- A source type code in FN bits 3:0 (R210). -/
def srcTy (t : Ty) : BitVec 8 := 0#4 ++ tyCode t

/-- The fields of an instruction's word; none for a step the device takes by itself, which has no word. -/
def fieldsOf : Instr → Option Fields
  | .add x => some (encArith 0x01 x)
  | .sub x => some (encArith 0x02 x)
  | .addc x => some (encArith 0x03 x)
  | .subb x => some (encArith 0x04 x)
  | .mul x => some (encArith 0x05 x)
  | .mulh x => some (encArith 0x06 x)
  | .mulhn x => some (encArith 0x07 x)
  | .madd x => some (encArith 0x08 x)
  | .div x => some (encArith 0x09 x)
  | .divn x => some (encArith 0x0A x)
  | .rem x => some (encArith 0x0B x)
  | .remn x => some (encArith 0x0C x)
  | .and x => some (encArith 0x0D x)
  | .or x => some (encArith 0x0E x)
  | .xor x => some (encArith 0x0F x)
  | .andn x => some (encArith 0x10 x)
  | .orn x => some (encArith 0x11 x)
  | .shl x => some (encArith 0x12 x)
  | .shr x => some (encArith 0x13 x)
  | .sar x => some (encArith 0x14 x)
  | .rol x => some (encArith 0x15 x)
  | .min x => some (encArith 0x16 x)
  | .max x => some (encArith 0x17 x)
  | .minn x => some (encArith 0x18 x)
  | .maxn x => some (encArith 0x19 x)
  | .abs x => some (encArith 0x1A x)
  | .neg x => some (encArith 0x1B x)
  | .clz x => some (encArith 0x1C x)
  | .ctz x => some (encArith 0x1D x)
  | .popc x => some (encArith 0x1E x)
  | .brev x => some (encArith 0x1F x)
  | .bswap x => some (encArith 0x20 x)
  | .sext ts x => some (encArith 0x21 x (srcTy ts))
  | .zext ts x => some (encArith 0x22 x (srcTy ts))
  | .bfx x => some (encArith 0x23 x)
  | .bfi x => some (encArith 0x24 x)
  | .sel x => some (encArith 0x25 x)
  | .mov x => some (encArith 0x26 x)
  | .li hd d k => some (encRaw 0x27 hd (opndCode d) (k.extractLsb' 18 18) (k.extractLsb' 0 18))
  | .lih hd d k => some (encRaw 0x28 hd (opndCode d) (0#8 ++ k.extractLsb' 18 10) (k.extractLsb' 0 18))
  | .lea x => some (encTask 0x29 x)
  | .cmp c x => some (encCmp 0x30 (condCode c) x)
  | .fcmp c x => some (encCmp 0x31 (fcondCode c) x)
  | .pand x => some (encPred 0x32 x)
  | .por x => some (encPred 0x33 x)
  | .pxor x => some (encPred 0x34 x)
  | .pnot x => some (encPred 0x35 x)
  | .pmov x => some (encPred 0x36 x)
  | .fadd x => some (encArith 0x38 x)
  | .fsub x => some (encArith 0x39 x)
  | .fmul x => some (encArith 0x3A x)
  | .ffma x => some (encArith 0x3B x)
  | .ffms x => some (encArith 0x3C x)
  | .fnma x => some (encArith 0x3D x)
  | .fdiv x => some (encArith 0x3E x)
  | .fsqrt x => some (encArith 0x3F x)
  | .fmin nan x => some (encArith 0x40 x 0 (0#1 ++ BitVec.ofBool nan))
  | .fmax nan x => some (encArith 0x41 x 0 (0#1 ++ BitVec.ofBool nan))
  | .fabs x => some (encArith 0x42 x)
  | .fneg x => some (encArith 0x43 x)
  | .fsgn x => some (encArith 0x44 x)
  | .frnd x => some (encArith 0x45 x)
  | .fcvt ts x => some (encArith 0x46 x (srcTy ts))
  | .ficvt ts x => some (encArith 0x47 x (srcTy ts))
  | .ifcvt ts x => some (encArith 0x48 x (srcTy ts))
  | .fclass x => some (encArith 0x49 x)
  | .frcp x => some (encArith 0x4A x)
  | .frsq x => some (encArith 0x4B x)
  | .fex2 x => some (encArith 0x4C x)
  | .flg2 x => some (encArith 0x4D x)
  | .fsin x => some (encArith 0x4E x)
  | .fcos x => some (encArith 0x4F x)
  | .ftanh x => some (encArith 0x50 x)
  | .vclaim x => some (encTask 0x58 x)
  | .vbcast x => some (encArith 0x59 x)
  | .vperm f x => some (encArith 0x5A x (permCode f))
  | .vslide f x => some (encArith 0x5B x (slideCode f))
  | .vscan f x => some (encArith 0x5C x (redCode f))
  | .vred f x => some (encArith 0x5D x (redCode f))
  | .vcomp x => some (encArith 0x5E x)
  | .vxpnd x => some (encArith 0x5F x)
  | .viota x => some (encArith 0x60 x)
  | .vext x => some (encArith 0x61 x)
  | .vins x => some (encArith 0x62 x)
  | .vany x => some (encArith 0x63 x)
  | .vall x => some (encArith 0x64 x)
  | .qpack ts x => some (encArith 0x65 x (srcTy ts))
  | .qunpk ts x => some (encArith 0x66 x (srcTy ts))
  | .ld x => some (encMem 0x68 x)
  | .st x => some (encMem 0x69 x)
  | .ldv x => some (encMem 0x6A x)
  | .stv x => some (encMem 0x6B x)
  | .ldg x => some (encMem 0x6C x)
  | .sts x => some (encMem 0x6D x)
  | .pref x => some (encMem 0x6E x)
  | .fence x => some (encMem 0x6F x)
  | .lbf x => some (encMem 0x70 x)
  | .cwb x => some (encMem 0x71 x)
  | .cinv x => some (encMem 0x72 x)
  | .amo f x => some (encMem 0x78 x (atomCode f))
  | .amon f x => some (encMem 0x79 x (atomCode f))
  | .cas x => some (encMem 0x7A x)
  | .casq x => some (encMem 0x7B x)
  | .amov f x => some (encMem 0x7C x (atomCode f))
  | .red j x => some (encMem 0x7D x (0#3 ++ j))
  | .br hd k => some (encRaw 0x80 hd 0 (k.extractLsb' 18 18) (k.extractLsb' 0 18))
  | .jmp hd k => some (encRaw 0x81 hd (k.extractLsb' 36 18) (k.extractLsb' 18 18) (k.extractLsb' 0 18))
  | .jmpi hd a => some (encRaw 0x82 hd 0 (opndCode a) 0)
  | .call hd d k => some (encRaw 0x83 hd (opndCode d) (k.extractLsb' 18 18) (k.extractLsb' 0 18))
  | .calli hd d a => some (encRaw 0x84 hd (opndCode d) (opndCode a) 0)
  | .ret hd a => some (encRaw 0x85 hd 0 (opndCode a) 0)
  | .loop hd a k => some (encRaw 0x86 hd 0 (opndCode a) k)
  | .endFiring hd => some (encRaw 0x87 hd 0 0 0)
  | .region hd => some (encRaw 0x88 hd 0 0 0)
  | .brk hd code => some (encRaw 0x89 hd 0 0 0 code)
  | .nop hd => some (encRaw 0x8A hd 0 0 0)
  | .post k x => some (encTask 0x90 x (postCode k))
  | .spawn x => some (encTask 0x91 x)
  | .fork x => some (encTask 0x92 x)
  | .send x => some (encTask 0x93 x)
  | .reply x => some (encTask 0x94 x)
  | .chres x => some (encTask 0x95 x)
  | .chpub x => some (encTask 0x96 x)
  | .clmask un x => some (encTask 0x97 x (0#7 ++ BitVec.ofBool un))
  | .compose n x => some (encTask 0x98 x (0#5 ++ n))
  | .decomp hd => some (encRaw 0x99 hd 0 0 0)
  | .handover k x => some (encTask 0x9A x (handCode k))
  | .capq x => some (encTask 0x9B x)
  | .bara l x => some (encTask 0xA0 x (0#5 ++ levelCode l))
  | .swinit x => some (encTask 0xA1 x)
  | .swarr x => some (encTask 0xA2 x)
  | .swtest x => some (encTask 0xA3 x)
  | .gjoin x => some (encTask 0xA4 x)
  | .gleave x => some (encTask 0xA5 x)
  | .gld x => some (encTask 0xA6 x)
  | .mxld ty x => some (encTask 0xB0 x 0 (tyCode ty))
  | .mxflip x => some (encTask 0xB1 x)
  | .mxrun acc tr ty x => some (encTask 0xB2 x (0#6 ++ BitVec.ofBool tr ++ BitVec.ofBool acc) (tyCode ty))
  | .cpy crc rec x => some (encTask 0xB3 x (0#6 ++ BitVec.ofBool rec ++ BitVec.ofBool crc))
  | .cpyf crc rec x => some (encTask 0xB4 x (0#6 ++ BitVec.ofBool rec ++ BitVec.ofBool crc))
  | .qfence m x => some (encTask 0xB5 x (0#3 ++ m))
  | .engq x => some (encTask 0xB6 x)
  | .trap hd code => some (encRaw 0xE0 hd 0 0 0 code)
  | .tret x => some (encTask 0xE1 x)
  | .ctlrd n x => some (encRaw 0xE2 x.hd (opndCode x.d) (0#6 ++ n) (opndCode x.b))
  | .ctlwr n x => some (encRaw 0xE3 x.hd (opndCode x.d) (0#6 ++ n) (opndCode x.b))
  | .tlbinv k x => some (encTask 0xE4 x (tlbCode k))
  | .stop x => some (encTask 0xE5 x)
  | .firingInsert _ | .releaseNotice _ | .watchPoll _ | .spillRefill _ _ _ | .pop _ | .lockRequest _
  | .lockRelease _ | .tryResult _ | .reservation _ | .reservationRetry _ | .displacementNotice _ _
  | .ticketedTryRetry _ | .roundResolve _ | .roundTryRetry _ | .placement _ | .footprintResident _
  | .footprintFault _ | .nextFiring _ | .preciseResume _ | .retire _ | .activityForecast _ | .slotCount _
  | .channelReserve _ | .p7Result _ | .spawnArrival _ | .forkArrival _ | .packetArrival _
  | .maskedPacketRelease _ | .loadReturn _ | .l1Fill _ _ | .storePerform _ | .lineWriteback _
  | .atomicApply _ | .atomicAck _ | .atomicResend _ | .dramReread _ | .redApply _ | .handoverApply _
  | .handoverComplete _ | .capabilityRefetch _ _ _ | .pageWalk _ _ _ | .tlbinvComplete _
  | .remoteCtlAccess _ | .barrierArrival _ | .syncWordUpdate _ | .swinitApply _ | .groupMembership _
  | .groupRequest _ | .holdAdmit _ | .holdTimerExpiry _ | .holdReadComplete _ | .soloRead _ | .fillLand _
  | .engineCommandArrival _ | .mxldPerform _ | .mxflipPerform _ | .mxrunPiece _ | .copySector _ _
  | .completionRecord _ _ | .qfenceComplete _ | .engineOperationFault _ _ | .engineRewalk _ _
  | .enginePreempt _ _ | .engineResume _ _ | .tandemStart _ | .blockToken _ | .blockSquash _
  | .blockCommit _ | .tandemFault _ | .preemptWindowExpiry _ | .faultStop _ | .faultRecordWrite _
  | .tretOrder _ | .l1coTakeEffect _ | .wsareaTakeEffect _ | .spownWrite _ | .l1coWrite _ | .wsareaWrite _
  | .detctlWrite _ | .captabWrite _ | .detstatClear _ | .evcntWrite _ | .evselWrite _ | .trctlWrite _
  | .trringWrite _ | .fltchWrite _ | .grptabWrite _ | .dspillWrite _ | .preemptwinWrite _
  | .spawnqWrite _ | .patienceWrite _ | .inboxLimitWrite _ | .ctlRegisterWrite _ | .eventCount _
  | .debugForward _ | .halt _ | .resume _ | .stepi _ | .stepf _ | .rdreg _ | .wrreg _ | .rdws _ | .wrws _
  | .rdvec _ | .rdacct _ | .clracct _ | .debugResponseWrite _ | .debugResponseRetry _ | .haltTakeEffect _
  | .breakpointHit _ | .stepComplete _ | .traceRecordTake _ | .traceBurstWrite _ | .ridxRead _ | .tsync _
  | .stopfTimeout _ | .hostBar2Write _ | .hostBar2Read _ | .faccWrite _ | .bar0Write _ | .telem _
  | .getcap _ | .setcap _ | .spdm _ | .dumpinfo _ | .reset _ | .junctionWarning _ | .junctionCritical _
  | .fatalError _ _ | .spokeFlitReceive _ | .endToEndAck _ _ _ | .endToEndResend _ _
  | .linkOutOfService _ _ | .packageLost _ _ | .dieLost _ | .sliceRetirement _ _ | .restoreClaim _
  | .pcieDoeSpdmRequest _ => none

/-- The word of an instruction (R193); none for a step the device takes by itself. -/
def encode (i : Instr) : Option IWord := (fieldsOf i).map pack

/-! ## The decoder -/

/-- The instruction of a word, or why it is none (R194): the guard code, the opcode and its codes, then every reserved
bit (the word must be the one its fields say), then the legality of types, kinds and modifiers. (DEDUCED, log 40) -/
def decode (w : IWord) : Except DecodeError Instr :=
  let f := unpack w
  if f.g = 8 then .error .guard
  else match parse f with
    | .error e => .error e
    | .ok i =>
      if fieldsOf i ≠ some f then .error .reserved
      else if i.wf then .ok i
      else .error .notLegal

/-- The instruction word held by three 32-bit words, the one at the lowest address first (R190). (DEDUCED, log 1) -/
def wordOf (w0 w1 w2 : BitVec 32) : IWord := w2 ++ w1 ++ w0

/-- The instruction the decoder reads from bits numbered as the opcode table numbers them: bit 0 is bit 0 of the word
at the lowest address (R190). Bits at and above nbits are zero. (DEDUCED, log 1) -/
def decodeTableWord (nbits w : Nat) : Option Instr :=
  match decode (BitVec.ofNat 96 (w % 2 ^ nbits)) with
  | .ok i => some i
  | .error _ => none

end Sys2Proof
end

