-- ==== Sys2Proof/Machine/State.lean ====
section
/-! DEFINITION. The state of a pod of P16 modules as plain data, and the state right after reset. Register maps are
sparse lists whose absent entries read as the reset value. -/

namespace Sys2Proof.Machine

/-- A sparse map from keys to values. -/
abbrev KMap (α : Type) := List (Nat × α)

/-- The value at a key, or a default. -/
def KMap.get {α : Type} (m : KMap α) (k : Nat) (d : α) : α :=
  match m with
  | [] => d
  | (k', v) :: t => if k = k' then v else KMap.get t k d

/-- The value at a key, if one is held. -/
def KMap.find {α : Type} (m : KMap α) (k : Nat) : Option α :=
  match m with
  | [] => none
  | (k', v) :: t => if k = k' then some v else KMap.find t k

/-- The map with the value at a key replaced. -/
def KMap.set {α : Type} (m : KMap α) (k : Nat) (v : α) : KMap α :=
  match m with
  | [] => [(k, v)]
  | (k', v') :: t => if k = k' then (k, v) :: t else (k', v') :: KMap.set t k v

/-- The map without a key. -/
def KMap.del {α : Type} (m : KMap α) (k : Nat) : KMap α := m.filter (fun e => e.1 ≠ k)

/-- Why a step stops with a fault. The part takes every exception, so no instruction raises one of these; they arise
only for a device step whose argument names nothing. (DESIGN CHOICE, log 62) -/
inductive Fault where
  /-- Raised by an instruction on a core that runs no firing. Safe: the part issues no instruction there (R32). -/
  | noFiring
  /-- Raised by a device step whose message, firing, command or unit does not exist. Safe: the part takes no such
  step. -/
  | noSuchStep
  /-- Raised by a device step whose conditions the state does not meet. Safe: the part takes no such step. -/
  | notDue
deriving DecidableEq, Repr

/-- Why a step has no meaning. -/
inductive Refusal where
  /-- Raised by the arm of an instruction that has no meaning yet. Safe. -/
  | notModelled (mnemonic : String)
deriving DecidableEq, Repr

/-- Which part of the device a turn belongs to. (DESIGN CHOICE, log 7) -/
inductive Turn where
  /-- A core issues its next instruction. -/
  | core (cid : Nat)
  /-- The agenda entry at this place happens. -/
  | event (n : Nat)
  /-- A step that nothing in the state announces happens: a timer, the outside world, a failure. -/
  | dev (i : Instr)
  /-- A ck passes in which nothing happens. -/
  | idle
deriving DecidableEq, Repr

/-- An input or output entry of a header (R24). -/
structure ChanEnt where
  count : Nat
  chan : Nat
deriving DecidableEq, Repr

/-- A footprint entry (R25). -/
structure Footprint where
  base : Nat
  len : Nat
  addArg : Bool
  arg : Nat
  dest : Nat
deriving DecidableEq, Repr

/-- An actor header as read (R21 to R25). -/
structure Hdr where
  entry : Nat
  wsn : Nat
  volLo : Nat
  volHi : Nat
  retry : Nat
  det : Bool
  prio : Nat
  bound : Bool
  rad : Nat
  arg : Nat
  map : Nat
  ins : List ChanEnt
  outs : List ChanEnt
  fps : List Footprint
deriving DecidableEq, Repr

/-- What made a firing (R30). -/
inductive Source where
  | post | chan | packet | spawn | fork | compose
deriving DecidableEq, Repr

/-- A recorded guard (R103, R286). -/
inductive GuardRec where
  | none
  /-- Generation g of the sync word at an offset of a core's slice. -/
  | sync (core off g : Nat)
  /-- Generation g of the barrier instance with this key of the firing's context. -/
  | bar (key g : Nat)
deriving DecidableEq, Repr

/-- How a stopped firing continues (R47, R314, R403): abandonment ordered at weight 0 waits for the weight (R407). -/
inductive Cont where
  | restart | precise | replay | abandon
deriving DecidableEq, Repr

/-- Where a firing stands (R33). -/
inductive Stage where
  /-- Made, on its way to its dispatcher or core. -/
  | made
  | pending | ready | acquiring | reserving
  /-- Granted in a round, or holding a ticket, between tries (R78, R182). -/
  | between
  | placing
  /-- In a stage slot, its footprint under way, or resident. -/
  | fetching | resident
  | spawnq
  | running
  /-- Stopped; its record is not yet written. -/
  | stopping
  /-- Waiting for tret. -/
  | waiting
  /-- A continuation is ordered (R55). -/
  | ordered (c : Cont)
  /-- Composed, waiting for its set of cores (R123). -/
  | composed
deriving DecidableEq, Repr

/-- One version of a tandem word (R128): its owner, the block and slot that made it, the word and its value. -/
structure Version where
  owner : Nat
  bsn : Nat
  slot : Nat
  word : Nat
  val : Word
deriving DecidableEq, Repr

/-- A block of a tandem older than the youngest one in flight, and not committed (R127, R130): its number, its address, where it
stands, whether it has ended, the loads it issued, and the firing's count of executed instructions when a younger block last
began. (DEDUCED, log 36) -/
structure Block where
  bsn : Nat
  addr : Nat
  pc : Nat
  slot : Nat
  ended : Bool
  loads : Nat
  executed : Nat
deriving DecidableEq, Repr

/-- A load in a bank of a tandem's load-store queue (R129): its block and slot, the window it went through, and its bytes. -/
structure LoadEntry where
  bsn : Nat
  slot : Nat
  window : Bool
  key : Nat
  len : Nat
deriving DecidableEq, Repr

/-- A block token (R127): the member it goes to, the predicted address of its block and that block's number. -/
structure Token where
  member : Nat
  addr : Nat
  bsn : Nat
deriving DecidableEq, Repr

/-- A tandem (R121 to R131). (DEDUCED, log 36) -/
structure Tandem where
  members : List Nat
  /-- Committed word values (R124). -/
  words : KMap Word
  versions : List Version
  /-- The youngest block in flight: its number, the next slot, and its address (R126). -/
  bsn : Nat
  slot : Nat
  blockPc : Nat
  /-- Tokens of the predicted blocks after the youngest, the next first (R127). -/
  tokens : List Token
  /-- The youngest block has ended (R126). -/
  ended : Bool
  /-- The blocks in flight before the youngest, the oldest first (R127, R130). (DEDUCED, log 36) -/
  flight : List Block
  /-- Loads the youngest block has issued. -/
  loads : Nat
  /-- Loads performed and not committed (R129). (DEDUCED, log 36) -/
  queue : List LoadEntry
  /-- The words that instructions not committed mention, each with the instruction's place, 16·BSN + slot (R128). (DEDUCED, log 36) -/
  reads : List (Nat × Nat)
deriving DecidableEq, Repr

/-- A reason for a stop (R396, R400), with %time at the fault. -/
structure Trap where
  cls : Nat
  code : Nat
  addr : Nat
  info : Nat
  pc : Nat
  time : Word
deriving DecidableEq, Repr

/-- A reservation on an output (R291), and whether its slot is published. -/
structure Resv where
  out : Nat
  chan : Nat
  idx : Nat
  done : Bool
deriving DecidableEq, Repr

/-- The claimed slots of one input (R40, R42). -/
structure Claim where
  input : Nat
  chan : Nat
  first : Nat
  count : Nat
  /-- The address of the first slot (R42, R215). -/
  slot : Nat
deriving DecidableEq, Repr

/-- What a release request does at a lock record (R71, R72, R78, R79). -/
inductive RelMode where
  /-- The lock is released. -/
  | free
  /-- A reservation under this ticket is cleared. -/
  | clear (t : Nat)
  /-- The lock of a failed ticketed try is released and its reservation kept. -/
  | again (t : Nat)
deriving DecidableEq, Repr

/-- A lock record of a firing's set: its address, element, and whether it is exclusive (R70). -/
structure LockEl where
  elem : Nat
  addr : Nat
  exc : Bool
deriving DecidableEq, Repr

/-- A firing (R29 to R34, R54). (DESIGN CHOICE, log 2; DESIGN CHOICE, log 98) -/
structure Firing where
  key : Nat
  id : Word
  ctx : Nat
  hdr : Nat
  head : Hdr
  entry : Nat
  args : List Word
  src : Source
  /-- The core, die and time that made it (R375). -/
  sender : Nat
  sent : Word
  arrived : Word
  guard : GuardRec
  /-- Holds one of the 1,024 entries of its cassette's watch table (R103). -/
  watched : Bool
  path : Word
  kids : Nat
  stage : Stage
  die : Nat
  bank : Nat
  spilled : Bool
  /-- Reinserted after a failed try (R53, R56). -/
  reins : Bool
  age : Nat
  tries : Nat
  ticket : Option Nat
  pin : Bool
  elem : Option Nat
  /-- The requested set of the try under way, and what is held (R70, R71). -/
  set : List LockEl
  got : List LockEl
  outstanding : Nat
  tryFailed : Bool
  /-- The set in the order of its reservations, and how many of them are held (R77). -/
  order : List LockEl
  rsvd : Nat
  /-- Resolved in rounds (R182), and granted in one. -/
  inRound : Bool
  granted : Bool
  firstPop : Word
  core : Nat
  wp : Nat
  placed : Bool
  pc : Nat
  c : Bool
  k : Bool
  groups : Nat
  vregs : List VecBits
  /-- Vector registers with a lane that cannot be corrected (R445, R446). -/
  badVecs : List Nat
  vecUsed : Bool
  claims : List Claim
  resv : List Resv
  /-- A save block is held (R402), and which of the die's it is. -/
  saved : Bool
  block : Nat
  /-- The store-issue count of its core when the firing last stopped (R293). -/
  last : BitVec 32
  trap : Option Trap
  recorded : Bool
  retries : Nat
  tandem : Option Tandem
  /-- Member count of a tandem firing, 0 of any other (R121), and the live words of compose (R295). -/
  width : Nat
  live : Nat × Nat
  /-- The firing has begun to run (R439). -/
  begun : Bool
  /-- Abandonment is asked for and waits for the firing to stop or for its try (R320). -/
  doomed : Bool
  /-- The member that faulted (R437). -/
  faultCore : Option Nat
  started : Word
  executed : Nat
  /-- No instruction of the firing has issued yet (R375). -/
  fresh : Bool
deriving DecidableEq, Repr

/-- A pending step of a debug module (R360). -/
inductive StepReq where
  | none | instr | firing
deriving DecidableEq, Repr

/-- A trace record (R372). -/
abbrev TraceRec := BitVec 128

/-- A core: run slot, stage slot, spawn channel, counters, registers, debug module and trace encoder.
(DESIGN CHOICE, log 2; DESIGN CHOICE, log 13; DESIGN CHOICE, log 90) -/
structure Core where
  run : Option Firing
  /-- A firing placed for the empty run slot whose footprint is under way (R63). -/
  slot : Option Nat
  stage : Option Nat
  spawnq : List Nat
  issued : BitVec 32
  drained : BitVec 32
  /-- Loads whose value has not returned (R34, R279). -/
  loads : Nat
  /-- Answers the core waits for before it issues (R253, R277, R315). -/
  waits : Nat
  /-- A fault is taken and the core is stopping (R399). -/
  stopping : Bool
  /-- The core waits to retire (R34); HOW of FEND (R372). -/
  ending : Option Nat
  /-- A pre-emption request: the ck at which its window ends (R47). -/
  preempt : Option Nat
  spown : BitVec 6
  mask : BitVec 16
  held : List Nat
  evsel : KMap (BitVec 16)
  evcnt : KMap (BitVec 49)
  evinc : KMap Nat
  rctab : KMap Word
  seq : KMap (BitVec 16)
  /-- Alias stores that the core's own window loads may not have seen, the newest first: the key and the bytes before
  it (R88, R166). (DESIGN CHOICE, log 13) -/
  windows : List (Nat × List Byte)
  /-- Lines with an atomic not yet acknowledged (R170). -/
  atomLines : List Nat
  dctl : Word
  ibp : KMap Word
  dwa : KMap Word
  dwc : KMap Word
  halted : Bool
  /-- The counters have counted this ck (R379). -/
  counted : Bool
  reason : BitVec 4
  step : StepReq
  haltReq : Option (BitVec 4)
  skipBp : Bool
  /-- The context of a pending firing step (R365). -/
  stepCtx : Nat
  outcomes : List Bool
  recs : List TraceRec
  /-- The tandem firings the core is kept for, in order, each with the firings that run on the core before it (R123). -/
  kept : List (Nat × List Nat)
  /-- The leader of the tandem the core belongs to. -/
  memberOf : Option Nat
deriving DecidableEq, Repr

/-- A line of an L1 (R89): physical address of the line, its bytes, its bytes for instruction fetch, which stores made since
the fill do not reach (R192), the cores that may not use it (R169), whether it is the first to be replaced (R90), and whether
its data cannot be corrected (R445, R446). (DEDUCED, log 29; DEDUCED, log 101) -/
structure L1Line where
  line : Nat
  data : BitVec 1024
  code : BitVec 1024
  bars : List Nat
  first : Bool
  bad : Bool
deriving DecidableEq, Repr

/-- A translation (R97, R98). -/
structure Tlb where
  ctx : Nat
  va : Nat
  log : Nat
  pa : Nat
  w : Bool
  x : Bool
  c : Bool
deriving DecidableEq, Repr

/-- A plane of a matrix engine (R305). -/
structure Plane where
  loaded : Bool
  ctx : Nat
  ty : Ty
  data : List Byte
  scales : List Byte
  band : BitVec 16
deriving DecidableEq, Repr

/-- An engine command in a queue (R303, R441, R442). -/
structure EngCmd where
  id : Nat
  core : Nat
  ctx : Nat
  cas : Nat
  queue : Nat
  words : List Word
  prog : Nat
  crc : Word
  held : Bool
  /-- The activation bytes of the running piece read so far, in blocks of 64 (R172). -/
  act : List Byte
  /-- Bytes written whose completion record is written (R104). -/
  recDone : Bool
deriving DecidableEq, Repr

/-- A cassette. (DESIGN CHOICE, log 2) -/
structure Cas where
  l1co : BitVec 2
  l1coNext : Option (BitVec 2)
  wsarea : BitVec 5
  wsareaNext : Option (BitVec 5)
  inbmin : KMap Nat
  inbcap : KMap Nat
  lines : List L1Line
  /-- Lines under way to the L1 under class Stream (R90). -/
  streams : List Nat
  tlb : List Tlb
  /-- Capability cache: context, region index, entry (R177). -/
  caps : List (Nat × Nat × BitVec 256)
  /-- Grant cache: context, index, entry (R302). -/
  grants : List (Nat × Nat × Word)
  shadow : Plane
  active : Plane
  /-- Queues 0 (matrix) and 1 to 4 (copy queues 0 to 3). -/
  queues : KMap (List EngCmd)
  /-- Queues and contexts whose commands a stop has asked to save (R442). -/
  stops : List (Nat × Nat)
  acct : KMap (List Word)
  /-- Corrected errors of the cassette's SRAM (R445). -/
  corrected : Nat
deriving DecidableEq, Repr

/-- An entry of a duplicate table (R443): the slice that holds it, the one its atomic was numbered for (R343), which a retired
slice's entries keep (R447), the source core, SEQ and the result returned. -/
structure Dup where
  slice : Nat
  made : Nat
  core : Nat
  seq : BitVec 16
  vals : List (Nat × Word)
  p7 : Option Bool
deriving DecidableEq, Repr

/-- A die: its dispatcher's and devices' registers. (DESIGN CHOICE, log 2; DEDUCED, log 59) -/
structure Die where
  patience : Nat
  /-- ctl.PATIENCE as the last pop found it (R81). -/
  patienceNow : Nat
  cxwt : KMap Byte
  dspillBase : BitVec 12
  dspillSize : BitVec 8
  actfc : Word
  bktab : KMap Byte
  grptab : Word
  grptabSet : Bool
  preemptwin : Nat
  spawnq : Nat
  trring : Word
  trctl : Word
  inserted : Nat
  pointer : Nat
  /-- The context last popped and the pops it took in a row (R59). -/
  lastCtx : Nat
  popsTaken : Nat
  /-- Pops counted per bank head: bank·64 + context, to the head's firing and the count (R58). -/
  heads : KMap (Nat × Nat)
  /-- Table cache: context, level, index, entry (R98). -/
  tables : List (Nat × Nat × Nat × Word)
  dups : List Dup
  retired : List Nat
  /-- Corrected errors by slice (R445), and the ck of those that lie in the window of R447. -/
  corrected : KMap Nat
  recent : List (Nat × Nat)
  /-- Lines that could not be corrected when they were last read (R447). -/
  failing : List Nat
  tbuf : List TraceRec
  widx : Nat
  lost : Nat
  ridx : Nat
  drops : Nat
  fullSince : Option Nat
  /-- Saved engine commands (R442). -/
  savedCmds : List EngCmd
  hot : Bool
  /-- The die's vector clock, by die of the package (R167). (DESIGN CHOICE, log 5) -/
  clock : KMap (BitVec 32)
  /-- The die answers no link check (R449). -/
  gone : Bool
  /-- Lock releases kept for a lost package (R433): home slice, context, records, and the ticket whose reservation is cleared.
  (DEDUCED, log 59) -/
  keptRel : List (Nat × Nat × List LockEl × RelMode)
  /-- Actors that last issued mxrun on the die (R80): context·2^56 + header address. -/
  mxActors : List Nat
deriving DecidableEq, Repr

/-- The mailbox of the management controller (R358). -/
structure Mailbox where
  cmd : BitVec 32
  seq : BitVec 32
  len : BitVec 32
  go : Bool
  req : KMap Byte
  rseq : BitVec 32
  status : BitVec 32
  rlen : BitVec 32
  rsp : List Byte
deriving DecidableEq, Repr

/-- 56 bytes of a packet on a spoke link (R348): the message whose packet it is, whether the packet uses the second buffer
class (R347), the bytes, and whether they are the packet's last. (DESIGN CHOICE, log 58) -/
structure Flit where
  tag : Nat
  second : Bool
  data : List Byte
  last : Bool
deriving DecidableEq, Repr

/-- One end of a spoke link (R348): the next FSEQ it sends, the last flit of its own acknowledged, the next FSEQ it expects,
the credits last returned to it, how many it has to return, by VN and class, flits that wait for room in the replay buffer, that
buffer, each flit in it with the credits it returned, and the bytes received of a packet whose last flit is still to come. (DESIGN CHOICE, log 58) -/
structure Link where
  up : Bool
  fseq : BitVec 12
  acked : BitVec 12
  expect : BitVec 12
  cred : BitVec 8
  owed : List Nat
  queue : List Flit
  replay : List (BitVec 12 × BitVec 8 × Flit)
  received : List Byte
deriving DecidableEq, Repr

/-- A packet a package keeps until it is acknowledged (R448): sequence number, message, the key of the part of a store it
carries, sends, the ck of the last, and whether it has come to its destination. (DESIGN CHOICE, log 58) -/
structure Unacked where
  seq : Nat
  tag : Nat
  part : Option Nat
  sends : Nat
  sent : Nat
  here : Bool
deriving DecidableEq, Repr

/-- End-to-end state toward one package (R448): the next sequence number, the packets kept, and the next sequence number
expected from it. (DESIGN CHOICE, log 2) -/
structure Peer where
  next : Nat
  unacked : List Unacked
  expect : Nat
deriving DecidableEq, Repr

/-- A package. (PRESUMED, log 61) -/
structure Pkg where
  facc : Option (BitVec 128)
  st : BitVec 8
  rcroute : KMap Byte
  podgeom : BitVec 18
  cxldec : KMap (BitVec 256)
  mbox : Mailbox
  cap : Nat
  meas : KMap (BitVec 256)
  msix : List Nat
  dump : Option (Nat × Nat × Word × List (Nat × Nat))
  links : KMap Link
  peers : KMap Peer
  lost : List Nat
  /-- The base addresses the host has given BAR0 and BAR2, by byte; the MSI-X table, by byte, its pending bits, and the Message
  Control word of its capability (R349, R350). (PRESUMED, log 61) -/
  bars : KMap Byte
  msixTab : KMap Byte
  msixPend : List Nat
  msixCtl : BitVec 16
  /-- log2 of the size of BAR2 (R349). (DESIGN CHOICE, log 4) -/
  bar2 : Nat
deriving DecidableEq, Repr

/-- A barrier instance (R269). -/
structure Barrier where
  gen : BitVec 32
  count : Nat
  e : Nat
deriving DecidableEq, Repr

/-- The per-context registers and what the device keeps for a context. (DEDUCED, log 48) -/
structure Ctx where
  ticketw : Word
  xmapbase : Word
  xmapcnt : Word
  ptroot : Word
  detctl : Word
  rgntab : Word
  rgncnt : Word
  dettab : Word
  detn : Word
  detstat : Word
  captab : Word
  capcnt : Word
  syshdr : Word
  fltch : Word
  bars : KMap Barrier
  /-- Stored contributions: element address, first index, level (R184). -/
  cover : List (Nat × Nat × Nat)
deriving DecidableEq, Repr

/-- What the home keeps of a multicast group (R112): HIGH; the membership intervals: core, first generation, and the
first generation no longer a member; and the generations whose hold is released, with the members it had marked (R434).
(DEDUCED, log 33; DESIGN CHOICE, log 2) -/
structure Group where
  high : BitVec 32
  members : List (Nat × BitVec 32 × Option (BitVec 32))
  past : List (BitVec 32 × List Nat)
deriving DecidableEq, Repr

/-- States of a hold entry (R114, R436). -/
inductive HoldState where
  | opened | fired | held | failed
deriving DecidableEq, Repr

/-- A hold entry (R113). (DESIGN CHOICE, log 2) -/
structure Hold where
  slice : Nat
  desc : Nat
  handle : Nat
  ctx : Nat
  gen : BitVec 32
  pa : Nat
  len : Nat
  due : Nat
  expc : Nat
  marked : List Nat
  state : HoldState
  /-- The bytes read. -/
  data : List Byte
  read : Bool
  /-- The hold for generation g + B − 1 has fired (R114). -/
  surpassed : Bool
  /-- The tags of its marked members' requests, which their fills carry (R340). -/
  asks : KMap Nat
deriving DecidableEq, Repr

/-- What the dispatcher keeps of a channel beside its descriptor: the next index to count, the slots freed above
CIDX, and the arrival times of counted slots (R40, R41, R375). -/
structure Chan where
  next : BitVec 32
  counted : List (BitVec 32 × Word)
  freed : List (BitVec 32)
  /-- The destination core of a slot a cassette wrote for a packet (R52, R289). -/
  dests : List (BitVec 32 × Nat)
  /-- The header of the next slot, where its mark is wrong: a write of it is looked at (R38, R425). -/
  await : Option Nat
  /-- A restored channel: the PIDX up to which slots are claimed as new, without a drain check (R454). -/
  restored : Option (BitVec 32)
  /-- Debug channel: a request is at a module (R367). -/
  busy : Bool
deriving DecidableEq, Repr

/-- A store or write-back on its way to its destination (R253): its number is the store-issue count before it. -/
structure PStore where
  tag : Nat
  core : Nat
  ctx : Nat
  num : BitVec 32
  va : Nat
  key : Nat
  data : List Byte
  /-- A release: the scope whose earlier stores it follows, and the clock it carries (R167). -/
  rel : Option Scope
  clock : KMap (BitVec 32)
  /-- The access went through the global window to the core's own slice. -/
  window : Bool
  /-- The cache class (R90). -/
  cls : BitVec 2
  /-- The block and slot of a tandem whose commit it waits for, 16·BSN + slot (R129, R130). -/
  blk : Option Nat
deriving DecidableEq, Repr

/-- Forms of an atomic or reduction on its way (R265 to R268). -/
inductive AtomKind where
  | amo | amon | cas | casq | amov | red
deriving DecidableEq, Repr

/-- An atomic or a red on its way to its home, kept until its acknowledgement arrives (R264, R268, R443). -/
structure Atom where
  core : Nat
  ctx : Nat
  kind : AtomKind
  fn : AtomFn
  ty : Ty
  key : Nat
  va : Nat
  /-- Operands, one an element (for cas the new value, for red the contribution). -/
  ops : List Nat
  /-- The expected value of cas; the first index of red. -/
  expected : Nat
  /-- The destination word; the level of red. -/
  dword : Nat
  seq : BitVec 16
  /-- Acquire and release parts (R154). -/
  acq : Option Scope
  rel : Option Scope
  /-- The clock an ordered one carries (R167). -/
  clock : KMap (BitVec 32)
  /-- Names the instruction: the lines of one amov share it. -/
  group : Nat
  /-- The store-issue count before the instruction (R39). -/
  num : BitVec 32
  /-- The cache class (R90). -/
  cls : BitVec 2
  applied : Bool
  /-- Reads tried at an uncorrectable line (R444). -/
  reads : Nat
  /-- The slice it is numbered for (R343). -/
  made : Nat
deriving DecidableEq, Repr

/-- A route-class packet (R289). -/
structure Packet where
  src : Nat
  dest : Nat
  ctx : Nat
  cls : Nat
  opc : Nat
  time : BitVec 32
  payload : List Byte
  answered : Bool
deriving DecidableEq, Repr

/-- A debug request at a module (R368); its status is 256 until the module has served it, and 257 from then on while its
response waits for a halt (R371). DSTAT is kept as the operation leaves it. -/
structure DbgReq where
  chan : Nat
  chanPa : Nat
  ctx : Nat
  idx : BitVec 32
  tag : BitVec 32
  op : Nat
  target : Nat
  arg0 : Word
  arg1 : Word
  resp : Nat
  status : Nat
  value : Word
  dstat : Word
deriving DecidableEq, Repr

/-- A control-register access on its way (R315). -/
structure CtlAcc where
  core : Nat
  ctx : Nat
  num : Nat
  inst : Nat
  index : Nat
  write : Bool
  data : Word
  dword : Nat
deriving DecidableEq, Repr

/-- How an error of a line shows (R444, R445). -/
inductive ErrKind where
  | corrected | uncorrectable
  /-- The DRAM of the line does not answer. -/
  | silent
deriving DecidableEq, Repr

/-- A message in flight, named by its tag. (DESIGN CHOICE, log 7) -/
inductive Msg where
  /-- A lock request to one home slice, with the reads tried of a record's line that fails (R444). -/
  | lockReq (f : Nat) (home : Nat) (els : List LockEl) (ticket : Option Nat) (reads : Nat)
  /-- The batched request to a foreign package, which its entry router fans out (R71). -/
  | lockBatch (f : Nat) (pkg : Nat) (els : List LockEl) (ticket : Option Nat)
  | lockRel (die home ctx : Nat) (els : List LockEl) (mode : RelMode)
  | chres (core out chan dword : Nat)
  /-- An answer from a core or slice to a core: the tag of its request, p7, the words it writes, and the type and payload of the
  trace record it completes. -/
  | answer (req src core : Nat) (p7 : Option Bool) (ws : List (Nat × Word)) (mark : Option (Nat × Nat))
  | spawn (src target f : Nat)
  | packet (p : Packet)
  | wback (core ctx va line : Nat) (num : BitVec 32)
  | atom (a : Atom)
  | atomAck (of : Nat) (p7 : Option Bool) (ws : List (Nat × Word))
  | hand (core ctx va : Nat) (kind : HandKind) (owner : Nat) (img stage : Word) (pc : Nat)
  | handDone (req src core : Nat) (fail : Option Trap) (sync : Option (Nat × Nat))
  | tlb (core ctx va dword : Nat) (kind : TlbKind)
  | ctl (a : CtlAcc)
  | bar (core ctx key e dword : Nat)
  | sync (src core off arr bytes : Nat) (back : Option Nat)
  | swinit (core off : Nat) (w0 w1 : Word) (back : Nat)
  | group (core ctx handle dword : Nat) (join : Bool)
  | gld (core ctx handle : Nat) (gen : BitVec 32) (pa len va : Nat)
  | solo (core ctx : Nat) (pa len dest sw : Nat) (handle : Nat) (gen : BitVec 32)
  | fill (req src core ctx dest sw : Nat) (data : List Byte)
  | eng (c : EngCmd) (mask : Nat)
  | tret (core ctx : Nat) (fid : Word) (act dword : Nat)
  | dbg (r : DbgReq)
  | hostWrite (pkg off : Nat) (data : List Byte) (relaxed : Bool)
  | hostRead (pkg off n : Nat)
  | facc (pkg : Nat) (val : BitVec 128)
  | bar0 (pkg off : Nat) (data : List Byte)
  /-- The host reads its configuration space, sizes BAR2, or writes its own memory (R349, R374). -/
  | cfgRead (pkg off n : Nat)
  | sizeBar (pkg log : Nat)
  | hostMem (addr : Nat) (data : List Byte)
  /-- The host reads BAR0, or writes its configuration space (R349, R350). -/
  | bar0Read (pkg off n : Nat)
  | cfgWrite (pkg off : Nat) (data : List Byte)
  /-- An error of an array (R445): of a line, corrected or not, or of a DRAM that does not answer; and of a core's vector
  register. -/
  | lineError (line : Nat) (kind : ErrKind)
  | laneError (core reg : Nat) (fixed : Bool)
  /-- An error of a line of a cassette's L1, in its SRAM (R445). -/
  | l1Error (cas line : Nat) (fixed : Bool)
  /-- A read of a core or an engine at an address homed in a package that cannot be reached (R448), and whether a core waits for
  it. -/
  | read (src : Nat) (waits : Bool) (ctx va key : Nat)
  /-- A record in a die's trace buffer is lost to an error of the buffer (R450). -/
  | bufError (die : Nat)
  | flit (pkg link : Nat) (fseq ack : BitVec 12) (cred : BitVec 8) (f : Flit) (lcrc : BitVec 32)
  | doe (pkg : Nat) (req : List Byte)
deriving DecidableEq, Repr

/-- The state of the pod. (DESIGN CHOICE, log 2; DESIGN CHOICE, log 12; DESIGN CHOICE, log 64) -/
structure State where
  /-- %time (R29). (DESIGN CHOICE, log 64) -/
  time : Word
  mem : List Host.Cell
  /-- Changes of ctl.L1CO in force, by cassette (R82). -/
  changes : KMap Nat
  /-- Lines whose data cannot be corrected (R446), by their line key. -/
  bad : List Nat
  /-- Lines whose DRAM does not answer (R444). -/
  silent : List Nat
  /-- Dirty L2 lines (R94), and those of them written under class Stream, which are first to be replaced (R90). -/
  dirty : List Nat
  streamed : List Nat
  /-- Keys of the sync words that swinit has written (R100). (DESIGN CHOICE, log 12) -/
  syncs : List Nat
  cores : KMap Core
  cass : KMap Cas
  dies : KMap Die
  pkgs : KMap Pkg
  ctxs : KMap Ctx
  firings : KMap Firing
  pend : List PStore
  groups : KMap Group
  holds : KMap Hold
  /-- Group requests waiting at a slice for a hold entry (R113, R116). -/
  holdWait : List (Nat × Nat)
  chans : KMap Chan
  /-- Records that stop no firing and wait in their die for a slot of a fault channel (R401): the core they are written
  near, the core they name, the context and the words. -/
  notices : List (Nat × Nat × Nat × List Nat)
  msgs : KMap Msg
  agenda : List (Nat × Instr)
  sched : List Turn
  choices : List Nat
  fresh : Nat
  nextTag : Nat
  /-- Host memory the trace rings lie in (R374). -/
  host : List Host.Cell
  /-- Answers to host reads and DOE requests, by tag (R353, R356); none for an aborted read. -/
  hostAns : List (Nat × Option (List Byte))
  /-- The core whose turn it is. -/
  cur : Nat
deriving DecidableEq, Repr

/-! ## Reset values (R459 and each register's default) -/

/-- A core after reset. (DESIGN CHOICE, log 4) -/
def Core.reset : Core where
  run := none
  slot := none
  stage := none
  spawnq := []
  issued := 0
  drained := 0
  loads := 0
  waits := 0
  stopping := false
  ending := none
  preempt := none
  spown := 0
  mask := 0
  held := []
  evsel := []
  evcnt := []
  evinc := []
  rctab := []
  seq := []
  windows := []
  atomLines := []
  dctl := 0
  ibp := []
  dwa := []
  dwc := []
  halted := false
  counted := false
  reason := 0
  step := .none
  haltReq := none
  skipBp := false
  stepCtx := 0
  outcomes := []
  recs := []
  kept := []
  memberOf := none

/-- A plane that has never been loaded (R307). -/
def Plane.reset : Plane := ⟨false, 0, .i8, [], [], 0⟩

/-- A cassette after reset: ctl.L1CO 0b10 (R106), ctl.WSAREA 4 (R318). (DESIGN CHOICE, log 4) -/
def Cas.reset : Cas where
  l1co := 2
  l1coNext := none
  wsarea := 4
  wsareaNext := none
  inbmin := []
  inbcap := []
  lines := []
  streams := []
  tlb := []
  caps := []
  grants := []
  shadow := Plane.reset
  active := Plane.reset
  queues := []
  stops := []
  acct := []
  corrected := 0

/-- A die after reset (R81, R93, R120, R318, R373). (DESIGN CHOICE, log 4) -/
def Die.reset : Die where
  patience := 8
  patienceNow := 8
  cxwt := []
  dspillBase := 0xBFC
  dspillSize := 4
  actfc := 0
  bktab := []
  grptab := 0
  grptabSet := false
  preemptwin := 65536
  spawnq := 16
  trring := 0
  trctl := 0
  inserted := 0
  pointer := 0
  lastCtx := 0
  popsTaken := 0
  heads := []
  tables := []
  dups := []
  retired := []
  corrected := []
  recent := []
  failing := []
  tbuf := []
  widx := 0
  lost := 0
  ridx := 0
  drops := 0
  fullSince := none
  savedCmds := []
  hot := false
  clock := []
  gone := false
  keptRel := []
  mxActors := []

/-- The mailbox after reset: GO and RSEQ are 0 (R358). (DESIGN CHOICE, log 4) -/
def Mailbox.reset : Mailbox := ⟨0, 0, 0, false, [], 0, 0, 0, []⟩

/-- A spoke link after reset: in service. (DESIGN CHOICE, log 4) -/
def Link.reset : Link := ⟨true, 0, 0, 0, 0, [0, 0, 0, 0, 0, 0, 0, 0], [], [], []⟩

/-- A package after reset and bring-up: STATE 0x02 (R357), the power cap 10,500 W (R358). (DESIGN CHOICE, log 4) -/
def Pkg.reset : Pkg where
  facc := none
  st := 0x02
  rcroute := []
  podgeom := 0
  cxldec := []
  mbox := Mailbox.reset
  cap := 10500
  meas := []
  msix := []
  dump := none
  links := []
  peers := []
  lost := []
  bars := []
  msixTab := []
  msixPend := []
  msixCtl := 0
  bar2 := 40

/-- A context after reset: every register 0. (DESIGN CHOICE, log 4) -/
def Ctx.reset : Ctx where
  ticketw := 0
  xmapbase := 0
  xmapcnt := 0
  ptroot := 0
  detctl := 0
  rgntab := 0
  rgncnt := 0
  dettab := 0
  detn := 0
  detstat := 0
  captab := 0
  capcnt := 0
  syshdr := 0
  fltch := 0
  bars := []
  cover := []

/-- A channel the dispatcher has counted nothing of. (DESIGN CHOICE, log 4) -/
def Chan.reset : Chan := ⟨0, [], [], [], none, none, false⟩

/-- The machine right after reset (R459): memory zero, caches, tables and queues empty, registers at their defaults.
(DESIGN CHOICE, log 2; DESIGN CHOICE, log 4) -/
def State.reset : State where
  time := 0
  mem := []
  changes := []
  bad := []
  silent := []
  dirty := []
  streamed := []
  syncs := []
  cores := []
  cass := []
  dies := []
  pkgs := []
  ctxs := []
  firings := []
  pend := []
  groups := []
  holds := []
  holdWait := []
  chans := []
  notices := []
  msgs := []
  agenda := []
  sched := []
  choices := []
  fresh := 0
  nextTag := 0
  host := []
  hostAns := []
  cur := 0

end Sys2Proof.Machine
end

