-- ==== Sys2Proof/Machine/Ops.lean ====
section
/-! DEFINITION. The named operations over the state: units and their registers, memory, the workspace, translation and
the address checks, messages and the agenda, taking a fault and returning from one. -/

namespace Sys2Proof.Machine

/-- What a step answers. -/
abbrev Out := Host.Outcome State Fault Refusal

/-- A computation that a fault may end (R396). -/
abbrev Res (α : Type) := Except Trap α

/-! ## Names of units (R9, R10) -/

/-- The cassette of a core. -/
def casOf (c : Nat) : Nat := c / 8

/-- The die of a core: package·16 + die. -/
def dieOf (c : Nat) : Nat := c / 2048

/-- The package of a core. -/
def pkgOf (c : Nat) : Nat := c / 32768

/-- The smallest scope that holds two cores (R155, R165). (DEDUCED, log 34) -/
def spanScope (a b : Nat) : Scope :=
  if casOf a = casOf b then .cas else if dieOf a = dieOf b then .die else if pkgOf a = pkgOf b then .pkg else .pod

/-- The slice number of the cassette of a core on its die, CX + 12·CY (R93). -/
def sliceNo (c : Nat) : Nat := c / 128 % 16 + 12 * (c / 8 % 16)

/-- Core 0 of the cassette above slice n of a die (R93, R340). -/
def sliceCore (die n : Nat) : Nat := die * 2048 + (n % 12) * 128 + (n / 12) * 8

namespace State

/-- The registers of a core. -/
def core (s : State) (c : Nat) : Core := s.cores.get c Core.reset

/-- The registers of a cassette. -/
def cas (s : State) (k : Nat) : Cas := s.cass.get k Cas.reset

/-- The registers of a die. -/
def die (s : State) (k : Nat) : Die := s.dies.get k Die.reset

/-- The registers of a package. -/
def pkg (s : State) (k : Nat) : Pkg := s.pkgs.get k Pkg.reset

/-- The registers of a context. (DEDUCED, log 48) -/
def ctx (s : State) (k : Nat) : Ctx := s.ctxs.get k Ctx.reset

/-- Replace a core. -/
def setCore (s : State) (c : Nat) (x : Core) : State := { s with cores := s.cores.set c x }

/-- Replace a cassette. -/
def setCas (s : State) (k : Nat) (x : Cas) : State := { s with cass := s.cass.set k x }

/-- Replace a die. -/
def setDie (s : State) (k : Nat) (x : Die) : State := { s with dies := s.dies.set k x }

/-- Replace a package. -/
def setPkg (s : State) (k : Nat) (x : Pkg) : State := { s with pkgs := s.pkgs.set k x }

/-- Replace a context. -/
def setCtx (s : State) (k : Nat) (x : Ctx) : State := { s with ctxs := s.ctxs.set k x }

/-- Replace a firing that runs on no core. -/
def setFir (s : State) (f : Firing) : State := { s with firings := s.firings.set f.key f }

/-- The running firing of the core whose turn it is. -/
def run? (s : State) : Option Firing := (s.core s.cur).run

end State

/-- A header with nothing in it. -/
def Hdr.blank : Hdr := ⟨0, 15, 0, 0, 0, false, 0, false, 0, 0, 0, [], [], []⟩

/-- A firing with nothing in it: what a core without a firing reads as. -/
def Firing.blank : Firing where
  key := 0
  id := 0
  ctx := 0
  hdr := 0
  head := Hdr.blank
  entry := 0
  args := []
  src := .post
  sender := 0
  sent := 0
  arrived := 0
  guard := .none
  watched := false
  path := 0
  kids := 0
  stage := .made
  die := 0
  bank := 0
  spilled := false
  reins := false
  age := 0
  tries := 0
  ticket := none
  pin := false
  elem := none
  set := []
  got := []
  outstanding := 0
  tryFailed := false
  order := []
  rsvd := 0
  inRound := false
  granted := false
  firstPop := 0
  core := 0
  wp := 0
  placed := false
  pc := 0
  c := false
  k := false
  groups := 1
  vregs := []
  badVecs := []
  vecUsed := false
  claims := []
  resv := []
  saved := false
  block := 0
  last := 0
  trap := none
  recorded := false
  retries := 0
  tandem := none
  width := 0
  live := (0, 0)
  begun := false
  doomed := false
  faultCore := none
  started := 0
  executed := 0
  fresh := false

namespace State

/-- The running firing of the core whose turn it is. -/
def cf (s : State) : Firing := s.run?.getD Firing.blank

/-- Replace the running firing of the core whose turn it is. -/
def setCf (s : State) (f : Firing) : State := s.setCore s.cur { s.core s.cur with run := some f }

/-- The context of the running firing. -/
def cctx (s : State) : Nat := s.cf.ctx

/-- A fresh count, and the state that has used it. -/
def useFresh (s : State) : State := { s with fresh := s.fresh + 1 }

/-- The next recorded outcome of a choice the spec leaves open, below n (0 when none is recorded).
(DESIGN CHOICE, log 17) -/
def choice (s : State) (n : Nat) : Nat := (s.choices.headD 0) % n

/-- The choice is used up. (DESIGN CHOICE, log 17) -/
def dropChoice (s : State) : State := { s with choices := s.choices.drop 1 }

/-! ## The agenda and messages -/

/-- A step of the device will happen, no earlier than a ck. -/
def plan (s : State) (due : Nat) (i : Instr) : State := { s with agenda := s.agenda ++ [(due, i)] }

/-- A step of the device will happen from now on. -/
def planNow (s : State) (i : Instr) : State := s.plan s.time.toNat i

/-- Send a message, with the step that will receive it. -/
def post (s : State) (m : Msg) (mk : Nat → Instr) : State :=
  { s.planNow (mk s.nextTag) with msgs := s.msgs.set s.nextTag m, nextTag := s.nextTag + 1 }

/-- The message with a tag. -/
def msg? (s : State) (t : Nat) : Option Msg := s.msgs.find t

/-- The message is received. -/
def dropMsg (s : State) (t : Nat) : State := { s with msgs := s.msgs.del t }

/-- Replace a message. -/
def setMsg (s : State) (t : Nat) (m : Msg) : State := { s with msgs := s.msgs.set t m }

end State

/-! ## Memory: one canonical list of cells -/

/-- The first key of the CXL tiers; package p has 2^44 keys. -/
def cxlBase : Nat := 2 ^ 52

/-- The first key of the scratchpad slices; core c has 2^19 keys. -/
def sliceBase : Nat := 2 ^ 56

/-- The key of a slice byte (R83). -/
def sliceKey (c off : Nat) : Nat := sliceBase + c * 2 ^ 19 + off

/-- The cassette of a slice key. -/
def keyCas (k : Nat) : Nat := (k - sliceBase) / 2 ^ 22

/-- What a byte reads as before anything is written: zero (R459); in the CXL tier a free value; in a slice whose
cassette has changed ctl.L1CO a free value, a new one for each change (R82).
(DESIGN CHOICE, log 3; DESIGN CHOICE, log 11) -/
def unlisted (ch : KMap Nat) (k : Nat) : Byte :=
  if k < cxlBase then 0
  else if k < sliceBase then Config.cxlByte k
  else if ch.get (keyCas k) 0 = 0 then 0
  else Config.sliceUndef (ch.get (keyCas k) 0 * 2 ^ 80 + k)

/-- Cells in canonical form, for what an unlisted key reads as: keys rising, and no cell holding that value. -/
def Cells.wf (u : Nat → Byte) : List Host.Cell → Bool
  | [] => true
  | [(k, v)] => v != u k
  | (k, v) :: (k', v') :: t => (v != u k) && decide (k < k') && Cells.wf u ((k', v') :: t)

/-- Read one byte. -/
def Cells.read (u : Nat → Byte) (m : List Host.Cell) (k : Nat) : Byte :=
  match m with
  | [] => u k
  | (k', v) :: t => if k = k' then v else if k < k' then u k else Cells.read u t k

/-- Write one byte, keeping the canonical form. -/
def Cells.write (u : Nat → Byte) (m : List Host.Cell) (k : Nat) (v : Byte) : List Host.Cell :=
  match m with
  | [] => if v = u k then [] else [(k, v)]
  | (k', v') :: t =>
    if k < k' then (if v = u k then (k', v') :: t else (k, v) :: (k', v') :: t)
    else if k = k' then (if v = u k then t else (k, v) :: t)
    else (k', v') :: Cells.write u t k v

/-- The pod's memory is in canonical form. -/
def Memory.wf (ch : KMap Nat) (m : List Host.Cell) : Bool := Cells.wf (unlisted ch) m

/-- Read one byte of the pod's memory. -/
def Memory.read (ch : KMap Nat) (m : List Host.Cell) (k : Nat) : Byte := Cells.read (unlisted ch) m k

/-- Write one byte of the pod's memory. -/
def Memory.write (ch : KMap Nat) (m : List Host.Cell) (k : Nat) (v : Byte) : List Host.Cell :=
  Cells.write (unlisted ch) m k v

namespace State

/-- The byte at a key. -/
def byte (s : State) (k : Nat) : Byte := Memory.read s.changes s.mem k

/-- Write the byte at a key. -/
def setByte (s : State) (k : Nat) (v : Byte) : State := { s with mem := Memory.write s.changes s.mem k v }

/-- n bytes from a key. -/
def bytes (s : State) (k : Nat) (n : Nat) : List Byte := (List.range n).map (fun i => s.byte (k + i))

/-- Write bytes from a key. -/
def setBytes (s : State) (k : Nat) (v : List Byte) : State :=
  match v with
  | [] => s
  | b :: t => (s.setByte k b).setBytes (k + 1) t

end State

/-- Bytes as a number, the first least significant (R4). -/
def leNat : List Byte → Nat
  | [] => 0
  | b :: t => b.toNat + 256 * leNat t

/-- A number as n bytes, the first least significant (R4). -/
def toLe (n : Nat) (v : Nat) : List Byte :=
  match n with
  | 0 => []
  | n + 1 => BitVec.ofNat 8 v :: toLe n (v / 256)

namespace State

/-- n bytes from a key as a number. -/
def num (s : State) (k n : Nat) : Nat := leNat (s.bytes k n)

/-- Write a number as n bytes from a key. -/
def setNum (s : State) (k n v : Nat) : State := s.setBytes k (toLe n v)

/-- The line of a key holds data that cannot be corrected (R446). -/
def isBad (s : State) (k : Nat) : Bool := s.bad.contains (k / 128)

/-! ## Packages and features -/

/-- The count of packages of the pod (R347). -/
def packages (s : State) (p : Nat) : Nat :=
  let g := (s.pkg p).podgeom
  ((g.extractLsb' 0 3).toNat + 1) * ((g.extractLsb' 3 3).toNat + 1) * ((g.extractLsb' 6 3).toNat + 1)

/-- The identifier names a core (R10), as seen from a package. -/
def isCore (s : State) (p c : Nat) : Bool :=
  decide (c < 2 ^ 24) && decide (c / 128 % 16 < 12) && decide (c / 8 % 16 < 12) && decide (pkgOf c < s.packages p)

/-- The enabled features of a package: FACC and FEAT (R351, R352). -/
def feature (s : State) (p k : Nat) : Bool :=
  match (s.pkg p).facc with
  | none => false
  | some v => v.getLsbD k && decide (k < 7)

/-- The slice size of a core in bytes (R82). -/
def sliceSize (s : State) (c : Nat) : Nat :=
  match (s.cas (casOf c)).l1co.toNat with
  | 0 => 524288
  | 1 => 458752
  | 2 => 393216
  | _ => 262144

/-- The bytes of a core's workspace area (R26, R318). -/
def wsBytes (s : State) (c : Nat) : Nat := (s.cas (casOf c)).wsarea.toNat * 4096

/-- The context is deterministic (R174). -/
def det (s : State) (x : Nat) : Bool := (s.ctx x).detctl.getLsbD 0

/-- The firing is privileged (R278). -/
def privileged (s : State) (f : Firing) : Bool :=
  let b := (s.ctx f.ctx).syshdr.toNat
  b != 0 && decide (b ≤ f.hdr ∧ f.hdr < b + 65536)

/-- A header address is privileged in a context (R278). -/
def privHdr (s : State) (x hdr : Nat) : Bool :=
  let b := (s.ctx x).syshdr.toNat
  b != 0 && decide (b ≤ hdr ∧ hdr < b + 65536)

end State

/-! ## Faults -/

/-- A fault of a class with an address (R396); pc is the faulting instruction unless it says otherwise. -/
def trapAt (cls addr : Nat) : Trap := ⟨cls, 0, addr, 0, 0, 0⟩

/-- The key of a physical address, as seen from a package (R91). -/
def physKey (p pa : Nat) : Nat := if pa / 2 ^ 49 = 1 then cxlBase + p * 2 ^ 44 + pa % 2 ^ 44 else pa

/-! ## Writer capabilities (R175 to R177) -/

namespace State

/-- The key of entry i of a context's region table (R175). -/
def rgnKey (s : State) (p x i : Nat) : Nat := physKey p ((s.ctx x).rgntab.toNat + 32 * i)

/-- Entry i of a context's region table as stored (R175). -/
def region (s : State) (p x i : Nat) : BitVec 256 := BitVec.ofNat 256 (s.num (s.rgnKey p x i) 32)

end State

/-- BASE of a region entry, in 64 KiB units. -/
def rgnBase (e : BitVec 256) : Nat := (e.extractLsb' 16 40).toNat
/-- LEN of a region entry, in 64 KiB units. -/
def rgnLen (e : BitVec 256) : Nat := (e.extractLsb' 96 32).toNat
/-- STATE of a region entry. -/
def rgnState (e : BitVec 256) : Nat := (e.extractLsb' 62 2).toNat
/-- OWNER of a region entry. -/
def rgnOwner (e : BitVec 256) : Nat := (e.extractLsb' 64 24).toNat
/-- The address lies in the region. -/
def rgnHolds (e : BitVec 256) (va : Nat) : Bool :=
  rgnState e != 0 && decide (rgnBase e * 65536 ≤ va ∧ va < (rgnBase e + rgnLen e) * 65536)
/-- ROP of a region entry. -/
def rgnOp (e : BitVec 256) : Nat := (e.extractLsb' 8 4).toNat
/-- A reserved bit of a region entry is set, or a reserved code of ROP (R5, R175, R425). -/
def rgnBad (e : BitVec 256) : Bool :=
  e.extractLsb' 212 12 != 0 || e.extractLsb' 142 18 != 0 || e.extractLsb' 88 8 != 0 || e.extractLsb' 56 6 != 0
    || e.extractLsb' 0 8 != 0 || decide (2 < rgnOp e)

namespace State

/-- The region holding an address: its index, by search from an index on. -/
def findRegion (s : State) (p x va : Nat) : Option Nat :=
  (List.range (s.ctx x).rgncnt.toNat).find? (fun i => rgnHolds (s.region p x i) va)

/-- A cassette's capability cache takes the entry that holds an address from its home, where it does not hold it as it stands
there (R177); of 64 held the oldest makes room. (DESIGN CHOICE, log 63) -/
def noteCap (s : State) (k x va : Nat) : State :=
  match s.findRegion (k / 4096) x va with
  | none => s
  | some i =>
    let q := s.cas k
    let e := (x, i, s.region (k / 4096) x i)
    if q.caps.contains e then s
    else
      let kept := q.caps.filter (fun r => !(r.1 == x && r.2.1 == i))
      s.setCas k { q with caps := (if kept.length ≥ 64 then kept.drop 1 else kept) ++ [e] }

end State

/-- Fault classes (R396). -/
abbrev Cls.illegal : Nat := 0x01
/-- Operand. -/
abbrev Cls.operand : Nat := 0x02
/-- Privilege. -/
abbrev Cls.privilege : Nat := 0x03
/-- Alignment. -/
abbrev Cls.alignment : Nat := 0x04
/-- Misaligned fetch. -/
abbrev Cls.misfetch : Nat := 0x05
/-- Non-canonical address. -/
abbrev Cls.noncanon : Nat := 0x06
/-- Window violation. -/
abbrev Cls.window : Nat := 0x07
/-- Translation. -/
abbrev Cls.translation : Nat := 0x08
/-- Bad physical address. -/
abbrev Cls.badpa : Nat := 0x09
/-- Capability. -/
abbrev Cls.capability : Nat := 0x0A
/-- Task. -/
abbrev Cls.task : Nat := 0x0B
/-- Group. -/
abbrev Cls.group : Nat := 0x0C
/-- Engine command. -/
abbrev Cls.engcmd : Nat := 0x0D
/-- Engine capability. -/
abbrev Cls.engcap : Nat := 0x0E
/-- Control register. -/
abbrev Cls.ctlreg : Nat := 0x0F
/-- Trap. -/
abbrev Cls.trap : Nat := 0x10
/-- Breakpoint. -/
abbrev Cls.brk : Nat := 0x11
/-- Uncorrectable data. -/
abbrev Cls.uncorr : Nat := 0x20
/-- Home unreachable. -/
abbrev Cls.unreach : Nat := 0x21
/-- Engine operation. -/
abbrev Cls.engop : Nat := 0x22

/-- The first fault that a list of checks raises: data faults, 0x20 and above, come after every other (R397). -/
def firstFault (rs : List (Res Unit)) : Res Unit :=
  match rs.findSome? (fun r => match r with
    | .error t => if t.cls < 0x20 then some t else none
    | .ok _ => none) with
  | some t => .error t
  | none => rs.forM id

namespace State

/-- TAKING A FAULT (R399): the running firing of a core meets a fault. The instruction has no effect; the firing keeps
its flags C and K, and the core begins to stop: FAULT_STOP follows once every load and answer has arrived (R279).
(DEDUCED, log 51) -/
def takeFault (s : State) (c : Nat) (t : Trap) : State :=
  match (s.core c).run with
  | none => s
  | some f =>
    let s := s.setCore c { s.core c with run := some { f with trap := some { t with time := s.time } }, stopping := true }
    if f.tandem.isSome then s.planNow (.tandemFault c) else s.planNow (.faultStop c)

/-- A fault that the home of an instruction reports once the pc has passed it (R253): the firing is at that instruction
again. -/
def takeFaultAt (s : State) (c : Nat) (t : Trap) : State :=
  match (s.core c).run with
  | none => s
  | some f => (s.setCore c { s.core c with run := some { f with pc := t.pc } }).takeFault c t

/-- A capability check that fails has fetched the entry from its home (R177). -/
def noteFailed (s : State) (t : Trap) : State :=
  if t.cls == Cls.capability && t.addr < 2 ^ 55 && s.det s.cctx then s.noteCap (casOf s.cur) s.cctx t.addr else s

/-- A fault of the instruction at the pc of the core whose turn it is. -/
def fault (s : State) (t : Trap) : State :=
  (s.noteFailed t).takeFault s.cur { t with pc := if t.pc = 0 then s.cf.pc else t.pc }

end State

/-! ## The workspace (R26, R27, R124) -/

/-- What an operand read of pw gives: bit 0 is 1 and bits 15:8 are 0 (R27). -/
def pwRead (w : Word) : Word := (w &&& 0xFFFFFFFFFFFF00FF#64) ||| 1#64

/-- One place in a tandem's program order, 16·BSN + slot, comes after another (R128, R129). -/
def tagAfter (a b : Nat) : Bool :=
  let d := (a + 2 ^ 36 - b % 2 ^ 36) % 2 ^ 36
  d != 0 && decide (d < 2 ^ 35)

/-- The place of the next instruction of a tandem. -/
def Tandem.now (t : Tandem) : Nat := 16 * t.bsn + t.slot

/-- A tandem is between two commit boundaries: it has a block that has begun and is not committed (R131). -/
def Tandem.mid (t : Tandem) : Bool := t.slot != 0 || t.ended || !t.flight.isEmpty

namespace State

/-- A word as held: of a tandem its youngest version that is older than the instruction, otherwise the slice bytes at WP (R26,
R128). -/
def rawWord (s : State) (f : Firing) (i : Nat) : Word :=
  match f.tandem with
  | some t =>
    match t.versions.reverse.find? (fun v => v.word == i && !tagAfter (16 * v.bsn + v.slot) t.now) with
    | some v => v.val
    | none => t.words.get i 0
  | none => BitVec.ofNat 64 (s.num (sliceKey f.core (f.wp + 8 * i)) 8)

/-- A word of the running firing as an operand (R196). -/
def word (s : State) (i : Nat) : Word :=
  if i = 0 then pwRead (s.rawWord s.cf 0) else s.rawWord s.cf i

/-- Write a word whole. -/
def setRaw (s : State) (i : Nat) (v : Word) : State :=
  let f := s.cf
  match f.tandem with
  | some t => s.setCf { f with tandem := some { t with
      versions := t.versions ++ [⟨t.members.getD (i % t.members.length) 0, t.bsn, t.slot, i, v⟩] } }
  | none => s.setNum (sliceKey f.core (f.wp + 8 * i)) 8 v.toNat

/-- Write a word as an operand: a write of w0 changes only bits 7:1 (R196). -/
def setWord (s : State) (i : Nat) (v : Word) : State :=
  if i = 0 then s.setRaw 0 ((s.rawWord s.cf 0 &&& ~~~0xFE#64) ||| (v &&& 0xFE#64)) else s.setRaw i v

/-- The predicate p of the running firing; p0 is 1 (R27). -/
def pred (s : State) (p : Nat) : Bool := if p = 0 then true else (s.rawWord s.cf 0).getLsbD p

/-- Write a predicate; a write of p0 has no effect (R27). -/
def setPred (s : State) (p : Nat) (b : Bool) : State :=
  if p = 0 then s
  else
    let m : Word := 1#64 <<< p
    let w := s.rawWord s.cf 0
    s.setRaw 0 (if b then w ||| m else w &&& ~~~m)

/-- The guard holds (R195). -/
def guardHolds (s : State) (g : Guard) : Bool := (s.pred g.p.toNat) != g.neg

/-- WSN of the running firing. -/
def wsn (s : State) : Nat := s.cf.head.wsn

/-- The running firing moves to an address. -/
def jump (s : State) (pc : Nat) : State := s.setCf { s.cf with pc := pc }

/-- The instruction after this one (R190). -/
def advance (s : State) : State := s.jump (s.cf.pc + 12)

/-- A commit point completes: C and K become 1 (R46, R398). (DEDUCED, log 25) -/
def commit (s : State) : State := s.setCf { s.cf with c := true, k := true }

/-- Count an event of a core (R378). -/
def count (s : State) (c code n : Nat) : State :=
  let x := s.core c
  s.setCore c { x with evinc := x.evinc.set code (x.evinc.get code 0 + n) }

/-- The core waits for one more answer before it issues (R253, R277). (DEDUCED, log 24) -/
def awaitAnswer (s : State) (c : Nat) : State :=
  let x := s.core c
  s.setCore c { x with waits := x.waits + 1 }

/-- An answer has arrived. -/
def gotAnswer (s : State) (c : Nat) : State :=
  let x := s.core c
  s.setCore c { x with waits := x.waits - 1 }

/-- Move the slot number of a core's tandem. -/
def moveSlot (s : State) (c : Nat) (f : Nat → Nat) : State :=
  match (s.core c).run with
  | some g =>
    match g.tandem with
    | some t => s.setCore c { s.core c with run := some { g with tandem := some { t with slot := f t.slot } } }
    | none => s
  | none => s

/-- The core runs a tandem that stands inside a block. -/
def inBlock (s : State) (c : Nat) : Bool :=
  match (s.core c).run with
  | some g => (match g.tandem with | some t => t.slot != 0 | none => false)
  | none => false

/-- Act on the running firing of another core: the body sees that core as the one whose turn it is. On a tandem what it
writes belongs to the slot of the last instruction issued, which waits for it (R128). -/
def onCore (s : State) (c : Nat) (body : State → State) : State :=
  if s.inBlock c then
    { ((body ({ s with cur := c }.moveSlot c (· - 1))).moveSlot c (· + 1)) with cur := s.cur }
  else { body { s with cur := c } with cur := s.cur }

/-- Write words of the running firing. -/
def setWords (s : State) (ws : List (Nat × Word)) : State := ws.foldl (fun s w => s.setWord w.1 w.2) s

end State

/-- An instruction has executed with a true guard on core c: its firing counts it (R372), and the core (R378).
(DEDUCED, log 35) -/
def State.tally (s : State) (c : Nat) : State :=
  (if s.run?.isSome then s.setCf { s.cf with executed := s.cf.executed + 1 } else s).count c 0x03 1

namespace State

/-- The state as if all data could be corrected and every home reached. -/
def sound (s : State) : State :=
  { s with
    bad := [], silent := []
    cores := s.cores.map (fun (e : Nat × Core) => (e.1, { e.2 with run := e.2.run.map (fun f => { f with badVecs := [] }) }))
    cass := s.cass.map (fun (e : Nat × Cas) => (e.1, { e.2 with lines := e.2.lines.map (fun l => { l with bad := false }) }))
    pkgs := s.pkgs.map (fun (e : Nat × Pkg) => (e.1, { e.2 with lost := [] })) }

/-- The fault that a body which meets one raises: uncorrectable data and a home that is unreachable come after every other fault
(R397). -/
def firstRaised (s : State) (body : State → Res State) (t : Trap) : Trap :=
  if t.cls < 0x20 then t
  else match body s.sound with
    | .error u => if u.cls < 0x20 then u else t
    | .ok _ => t

end State

/-- Run the body of an instruction on the core whose turn it is (R195): with a false guard it only advances; a fault of
the body is taken with no other effect (R398, R399), the one that raise makes of the first the body meets. The body moves the pc
itself. -/
def withGuardRaise (s : State) (hd : Head) (raise : Trap → Trap) (body : State → Res State) : Out :=
  match s.run? with
  | none => .fault .noFiring
  | some _ =>
    if s.guardHolds hd.g then
      match body s with
      | .ok s' => .next (s'.tally s.cur)
      | .error t => .next (s.fault (raise t))
    else .next s.advance

/-- As withGuardRaise, with the faults in their order (R397). -/
def withGuardJump (s : State) (hd : Head) (body : State → Res State) : Out :=
  withGuardRaise s hd (s.firstRaised body) body

/-- As withGuardJump, and the pc advances past the instruction (R190). -/
def withGuard (s : State) (hd : Head) (body : State → Res State) : Out :=
  withGuardJump s hd (fun s => (body s).map State.advance)

/-- As withGuard, for a vector access: the fault of its lowest faulting element is raised whatever the later ones meet (R397), but
for what its operands, read by opnds, meet themselves. -/
def withGuardElems (s : State) (hd : Head) (opnds : State → Res Unit) (body : State → Res State) : Out :=
  withGuardRaise s hd (fun t => match opnds s with
    | .ok _ => t
    | .error _ => s.firstRaised body t) (fun s => (body s).map State.advance)

/-- The instruction does not issue yet: nothing changes, and it is issued again (R32). -/
def notYet (s : State) (hd : Head) (wait : State → Bool) (go : Out) : Out :=
  if s.run?.isSome && s.guardHolds hd.g && wait s then .next s else go

/-! ## Physical addresses and homes (R91 to R93) -/

namespace State

/-- The decoder of a CXL offset (R355): the port it selects. A decoder with GRAN above 6 or WAYS above 3, and a PORTS
byte that names none of the 8 ports, map nothing. (DESIGN CHOICE, log 66) -/
def cxlPort (s : State) (p off : Nat) : Option Nat :=
  (List.range 8).findSome? (fun i =>
    let d := (s.pkg p).cxldec.get i 0
    let base := (d.extractLsb' 168 44).toNat
    let size := (d.extractLsb' 124 44).toNat
    let gran := (d.extractLsb' 96 4).toNat
    let ways := (d.extractLsb' 93 3).toNat
    let port := (d.extractLsb' (8 * (((off - base) / 2 ^ (8 + gran)) % 2 ^ ways)) 8).toNat
    if d.getLsbD 255 && decide (base ≤ off ∧ off < base + size ∧ gran ≤ 6 ∧ ways ≤ 3 ∧ port < 8) then some port
    else none)

/-- A physical address is good, as seen from a package (R91, R352). -/
def goodPa (s : State) (p pa : Nat) : Bool :=
  let space := pa / 2 ^ 49
  if space = 0 then decide (pa / 2 ^ 40 % 512 < s.packages p) && decide (pa % 2 ^ 36 < 0xC00000000)
  else if space = 1 then
    s.feature p 5 && decide (pa % 2 ^ 49 < 2 ^ 44) && (s.cxlPort p (pa % 2 ^ 44)).isSome
  else false

end State

/-- The physical address a key of DRAM or of a CXL tier stands for; 0 of a slice byte, which has none (R83, R91). -/
def keyPa (k : Nat) : Nat :=
  if k < cxlBase then k else if k < sliceBase then 2 ^ 49 + (k - cxlBase) % 2 ^ 44 else 0

/-- The die of a CXL port (R93). (DESIGN CHOICE, log 66) -/
def portDie (port : Nat) : Nat := if port < 4 then port else port + 8

/-- The bucket of a key (R92). -/
def bucket (k : Nat) : Nat :=
  if k < cxlBase then
    let l := k % 2 ^ 36 / 128
    (l % 4096) ^^^ (l / 4096 % 4096) ^^^ (l / 2 ^ 24 % 32)
  else
    let l := k % 2 ^ 44 / 128
    (l % 4096) ^^^ (l / 4096 % 4096) ^^^ (l / 2 ^ 24 % 4096) ^^^ (l / 2 ^ 36 % 2)

namespace State

/-- The home die of a key (R92), and of a slice byte the die of the slice. -/
def homeDie (s : State) (k : Nat) : Nat :=
  if k < cxlBase then k / 2 ^ 36 % 8192
  else if k < sliceBase then
    let p := (k - cxlBase) / 2 ^ 44
    p * 16 + portDie ((s.cxlPort p (k % 2 ^ 44)).getD 0)
  else dieOf ((k - sliceBase) / 2 ^ 19)

/-- The package that homes a key. -/
def homePkg (s : State) (k : Nat) : Nat := s.homeDie k / 16

/-- A package has declared the home of a key lost (R448). -/
def lostHome (s : State) (p k : Nat) : Bool := (s.pkg p).lost.contains (s.homePkg k)

/-- An entry of a die's bucket table; at reset entry B holds B mod 144 (R93). -/
def bucketEntry (s : State) (d b : Nat) : Nat := ((s.die d).bktab.get b (BitVec.ofNat 8 (b % 144))).toNat

/-- The home slice of a key: core 0 of the cassette above it (R92, R340). -/
def home (s : State) (k : Nat) : Nat :=
  if k < sliceBase then
    let d := s.homeDie k
    sliceCore d (s.bucketEntry d (bucket k))
  else casOf ((k - sliceBase) / 2 ^ 19) * 8

/-! ## Translation (R96 to R99) -/

/-- An entry of a page table, through the die's table cache for levels 1 and 2 (R98). -/
def tableEntry (s : State) (d x level idx key : Nat) : Word :=
  match (s.die d).tables.find? (fun e => e.1 == x && e.2.1 == level && e.2.2.1 == idx) with
  | some e => e.2.2.2
  | none => BitVec.ofNat 64 (s.num key 8)

/-- The table lies where a walk may read it: bad physical addresses, uncorrectable lines and a lost home stop it. -/
def tableOk (s : State) (p pa va : Nat) : Res Unit :=
  if !s.goodPa p pa then .error (trapAt Cls.badpa va)
  else if s.isBad (physKey p pa) then .error { trapAt Cls.uncorr va with info := pa }
  else if s.lostHome p (physKey p pa) then .error (trapAt Cls.unreach va)
  else .ok ()

/-- One level of a walk: the index, the bits below a leaf of this level, and whether a leaf is allowed (R96). -/
def levelIdx (va level : Nat) : Nat :=
  match level with
  | 1 => va / 2 ^ 43 % 4096
  | 2 => va / 2 ^ 31 % 4096
  | 3 => va / 2 ^ 25 % 64
  | _ => va / 2 ^ 19 % 64

/-- The bits of the page a leaf of a level maps (R96). -/
def levelLog (level : Nat) : Nat :=
  match level with
  | 1 => 43
  | 2 => 31
  | 3 => 25
  | _ => 19

/-- A walk from a level down (R97): n levels are left. -/
def walkFrom (s : State) (d x va : Nat) : Nat → Nat → Res Tlb
  | 0, _ => .error (trapAt Cls.translation va)
  | n + 1, base => do
    let level := 4 - n
    let idx := levelIdx va level
    s.tableOk (d / 16) (base + 8 * idx) va
    let e := s.tableEntry d x level (va / 2 ^ levelLog level) (physKey (d / 16) (base + 8 * idx))
    let ty := (e.extractLsb' 61 2).toNat
    let pa := (e.extractLsb' 9 43).toNat * 512
    if !e.getLsbD 63 || e.extractLsb' 52 6 != 0 || e.extractLsb' 0 9 != 0 then .error (trapAt Cls.translation va)
    else if ty = 0 then
      if level = 4 || (level = 1 && pa % 32768 != 0) then .error (trapAt Cls.translation va)
      else walkFrom s d x va n pa
    else if ty = 1 then
      if level = 1 || pa % 2 ^ levelLog level != 0 then .error (trapAt Cls.translation va)
      else .ok ⟨x, va / 2 ^ levelLog level * 2 ^ levelLog level, levelLog level, pa, e.getLsbD 60, e.getLsbD 59,
        e.getLsbD 58⟩
    else .error (trapAt Cls.translation va)

/-- The translation of an address: from the cassette's TLB, or by a walk of the four levels (R96, R98). -/
def lookup (s : State) (k x va : Nat) : Res Tlb :=
  match (s.cas k).tlb.find? (fun t => t.ctx == x && decide (t.va ≤ va ∧ va < t.va + 2 ^ t.log)) with
  | some t => .ok t
  | none => s.walkFrom (k / 256) x va 4 (s.ctx x).ptroot.toNat

/-- A die's table cache takes an entry; with 64 held the oldest makes room (R98). (DESIGN CHOICE, log 63) -/
def addTable (l : List (Nat × Nat × Nat × Word)) (e : Nat × Nat × Nat × Word) : List (Nat × Nat × Nat × Word) :=
  if l.contains e then l else (if l.length ≥ 64 then l.drop 1 else l) ++ [e]

/-- The level-1 and level-2 entries a completed walk has read stay in the die's table cache (R98). -/
def noteTables (s : State) (d x va : Nat) : State :=
  let p := d / 16
  let base := (s.ctx x).ptroot.toNat
  let e1 := s.tableEntry d x 1 (va / 2 ^ 43) (physKey p (base + 8 * levelIdx va 1))
  let base2 := (e1.extractLsb' 9 43).toNat * 512
  let e2 := s.tableEntry d x 2 (va / 2 ^ 31) (physKey p (base2 + 8 * levelIdx va 2))
  let q := s.die d
  s.setDie d { q with tables := addTable (addTable q.tables (x, 1, va / 2 ^ 43, e1)) (x, 2, va / 2 ^ 31, e2) }

/-- The TLB holds a translation once it has been walked, and the die's table cache what the walk read (R98); with 2,048
held the oldest makes room. (DESIGN CHOICE, log 63) -/
def noteTlb (s : State) (k : Nat) (t : Tlb) : State :=
  if (s.cas k).tlb.contains t then s
  else
    let s := s.noteTables (k / 256) t.ctx t.va
    let c := s.cas k
    s.setCas k { c with tlb := (if c.tlb.length ≥ 2048 then c.tlb.drop 1 else c.tlb) ++ [t] }

end State

/-- What an access needs of a page (R97). -/
inductive Need where
  | load | store | atomic | fetch
deriving DecidableEq, Repr

namespace State

/-! ## The check of an access (R176, R177) -/

/-- An entry permits an access by a core (R176). -/
def rgnPermits (e : BitVec 256) (c : Nat) (n : Need) : Bool :=
  !rgnBad e && (match rgnState e with
    | 1 => rgnOwner e == c
    | 2 => n == .load || n == .fetch
    | _ => false)

/-- The capability check of a translated address of an access at ea (R176, R177): first against a cached entry, then
against the entry at its home. -/
def capCheck (s : State) (c x ea va : Nat) (n : Need) : Res Unit :=
  if !s.det x then .ok ()
  else
    let cached := (s.cas (casOf c)).caps.find? (fun e => e.1 == x && rgnHolds e.2.2 va)
    if (match cached with | some e => rgnPermits e.2.2 c n | none => false) then .ok ()
    else match s.findRegion (pkgOf c) x va with
      | none => if n == .load || n == .fetch then .ok () else .error (trapAt Cls.capability ea)
      | some i => if rgnPermits (s.region (pkgOf c) x i) c n then .ok () else .error (trapAt Cls.capability ea)

/-- The capability check of a run of bytes: in every 64 KiB unit it touches (R175, R176). -/
def capSpan (s : State) (c x ea va len : Nat) (n : Need) : Res Unit :=
  if len = 0 then .ok ()
  else (List.range ((va + len - 1) / 65536 - va / 65536 + 1)).forM (fun i =>
    s.capCheck c x ea (Nat.max va ((va / 65536 + i) * 65536)) n)

/-- The physical page of an address and its permission (R97, R91). -/
def page (s : State) (c x va : Nat) (n : Need) : Res Tlb := do
  let t ← s.lookup (casOf c) x va
  if (match n with | .load => true | .store | .atomic => t.w | .fetch => t.x) then .ok t
  else .error (trapAt Cls.translation va)

end State

/-- A run of bytes of one page: virtual and physical address, key, length, and whether an L1 may hold it. -/
structure Seg where
  va : Nat
  pa : Nat
  key : Nat
  len : Nat
  cached : Bool
  tlb : Tlb
deriving DecidableEq, Repr

/-- The class of an access at its home: on a page with C = 0 an L1 class is Shared (R90). -/
def Seg.cls (q : Seg) (cls : BitVec 2) : BitVec 2 := if !q.cached && decide (cls.toNat < 2) then 2 else cls

/-- Where an access lands (R251). -/
inductive Loc where
  /-- A byte offset of a slice, through the alias or through the global window. -/
  | slice (c off : Nat) (window : Bool)
  /-- Translated memory, one segment a page. -/
  | phys (segs : List Seg)
deriving DecidableEq, Repr

namespace State

/-- The segment of a page from an address on, at most n bytes: its first and its last byte lie at good physical addresses, and
so does what lies between, since a decoder maps a multiple of 256 MiB (R91, R355). -/
def seg (s : State) (c x va n : Nat) (need : Need) : Res Seg := do
  let t ← s.page c x va need
  let pa := t.pa + (va - t.va)
  let len := Nat.min n (t.va + 2 ^ t.log - va)
  if !s.goodPa (pkgOf c) pa || !s.goodPa (pkgOf c) (pa + (len - 1)) then .error (trapAt Cls.badpa va)
  else
    .ok ⟨va, pa, physKey (pkgOf c) pa, len, t.c, t⟩

/-- The segments of n bytes from an address: each page touched is checked (R251). Fuel is the count of pages. -/
def segs (s : State) (c x va n : Nat) (need : Need) : Nat → Res (List Seg)
  | 0 => .ok []
  | fuel + 1 =>
    if n = 0 then .ok []
    else do
      let g ← s.seg c x va n need
      let r ← s.segs c x (va + g.len) (n - g.len) need fuel
      .ok (g :: r)

/-- Where an access lands and what it is checked for (R251): c is the core that acts (the leader on a tandem). -/
def whereAt (s : State) (c x ea n : Nat) (need : Need) : Res Loc :=
  if ea / 2 ^ 56 != 0 then .error (trapAt Cls.noncanon ea)
  else if ea / 2 ^ 55 % 2 = 1 then
    let t := ea / 2 ^ 31 % 2 ^ 24
    let off := ea % 2 ^ 19
    if ea / 2 ^ 19 % 4096 != 0 || !s.isCore (pkgOf c) t || decide (off + n > s.sliceSize t)
        || x != (s.core t).spown.toNat then
      .error (trapAt Cls.window ea)
    else if s.det x && t != c && (need == .store || need == .atomic) then .error (trapAt Cls.capability ea)
    else .ok (.slice t off true)
  else if ea + n ≤ s.sliceSize c then .ok (.slice c ea false)
  else if ea < 0x80000 then .error (trapAt Cls.window ea)
  else if ea + n > 2 ^ 55 then .error (trapAt Cls.window ea)
  else do
    let g ← s.segs c x ea n need 3
    g.forM (fun q => s.capSpan c x ea q.va q.len need)
    .ok (.phys g)

/-- The TLB holds the translations of an access. -/
def notePages (s : State) (k : Nat) (l : Loc) : State :=
  match l with
  | .slice _ _ _ => s
  | .phys g => g.foldl (fun s q => s.noteTlb k q.tlb) s

/-- The capability cache takes the entries that the check of an access has fetched, in every 64 KiB unit it touches (R177). An
entry that the cache holds otherwise than its home has failed the check, since only a completed reduce region changes with no
invalidation (R178). -/
def noteCaps (s : State) (k : Nat) (l : Loc) : State :=
  match l with
  | .slice _ _ _ => s
  | .phys g => (g.filter (fun q => s.det q.tlb.ctx)).foldl (fun s q =>
      (List.range ((q.va + q.len - 1) / 65536 - q.va / 65536 + 1)).foldl (fun s i =>
        s.noteCap k q.tlb.ctx ((q.va / 65536 + i) * 65536)) s) s

/-- What a cassette keeps of an access: its translations and the region entries its check has fetched (R98, R177). -/
def noteLoc (s : State) (k : Nat) (l : Loc) : State := (s.notePages k l).noteCaps k l

end State

/-- The keys of an access, in ascending address order. -/
def Loc.keys (l : Loc) (n : Nat) : List Nat :=
  match l with
  | .slice c off _ => (List.range n).map (fun i => sliceKey c (off + i))
  | .phys g => g.flatMap (fun q => (List.range q.len).map (fun i => q.key + i))

namespace State

/-! ## Trace records (R372, R374) -/

/-- TRCTL of a die lets a record of a type and context through (R373). -/
def traceOn (s : State) (d ty x : Nat) : Bool :=
  let t := (s.die d).trctl
  t.getLsbD 0 && (ty == 14 || ty == 15 || (t.getLsbD (32 + ty) && (!t.getLsbD 25 || (t.extractLsb' 26 6).toNat == x)))

/-- A record (R372). -/
def mkRec (s : State) (ty x c : Nat) (pay : Nat) : TraceRec :=
  BitVec.ofNat 6 ty ++ BitVec.ofNat 6 x ++ BitVec.ofNat 24 c ++ s.time.extractLsb' 0 28 ++ BitVec.ofNat 64 pay

/-- A core's trace encoder makes a record (R372); it waits for the concentrator to take it (R374). -/
def traceCore (s : State) (c ty x pay : Nat) : State :=
  if s.traceOn (dieOf c) ty x then
    let k := s.core c
    let s := s.setCore c { k with recs := k.recs ++ [s.mkRec ty x c pay] }
    s.planNow (.traceRecordTake (dieOf c))
  else s

/-- n bytes of host memory at a bus address as a number (R374). -/
def hostNum (s : State) (a n : Nat) : Nat := leNat ((List.range n).map (fun i => Cells.read (fun _ => 0) s.host (a + i)))

/-- Write bytes of host memory at a bus address (R374). -/
def setHost (s : State) (a : Nat) (v : List Byte) : State :=
  { s with host := v.zipIdx.foldl (fun m b => Cells.write (fun _ => 0) m (a + b.2) b.1) s.host }

/-- The ring control block of a die (R373, R374). (DESIGN CHOICE, log 103) -/
def ringBlock (s : State) (d : Nat) : Nat := (s.die d).trring.toNat

/-- LOG of a die's ring. -/
def ringLog (s : State) (d : Nat) : Nat := s.hostNum (s.ringBlock d + 8) 4 % 32

/-- Free space of a die's ring as the concentrator knows it (R374). -/
def ringFree (s : State) (d : Nat) : Nat :=
  let x := s.die d
  2 ^ s.ringLog d - (x.widx + 2 ^ 64 - x.ridx) % 2 ^ 64

/-- A record of a source that cannot stall: dropped and counted when the buffer and the ring are full (R374); where only the
buffer is, it follows what is there. -/
def traceDev (s : State) (d ty x c pay : Nat) : State :=
  if s.traceOn d ty x then
    let q := s.die d
    if q.tbuf.length ≥ 4096 && s.ringFree d = 0 then s.setDie d { q with drops := q.drops + 1 }
    else (s.setDie d { q with tbuf := q.tbuf ++ [s.mkRec ty x c pay] }).planNow (.traceRecordTake d)
  else s

/-- The BRANCH record of the outcomes gathered is written (R372). -/
def flushBranch (s : State) (c x : Nat) : State :=
  let k := s.core c
  if k.outcomes.isEmpty then s
  else
    let pay := k.outcomes.length * 2 ^ 58 + (k.outcomes.zipIdx.foldl (fun a b => if b.1 then a + 2 ^ b.2 else a) 0)
    (s.setCore c { k with outcomes := [] }).traceCore c 3 x pay

/-- A record that a BRANCH record precedes: INDIR, FEND and HALT (R372). -/
def traceAfterBranch (s : State) (c ty x pay : Nat) : State := (s.flushBranch c x).traceCore c ty x pay

/-- A conditional branch outcome is recorded (R372). -/
def branchOutcome (s : State) (c x : Nat) (taken : Bool) : State :=
  if s.traceOn (dieOf c) 3 x then
    let k := s.core c
    let s := s.setCore c { k with outcomes := k.outcomes ++ [taken] }
    if k.outcomes.length ≥ 55 then s.flushBranch c x else s
  else s

end State

end Sys2Proof.Machine
end

