-- ==== Sys2Proof/Machine/Operands.lean ====
section
/-! DEFINITION. Operand forms: scalar sources and destinations, vector registers and their elements, the lane mask
(R134, R135, R196 to R200, R214 to R216). -/

namespace Sys2Proof.Machine

/-! ## Values of a type -/

/-- The low bits of a value. -/
def lowBits (w v : Nat) : Nat := v % 2 ^ w

/-- Bits of width w read as two's complement (R6). -/
def signedOf (w v : Nat) : Int := if v % 2 ^ w ≥ 2 ^ (w - 1) then (v % 2 ^ w : Int) - 2 ^ w else (v % 2 ^ w : Int)

/-- Bits read in a type's signedness (R132). -/
def intOf (t : Ty) (v : Nat) : Int := if t.isI then signedOf t.width v else (v % 2 ^ t.width : Int)

/-- The bits of an integer at a width. -/
def bitsOf (w : Nat) (x : Int) : Nat := (x % 2 ^ w).toNat

/-- The range of an integer type (R132). -/
def tmin (t : Ty) : Int := if t.isI then -2 ^ (t.width - 1) else 0
/-- The upper bound of an integer type (R132). -/
def tmax (t : Ty) : Int := if t.isI then 2 ^ (t.width - 1) - 1 else 2 ^ t.width - 1

/-- IntResult as bits (R133, R220): wrapped, or clamped under SAT. -/
def intResult (t : Ty) (sat : Bool) (x : Int) : Nat :=
  bitsOf t.width (if sat then min (max x (tmin t)) (tmax t) else x)

/-- A scalar result in its word: an i type sign-extended, any other zero-extended (R134). -/
def fillWord (t : Ty) (v : Nat) : Word :=
  if t.isI then BitVec.ofInt 64 (signedOf t.width v) else BitVec.ofNat 64 (v % 2 ^ t.width)

/-! ## Vector registers -/

/-- The count of elements of a width under a grant of g groups (R135). -/
def lanes (g w : Nat) : Nat := 512 * g / w

/-- Element k of width w (R135). -/
def elemOf (v : VecBits) (w k : Nat) : Nat := v.toNat / 2 ^ (k * w) % 2 ^ w

/-- Elements of width w as a number, element 0 lowest. -/
def packElems (w : Nat) : List Nat → Nat
  | [] => 0
  | e :: t => e % 2 ^ w + 2 ^ w * packElems w t

/-- The register with its first elements replaced; the bits above them stay. -/
def withElems (old : VecBits) (w : Nat) (es : List Nat) : VecBits :=
  BitVec.ofNat 4608 (packElems w es + old.toNat / 2 ^ (w * es.length) * 2 ^ (w * es.length))

namespace State

/-- A vector register of the running firing. -/
def vreg (s : State) (n : Nat) : VecBits := s.cf.vregs.getD n 0

/-- Write a vector register; an instruction that uses one counts as a vector instruction of its region (R239). -/
def setVreg (s : State) (n : Nat) (v : VecBits) : State :=
  let f := s.cf
  s.setCf { f with
    vregs := (List.range 16).map (fun i => if i = n then v else f.vregs.getD i 0), vecUsed := true
    badVecs := f.badVecs.filter (· != n) }

/-- The running firing has executed a vector instruction in its region (R239). (DEDUCED, log 37) -/
def useVec (s : State) : State := (s.setCf { s.cf with vecUsed := true }).count s.cur 0x08 1

/-- Every vector register becomes undefined (R216, R239): a free value each. (DESIGN CHOICE, log 9) -/
def undefVecs (s : State) : State :=
  { s.setCf { s.cf with vregs := (List.range 16).map (fun i => Config.vecUndef (16 * s.fresh + i)), badVecs := [] } with
    fresh := s.fresh + 1 }

/-- A vector register as a source: a lane that cannot be corrected faults at the instruction, with ADDR 0 (R446). A write of
the register replaces it. (DESIGN CHOICE, log 98) -/
def vecOk (s : State) (n : Nat) : Res Unit := if s.cf.badVecs.contains n then .error (trapAt Cls.uncorr 0) else .ok ()

/-- The vector registers operands name can be read. -/
def needLanes (s : State) (os : List Opnd) : Res Unit :=
  os.forM (fun o => match o with
    | .v n => s.vecOk n.toNat
    | _ => .ok ())

/-- The lane mask can be read, where the instruction has one (R216). -/
def needMask (s : State) (lm : Bool) : Res Unit := if lm then s.vecOk 15 else .ok ()

/-- Mask(k) of the lane mask v15 at width w (R216). -/
def maskBit (s : State) (w k : Nat) : Bool := elemOf (s.vreg 15) w k % 2 = 1

/-- Element k is active (R216). -/
def active (s : State) (lm : Bool) (w k : Nat) : Bool := !lm || s.maskBit w k

/-! ## Special registers (R29) -/

/-- The value of a special register. (DESIGN CHOICE, log 64) -/
def sreg (s : State) (r : SReg) : Word :=
  let f := s.cf
  let c := f.core
  match r with
  | .core => BitVec.ofNat 64 c
  | .cas => BitVec.ofNat 64 (c / 8 % 256)
  | .die => BitVec.ofNat 64 (c / 2048 % 16)
  | .pkg => BitVec.ofNat 64 (c / 32768)
  | .elem => BitVec.ofNat 64 (f.elem.getD 0xFFFFFFFF)
  | .firing => f.id
  | .actor => BitVec.ofNat 64 f.hdr
  | .lanes => BitVec.ofNat 64 (16 * f.groups)
  | .time => s.time
  | .path => f.path
  | .tandem => match f.tandem with
    | none => 0
    | some t => BitVec.ofNat 64 (c * 256 + t.members.length)
  | .ctx => BitVec.ofNat 64 f.ctx

/-! ## Sources -/

/-- The operand fault of a word the firing does not have (R410). -/
def needWord (s : State) (i : Nat) : Res Unit := if i ≤ s.wsn then .ok () else .error (trapAt Cls.operand 0)

/-- An even word and the word after it (R410). -/
def needPair (s : State) (i : Nat) : Res Unit :=
  if i % 2 = 0 ∧ i + 1 ≤ s.wsn then .ok () else .error (trapAt Cls.operand 0)

/-- The words operands name exist (R410); they are checked before any other fault but the first two of R397. -/
def needOpnds (s : State) (os : List Opnd) : Res Unit :=
  os.forM (fun o => match o with
    | .w n => s.needWord n.toNat
    | _ => .ok ())

/-- A word as a source: data that cannot be corrected faults at the instruction (R446). -/
def srcWord (s : State) (i : Nat) : Res Word :=
  let f := s.cf
  if f.tandem.isNone && s.isBad (sliceKey f.core (f.wp + 8 * i)) then
    .error (trapAt Cls.uncorr (f.wp + 8 * i))
  else .ok (s.word i)

/-- The address of the first claimed slot of input k, as the claim found it (R42, R215, R411). -/
def slotOf (s : State) (k : Nat) : Res Word :=
  match s.cf.claims.find? (fun c => c.input == k) with
  | none => .error (trapAt Cls.task 0)
  | some c => .ok (BitVec.ofNat 64 c.slot)

/-- A scalar source as 64 bits: an immediate sign-extended (R197, R215). -/
def src64 (s : State) (o : Opnd) : Res Word :=
  match o with
  | .w n => s.srcWord n.toNat
  | .imm x => .ok (x.signExtend 64)
  | .sr r => .ok (s.sreg r)
  | .ic k => s.slotOf k.toNat
  | .v n => (s.vecOk n.toNat).map (fun _ => 0)
  | .oc _ => .ok 0

/-- A scalar source as it is held, with the data fault its read meets, which comes after every other fault (R397). -/
def srcLate (s : State) (o : Opnd) : Res (Word × Res Unit) :=
  match s.src64 o with
  | .ok v => .ok (v, .ok ())
  | .error t => if t.cls < 0x20 then .error t else .ok (match o with | .w n => s.word n.toNat | _ => 0, .error t)

/-- n words from one on hold data that can be corrected (R446). -/
def needRead (s : State) (i n : Nat) : Res Unit := (List.range n).forM (fun j => (s.srcWord (i + j)).map (fun _ => ()))

/-- A destination that is read as well, as a workspace word or as a vector register, holds data that can be corrected
(R446). -/
def needDest (s : State) (o : Opnd) : Res Unit :=
  match o with
  | .w n => (s.srcWord n.toNat).map (fun _ => ())
  | .v n => s.vecOk n.toNat
  | _ => .ok ()

/-- A scalar source of a type, as bits of its width (R134, R197, R215): in a floating type an immediate is rounded. -/
def srcT (s : State) (o : Opnd) (t : Ty) (m : Rnd) : Res Nat :=
  match o with
  | .imm x => .ok (if t.isFloat then roundTo t m false false (ofInt x.toInt) else bitsOf t.width x.toInt)
  | _ => (s.src64 o).map (fun v => v.toNat % 2 ^ t.width)

/-- A memory operand's address: base word plus offset (R199, R251). -/
def addr (s : State) (a b : Opnd) : Res Nat := do
  let x ← s.src64 a
  let y ← s.src64 b
  .ok (x + y).toNat

/-- The number of the word an operand names. -/
def wordNo (o : Opnd) : Nat :=
  match o with
  | .w n => n.toNat
  | _ => 0

/-- The number of the vector register an operand names. -/
def vecNo (o : Opnd) : Nat :=
  match o with
  | .v n => n.toNat
  | _ => 0

end State

/-- How a source is read: in a type, or as an n64 (R215, R219). -/
inductive Read where
  | ty (t : Ty)
  | n64
deriving DecidableEq, Repr

namespace State

/-- A scalar source by its way of reading; a vector source gives its elements instead. -/
def srcR (s : State) (o : Opnd) (r : Read) (m : Rnd) : Res Nat :=
  match r with
  | .ty t => s.srcT o t m
  | .n64 => (s.src64 o).map BitVec.toNat

/-- Element k of a source: a scalar gives its value to every element (R198). -/
def lane (s : State) (o : Opnd) (scalar w k : Nat) : Nat :=
  match o with
  | .v n => elemOf (s.vreg n.toNat) w k
  | _ => scalar

/-- Write the active elements of a vector destination; inactive ones keep their bits (R216). -/
def putLanes (s : State) (n : Nat) (lm : Bool) (w : Nat) (res : Nat → Nat) : State :=
  let old := s.vreg n
  let es := (List.range (lanes s.cf.groups w)).map (fun k => if s.active lm w k then res k else elemOf old w k)
  (s.setVreg n (withElems old w es)).useVec

/-- The effect of an instruction of two sources that also reads its destination (R215, R216): ra and rb say how the
sources are read, op gives the result bits from A, B and D. -/
def compute (s : State) (x : Arith) (ra rb : Read) (op : Nat → Nat → Nat → Nat) : Res State := do
  s.needOpnds [x.d, x.a, x.b]
  let a ← s.srcR x.a ra x.rnd
  let b ← s.srcR x.b rb x.rnd
  if x.d.isV then s.needMask x.lm else .ok ()
  match x.d with
  | .v n =>
    let w := x.ty.width
    .ok (s.putLanes n.toNat x.lm w (fun k =>
      op (s.lane x.a a w k) (s.lane x.b b w k) (elemOf (s.vreg n.toNat) w k)))
  | .w n =>
    .ok (s.setWord n.toNat (fillWord x.ty (op a b ((s.word n.toNat).toNat % 2 ^ x.ty.width))))
  | _ => .ok s

/-- As compute, for an instruction that reads D (R446). -/
def computeD (s : State) (x : Arith) (ra rb : Read) (op : Nat → Nat → Nat → Nat) : Res State := do
  let t ← s.compute x ra rb op
  s.needDest x.d
  .ok t

/-- The effect of an instruction of one source (R215, R216). -/
def compute1 (s : State) (x : Arith) (op : Nat → Nat) : Res State := do
  s.needOpnds [x.d, x.a]
  let a ← s.srcR x.a (.ty x.ty) x.rnd
  if x.d.isV then s.needMask x.lm else .ok ()
  match x.d with
  | .v n =>
    let w := x.ty.width
    .ok (s.putLanes n.toNat x.lm w (fun k => op (s.lane x.a a w k)))
  | .w n => .ok (s.setWord n.toNat (fillWord x.ty (op a)))
  | _ => .ok s

/-- The effect of a conversion (R224): active elements of D below the count of the source type take the converted element,
those above it are 0; a scalar A gives its value to every element below. (DEDUCED, log 39) -/
def convert (s : State) (x : Arith) (ts : Ty) (op : Nat → Nat) : Res State := do
  s.needOpnds [x.d, x.a]
  let a ← s.srcR x.a (.ty ts) x.rnd
  if x.d.isV then s.needMask x.lm else .ok ()
  match x.d with
  | .v n =>
    let w := x.ty.width
    .ok (s.putLanes n.toNat x.lm w (fun k => if k < lanes s.cf.groups ts.width then op (s.lane x.a a ts.width k) else 0))
  | .w n => .ok (s.setWord n.toNat (fillWord x.ty (op a)))
  | _ => .ok s

end State

end Sys2Proof.Machine
end

