-- ==== Sys2Proof/Machine/Flags.lean ====
section
/-! DEFINITION. The flag computations: the carry chained through p7 (R221), the conditions of compares (R207), and
the generation test (R103). -/

namespace Sys2Proof.Machine

/-- The sum of addc and its carry out (R221). -/
def addCarry (w a b : Nat) (cin : Bool) : Nat × Bool :=
  let x := a + b + cin.toNat
  (x % 2 ^ w, decide (x ≥ 2 ^ w))

/-- The difference of subb and its borrow out (R221). -/
def subBorrow (w a b : Nat) (bin : Bool) : Nat × Bool :=
  let x : Int := (a : Int) - b - bin.toNat
  (bitsOf w x, decide (x < 0))

/-- The condition of cmp (R207). -/
def condHolds (c : Cond) (t : Ty) (a b : Nat) : Bool :=
  let x := intOf t a
  let y := intOf t b
  match c with
  | .eq => decide (x = y)
  | .ne => decide (x ≠ y)
  | .lt => decide (x < y)
  | .le => decide (x ≤ y)
  | .gt => decide (x > y)
  | .ge => decide (x ≥ y)
  | .tz => a &&& b == 0
  | .tnz => a &&& b != 0

/-- The condition of fcmp, with the NaN column of R207. -/
def fcondHolds (c : FCond) (t : Ty) (a b : Nat) : Bool :=
  let x := decodeF t a
  let y := decodeF t b
  let nan := x.isNan || y.isNan
  match c with
  | .eq => !nan && x.eqv y
  | .ne => nan || !x.eqv y
  | .lt => !nan && x.lt y
  | .le => !nan && !y.lt x
  | .gt => !nan && y.lt x
  | .ge => !nan && !x.lt y
  | .un => nan
  | .ord => !nan

/-- Generation g is reached: (GEN − g) mod 2^32 < 2^31 (R103). -/
def genReached (gen g : BitVec 32) : Bool := decide ((gen - g).toNat < 2 ^ 31)

end Sys2Proof.Machine
end

