-- ==== Sys2Proof/Machine/Compare.lean ====
section
/-! DEFINITION. Compares and predicate logic, 0x30 to 0x36 (R230, R231). -/

namespace Sys2Proof.Machine

/-- A compare: the scalar form writes a predicate, the vector form all ones or zero in each active element (R230). -/
def compareWith (x : Cmp) (s : State) (test : Nat → Nat → Bool) : Out :=
  withGuard s x.hd (fun s => do
    s.needOpnds [x.a, x.b]
    let a ← s.srcT x.a x.ty .rne
    let b ← s.srcT x.b x.ty .rne
    match x.d with
    | .p n => .ok (s.setPred n.toNat (test a b))
    | .v n => do
      s.needMask x.lm
      let w := x.ty.width
      .ok (s.putLanes n.toNat x.lm w (fun k =>
        if test (s.lane x.a a w k) (s.lane x.b b w k) then 2 ^ w - 1 else 0)))

/-- CMP (R230). -/
def execCmp (c : Cond) (x : Cmp) (s : State) : Out := compareWith x s (condHolds c x.ty)

/-- FCMP (R230). -/
def execFcmp (c : FCond) (x : Cmp) (s : State) : Out := compareWith x s (fcondHolds c x.ty)

/-- A predicate source, inverted by NEG (R231). -/
def psrc (s : State) (p : PSrc) : Bool := s.pred p.p.toNat != p.neg

/-- A predicate operation: the sources are read before the destination is written (R231). -/
def predOp (x : PredOp) (s : State) (op : Bool → Bool → Bool) : Out :=
  withGuard s x.hd (fun s => .ok (s.setPred x.d.toNat (op (psrc s x.a) (psrc s x.b))))

/-- PAND (R231). -/
def execPand (x : PredOp) (s : State) : Out := predOp x s (· && ·)
/-- POR (R231). -/
def execPor (x : PredOp) (s : State) : Out := predOp x s (· || ·)
/-- PXOR (R231). -/
def execPxor (x : PredOp) (s : State) : Out := predOp x s (· != ·)
/-- PNOT (R231). -/
def execPnot (x : PredOp) (s : State) : Out := predOp x s (fun a _ => !a)
/-- PMOV (R231). -/
def execPmov (x : PredOp) (s : State) : Out := predOp x s (fun a _ => a)

end Sys2Proof.Machine
end

