-- ==== Sys2Proof/Machine/FloatOps.lean ====
section
/-! DEFINITION. Floating-point instructions, 0x38 to 0x50 (R232 to R238). -/

namespace Sys2Proof.Machine

/-- An operation of exact values of A, B and D, rounded once (R233). -/
def fop (x : Arith) (s : State) (op : FVal → FVal → FVal → FVal) : Out :=
  withGuard s x.hd (fun s => s.compute x (.ty x.ty) (.ty x.ty) (fun a b d =>
    roundTo x.ty x.rnd x.sat x.ftz (op (decodeF x.ty a) (decodeF x.ty b) (decodeF x.ty d))))

/-- As fop, for an operation that reads D (R233). -/
def fopD (x : Arith) (s : State) (op : FVal → FVal → FVal → FVal) : Out :=
  withGuard s x.hd (fun s => s.computeD x (.ty x.ty) (.ty x.ty) (fun a b d =>
    roundTo x.ty x.rnd x.sat x.ftz (op (decodeF x.ty a) (decodeF x.ty b) (decodeF x.ty d))))

/-- A function of one source (R234). -/
def ffun (x : Arith) (s : State) (fn : Fun1) : Out :=
  withGuard s x.hd (fun s => s.compute1 x (fun1 fn x.ty x.rnd x.sat x.ftz))

/-- FADD (R233). -/
def execFadd (x : Arith) (s : State) : Out := fop x s (fun a b _ => a.add x.rnd b)
/-- FSUB (R233). -/
def execFsub (x : Arith) (s : State) : Out := fop x s (fun a b _ => a.add x.rnd b.negate)
/-- FMUL (R233). -/
def execFmul (x : Arith) (s : State) : Out := fop x s (fun a b _ => a.mul b)
/-- FFMA (R233). -/
def execFfma (x : Arith) (s : State) : Out := fopD x s (fun a b d => (a.mul b).add x.rnd d)
/-- FFMS (R233). -/
def execFfms (x : Arith) (s : State) : Out := fopD x s (fun a b d => (a.mul b).add x.rnd d.negate)
/-- FNMA (R233). -/
def execFnma (x : Arith) (s : State) : Out := fopD x s (fun a b d => d.add x.rnd (a.mul b).negate)
/-- FDIV (R233). -/
def execFdiv (x : Arith) (s : State) : Out := fop x s (fun a b _ => a.div b)
/-- FSQRT (R234). -/
def execFsqrt (x : Arith) (s : State) : Out := ffun x s .sqrt
/-- FRCP (R234). -/
def execFrcp (x : Arith) (s : State) : Out := ffun x s .rcp
/-- FRSQ (R234). -/
def execFrsq (x : Arith) (s : State) : Out := ffun x s .rsq
/-- FEX2 (R234). -/
def execFex2 (x : Arith) (s : State) : Out := ffun x s .ex2
/-- FLG2 (R234). -/
def execFlg2 (x : Arith) (s : State) : Out := ffun x s .lg2
/-- FSIN (R234). -/
def execFsin (x : Arith) (s : State) : Out := ffun x s .sin
/-- FCOS (R234). -/
def execFcos (x : Arith) (s : State) : Out := ffun x s .cos
/-- FTANH (R234). -/
def execFtanh (x : Arith) (s : State) : Out := ffun x s .tanh

/-- FMIN (R233): an operand's encoding unchanged; CLS says what a NaN operand does. -/
def execFmin (nan : Bool) (x : Arith) (s : State) : Out :=
  withGuard s x.hd (fun s => s.compute x (.ty x.ty) (.ty x.ty) (fun a b _ => minMaxF x.ty false nan a b))
/-- FMAX (R233). -/
def execFmax (nan : Bool) (x : Arith) (s : State) : Out :=
  withGuard s x.hd (fun s => s.compute x (.ty x.ty) (.ty x.ty) (fun a b _ => minMaxF x.ty true nan a b))

/-- FABS (R235): the sign bit is cleared. -/
def execFabs (x : Arith) (s : State) : Out :=
  withGuard s x.hd (fun s => s.compute1 x (fun a => a % signBit x.ty))
/-- FNEG (R235): the sign bit is inverted. -/
def execFneg (x : Arith) (s : State) : Out :=
  withGuard s x.hd (fun s => s.compute1 x (fun a => (a + signBit x.ty) % 2 ^ x.ty.width))
/-- FSGN (R235): B's sign bit on A. -/
def execFsgn (x : Arith) (s : State) : Out :=
  withGuard s x.hd (fun s => s.compute x (.ty x.ty) (.ty x.ty) (fun a b _ =>
    a % signBit x.ty + b / signBit x.ty % 2 * signBit x.ty))

/-- FRND (R236). -/
def execFrnd (x : Arith) (s : State) : Out :=
  withGuard s x.hd (fun s => s.compute1 x (frndF x.ty x.rnd))

/-- FCVT (R237). -/
def execFcvt (ts : Ty) (x : Arith) (s : State) : Out :=
  withGuard s x.hd (fun s => s.convert x ts (fun a => roundTo x.ty x.rnd x.sat x.ftz (decodeF ts a)))
/-- FICVT (R145, R237). -/
def execFicvt (ts : Ty) (x : Arith) (s : State) : Out :=
  withGuard s x.hd (fun s => s.convert x ts (fun a =>
    bitsOf x.ty.width (toIntRange x.rnd (tmin x.ty) (tmax x.ty) (decodeF ts a))))
/-- IFCVT (R145, R237). -/
def execIfcvt (ts : Ty) (x : Arith) (s : State) : Out :=
  withGuard s x.hd (fun s => s.convert x ts (fun a => roundTo x.ty x.rnd x.sat x.ftz (ofInt (intOf ts a))))

/-- FCLASS (R238): the scalar form writes the mask as an n64. -/
def execFclass (x : Arith) (s : State) : Out :=
  withGuard s x.hd (fun s => do
    s.needOpnds [x.d, x.a]
    let a ← s.srcT x.a x.ty x.rnd
    if x.d.isV then s.needMask x.lm else .ok ()
    match x.d with
    | .v n =>
      let w := x.ty.width
      .ok (s.putLanes n.toNat x.lm w (fun k => classF x.ty (s.lane x.a a w k)))
    | _ => .ok (s.setWord (State.wordNo x.d) (BitVec.ofNat 64 (classF x.ty a))))

end Sys2Proof.Machine
end

