-- ==== Sys2Proof/Machine/IntOps.lean ====
section
/-! DEFINITION. Integer and logic instructions, 0x01 to 0x29 (R219 to R229). -/

namespace Sys2Proof.Machine

/-! ## The exact values (R219, R220, R223, R225) -/

/-- Quot (R220). -/
def quot (t : Ty) (a b : Int) : Int :=
  if b = 0 then (if a < 0 then tmin t else tmax t) else a.tdiv b

/-- Rem (R220). -/
def remOf (t : Ty) (a b : Int) : Int := if b = 0 then a else a - b * quot t a b

/-- Zero bits above the highest set bit of w bits (R223). -/
def clzOf (w a : Nat) : Nat := if a % 2 ^ w = 0 then w else w - 1 - Nat.log2 (a % 2 ^ w)

/-- Zero bits below the lowest set bit of w bits (R223). -/
def ctzOf (w a : Nat) : Nat := ((List.range w).find? (fun i => a.testBit i)).getD w

/-- Set bits of w bits (R223). -/
def popOf (w a : Nat) : Nat := ((List.range w).filter (fun i => a.testBit i)).length

/-- Bit i becomes bit w − 1 − i (R223). -/
def brevOf (w a : Nat) : Nat :=
  (List.range w).foldl (fun r i => if a.testBit i then r + 2 ^ (w - 1 - i) else r) 0

/-- Byte i becomes byte w/8 − 1 − i (R223). -/
def bswapOf (w a : Nat) : Nat := leNat ((toLe (w / 8) a).reverse)

/-- Rotation left by c mod w (R219). -/
def rolOf (w a c : Nat) : Nat :=
  let k := c % w
  ((a % 2 ^ w) * 2 ^ k + (a % 2 ^ w) / 2 ^ (w - k)) % 2 ^ w

/-- The shift left: counts of w or more give 0, or clamp under SAT (R219). -/
def shlOf (t : Ty) (sat : Bool) (a c : Nat) : Nat :=
  if c ≥ t.width then
    (if sat && intOf t a != 0 then bitsOf t.width (if intOf t a < 0 then tmin t else tmax t) else 0)
  else intResult t sat (intOf t a * 2 ^ c)

/-- The length bfx and bfi use (R225). -/
def fieldLen (w b : Nat) : Nat := if b % 64 < w then Nat.min (b / 64 % 128) (w - b % 64) else 0

/-- bfx (R225). -/
def bfxOf (t : Ty) (a b : Nat) : Nat :=
  let len := fieldLen t.width b
  let f := a / 2 ^ (b % 64) % 2 ^ len
  if len = 0 then 0 else if t.isI then bitsOf t.width (signedOf len f) else f

/-- bfi (R225). -/
def bfiOf (t : Ty) (a b d : Nat) : Nat :=
  let len := fieldLen t.width b
  let pos := b % 64
  if len = 0 then d
  else d % 2 ^ pos + (a % 2 ^ len) * 2 ^ pos + d / 2 ^ (pos + len) * 2 ^ (pos + len)

/-! ## The instructions -/

/-- An integer operation of two sources read in the type (R219). -/
def int2 (s : State) (x : Arith) (op : Int → Int → Int) : Out :=
  withGuard s x.hd (fun s => s.compute x (.ty x.ty) (.ty x.ty)
    (fun a b _ => intResult x.ty x.sat (op (intOf x.ty a) (intOf x.ty b))))

/-- A bitwise operation on the w low bits (R219). -/
def bit2 (s : State) (x : Arith) (op : Nat → Nat → Nat) : Out :=
  withGuard s x.hd (fun s => s.compute x (.ty x.ty) (.ty x.ty) (fun a b _ => op a b % 2 ^ x.ty.width))

/-- An operation whose B is an n64 (R219, R225). -/
def count2 (s : State) (x : Arith) (op : Nat → Nat → Nat → Nat) : Out :=
  withGuard s x.hd (fun s => s.compute x (.ty x.ty) .n64 op)

/-- An operation of one source (R223). -/
def int1 (s : State) (x : Arith) (op : Nat → Nat) : Out :=
  withGuard s x.hd (fun s => s.compute1 x op)

/-- The complement of w bits. -/
def notBits (w a : Nat) : Nat := 2 ^ w - 1 - a % 2 ^ w

/-- ADD (R219). -/
def execAdd (x : Arith) (s : State) : Out := int2 s x (· + ·)
/-- SUB (R219). -/
def execSub (x : Arith) (s : State) : Out := int2 s x (· - ·)
/-- MUL (R219). -/
def execMul (x : Arith) (s : State) : Out := int2 s x (· * ·)
/-- MULH (R219). -/
def execMulh (x : Arith) (s : State) : Out := int2 s x (fun a b => (a * b) / 2 ^ x.ty.width)
/-- MULHN (R219). -/
def execMulhn (x : Arith) (s : State) : Out := int2 s x (fun a b => (a * b) / 2 ^ x.ty.width)
/-- MADD (R222). -/
def execMadd (x : Arith) (s : State) : Out :=
  withGuard s x.hd (fun s => s.computeD x (.ty x.ty) (.ty x.ty)
    (fun a b d => intResult x.ty x.sat (intOf x.ty a * intOf x.ty b + intOf x.ty d)))
/-- DIV (R219, R220). -/
def execDiv (x : Arith) (s : State) : Out := int2 s x (quot x.ty)
/-- DIVN (R219, R220). -/
def execDivn (x : Arith) (s : State) : Out := int2 s x (quot x.ty)
/-- REM (R219, R220). -/
def execRem (x : Arith) (s : State) : Out := int2 s x (remOf x.ty)
/-- REMN (R219, R220). -/
def execRemn (x : Arith) (s : State) : Out := int2 s x (remOf x.ty)
/-- AND (R219). -/
def execAnd (x : Arith) (s : State) : Out := bit2 s x (· &&& ·)
/-- OR (R219). -/
def execOr (x : Arith) (s : State) : Out := bit2 s x (· ||| ·)
/-- XOR (R219). -/
def execXor (x : Arith) (s : State) : Out := bit2 s x (· ^^^ ·)
/-- ANDN (R219). -/
def execAndn (x : Arith) (s : State) : Out := bit2 s x (fun a b => a &&& notBits x.ty.width b)
/-- ORN (R219). -/
def execOrn (x : Arith) (s : State) : Out := bit2 s x (fun a b => a ||| notBits x.ty.width b)
/-- SHL (R219). -/
def execShl (x : Arith) (s : State) : Out := count2 s x (fun a c _ => shlOf x.ty x.sat a c)
/-- SHR (R219). -/
def execShr (x : Arith) (s : State) : Out :=
  count2 s x (fun a c _ => if c ≥ x.ty.width then 0 else a / 2 ^ c)
/-- SAR (R219). -/
def execSar (x : Arith) (s : State) : Out :=
  count2 s x (fun a c _ => bitsOf x.ty.width (signedOf x.ty.width a / 2 ^ (Nat.min c x.ty.width)))
/-- ROL (R219). -/
def execRol (x : Arith) (s : State) : Out := count2 s x (fun a c _ => rolOf x.ty.width a c)
/-- MIN (R219). -/
def execMin (x : Arith) (s : State) : Out := int2 s x min
/-- MAX (R219). -/
def execMax (x : Arith) (s : State) : Out := int2 s x max
/-- MINN (R219). -/
def execMinn (x : Arith) (s : State) : Out := int2 s x min
/-- MAXN (R219). -/
def execMaxn (x : Arith) (s : State) : Out := int2 s x max
/-- ABS (R223). -/
def execAbs (x : Arith) (s : State) : Out := int1 s x (fun a => intResult x.ty x.sat ((intOf x.ty a).natAbs : Int))
/-- NEG (R223). -/
def execNeg (x : Arith) (s : State) : Out := int1 s x (fun a => intResult x.ty x.sat (-(intOf x.ty a)))
/-- CLZ (R223). -/
def execClz (x : Arith) (s : State) : Out := int1 s x (clzOf x.ty.width)
/-- CTZ (R223). -/
def execCtz (x : Arith) (s : State) : Out := int1 s x (ctzOf x.ty.width)
/-- POPC (R223). -/
def execPopc (x : Arith) (s : State) : Out := int1 s x (popOf x.ty.width)
/-- BREV (R223). -/
def execBrev (x : Arith) (s : State) : Out := int1 s x (brevOf x.ty.width)
/-- BSWAP (R223). -/
def execBswap (x : Arith) (s : State) : Out := int1 s x (bswapOf x.ty.width)
/-- SEXT (R224). -/
def execSext (ts : Ty) (x : Arith) (s : State) : Out :=
  withGuard s x.hd (fun s => s.convert x ts (fun a => bitsOf x.ty.width (signedOf ts.width a)))
/-- ZEXT (R224). -/
def execZext (ts : Ty) (x : Arith) (s : State) : Out :=
  withGuard s x.hd (fun s => s.convert x ts (fun a => a % 2 ^ ts.width))
/-- BFX (R225). -/
def execBfx (x : Arith) (s : State) : Out := count2 s x (fun a b _ => bfxOf x.ty a b)
/-- BFI (R225). -/
def execBfi (x : Arith) (s : State) : Out := withGuard s x.hd (fun s => s.computeD x (.ty x.ty) .n64 (fun a b d => bfiOf x.ty a b d))

/-- ADDC (R221): p7 is the carry in and out. -/
def execAddc (x : Arith) (s : State) : Out :=
  withGuard s x.hd (fun s => do
    s.needOpnds [x.d, x.a, x.b]
    let a ← s.srcT x.a x.ty x.rnd
    let b ← s.srcT x.b x.ty x.rnd
    let r := addCarry x.ty.width a b (s.pred 7)
    .ok ((s.setWord (State.wordNo x.d) (fillWord x.ty r.1)).setPred 7 r.2))

/-- SUBB (R221): p7 is the borrow in and out. -/
def execSubb (x : Arith) (s : State) : Out :=
  withGuard s x.hd (fun s => do
    s.needOpnds [x.d, x.a, x.b]
    let a ← s.srcT x.a x.ty x.rnd
    let b ← s.srcT x.b x.ty x.rnd
    let r := subBorrow x.ty.width a b (s.pred 7)
    .ok ((s.setWord (State.wordNo x.d) (fillWord x.ty r.1)).setPred 7 r.2))

/-- SEL (R226): by p7 in the scalar form, by the lane mask in the vector form. -/
def execSel (x : Arith) (s : State) : Out :=
  withGuard s x.hd (fun s => do
    s.needOpnds [x.d, x.a, x.b]
    let a ← s.srcT x.a x.ty x.rnd
    let b ← s.srcT x.b x.ty x.rnd
    if x.d.isV then s.needMask true else .ok ()
    match x.d with
    | .v n =>
      let w := x.ty.width
      .ok (s.putLanes n.toNat false w (fun k => if s.maskBit w k then s.lane x.a a w k else s.lane x.b b w k))
    | _ => .ok (s.setWord (State.wordNo x.d) (fillWord x.ty (if s.pred 7 then a else b))))

/-- MOV (R227): a q128 is a pair of words. -/
def execMov (x : Arith) (s : State) : Out :=
  withGuard s x.hd (fun s =>
    if x.ty == .q128 then do
      s.needPair (State.wordNo x.d)
      s.needPair (State.wordNo x.a)
      let lo ← s.srcWord (State.wordNo x.a)
      let hi ← s.srcWord (State.wordNo x.a + 1)
      .ok ((s.setWord (State.wordNo x.d) lo).setWord (State.wordNo x.d + 1) hi)
    else s.compute1 x (fun a => a))

/-- LI (R228). -/
def execLi (hd : Head) (d : Opnd) (k : BitVec 36) (s : State) : Out :=
  withGuard s hd (fun s => do
    s.needOpnds [d]
    .ok (s.setWord (State.wordNo d) (k.signExtend 64)))

/-- LIH (R228): bits 63:36 are written, bits 35:0 kept. -/
def execLih (hd : Head) (d : Opnd) (k : BitVec 28) (s : State) : Out :=
  withGuard s hd (fun s => do
    s.needOpnds [d]
    let w ← s.srcWord (State.wordNo d)
    .ok (s.setWord (State.wordNo d) (k ++ w.extractLsb' 0 36)))

/-- LEA (R229). -/
def execLea (x : Task) (s : State) : Out :=
  withGuard s x.hd (fun s => do
    s.needOpnds [x.d, x.a, x.b]
    let a ← s.addr x.a x.b
    .ok (s.setWord (State.wordNo x.d) (BitVec.ofNat 64 a)))

end Sys2Proof.Machine
end

