-- ==== Sys2Proof/Machine/Torus.lean ====
section
/-! DEFINITION. The pod torus and its spoke links (R346, R347), and whether a package can be reached (R448). -/

namespace Sys2Proof.Machine

/-- The extents of the pod as a package holds them. -/
def State.extents (s : State) (p : Nat) : Nat × Nat × Nat :=
  let g := (s.pkg p).podgeom
  ((g.extractLsb' 0 3).toNat + 1, (g.extractLsb' 3 3).toNat + 1, (g.extractLsb' 6 3).toNat + 1)

/-- The torus coordinate of a package (R347). -/
def torusCoord (e : Nat × Nat × Nat) (p : Nat) : Nat × Nat × Nat := (p % e.1, p / e.1 % e.2.1, p / (e.1 * e.2.1))

/-- The package at a coordinate. -/
def torusPkg (e : Nat × Nat × Nat) (c : Nat × Nat × Nat) : Nat := c.1 + e.1 * (c.2.1 + e.2.1 * c.2.2)

/-- The way round a ring of n from a to b (R347): true is the positive one; none where no hop is taken. -/
def ringWay (n a b : Nat) : Option Bool :=
  if a = b then none else some (decide (2 * ((b + n - a) % n) ≤ n))

/-- The direction a packet leaves a package by (R347): X, then Y, then Z; 0 to 5 are −X, +X, −Y, +Y, −Z, +Z. -/
def torusDir (e : Nat × Nat × Nat) (p q : Nat) : Option Nat :=
  let a := torusCoord e p
  let b := torusCoord e q
  match ringWay e.1 a.1 b.1, ringWay e.2.1 a.2.1 b.2.1, ringWay e.2.2 a.2.2 b.2.2 with
  | some w, _, _ => some (w.toNat)
  | none, some w, _ => some (2 + w.toNat)
  | none, none, some w => some (4 + w.toNat)
  | none, none, none => none

/-- The neighbour in a direction. -/
def torusNext (e : Nat × Nat × Nat) (p dir : Nat) : Nat :=
  let c := torusCoord e p
  let move := fun (n x : Nat) => if dir % 2 = 1 then (x + 1) % n else (x + n - 1) % n
  torusPkg e (match dir / 2 with
    | 0 => (move e.1 c.1, c.2.1, c.2.2)
    | 1 => (c.1, move e.2.1 c.2.1, c.2.2)
    | _ => (c.1, c.2.1, move e.2.2 c.2.2))

/-- The way from one package to a neighbour closes the ring of its dimension (R347). -/
def wraps (e : Nat × Nat × Nat) (p dir : Nat) : Bool :=
  let c := torusCoord e p
  let (n, x) := match dir / 2 with
    | 0 => (e.1, c.1)
    | 1 => (e.2.1, c.2.1)
    | _ => (e.2.2, c.2.2)
  if dir % 2 = 1 then x + 1 == n else x == 0

/-- The die a spoke link is attached to (R346): two links a direction. -/
def spokeDie (link : Nat) : Nat := [4, 8, 7, 11, 1, 2, 13, 14, 5, 6, 9, 10].getD link 0

namespace State

/-- A link of a package. -/
def spoke (s : State) (p l : Nat) : Link := (s.pkg p).links.get l Link.reset

/-- Replace a link. -/
def setLink (s : State) (p l : Nat) (x : Link) : State := s.setPkg p { s.pkg p with links := (s.pkg p).links.set l x }

/-- The far end of a link: its package and link. -/
def farEnd (s : State) (p l : Nat) : Nat × Nat := (torusNext (s.extents p) p (l / 2), 2 * ((l / 2) ^^^ 1) + l % 2)

/-- The link a packet from SRC to DEST leaves a package by (R347, R448): bit 0 of SRC xor DEST, else the other link of the
direction, else the other way round the ring. A packet that has come a way in that dimension goes on in it. -/
def spokeLink (s : State) (p src dest : Nat) (came : Option Nat) : Option Nat :=
  match torusDir (s.extents p) p (pkgOf dest) with
  | none => none
  | some d =>
    let b := (src ^^^ dest) % 2
    let pair := fun (d : Nat) => [2 * d + b, 2 * d + (1 - b)]
    (match came with
      | some g => if g / 2 = d / 2 then pair g else pair d ++ pair (d ^^^ 1)
      | none => pair d ++ pair (d ^^^ 1)).find? (fun l => (s.spoke p l).up)

/-- A packet from SRC to DEST finds its way from a package on; fuel bounds its hops. -/
def findsWay (s : State) (src dest : Nat) : Nat → Nat → Option Nat → Bool
  | 0, _, _ => false
  | n + 1, p, came =>
    p == pkgOf dest || (match s.spokeLink p src dest came with
      | none => false
      | some l => s.findsWay src dest n (torusNext (s.extents p) p (l / 2)) (some (l / 2)))

/-- The home of a key lies in another package, which is not declared lost, and no packet of a core finds its way there (R448). -/
def cutOff (s : State) (c key : Nat) : Bool :=
  s.homePkg key != pkgOf c && !s.lostHome (pkgOf c) key && !s.findsWay c (s.home key) 32 (pkgOf c) none

/-- A message waits for a step from outside the agenda to receive it. -/
def hold (s : State) (m : Msg) : State := { s with msgs := s.msgs.set s.nextTag m, nextTag := s.nextTag + 1 }

/-- A read of a core or an engine that finds no way to its home goes out as a packet, which is sent again until there is one, or
its package is declared lost (R448); a core waits for it. (DEDUCED, log 59) -/
def askFar (s : State) (src : Nat) (waits : Bool) (x va key : Nat) : State :=
  if waits then (s.hold (.read src true x va key)).awaitAnswer src
  else if s.msgs.any (fun m => match m.2 with | .read c false _ _ k => c == src && s.homePkg k == s.homePkg key | _ => false) then s
  else s.hold (.read src false x va key)

/-- The packet of a read has come to its home (R448): a core that waited for it issues its instruction again. (DEDUCED, log 59) -/
def gotWay (s : State) (tag : Nat) : State :=
  match s.msg? tag with
  | some (.read c true _ _ _) => (s.dropMsg tag).gotAnswer c
  | _ => s.dropMsg tag

end State

/-- An instruction of a core whose reads are homed where no packet finds its way does not execute: the first of them goes out
(R448). (DEDUCED, log 59) -/
def reachFirst (s : State) (hd : Head) (far : State → Option (Nat × Nat)) (go : Out) : Out :=
  match (if s.run?.isSome && s.guardHolds hd.g then far s else none) with
  | some e => .next (s.askFar s.cur true s.cctx e.1 e.2)
  | none => go

end Sys2Proof.Machine
end

