-- ==== Sys2Proof/Machine/MemOps.lean ====
section
/-! DEFINITION. Loads, stores, cache control and ordering, 0x68 to 0x72 (R251 to R263), and the device steps that
perform them: L1_FILL, STORE_PERFORM, LINE_WRITEBACK, LOAD_RETURN. -/

namespace Sys2Proof.Machine

/-- Two runs of keys overlap. -/
def overlaps (a n b m : Nat) : Bool := decide (a < b + m ∧ b < a + n)

/-- The location is in the core's own slice, reached through the global window. -/
def Loc.ownWindow (l : Loc) (c : Nat) : Bool :=
  match l with
  | .slice t _ w => w && t == c
  | .phys _ => false

/-- The location is in the core's own slice, reached through the private alias. -/
def Loc.ownAlias (l : Loc) (c : Nat) : Bool :=
  match l with
  | .slice t _ w => !w && t == c
  | .phys _ => false

/-- The access width of an atomic in bits (R265). -/
def atomWidth (fn : AtomFn) (t : Ty) : Nat := if fn.packed then 2 * t.width else t.width

/-- Bytes at one location an atomic touches. -/
def Atom.bytes (a : Atom) : Nat :=
  match a.kind with
  | .casq => 16
  | .cas | .red => a.ty.width / 8
  | _ => atomWidth a.fn a.ty / 8

/-- Bytes an atomic touches from its key on. -/
def Atom.span (a : Atom) : Nat := a.bytes * a.ops.length

/-- A die-wide release, whose ordered write follows every earlier write of its die (R167). -/
def dieRel (r : Option Scope) : Bool := match r with | some .die | some .pkg | some .pod => true | _ => false

/-! ## The load-store queue of a tandem (R129) -/

/-- The banks of a load-store queue that n bytes at a key use: member (address bits 9:7) mod the count of members, and the
next granule's where the access spans two (R129). -/
def Tandem.banks (t : Tandem) (key n : Nat) : List Nat :=
  [key / 128 % 8 % t.members.length, (key + n - 1) / 128 % 8 % t.members.length]

/-- The entry lies in a bank. -/
def Tandem.inBank (t : Tandem) (b key n : Nat) : Bool := (t.banks key n).contains b

namespace State

/-! ## What a load returns (R89, R158, R169, R170) -/

/-- The byte of the youngest store of the cassette on its way to a key (R169). -/
def pendByte (s : State) (k key : Nat) : Option Byte :=
  (s.pend.reverse.find? (fun p => casOf p.core == k && p.blk.isNone && decide (p.key ≤ key ∧ key < p.key + p.data.length))).bind
    (fun p => p.data[key - p.key]?)

/-- The byte at a key as the cassette's path to the home gives it. -/
def pathByte (s : State) (c key : Nat) : Byte := (s.pendByte (casOf c) key).getD (s.byte key)

/-- The L1 line that may serve a core's load (R169, R170). -/
def l1Line (s : State) (c key : Nat) : Option L1Line :=
  let k := s.cas (casOf c)
  if k.l1co = 0 then none
  else k.lines.find? (fun l => l.line == key / 128 && !l.bars.contains c)

/-- The byte of a core's own slice through the global window (R88): what it held before the oldest alias store there that
the window has not seen. (DESIGN CHOICE, log 13) -/
def windowByte (s : State) (c key : Nat) : Byte :=
  match s.pendByte (casOf c) key with
  | some b => b
  | none => ((s.core c).windows.reverse.findSome? (fun w =>
      if w.1 ≤ key then w.2[key - w.1]? else none)).getD (s.byte key)

/-- Bytes of a slice change other than through its owner's alias: the owner's window sees them, and every alias store
made before the last one there (R158, R166). (DESIGN CHOICE, log 13) -/
def catchUp (s : State) (key n : Nat) : State :=
  if key < sliceBase then s
  else
    let c := (key - sliceBase) / 2 ^ 19
    let x := s.core c
    let meets := fun (w : Nat × List Byte) => overlaps w.1 w.2.length key n
    if x.windows.any meets then s.setCore c { x with windows := x.windows.takeWhile (fun w => !meets w) } else s

/-- The tandem a core runs as its leader. -/
def tandem? (s : State) (c : Nat) : Option Tandem := (s.core c).run.bind (·.tandem)

/-- The place of the youngest older store through the own window, of those in a tandem's load-store queue, that an access of n
bytes at a key takes bytes from (R129). -/
def heldPlace (s : State) (c key n : Nat) : Option Nat :=
  (s.tandem? c).bind (fun t =>
    (s.pend.reverse.find? (fun p => p.core == c && p.blk.any (fun b => !tagAfter b t.now) && p.window
      && overlaps p.key p.data.length key n)).bind (·.blk))

/-- The byte of the youngest older store of a tandem that has not left its load-store queue, through the same window
(R129, R130). An access through the own window that takes bytes from a store there, at a place, sees the alias stores that
precede it too (R153). -/
def heldByte (s : State) (c : Nat) (window : Bool) (upTo : Option Nat) (key : Nat) : Option Byte :=
  match s.tandem? c with
  | none => none
  | some t =>
    (s.pend.reverse.find? (fun p => p.core == c
      && p.blk.any (fun b => !tagAfter b t.now && (p.window == window || (window && upTo.any (fun u => !tagAfter b u))))
      && decide (p.key ≤ key ∧ key < p.key + p.data.length))).bind (fun p => p.data[key - p.key]?)

/-- A load of n bytes at each of some keys through its core's own window: alias stores become visible there in their order,
and a part of the newest may still be unseen (R88, R158). A load that takes bytes from a store on its way, which every
alias store there precedes, sees those stores too (R153). (DESIGN CHOICE, log 13) -/
def seeWindow (s : State) (c : Nat) (acc : List (Nat × Nat)) : State :=
  let x := s.core c
  if acc.isEmpty || x.windows.isEmpty then s
  else
    let s := s.setCore c { x with windows := x.windows.take (Config.windowLag s.fresh) }
    acc.foldl (fun s a =>
      if (List.range a.2).any (fun i => (s.pendByte (casOf c) (a.1 + i)).isSome) || (s.heldPlace c a.1 a.2).isSome then
        s.catchUp a.1 a.2
      else s) s

/-- Bytes of memory have changed: a group whose descriptor no longer has VALID set is gone, and starts anew when software
sets VALID again (R108, R109, R112). The hold entries of its earlier requests stay, and end as they would have. (DEDUCED, log 86) -/
def closeGroups (s : State) (key n : Nat) : State :=
  if s.groups.isEmpty then s
  else { s with groups := s.groups.filter (fun e => !overlaps e.1 8 key n || s.num e.1 8 / 2 ^ 63 == 1) }

/-- Bytes of memory have changed: a channel whose next slot had a header with a wrong mark there looks at it again (R38,
R425). -/
def recount (s : State) (key n : Nat) : State :=
  (s.chans.filter (fun e => e.2.await.any (fun h => overlaps h 16 key n))).foldl (fun s e => s.planNow (.slotCount e.1)) s

/-- An agent other than the owner through its alias writes bytes of memory. (DEDUCED, log 86) -/
def landBytes (s : State) (key : Nat) (data : List Byte) : State :=
  (((s.setBytes key data).catchUp key data.length).closeGroups key data.length).recount key data.length

/-- A byte as a load of core c sees it. (DESIGN CHOICE, log 5; DESIGN CHOICE, log 13) -/
def loadByte (s : State) (c : Nat) (cached window : Bool) (upTo : Option Nat) (key : Nat) : Byte :=
  match s.heldByte c (window && decide ((key - sliceBase) / 2 ^ 19 = c)) upTo key with
  | some b => b
  | none =>
    if sliceBase ≤ key then
      if (key - sliceBase) / 2 ^ 19 = c then (if window then s.windowByte c key else s.byte key) else s.pathByte c key
    else
      match (if cached then s.l1Line c key else none) with
      | some l => l.data.extractLsb' (8 * (key % 128)) 8
      | none => s.pathByte c key

/-- The bytes of an access, each with whether an L1 may serve it. -/
def locBytes (s : State) (c : Nat) (cls : BitVec 2) (l : Loc) (n : Nat) : List Byte :=
  match l with
  | .slice t off w =>
    let u := if w && t == c then s.heldPlace c (sliceKey t off) n else none
    (List.range n).map (fun i => s.loadByte c false w u (sliceKey t (off + i)))
  | .phys g => g.flatMap (fun q => (List.range q.len).map (fun i =>
      s.loadByte c (q.cached && cls.toNat ≤ 1) false none (q.key + i)))

/-- The class of the fault that the read of a byte meets (R446, R448): a store in a load-store queue or a line of the L1 serves it
where it can, and otherwise the home, whose data cannot be corrected or whose package is lost. -/
def readFault (s : State) (c : Nat) (cached window : Bool) (key : Nat) : Option Nat :=
  if (s.heldByte c (window && decide ((key - sliceBase) / 2 ^ 19 = c)) none key).isSome then none
  else match (if cached then s.l1Line c key else none) with
    | some l => if l.bad then some Cls.uncorr else none
    | none => if s.isBad key then some Cls.uncorr else if s.lostHome (pkgOf c) key then some Cls.unreach else none

/-- The bytes an access reads, each with whether an L1 may serve it and whether it goes through a window. -/
def readBytes (l : Loc) (n : Nat) (cls : BitVec 2) : List (Bool × Bool × Nat) :=
  match l with
  | .slice t off w => (List.range n).map (fun i => (false, w, sliceKey t (off + i)))
  | .phys g => g.flatMap (fun q => (List.range q.len).map (fun i => (q.cached && decide (cls.toNat ≤ 1), false, q.key + i)))

/-- A byte of an access that its home serves lies where no packet of the core finds its way (R448). -/
def farByte (s : State) (c : Nat) (l : Loc) (n : Nat) (cls : BitVec 2) : Option Nat :=
  ((readBytes l n cls).find? (fun b => s.cutOff c b.2.2
    && (s.heldByte c (b.2.1 && decide ((b.2.2 - sliceBase) / 2 ^ 19 = c)) none b.2.2).isNone
    && (if b.1 then s.l1Line c b.2.2 else none).isNone)).map (·.2.2)

/-- An access that reads meets no data that cannot be corrected, and its home answers, where its home serves it (R446, R448). -/
def readable (s : State) (c ea : Nat) (l : Loc) (n : Nat) (cls : BitVec 2) : Res Unit :=
  match (readBytes l n cls).findSome? (fun b => (s.readFault c b.1 b.2.1 b.2.2).map (fun f => (f, b.2.2))) with
  | none => .ok ()
  | some (f, k) => if f = Cls.uncorr then .error { trapAt f ea with info := keyPa k } else .error (trapAt f ea)

/-- A line as its home holds it, merged with the cassette's stores on their way (R169). -/
def lineNow (s : State) (k line : Nat) : BitVec 1024 :=
  (List.range 128).foldl (fun (d : BitVec 1024) i =>
    let b := (s.pendByte k (line * 128 + i)).getD (s.byte (line * 128 + i))
    d ||| BitVec.ofNat 1024 (b.toNat * 2 ^ (8 * i))) 0

/-- A load that went past the L1 brings the copy there up to what it read, so that no later load of the core reads
backwards (R158). (DEDUCED, log 22) -/
def refreshLine (s : State) (k line : Nat) : State :=
  let x := s.cas k
  if x.lines.any (fun l => l.line == line) then
    s.setCas k { x with lines := x.lines.map (fun l => if l.line == line then { l with data := s.lineNow k line } else l) }
  else s

/-- A line is under way to a cassette's L1; under class Stream it will be the first to be replaced (R90). -/
def askFill (s : State) (k line : Nat) (cls : BitVec 2) : State :=
  let x := s.cas k
  let s := if cls = 1 then s.setCas k { x with streams := if x.streams.contains line then x.streams else line :: x.streams }
    else if x.streams.isEmpty then s
    else s.setCas k { x with streams := x.streams.erase line }
  s.planNow (.l1Fill k line)

/-- The lines of an access that miss the L1, each with whether an L1 may hold it (R89, R90). -/
def missLines (s : State) (c : Nat) (cls : BitVec 2) (l : Loc) : List (Nat × Bool) :=
  match l with
  | .slice _ _ _ => []
  | .phys g => g.flatMap (fun q =>
      let may := q.cached && decide (cls.toNat ≤ 1)
      ((List.range ((q.key + q.len - 1) / 128 - q.key / 128 + 1)).map (fun i => (q.key / 128 + i, may))).filter
        (fun e => !(may && (s.l1Line c (e.1 * 128)).isSome)))

/-- Loads that miss bring the lines toward the L1 under the Normal and Stream classes (R89, R90), and are counted once an
access (R378). (DESIGN CHOICE, log 67) -/
def missed (s : State) (c : Nat) (cls : BitVec 2) (l : Loc) : State :=
  let ms := s.missLines c cls l
  if ms.isEmpty then s
  else
    let s := s.count c 0x05 1
    let s := if ms.any (fun e => s.homeDie (e.1 * 128) != dieOf c) then s.count c 0x06 1 else s
    ms.foldl (fun s e =>
      if e.2 then (if (s.cas (casOf c)).l1co != 0 then s.askFill (casOf c) e.1 cls else s)
      else s.refreshLine (casOf c) e.1) s

/-- A load is under way until its value returns (R34, R279). (DEDUCED, log 26) -/
def loadIssued (s : State) (c : Nat) : State :=
  let x := s.core c
  (s.setCore c { x with
    loads := x.loads + 1
    run := x.run.map (fun f => { f with tandem := f.tandem.map (fun t => { t with loads := t.loads + 1 }) }) }).planNow
    (.loadReturn c)

/-- The loads of an instruction take their places in the banks of its tandem's queue, one an element (R129, R276): the window
each goes through, its key and its length. (DEDUCED, log 36) -/
def queueLoads (s : State) (c : Nat) (acc : List (Bool × Nat × Nat)) : State :=
  match (s.core c).run with
  | some f =>
    match f.tandem with
    | some t => s.setCore c { s.core c with run := some { f with tandem := some { t with
        queue := t.queue ++ acc.map (fun a => ⟨t.bsn, t.slot, a.1, a.2.1, a.2.2⟩) } } }
    | none => s
  | none => s

/-- A bank that an access of a tandem needs has no room for its entries beside those it holds, of 32 loads and 32 stores, while an
older block's commit will free some (R129). The oldest block goes on: no commit could free one for it. (DESIGN CHOICE, log 99) -/
def queueFull (s : State) (c : Nat) (store : Bool) (acc : List (Nat × Nat)) : Bool :=
  match s.tandem? c with
  | none => false
  | some t => !t.flight.isEmpty && acc.any (fun a => (t.banks a.1 a.2).any (fun b =>
      decide (32 < (acc.filter (fun e => t.inBank b e.1 e.2)).length
        + (if store then (s.pend.filter (fun p => p.core == c && p.blk.isSome && t.inBank b p.key p.data.length)).length
          else (t.queue.filter (fun e => t.inBank b e.key e.len)).length))))

/-- An acquire of scope .die or wider makes the lines filled before it unusable by the core's later loads (R169). One of
scope .cas may be served from L1, but from no line that such an acquire of a mate, which may come before it in hb, has made
stale for the mate (R158, R165). (DESIGN CHOICE, log 5) -/
def acquire (s : State) (c : Nat) (sc : Scope) : State :=
  match sc with
  | .core => s
  | .cas =>
    let k := s.cas (casOf c)
    if k.lines.all (fun l => l.bars.isEmpty || l.bars.contains c) then s
    else s.setCas (casOf c) { k with lines := k.lines.map (fun l =>
      if l.bars.isEmpty || l.bars.contains c then l else { l with bars := c :: l.bars }) }
  | _ =>
    let k := s.cas (casOf c)
    s.setCas (casOf c) { k with lines := k.lines.map (fun l =>
      if l.bars.contains c then l else { l with bars := c :: l.bars }) }

/-! ## Watches (R364) -/

/-- Accesses of n bytes at addresses match a watch: the core halts before its next instruction. The watch comes before the end
of a step, whose halt it replaces (R366). -/
def watch (s : State) (c x : Nat) (acc : List (Nat × Nat)) (ld st : Bool) : State :=
  match [0, 1].find? (fun k =>
    let w := (s.core c).dwc.get k 0
    let log := (w.extractLsb' 52 3).toNat
    let base := ((s.core c).dwa.get k 0).toNat / 2 ^ log * 2 ^ log
    w.getLsbD 63 && ((w.getLsbD 61 && ld) || (w.getLsbD 62 && st)) && (w.extractLsb' 55 6).toNat == x
      && acc.any (fun a => decide (a.1 < base + 2 ^ log ∧ base < a.1 + a.2))) with
  | none => s
  | some k =>
    let y := s.core c
    s.setCore c { y with haltReq := some (match y.haltReq with
      | none | some 9 => BitVec.ofNat 4 (6 + k)
      | some r => r) }

/-! ## Stores (R89, R253) -/

/-- A line leaves a cassette's L1 (R170). -/
def dropLine (s : State) (k line : Nat) : State :=
  let x := s.cas k
  s.setCas k { x with lines := x.lines.filter (fun l => l.line != line) }

/-- A store updates the lines its cassette's L1 holds (R89). (DEDUCED, log 22) -/
def updateLines (s : State) (c key : Nat) (data : List Byte) : State :=
  let k := s.cas (casOf c)
  if k.lines.isEmpty then s
  else s.setCas (casOf c) { k with lines := k.lines.map (fun l =>
    { l with data := data.zipIdx.foldl (fun d b =>
        if (key + b.2) / 128 = l.line then
          let sh := 8 * ((key + b.2) % 128)
          (d &&& ~~~(BitVec.ofNat 1024 (255 * 2 ^ sh))) ||| BitVec.ofNat 1024 (b.1.toNat * 2 ^ sh)
        else d) l.data }) }

/-- A plain store to a sync word that swinit has written leaves its contents unspecified (R100).
(DESIGN CHOICE, log 12) -/
def spoilSync (s : State) (key n : Nat) : State :=
  s.syncs.foldl (fun s w =>
    if w < key + n && key < w + 16 then
      (s.setBytes w ((List.range 16).map (fun i => Config.syncUndef (16 * s.fresh + i)))).useFresh
    else s) s

/-- A release of scope .die or wider is an ordered write: it closes its die's open epoch, and the die's own entry of its clock
goes up (R167). (DESIGN CHOICE, log 5) -/
def closeEpoch (s : State) (c : Nat) (rel : Option Scope) : State :=
  if !dieRel rel then s
  else
    let x := s.die (dieOf c)
    let i := dieOf c % 16
    s.setDie (dieOf c) { x with clock := x.clock.set i (x.clock.get i 0 + 1) }

/-- The clock a write carries (R167). (DESIGN CHOICE, log 5) -/
def carried (s : State) (c : Nat) (rel : Option Scope) : KMap (BitVec 32) := if dieRel rel then (s.die (dieOf c)).clock else []

/-- The home die has applied what a carried clock names of the other dies (R167).
(DESIGN CHOICE, log 5) -/
def clockReady (s : State) (c key : Nat) (clk : KMap (BitVec 32)) : Bool :=
  let h := s.homeDie key
  h / 16 != pkgOf c || clk.all (fun e =>
    e.1 == dieOf c % 16 || e.1 == h % 16 || decide (e.2.toNat ≤ ((s.die h).clock.get e.1 0).toNat))

/-- An ordered write is applied: every write of its die before it is performed, so each die of the package has applied the
epochs up to the one it closes (R167). (DESIGN CHOICE, log 5) -/
def applyClock (s : State) (c : Nat) (clk : KMap (BitVec 32)) : State :=
  if clk.isEmpty then s
  else
    let d := dieOf c
    let n := clk.get (d % 16) 0
    ((List.range 16).map (d / 16 * 16 + ·)).foldl (fun s e =>
      let k := (s.die e).clock
      if e = d || decide (n.toNat ≤ (k.get (d % 16) 0).toNat) then s
      else s.setDie e { s.die e with clock := k.set (d % 16) n }) s

/-- Count a store, atomic or write-back issued (R39, R253). -/
def countIssue (s : State) (c : Nat) : State :=
  let x := s.core c
  s.setCore c { x with issued := x.issued + 1 }

/-- Count a write performed or finally refused (R39, R253). -/
def countDrain (s : State) (c : Nat) : State :=
  let x := s.core c
  s.setCore c { x with drained := x.drained + 1 }

end State

/-- Two parts of one store instruction lie in one 64-byte block of a slice: they are performed together, so no block of an
operand read is part old and part new (R172). -/
def sameBlock (p q : PStore) : Bool :=
  p.tag == q.tag && decide (sliceBase ≤ p.key) && p.key / 64 == q.key / 64

namespace State

/-- One part of a store that is not performed at once is on its way, or waits in its tandem block (R130, R253). -/
def storePart (s : State) (p : PStore) : State :=
  let s := if p.blk.isSome then s else s.updateLines p.core p.key p.data
  let s := if p.blk.isSome || s.pend.any (sameBlock p) then s else s.planNow (.storePerform p.tag)
  { s with pend := s.pend ++ [p] }

/-- A store through the private alias: performed at once; the core's window sees it after every earlier one (R88). -/
def storeAlias (s : State) (c key : Nat) (data : List Byte) : State :=
  let y := s.core c
  ((s.setCore c { y with windows := (key, s.bytes key data.length) :: y.windows }).setBytes key data).spoilSync key
    data.length

/-- Every byte of a line lies in one of some runs of bytes. -/
def covers (runs : List (Nat × Nat)) (line : Nat) : Bool :=
  (List.range 128).all (fun i => runs.any (fun r => decide (r.1 ≤ line * 128 + i ∧ line * 128 + i < r.1 + r.2)))

/-- Lines that could not be corrected are replaced whole: their data is correct again, and they fail no longer (R446, R447). -/
def restore (s : State) (good : Nat → Bool) : State :=
  if s.bad.any good then
    { s with
      bad := s.bad.filter (fun l => !good l)
      dies := s.dies.map (fun e => (e.1, { e.2 with failing := e.2.failing.filter (fun l => !good l) })) }
  else s

/-- Runs of bytes written together replace the lines they cover whole (R446). -/
def mend (s : State) (runs : List (Nat × Nat)) : State := s.restore (covers runs)

/-- Runs of bytes that a core writes together replace the lines they cover whole in its cassette's L1 (R446). -/
def mendLines (s : State) (c : Nat) (runs : List (Nat × Nat)) : State :=
  let k := s.cas (casOf c)
  if k.lines.any (fun l => l.bad && covers runs l.line) then
    s.setCas (casOf c) { k with lines := k.lines.map (fun l => { l with bad := l.bad && !covers runs l.line }) }
  else s

/-- A store of n bytes merges into a line that cannot be corrected (R446). -/
def badRun (s : State) (key n : Nat) : Bool := s.isBad key || s.isBad (key + n - 1)

end State

/-- An element of a store: its effective address, where it lands and its bytes. -/
abbrev StoreEl := Nat × Loc × List Byte

/-- What the parts of one store instruction share. -/
structure StoreCtl where
  core : Nat
  ctx : Nat
  tag : Nat
  num : BitVec 32
  rel : Option Scope
  clock : KMap (BitVec 32)
  cls : BitVec 2
  /-- Elements in the own slice are performed as the instruction issues (R258). -/
  now : Bool
  /-- The place of the instruction in a tandem's program order (R129, R130). -/
  blk : Option Nat
deriving DecidableEq, Repr

/-- An element through the own window precedes one through the alias at the same byte (R258). -/
def mixedEls (c : Nat) : List (Loc × Nat) → Bool
  | [] => false
  | e :: t =>
    (e.1.ownWindow c && t.any (fun f => f.1.ownAlias c
      && overlaps ((e.1.keys 1).headD 0) e.2 ((f.1.keys 1).headD 0) f.2)) || mixedEls c t

namespace State

/-- The parts of one element of a store. One that merges into a line of the own slice that cannot be corrected is refused
where it would be performed (R446). -/
def storeLoc (s : State) (k : StoreCtl) (ea : Nat) (l : Loc) (data : List Byte) : State :=
  match l with
  | .slice t off w =>
    let key := sliceKey t off
    let atOnce := t = k.core && k.blk.isNone && !s.badRun key data.length
    if atOnce && !w then s.storeAlias k.core key data
    else if atOnce && k.now then (s.landBytes key data).spoilSync key data.length
    else s.storePart ⟨k.tag, k.core, k.ctx, k.num, ea, key, data, k.rel, k.clock, t = k.core && w, k.cls, k.blk⟩
  | .phys g =>
    (g.foldl (fun (p : State × List Byte) q =>
      (p.1.storePart ⟨k.tag, k.core, k.ctx, k.num, q.va, q.key, p.2.take q.len, k.rel, k.clock, false, q.cls k.cls, k.blk⟩,
        p.2.drop q.len))
      (s, data)).1

/-- The runs of bytes of a store's elements. -/
def storeRuns (els : List StoreEl) : List (Nat × Nat) :=
  els.flatMap (fun e => match e.2.1 with
    | .slice t off _ => [(sliceKey t off, e.2.2.length)]
    | .phys g => g.map (fun q => (q.key, q.len)))

/-- The runs of bytes of a store's elements through the private alias. -/
def aliasRuns (c : Nat) (els : List StoreEl) : List (Nat × Nat) :=
  (els.filter (fun e => e.2.1.ownAlias c)).map (fun e => ((e.2.1.keys 1).headD 0, e.2.2.length))

/-- A store instruction of several elements leaves the core: counted once, and drained at once when every byte is
already performed. Where an element through the own window precedes one through the alias at the same byte, both are
performed in their order at once (R258). -/
def storeAll (s : State) (els : List StoreEl) (rel : Option Scope) (cls : BitVec 2) : State :=
  let c := s.cur
  let s := s.closeEpoch c rel
  let k : StoreCtl := ⟨c, s.cctx, s.nextTag, (s.core c).issued, rel, s.carried c rel, cls,
    mixedEls c (els.map (fun e => (e.2.1, e.2.2.length))), s.cf.tandem.map (·.now)⟩
  let s := { s.countIssue c with nextTag := s.nextTag + 1 }
  let s := if k.blk.isNone then (s.mend (aliasRuns c els)).mendLines c (storeRuns els) else s
  let s := els.foldl (fun s e => s.storeLoc k e.1 e.2.1 e.2.2) s
  if s.pend.any (fun p => p.tag == k.tag) then s else s.countDrain c

/-- The core has an atomic or red that is not acknowledged, homed where the test holds. -/
def atomsWhere (s : State) (c : Nat) (test : Nat → Bool) : Bool :=
  s.msgs.any (fun m => match m.2 with | .atom a => a.core == c && test a.key | _ => false)

/-- The core has an atomic or red that is not acknowledged. -/
def atomsOf (s : State) (c : Nat) : Bool := s.atomsWhere c (fun _ => true)

/-- The core has a write-back that is not in memory, homed where the test holds (R262). -/
def backsWhere (s : State) (c : Nat) (test : Nat → Bool) : Bool :=
  s.msgs.any (fun m => match m.2 with | .wback d _ _ line _ => d == c && test (line * 128) | _ => false)

/-- The core has a store, atomic or write-back on its way, homed where the test holds. -/
def writesWhere (s : State) (c : Nat) (test : Nat → Bool) : Bool :=
  s.pend.any (fun p => p.core == c && test p.key) || s.atomsWhere c test || s.backsWhere c test

/-- The core has an atomic or red that is not applied at its home. -/
def unapplied (s : State) (c : Nat) : Bool :=
  s.msgs.any (fun m => match m.2 with | .atom a => a.core == c && !a.applied | _ => false)

/-- A release waits for earlier atomics of the core to be applied (R154), and for the acknowledgement of earlier writes
(R167): at .pod of every one, at .die and .pkg of those homed in other packages. (DEDUCED, log 38) -/
def relWaits (s : State) (c : Nat) (sc : Scope) : Bool :=
  s.unapplied c || (match sc with
    | .core | .cas => false
    | .pod => s.writesWhere c (fun _ => true)
    | _ => s.writesWhere c (fun k => s.homePkg k != pkgOf c))

/-- An atomic of the core to its own slice, through either window, is not yet applied (R261, R275). -/
def ownAtoms (s : State) (c : Nat) : Bool :=
  s.msgs.any (fun m => match m.2 with
    | .atom a => a.core == c && !a.applied && decide (sliceBase ≤ a.key) && (a.key - sliceBase) / 2 ^ 19 == c
    | _ => false)

/-- A write of the core to its own slice, other than an alias store, is not yet performed. -/
def ownWrites (s : State) (c : Nat) : Bool := s.pend.any (fun p => p.core == c && p.window) || s.ownAtoms c

end State

/-- A write of a core may be performed (R158, R167): no earlier one of its cassette touches its bytes, no earlier
atomic of the core its line, and a release follows every earlier write of the core, or of its die. A store in a load-store queue
leaves it later (R130). (DESIGN CHOICE, log 5) -/
def writeReady (s : State) (tag core key n : Nat) (rel : Option Scope) : Bool :=
  s.pend.all (fun q => q.blk.isSome || q.tag ≥ tag ||
      !((casOf q.core == casOf core && overlaps q.key q.data.length key n) || (rel.isSome && q.core == core)
        || (dieRel rel && dieOf q.core == dieOf core)))
    && s.msgs.all (fun m => match m.2 with
      | .atom a => m.1 ≥ tag || a.applied ||
          !((a.core == core && (a.key / 128 == key / 128 || rel.isSome)) || (dieRel rel && dieOf a.core == dieOf core))
      | _ => true)

namespace State

/-- An alias store follows the core's own earlier atomics to its bytes (R158), and one that is a release every write it
releases (R154, R167). (DEDUCED, log 38) -/
def aliasBlocked (s : State) (l : Loc) (n : Nat) (rel : Option Scope) : Bool :=
  let k := (l.keys 1).headD 0
  l.ownAlias s.cur && (s.msgs.any (fun m => match m.2 with
      | .atom a => a.core == s.cur && !a.applied && overlaps a.key a.span k n
      | _ => false)
    || (rel.isSome && !writeReady s s.nextTag s.cur k n rel))

end State

/-! ## ld and st (R256) -/

/-- Bytes of a scalar access. -/
def accBytes (t : Ty) : Nat := t.width / 8

/-- The address of a memory operand. -/
def memEa (s : State) (x : Mem) : Res Nat := s.addr x.a x.b

/-- Natural alignment of ordered accesses (R252). -/
def needAlign (ea n : Nat) (req : Bool) : Res Unit :=
  if req && ea % n != 0 then .error (trapAt Cls.alignment ea) else .ok ()

/-- The lines an access touches. -/
def Loc.lines (l : Loc) (n : Nat) : List Nat := (l.keys n).map (· / 128)

/-- The runs of bytes of an access, one a page. -/
def Loc.runs (l : Loc) (n : Nat) : List (Nat × Nat) :=
  match l with
  | .slice c off _ => [(sliceKey c off, n)]
  | .phys g => g.map (fun q => (q.key, q.len))

/-- The access goes through the global window (R85). -/
def Loc.viaWindow (l : Loc) : Bool := match l with | .slice _ _ w => w | .phys _ => false

/-- The runs an access reads through the core's own window. -/
def Loc.windowRuns (l : Loc) (c n : Nat) : List (Nat × Nat) := if l.ownWindow c then l.runs n else []

/-- The entries of an access in a load-store queue (R129). -/
def Loc.entries (l : Loc) (n : Nat) : List (Bool × Nat × Nat) := (l.runs n).map (fun r => (l.viaWindow, r.1, r.2))

/-- A plain load waits for its core's atomics to the same line (R170), and on a tandem for room in its banks (R129). -/
def loadWaits (x : Mem) (need : Need) (s : State) : Bool :=
  match memEa s x with
  | .error _ => false
  | .ok ea =>
    match s.whereAt s.cur s.cctx ea (Nat.max 1 (accBytes x.ty)) need with
    | .ok l => (l.lines (accBytes x.ty)).any (fun k => (s.core s.cur).atomLines.contains k)
        || s.queueFull s.cur false (l.runs (accBytes x.ty))
    | .error _ => false

/-- The address of ld and where it lands, with the checks up to there (R252, R256). -/
def ldPlace (x : Mem) (s : State) : Res (Nat × Loc) := do
  let d := State.wordNo x.d
  s.needOpnds [x.a, x.b]
  if x.ty == .q128 then s.needPair d else s.needWord d
  let ea ← memEa s x
  needAlign ea (accBytes x.ty) (x.ord != .rlx)
  let l ← s.whereAt s.cur s.cctx ea (accBytes x.ty) .load
  .ok (ea, l)

/-- The address and the key of a byte that ld finds no way to (R448). -/
def ldFar (x : Mem) (s : State) : Option (Nat × Nat) :=
  match ldPlace x s with
  | .ok e => (s.farByte s.cur e.2 (accBytes x.ty) x.ccls).map (fun k => (e.1, k))
  | .error _ => none

/-- LD (R256). (DEDUCED, log 26) -/
def execLd (x : Mem) (s : State) : Out :=
  notYet s x.hd (loadWaits x .load) <| reachFirst s x.hd (ldFar x) <| withGuard s x.hd (fun s => do
    let d := State.wordNo x.d
    let n := accBytes x.ty
    let (ea, l) ← ldPlace x s
    let c := s.cur
    s.readable c ea l n x.ccls
    let s := if x.ord == .acq then s.acquire c x.scope else s
    let s := s.seeWindow c (l.windowRuns c n)
    let v := leNat (s.locBytes c x.ccls l n)
    let s := (((((s.missed c x.ccls l).noteLoc (casOf c) l).loadIssued c).queueLoads c (l.entries n)).useFresh).watch c s.cctx [(ea, n)] true false
    if x.ty == .q128 then
      .ok ((s.setWord d (BitVec.ofNat 64 v)).setWord (d + 1) (BitVec.ofNat 64 (v / 2 ^ 64)))
    else .ok (s.setWord d (fillWord x.ty v)))

/-- The bytes st writes. -/
def storeData (s : State) (x : Mem) : Res (List Byte) := do
  let d := State.wordNo x.d
  let lo ← s.srcWord d
  if x.ty == .q128 then do
    let hi ← s.srcWord (d + 1)
    .ok (toLe 8 lo.toNat ++ toLe 8 hi.toNat)
  else .ok (toLe (accBytes x.ty) lo.toNat)

/-- The scope of a release. -/
def relOf (x : Mem) : Option Scope := if x.ord == .rel || x.ord == .acqrel then some x.scope else none

/-- A release instruction waits before it issues (R167, R169). -/
def relBlocks (x : Mem) (s : State) : Bool :=
  match relOf x with
  | none => false
  | some sc => s.relWaits s.cur sc

/-- A store waits as a release does, one through the alias for what must be performed before it (R158, R167), and on a
tandem for room in its banks (R129). -/
def storeWaits (x : Mem) (s : State) : Bool :=
  relBlocks x s || (match memEa s x with
    | .error _ => false
    | .ok ea =>
      match s.whereAt s.cur s.cctx ea (accBytes x.ty) .store with
      | .ok l => s.aliasBlocked l (accBytes x.ty) (relOf x) || s.queueFull s.cur true (l.runs (accBytes x.ty))
      | .error _ => false)

/-- ST (R256). -/
def execSt (x : Mem) (s : State) : Out :=
  notYet s x.hd (storeWaits x) <| withGuard s x.hd (fun s => do
    let d := State.wordNo x.d
    s.needOpnds [x.a, x.b]
    if x.ty == .q128 then s.needPair d else s.needWord d
    let n := accBytes x.ty
    let ea ← memEa s x
    needAlign ea n (x.ord != .rlx)
    let c := s.cur
    let l ← s.whereAt c s.cctx ea n .store
    let data ← storeData s x
    let s := s.noteLoc (casOf c) l
    .ok ((s.storeAll [(ea, l, data)] (relOf x) x.ccls).watch c s.cctx [(ea, n)] false true))

/-! ## Vector loads and stores (R257, R258) -/

/-- Bytes of an element; an e2m1 pair is one byte (R252). -/
def elBytes (t : Ty) : Nat := if t == .e2m1 then 1 else t.width / 8

/-- The width elements are moved at: e2m1 moves by bytes. -/
def moveWidth (t : Ty) : Nat := if t == .e2m1 then 8 else t.width

/-- The active elements of ldv or stv with their addresses (R257). -/
def contiguous (s : State) (x : Mem) (ea : Nat) : List (Nat × Nat) :=
  let w := moveWidth x.ty
  ((List.range (lanes s.cf.groups w)).filter (fun k => s.active x.lm w k)).map
    (fun k => (k, (ea + k * (w / 8)) % 2 ^ 64))

/-- The elements of ldg or sts that are not skipped, with their addresses (R258). -/
def gathered (s : State) (x : Mem) (base : Nat) : List (Nat × Nat) :=
  let off := fun k => elemOf (s.vreg (State.vecNo x.b)) 32 k
  ((List.range (lanes s.cf.groups x.ty.width)).filter (fun k => off k != 0x80000000)).map
    (fun k => (k, (((base : Int) + signedOf 32 (off k)) % 2 ^ 64).toNat))

/-- Bulk accesses reach no other core's slice (R87). -/
def ownSlice (bulk : Bool) (c ea : Nat) (l : Loc) : Res Unit :=
  match l with
  | .slice t _ _ => if bulk && t != c then .error (trapAt Cls.window ea) else .ok ()
  | .phys _ => .ok ()

/-- Every check of every element, before any effect (R257, R258): alignment of each, then the address of each. -/
def checkElems (s : State) (x : Mem) (bulk : Bool) (need : Need) (els : List (Nat × Nat)) :
    Res (List (Nat × Nat × Loc)) := do
  let n := elBytes x.ty
  els.forM (fun e => needAlign e.2 n true)
  els.mapM (fun e => do
    let l ← (match s.whereAt s.cur s.cctx e.2 n need with
      | .error t => .error (if bulk && t.cls == Cls.capability && e.2 / 2 ^ 55 % 2 == 1 then trapAt Cls.window e.2 else t)
      | .ok l => .ok l)
    ownSlice bulk s.cur e.2 l
    .ok (e.1, e.2, l))

/-- Load elements into a vector register; the others keep their bits. -/
def loadElems (s : State) (x : Mem) (els : List (Nat × Nat × Loc)) : Res State := do
  let c := s.cur
  let n := elBytes x.ty
  let w := moveWidth x.ty
  els.forM (fun e => s.readable c e.2.1 e.2.2 n x.ccls)
  s.needMask x.lm
  let s := if x.ord == .acq then s.acquire c x.scope else s
  let s := s.seeWindow c (els.flatMap (fun e => e.2.2.windowRuns c n))
  let old := s.vreg (State.vecNo x.d)
  let vals := (List.range (lanes s.cf.groups w)).map (fun k =>
    match els.find? (fun e => e.1 == k) with
    | some e => leNat (s.locBytes c x.ccls e.2.2 n)
    | none => elemOf old w k)
  let s := els.foldl (fun s e => (s.missed c x.ccls e.2.2).noteLoc (casOf c) e.2.2) s
  let s := s.watch c s.cctx (els.map (fun e => (e.2.1, n))) true false
  .ok (((((s.setVreg (State.vecNo x.d) (withElems old w vals)).loadIssued c).queueLoads c
    (els.flatMap (fun e => e.2.2.entries n))).useFresh).count c 0x08 1)

/-- Store elements of a vector register, in ascending index. -/
def storeElems (s : State) (x : Mem) (els : List (Nat × Nat × Loc)) : Res State := do
  s.needLanes [x.d]
  s.needMask x.lm
  let c := s.cur
  let n := elBytes x.ty
  let w := moveWidth x.ty
  let v := s.vreg (State.vecNo x.d)
  let s := els.foldl (fun s e => s.noteLoc (casOf c) e.2.2) s
  let s := s.storeAll (els.map (fun e => (e.2.1, e.2.2, toLe n (elemOf v w e.1)))) (relOf x) x.ccls
  .ok (s.watch c s.cctx (els.map (fun e => (e.2.1, n))) false true).useVec

/-- A vector load waits as a load does (R129, R170). -/
def elemWaits (els : State → Res (List (Nat × Nat × Loc))) (n : Nat) (s : State) : Bool :=
  match els s with
  | .ok l => l.any (fun e => (e.2.2.lines 1).any (fun k => (s.core s.cur).atomLines.contains k))
      || s.queueFull s.cur false (l.flatMap (fun e => e.2.2.runs n))
  | .error _ => false

/-- The address and the key of an element's byte that a vector load finds no way to (R448). -/
def elemFar (x : Mem) (els : State → Res (List (Nat × Nat × Loc))) (s : State) : Option (Nat × Nat) :=
  match els s with
  | .ok l => l.findSome? (fun e => (s.farByte s.cur e.2.2 (elBytes x.ty) x.ccls).map (fun k => (e.2.1, k)))
  | .error _ => none

/-- A vector store waits as a store does; one that mixes the windows of the own slice at one byte also for the core's
earlier writes there (R258). -/
def elemStoreWaits (x : Mem) (els : State → Res (List (Nat × Nat × Loc))) (s : State) : Bool :=
  relBlocks x s || (match els s with
    | .ok l =>
      l.any (fun e => s.aliasBlocked e.2.2 (elBytes x.ty) (relOf x))
        || (mixedEls s.cur (l.map (fun e => (e.2.2, elBytes x.ty))) && s.ownWrites s.cur)
        || s.queueFull s.cur true (l.flatMap (fun e => e.2.2.runs (elBytes x.ty)))
    | .error _ => false)

/-- The checked elements of ldv or stv. -/
def ldvElems (x : Mem) (need : Need) (s : State) : Res (List (Nat × Nat × Loc)) := do
  s.needOpnds [x.a, x.b]
  let ea ← memEa s x
  checkElems s x true need (contiguous s x ea)

/-- The checked elements of ldg or sts. -/
def ldgElems (x : Mem) (need : Need) (s : State) : Res (List (Nat × Nat × Loc)) := do
  s.needOpnds [x.a]
  let a ← s.src64 x.a
  let els ← checkElems s x false need (gathered s x a.toNat)
  s.needLanes [x.b]
  .ok els

/-- The data stv reads of its operands (R446). -/
def stvOpnds (x : Mem) (s : State) : Res Unit := do
  let _ ← memEa s x
  s.needLanes [x.d]

/-- The data ldg reads of its operands (R446). -/
def ldgOpnds (x : Mem) (s : State) : Res Unit := do
  let _ ← s.src64 x.a
  s.needLanes [x.b]

/-- The data sts and amov read of their operands (R446). -/
def stsOpnds (x : Mem) (s : State) : Res Unit := do
  let _ ← s.src64 x.a
  s.needLanes [x.b, x.d]

/-- LDV (R257). -/
def execLdv (x : Mem) (s : State) : Out :=
  notYet s x.hd (elemWaits (ldvElems x .load) (elBytes x.ty)) <| reachFirst s x.hd (elemFar x (ldvElems x .load)) <| withGuardElems s x.hd (fun s => (memEa s x).map (fun _ => ())) (fun s => do
    let els ← ldvElems x .load s
    loadElems s x els)

/-- STV (R257). -/
def execStv (x : Mem) (s : State) : Out :=
  notYet s x.hd (elemStoreWaits x (ldvElems x .store)) <| withGuardElems s x.hd (stvOpnds x) (fun s => do
    let els ← ldvElems x .store s
    storeElems s x els)

/-- LDG (R258). -/
def execLdg (x : Mem) (s : State) : Out :=
  notYet s x.hd (elemWaits (ldgElems x .load) (elBytes x.ty)) <| reachFirst s x.hd (elemFar x (ldgElems x .load)) <| withGuardElems s x.hd (ldgOpnds x) (fun s => do
    let els ← ldgElems x .load s
    loadElems s x els)

/-- STS (R258). -/
def execSts (x : Mem) (s : State) : Out :=
  notYet s x.hd (elemStoreWaits x (ldgElems x .store)) <| withGuardElems s x.hd (stsOpnds x) (fun s => do
    let els ← ldgElems x .store s
    storeElems s x els)

/-! ## Cache control and ordering (R259 to R263) -/

/-- PREF (R259): the line is brought toward the cassette; a faulting, alias or window address does nothing. -/
def execPref (x : Mem) (s : State) : Out :=
  withGuard s x.hd (fun s => do
    s.needOpnds [x.a, x.b]
    let ea ← memEa s x
    let c := s.cur
    match s.whereAt c s.cctx ea 1 .load with
    | .ok (.phys (q :: _)) =>
      let s := s.noteLoc (casOf c) (.phys [q])
      .ok (if q.cached && x.ccls.toNat ≤ 1 && (s.cas (casOf c)).l1co != 0 && (s.l1Line c q.key).isNone then
        s.askFill (casOf c) (q.key / 128) x.ccls else s)
    | _ => .ok s)

/-- A fence waits: its acquire part for earlier loads, its release part for earlier stores, atomics and write-backs (R167,
R260, R262). (DEDUCED, log 38) -/
def fenceWaits (x : Mem) (s : State) : Bool :=
  ((x.ord == .acq || x.ord == .acqrel) && (s.core s.cur).loads != 0)
    || ((x.ord == .rel || x.ord == .acqrel) && s.writesWhere s.cur (fun _ => true))

/-- FENCE (R260). -/
def execFence (x : Mem) (s : State) : Out :=
  notYet s x.hd (fenceWaits x) <| withGuard s x.hd (fun s =>
    .ok (if x.ord == .rel then s else s.acquire s.cur x.scope))

/-- lbf waits until every earlier access to the own slice is performed (R261), and every store of the cassette to it whose
value a load through the window may have returned (R166). -/
def lbfWaits (s : State) : Bool :=
  s.ownWrites s.cur || (s.core s.cur).loads != 0
    || s.pend.any (fun p => casOf p.core == casOf s.cur && p.blk.isNone && decide (sliceBase ≤ p.key)
      && (p.key - sliceBase) / 2 ^ 19 == s.cur)

/-- LBF (R261): later accesses through either window follow every earlier one (R166). -/
def execLbf (x : Mem) (s : State) : Out :=
  notYet s x.hd lbfWaits <| withGuard s x.hd (fun s =>
    let c := s.core s.cur
    .ok (s.setCore s.cur { c with windows := [] }))

/-- CWB (R262): the line's write-back is counted and on its way; nothing, and no fault, for an alias or window address
(R417). -/
def execCwb (x : Mem) (s : State) : Out :=
  withGuard s x.hd (fun s => do
    s.needOpnds [x.a, x.b]
    let ea ← memEa s x
    let c := s.cur
    if ea / 2 ^ 55 = 1 then .ok s
    else
      let l ← s.whereAt c s.cctx ea 1 .load
      match l with
      | .phys (q :: _) =>
        .ok (((s.noteLoc (casOf c) (.phys [q])).countIssue c).post (.wback c s.cctx ea (q.key / 128) (s.core c).issued) .lineWriteback)
      | _ => .ok s)

/-- CINV (R263): the line and any fill of it under way are discarded; a faulting address does nothing. -/
def execCinv (x : Mem) (s : State) : Out :=
  withGuard s x.hd (fun s => do
    s.needOpnds [x.a, x.b]
    let ea ← memEa s x
    let c := s.cur
    match s.whereAt c s.cctx ea 1 .load with
    | .ok (.phys (q :: _)) =>
      let k := s.cas (casOf c)
      let s := s.setCas (casOf c) { k with
        lines := k.lines.filter (fun l => l.line != q.key / 128), streams := k.streams.erase (q.key / 128) }
      .ok { s with agenda := s.agenda.filter (fun e => e.2 != .l1Fill (casOf c) (q.key / 128)) }
    | _ => .ok s)

/-! ## The device's side -/

/-- Lines an L1 holds (R82). (DESIGN CHOICE, log 63) -/
def l1Capacity (co : BitVec 2) : Nat :=
  match co.toNat with
  | 0 => 0
  | 1 => 4096
  | 2 => 8192
  | _ => 16384

/-- An L1 makes room for a line: the first line marked first to be replaced goes, else the oldest (R90).
(DESIGN CHOICE, log 63) -/
def makeRoom (ls : List L1Line) : List L1Line :=
  match ls.find? (fun l => l.first) with
  | some l => ls.erase l
  | none => ls.drop 1

/-- A line as its home holds it. -/
def State.lineHome (s : State) (line : Nat) : BitVec 1024 :=
  BitVec.ofNat 1024 (s.num (line * 128) 128)

/-- L1_FILL (R89, R169): the line as its home holds it, merged with the cassette's stores on their way; instruction fetch
gets those only once they have completed (R192). A line that its home cannot correct, or does not give, is not filled (R446,
R448). (DESIGN CHOICE, log 63) -/
def execL1Fill (k line : Nat) (s : State) : Out :=
  let x := s.cas k
  if x.l1co = 0 || s.bad.contains line || s.lostHome (k / 4096) (line * 128) then .next s
  else
    let data := s.lineNow k line
    let kept := x.lines.filter (fun l => l.line != line)
    let kept := if kept.length ≥ l1Capacity x.l1co then makeRoom kept else kept
    .next (s.setCas k { x with
      lines := kept ++ [⟨line, data, s.lineHome line, [], x.streams.contains line, false⟩], streams := x.streams.erase line })

/-- A store may be performed: its block has committed, and the parts of one instruction follow each other in address
order. -/
def storeReady (s : State) (p : PStore) : Bool :=
  p.blk.isNone && writeReady s p.tag p.core p.key p.data.length p.rel && s.clockReady p.core p.key p.clock
    && (s.pend.takeWhile (fun q => q != p)).all (fun q =>
      !(q.tag == p.tag && overlaps q.key q.data.length p.key p.data.length))

/-- Lines of 128 bytes an L2 slice holds: 6 MiB (R11). (DESIGN CHOICE, log 68) -/
def l2Lines : Nat := 49152

/-- Lines are written back: they are no longer dirty (R94). -/
def State.clean (s : State) (wrote : Nat → Bool) : State :=
  { s with dirty := s.dirty.filter (fun l => !wrote l), streamed := s.streamed.filter (fun l => !wrote l) }

/-- A slice that holds more dirty lines than it has room for writes one back: the oldest of class Stream, else the oldest
(R11, R90, R94). (DESIGN CHOICE, log 68) -/
def State.evictDirty (s : State) (line : Nat) : State :=
  if s.dirty.length ≤ l2Lines then s
  else
    let mine := s.dirty.filter (fun l => s.home (l * 128) == s.home (line * 128))
    if mine.length ≤ l2Lines then s
    else
      let l := ((mine.filter (fun l => s.streamed.contains l)).getLast?).getD (mine.getLastD line)
      s.clean (· == l)

/-- A line becomes dirty in its home slice (R94); a write of class Once that misses there allocates nothing, and one of class
Stream allocates a line that is first to be replaced (R90). (DESIGN CHOICE, log 68) -/
def State.soil (s : State) (key : Nat) (cls : BitVec 2) : State :=
  let l := key / 128
  if key < sliceBase && cls != 3 && !s.dirty.contains l then
    { s with dirty := l :: s.dirty, streamed := if cls = 1 then l :: s.streamed else s.streamed }.evictDirty l
  else s

/-- Bytes are written at their home: their lines become dirty (R94). -/
def State.writeHome (s : State) (key : Nat) (data : List Byte) : State :=
  (List.range ((key + data.length - 1) / 128 - key / 128 + 1)).foldl (fun s i => s.soil ((key / 128 + i) * 128) 0)
    (s.setBytes key data)

/-- A read of a line at its home has met data that cannot be corrected (R447). -/
def State.noteBad (s : State) (k : Nat) : State :=
  if sliceBase ≤ k || !s.isBad k then s
  else
    let d := s.homeDie k
    s.setDie d { s.die d with failing := (s.die d).failing ++ [k / 128] }

/-- A store is performed at its destination, or refused where it merges into a line that cannot be corrected (R446).
Answers whether it was refused. -/
def performStore (s : State) (p : PStore) : State × Bool :=
  if s.badRun p.key p.data.length then ((if s.isBad p.key then s.noteBad p.key else s.noteBad (p.key + p.data.length - 1)), true)
  else
    let s := s.landBytes p.key p.data
    let s := if sliceBase ≤ p.key then s.spoilSync p.key p.data.length else s
    ((s.soil p.key p.cls).soil (p.key + p.data.length - 1) p.cls, false)

/-- A part of a core's store lies in its own slice, through the private alias. -/
def PStore.viaAlias (p : PStore) : Bool :=
  decide (sliceBase ≤ p.key) && (p.key - sliceBase) / 2 ^ 19 == p.core && !p.window

/-- A part through the own window precedes one of its instruction through the alias at the same byte (R258). -/
def PStore.beforeAlias (p : PStore) (l : List PStore) : Bool :=
  p.window && ((l.dropWhile (fun q => q != p)).drop 1).any (fun q =>
    q.tag == p.tag && q.viaAlias && overlaps p.key p.data.length q.key q.data.length)

/-- The parts of one store instruction of a tandem leave for memory (R130): those through the alias are performed, and what
precedes one at the same byte (R258); the others are on their way, after every write that left before, and so is one that merges
into a line that cannot be corrected, which is refused at its destination (R446). -/
def State.leaveOne (s : State) (c : Nat) (ps : List PStore) : State :=
  let g := s.nextTag
  let runs := fun (l : List PStore) => l.map (fun p => (p.key, p.data.length))
  let s := (({ s with nextTag := g + 1 }.mend (runs (ps.filter PStore.viaAlias)))).mendLines c (runs ps)
  let s := ps.foldl (fun s p =>
    if (p.viaAlias || p.beforeAlias ps) && !s.badRun p.key p.data.length then
      (if p.window then (s.landBytes p.key p.data).spoilSync p.key p.data.length else s.storeAlias c p.key p.data)
    else s.storePart { p with tag := g, blk := none }) s
  if s.pend.any (fun q => q.tag == g) then s else s.countDrain c

/-- The stores of a tandem leave for memory in slot order, those up to a place in its program order (R130, R152). -/
def State.leaveUpTo (s : State) (c : Nat) (upTo : Nat → Bool) : State :=
  let leaves := fun (p : PStore) => p.core == c && p.blk.any upTo
  let mine := s.pend.filter leaves
  (mine.map (·.tag)).eraseDups.foldl (fun s g => s.leaveOne c (mine.filter (fun p => p.tag == g)))
    { s with pend := s.pend.filter (fun p => !leaves p) }

/-- Every store of a tandem leaves for memory. (DEDUCED, log 36) -/
def State.leaveStores (s : State) (c : Nat) : State := s.leaveUpTo c (fun _ => true)

/-- LOAD_RETURN (R253, R255): the value is in its destination. (DEDUCED, log 26) -/
def execLoadReturn (c : Nat) (s : State) : Out :=
  let x := s.core c
  if x.loads = 0 then .fault .notDue
  else .next (s.setCore c { x with loads := x.loads - 1 })

/-- LINE_WRITEBACK (R262): the line is in the memory that survives, with every earlier store and atomic of the core to it; counted
at the core. -/
def execLineWriteback (tag : Nat) (s : State) : Out :=
  match s.msg? tag with
  | some (.wback c _ _ line _) =>
    if s.pend.any (fun p => p.core == c && decide (p.tag < tag) && overlaps p.key p.data.length (line * 128) 128)
        || s.msgs.any (fun m => match m.2 with
          | .atom a => a.core == c && decide (m.1 < tag) && !a.applied && overlaps a.key a.span (line * 128) 128
          | _ => false) then .next (s.planNow (.lineWriteback tag))
    else .next (((s.dropMsg tag).clean (· == line)).countDrain c)
  | _ => .fault .noSuchStep

end Sys2Proof.Machine
end

