-- ==== Sys2Proof/Machine/Channels.lean ====
section
/-! DEFINITION. Channels: descriptors, slots and their headers, freeing and void slots (R35 to R42, R293, R429), and the
notices a device writes into a fault channel (R400, R401). -/

namespace Sys2Proof.Machine

/-- A channel descriptor as read (R35). -/
structure Desc where
  key : Nat
  base : Nat
  geom : Nat
  pidx : BitVec 32
  clm : BitVec 32
  cidx : BitVec 32
  cons : Nat
  resv : Nat
deriving DecidableEq, Repr

namespace Desc
/-- Owning context. -/
def ctx (d : Desc) : Nat := d.geom / 2 ^ 32 % 64
/-- log2 of the slot count. -/
def cnt (d : Desc) : Nat := d.geom / 2 ^ 16 % 32
/-- log2 of the slot size. -/
def sz (d : Desc) : Nat := d.geom % 16
/-- The descriptor has no defect (R425). -/
def ok (d : Desc) : Bool :=
  decide (1 ≤ d.cnt ∧ d.cnt ≤ 16) && decide (6 ≤ d.sz ∧ d.sz ≤ 12) && d.geom / 2 ^ 38 == 0
    && d.geom / 2 ^ 21 % 2 ^ 11 == 0 && d.geom / 16 % 2 ^ 12 == 0 && d.base % 2 ^ d.sz == 0 && d.resv == 0
/-- Virtual address of the slot of an index (R36). -/
def slot (d : Desc) (i : Nat) : Nat := d.base + i % 2 ^ d.cnt * 2 ^ d.sz
/-- The channel is full (R36). -/
def full (d : Desc) : Bool := (d.pidx - d.cidx).toNat == 2 ^ d.cnt
/-- The mark a publication of an index carries (R38). -/
def mark (d : Desc) (i : BitVec 32) : Bool := !i.getLsbD d.cnt
end Desc

namespace State

/-- The descriptor at a key. -/
def desc (s : State) (k : Nat) : Desc where
  key := k
  base := s.num k 8
  geom := s.num (k + 8) 8
  pidx := BitVec.ofNat 32 (s.num (k + 16) 4)
  clm := BitVec.ofNat 32 (s.num (k + 20) 4)
  cidx := BitVec.ofNat 32 (s.num (k + 24) 4)
  cons := s.num (k + 32) 8
  resv := s.num (k + 40) 24

/-- The key of a virtual address as a device part near core c reaches it. -/
def devKey (s : State) (c x va : Nat) (n : Need) : Res Nat := do
  let g ← s.seg c x va 1 n
  .ok g.key

/-- The descriptor at a virtual address of a context, at any alignment. (DESIGN CHOICE, log 70) -/
def descAt (s : State) (c x va : Nat) : Res Desc := do
  let k ← s.devKey c x va .load
  .ok (s.desc k)

/-- Set PIDX (R35). -/
def setPidx (s : State) (k : Nat) (v : BitVec 32) : State := s.writeHome (k + 16) (toLe 4 v.toNat)
/-- Set CLM (R35). -/
def setClm (s : State) (k : Nat) (v : BitVec 32) : State := s.writeHome (k + 20) (toLe 4 v.toNat)
/-- Set CIDX (R35). -/
def setCidx (s : State) (k : Nat) (v : BitVec 32) : State := s.writeHome (k + 24) (toLe 4 v.toNat)

/-- What the dispatcher keeps of a channel. (DESIGN CHOICE, log 91) -/
def chan (s : State) (k : Nat) : Chan := s.chans.get k Chan.reset

/-- Replace what the dispatcher keeps of a channel. -/
def setChan (s : State) (k : Nat) (x : Chan) : State := { s with chans := s.chans.set k x }

end State

/-- A slot header as two 64-bit words, low first (R37). -/
def slotHeader (len opc cls : Nat) (time : BitVec 32) (mark : Bool) (sender : Nat) (stamp : BitVec 32) : Nat × Nat :=
  (stamp.toNat + sender * 2 ^ 32 + mark.toNat * 2 ^ 63,
    time.toNat + cls * 2 ^ 32 + opc * 2 ^ 36 + len * 2 ^ 48)

/-- A slot header as read (R37). -/
structure SlotHdr where
  len : Nat
  opc : Nat
  cls : Nat
  time : BitVec 32
  mark : Bool
  resv : Nat
  sender : Nat
  stamp : BitVec 32
deriving DecidableEq, Repr

namespace State

/-- The header at a key. -/
def slotHdr (s : State) (k : Nat) : SlotHdr :=
  let lo := s.num k 8
  let hi := s.num (k + 8) 8
  ⟨hi / 2 ^ 48, hi / 2 ^ 36 % 4096, hi / 2 ^ 32 % 16, BitVec.ofNat 32 hi, lo / 2 ^ 63 = 1, lo / 2 ^ 56 % 128,
    lo / 2 ^ 32 % 2 ^ 24, BitVec.ofNat 32 lo⟩

/-- Write a slot's header in one 16-byte write; the dispatcher may count the slot (R39, R40). Where the page of the slot does not translate, no header is written.
(DESIGN CHOICE, log 69) -/
def publish (s : State) (c x : Nat) (d : Desc) (i : BitVec 32) (h : Nat × Nat) : State :=
  match s.devKey c x (d.slot i.toNat) .load with
  | .error _ => s
  | .ok k => (s.writeHome k (toLe 8 h.1 ++ toLe 8 h.2)).planNow (.slotCount d.key)

/-- As publish, for a header that the core writes itself: the lines of its cassette's L1 take it as they take a store (R89, R158,
R169). -/
def publishOwn (s : State) (c x : Nat) (d : Desc) (i : BitVec 32) (h : Nat × Nat) : State :=
  match s.devKey c x (d.slot i.toNat) .load with
  | .error _ => s
  | .ok k => (s.publish c x d i h).updateLines c k (toLe 8 h.1 ++ toLe 8 h.2)

/-- A void slot for a reservation left unpublished (R293). -/
def voidSlot (s : State) (c x : Nat) (r : Resv) (stamp : BitVec 32) : State :=
  if r.done then s
  else match s.descAt c x r.chan with
  | .error _ => s
  | .ok d =>
    let i := BitVec.ofNat 32 r.idx
    s.publish c x d i (slotHeader 0 0xFFF 0 (s.time.extractLsb' 0 32) (d.mark i) c stamp)

/-- CIDX advances over the run of freed slots that begins at it (R41); fuel bounds the run by the slot count. -/
def advanceCidx (s : State) (k : Nat) : Nat → State
  | 0 => s
  | n + 1 =>
    let d := s.desc k
    let x := s.chan k
    if x.freed.contains d.cidx then
      let s := s.setChan k { x with freed := x.freed.filter (· != d.cidx) }
      (s.setCidx k (d.cidx + 1)).advanceCidx k n
    else s

/-- CLM passes over dropped and void slots that stand at it (R293, R429). -/
def advanceClm (s : State) (k : Nat) : Nat → State
  | 0 => s
  | n + 1 =>
    let d := s.desc k
    let x := s.chan k
    if d.clm != x.next && x.freed.contains d.clm then (s.setClm k (d.clm + 1)).advanceClm k n
    else s

/-- The record of a stop or a notice, as the payload of one slot (R400). -/
def recordWords (core x tries disp : Nat) (prec k c : Bool) (t : Trap) (id : Word) (region hdr : Nat) :
    List Nat :=
  [core * 2 ^ 40 + x * 2 ^ 32 + (tries % 256) * 2 ^ 24 + prec.toNat * 2 ^ 23 + k.toNat * 2 ^ 22 + c.toNat * 2 ^ 21
      + disp * 2 ^ 16 + t.code * 2 ^ 8 + t.cls,
    id.toNat, t.pc, region, t.addr, t.info, hdr, t.time.toNat]

/-- Write a record into a context's fault channel: none where the channel is absent, full or unreadable (R401). -/
def writeRecord (s : State) (near core x : Nat) (ws : List Nat) : Option State :=
  match s.descAt near x (s.ctx x).fltch.toNat with
  | .error _ => none
  | .ok d =>
    if d.full || !d.ok then none
    else
      match s.devKey near x (d.slot d.pidx.toNat) .load with
      | .error _ => none
      | .ok k =>
        let i := d.pidx
        let s := s.setPidx d.key (i + 1)
        let s := s.writeHome (k + 16) (ws.flatMap (toLe 8))
        some (s.publish near x d i (slotHeader 64 0xFA0 0 (s.time.extractLsb' 0 32) (d.mark i) core 0))

/-- A notice that stops no firing, DISP 5 (R403): of a class, naming a core, with ADDR and INFO. Where the fault channel
has no free slot it waits in the die (R401). -/
def notice (s : State) (near core x cls addr info pc hdr : Nat) : State :=
  if (s.ctx x).fltch = 0 then s
  else
    let ws := recordWords core x 0 5 false false false ⟨cls, 0, addr, info, pc, s.time⟩ 0 0 hdr
    let wait := { s with notices := s.notices ++ [(near, core, x, ws)] }
    if s.notices.any (fun n => n.2.2.1 == x) then wait else (s.writeRecord near core x ws).getD wait

/-- A slot has become free: the records that wait are written in their order (R401). -/
def flushNotices (s : State) : State :=
  s.notices.foldl (fun s n =>
    match s.writeRecord n.1 n.2.1 n.2.2.1 n.2.2.2 with
    | some t => { t with notices := t.notices.erase n }
    | none => s) s

/-- Free indices of a channel (R41). -/
def freeSlots (s : State) (k : Nat) (is : List (BitVec 32)) : State :=
  let x := s.chan k
  let s := s.setChan k { x with
    freed := x.freed ++ is, counted := x.counted.filter (fun e => !is.contains e.1)
    dests := x.dests.filter (fun e => !is.contains e.1) }
  let n := 2 ^ (s.desc k).cnt
  ((s.advanceClm k n).advanceCidx k n).flushNotices

/-- The claimed slots of a firing become free (R34, R41). -/
def freeClaims (s : State) (c x : Nat) (cl : List Claim) : State :=
  cl.foldl (fun s q =>
    match s.descAt c x q.chan with
    | .error _ => s
    | .ok d => s.freeSlots d.key ((List.range q.count).map (fun j => BitVec.ofNat 32 (q.first + j)))) s

end State

/-- The parts of a store's instruction that lie in its first line cover it, which cannot be corrected: together they replace
it (R446). -/
def State.replaces (s : State) (p : PStore) : Bool :=
  s.isBad p.key && covers ((s.pend.filter (fun q => q.tag == p.tag)).map (fun q => (q.key, q.data.length))) (p.key / 128)

/-- The parts of a store that are performed in one step with the first (R172, R446). -/
def State.together (s : State) (p : PStore) : List PStore :=
  if s.replaces p then s.pend.filter (fun q => q.tag == p.tag && q.key / 128 == p.key / 128)
  else if p.key < sliceBase then [p] else s.pend.filter (sameBlock p)

/-- A part of a store is performed, or finally refused and reported (R253, R446, R448). -/
def performPart (s : State) (p : PStore) : State :=
  let lost := s.lostHome (pkgOf p.core) p.key
  let r := if lost then (s, true) else performStore s p
  let s := { r.1 with pend := r.1.pend.erase p }
  if r.2 then
    s.notice p.core p.core p.ctx (if lost then Cls.unreach else Cls.uncorr) p.va (if lost then 0 else keyPa p.key) 0 0
  else s

/-- STORE_PERFORM (R253): a store reaches its destination, and counts at its core when all of it has. -/
def execStorePerform (tag : Nat) (s : State) : Out :=
  match s.pend.find? (fun p => p.tag == tag) with
  | none => .fault .noSuchStep
  | some p =>
    let parts := s.together p
    if !storeReady s p || !parts.all (fun q => writeReady s q.tag q.core q.key q.data.length q.rel) then .next (s.planNow (.storePerform tag))
    else
      let s := if s.replaces p then s.mend (parts.map (fun q => (q.key, q.data.length))) else s
      let s := parts.foldl performPart s
      .next (if s.pend.any (fun q => q.tag == tag) then s else (s.applyClock p.core p.clock).countDrain p.core)

end Sys2Proof.Machine
end

