-- ==== Sys2Proof/Machine/Firings.lean ====
section
/-! DEFINITION. Making firings: headers (R21 to R25, R425), exclusion maps and sets (R66 to R70, R431), guards (R103),
dispatchers and paths (R52, R180), and the releases of retirement (R34, R79). -/

namespace Sys2Proof.Machine

/-! ## Actor headers -/

/-- A channel entry of a header (R24). -/
def chanEnt (w : Nat) : ChanEnt := ⟨w / 2 ^ 56, w % 2 ^ 56⟩

namespace State

/-- A footprint entry at a key (R25). -/
def footprintAt (s : State) (k : Nat) : Footprint :=
  let m := s.num (k + 12) 4
  ⟨s.num k 8, s.num (k + 8) 4, m / 2 ^ 31 = 1, m / 2 ^ 28 % 8, m % 2 ^ 19⟩

/-- The header at a key (R21 to R25). -/
def hdrAt (s : State) (k : Nat) : Hdr :=
  let ctl := s.num (k + 8) 8
  let bind := s.num (k + 16) 8
  { entry := s.num k 8
    wsn := ctl / 2 ^ 24 % 256
    volLo := ctl / 2 ^ 32 % 256
    volHi := ctl / 2 ^ 40 % 256
    retry := ctl / 2 ^ 16 % 16
    det := ctl / 2 ^ 11 % 2 = 1
    prio := ctl / 2 ^ 8 % 8
    bound := bind / 2 ^ 63 = 1
    rad := bind / 2 ^ 61 % 4
    arg := bind / 2 ^ 58 % 8
    map := bind % 2 ^ 32
    ins := (List.range 8).map (fun i => chanEnt (s.num (k + 32 + 8 * i) 8))
    outs := (List.range 8).map (fun i => chanEnt (s.num (k + 96 + 8 * i) 8))
    fps := (List.range 4).map (fun i => s.footprintAt (k + 160 + 16 * i)) }

/-- The header at a key has no defect (R425), for slices of a size. Another field of BIND set with EN 0 (R23) is a defect.
(DESIGN CHOICE, log 71) -/
def hdrOk (s : State) (k size : Nat) : Bool :=
  let h := s.hdrAt k
  let ctl := s.num (k + 8) 8
  let bind := s.num (k + 16) 8
  decide (h.entry % 4 = 0 ∧ h.entry < 2 ^ 50) && decide (15 ≤ h.wsn)
    && ctl / 2 ^ 48 == 0 && ctl / 2 ^ 20 % 16 == 0 && ctl / 2 ^ 12 % 16 == 0 && ctl % 256 == 0
    && (if h.volLo = 0 then true else decide (h.volLo ≤ h.volHi ∧ h.volHi ≤ h.wsn))
    && bind / 2 ^ 32 % 2 ^ 26 == 0 && h.rad != 3 && (h.bound || bind == 0)
    && s.num (k + 24) 8 == 0 && s.num (k + 224) 32 == 0
    && (h.ins ++ h.outs).all (fun e => e.count != 0 || e.chan == 0)
    && (List.range 4).all (fun i =>
        let f := s.footprintAt (k + 160 + 16 * i)
        s.num (k + 160 + 16 * i + 12) 4 / 2 ^ 19 % 2 ^ 9 == 0
          && (f.len == 0 || decide (f.base % 128 = 0 ∧ f.len % 128 = 0 ∧ f.dest % 128 = 0 ∧ f.dest + f.len ≤ size)))

/-- The header at a virtual address: its contents, and whether they are sound; a failed translation is a trap. A footprint
ends within the slice of the core that reads: the poster's, or the first of a dispatcher's die. (DESIGN CHOICE, log 72) -/
def hdrOf (s : State) (c x va : Nat) : Res (Hdr × Bool) := do
  let k ← s.devKey c x va .load
  .ok (s.hdrAt k, s.hdrOk k (s.sliceSize c) && va % 256 == 0)

end State

/-- The header declares an input channel (R30). -/
def Hdr.hasInput (h : Hdr) : Bool := h.ins.any (fun e => e.count != 0)

/-- Argument word ARG+1 (R23, R25). -/
def Firing.argWord (f : Firing) (i : Nat) : Nat := (f.args.getD i 0).toNat

/-! ## Exclusion maps (R66 to R70, R431) -/

/-- A defect of the map (R431). -/
def mapDefect : Trap := trapAt Cls.task 0

namespace State

/-- A number of n bytes at a virtual address, read by a dispatcher near a core. Bytes of a line that cannot be corrected are
read as they stand. (DESIGN CHOICE, log 88) -/
def devNum (s : State) (c x va n : Nat) : Res Nat := do
  let k ← s.devKey c x va .load
  .ok (s.num k n)

/-- The map descriptor of a firing: OFFS, NBRS, LOCKS and N (R66), with the defects of R431. One that lies on a line that
cannot be corrected, or is homed in a lost package, cannot be read (R52), and is a defect. (DESIGN CHOICE, log 88) -/
def mapDesc (s : State) (c : Nat) (f : Firing) : Res (Nat × Nat × Nat × Nat) := do
  let r := s.ctx f.ctx
  if f.head.map ≥ r.xmapcnt.toNat then .error mapDefect
  else
    let k ← s.devKey c f.ctx (r.xmapbase.toNat + 64 * f.head.map) .load
    let flags := s.num (k + 28) 4
    if s.isBad k || s.lostHome (pkgOf c) k then .error mapDefect
    else if flags != 1 || s.num (k + 32) 32 != 0 then .error mapDefect
    else .ok (s.num k 8, s.num (k + 8) 8, s.num (k + 16) 8, s.num (k + 24) 4)

/-- The element a bound firing names (R23). -/
def elemNo (f : Firing) : Nat := f.argWord f.head.arg % 2 ^ 32

/-- The key of the lock record of an element (R66, R69). -/
def lockKey (s : State) (c : Nat) (f : Firing) (e : Nat) : Res Nat := do
  let m ← s.mapDesc c f
  if e ≥ m.2.2.2 then .error mapDefect
  else s.devKey c f.ctx (m.2.2.1 + 8 * e) .load

/-- The virtual address of the lock record of an element, 0 where the map cannot be read. -/
def lockVa (s : State) (f : Firing) (e : Nat) : Nat :=
  match s.mapDesc (f.die * 2048) f with
  | .ok m => m.2.2.1 + 8 * e
  | .error _ => 0

/-- The set a try requests (R70): one request an element, the strongest mode of each. The neighbours are read, and their
defects found, at every radius (R431). -/
def exclSet (s : State) (c : Nat) (f : Firing) : Res (List LockEl) := do
  let m ← s.mapDesc c f
  let e := elemNo f
  if e ≥ m.2.2.2 then .error mapDefect
  else
    let lo ← s.devNum c f.ctx (m.1 + 8 * e) 8
    let hi ← s.devNum c f.ctx (m.1 + 8 * (e + 1)) 8
    if hi < lo || hi - lo > 65535 then .error mapDefect
    else
      let nb ← (List.range (hi - lo)).mapM
        (fun i => s.devNum c f.ctx (m.2.1 + 4 * (lo + i)) 4)
      if nb.any (fun n => n ≥ m.2.2.2) then .error mapDefect
      else
        let uniq := (if f.head.rad = 0 then [] else nb).foldl (fun l n => if n = e || l.contains n then l else l ++ [n]) []
        (e :: uniq).mapM (fun n => do
          let k ← s.devKey c f.ctx (m.2.2.1 + 8 * n) .load
          .ok ⟨n, k, n = e || f.head.rad = 2⟩)

/-! ## Guards -/

/-- The generation of a sync word: bits 31:0 of its word 0 (R100). -/
def syncGen (s : State) (c off : Nat) : BitVec 32 := BitVec.ofNat 32 (s.num (sliceKey c off) 4)

/-- A barrier instance of a context (R269). -/
def barrier (s : State) (x key : Nat) : Barrier := (s.ctx x).bars.get key ⟨0, 0, 0⟩

/-- A guard holds (R103, R269). -/
def guardRec (s : State) (x : Nat) (g : GuardRec) : Bool :=
  match g with
  | .none => true
  | .sync c off g => genReached (s.syncGen c off) (BitVec.ofNat 32 g)
  | .bar key g => genReached (s.barrier x key).gen (BitVec.ofNat 32 g)

/-! ## Making a firing -/

/-- A core of a die: its first, for reads a dispatcher makes. -/
def dieCore (d : Nat) : Nat := d * 2048

/-- The die whose dispatcher takes a firing (R52): for a bound one with a sound header the home die of its element's lock
record, where that can be known. -/
def dispatchDie (s : State) (c : Nat) (f : Firing) (sound : Bool) (dflt : Nat) : Nat :=
  if f.head.bound && sound then
    match s.lockKey c f (elemNo f) with
    | .ok k => s.homeDie k
    | .error _ => dflt
  else dflt

/-- A firing comes to be; it is on its way to its dispatcher or core. -/
def make (s : State) (f : Firing) : State × Firing :=
  let f := { f with key := s.nextTag, stage := .made, sent := s.time }
  ({ s with nextTag := s.nextTag + 1, firings := s.firings.set s.nextTag f }, f)

/-- A firing that runs on no core. -/
def fir? (s : State) (k : Nat) : Option Firing := s.firings.find k

end State

/-- Mix (R180). -/
def mixPath (parent : Word) (i : Nat) : Word :=
  (parent ^^^ BitVec.ofNat 64 (i + 1)) * 0x00000100000001B3#64

namespace State

/-- The path of a child, and the parent's counter after it (R180). -/
def childPath (s : State) : Word × State :=
  let f := s.cf
  if s.det f.ctx then (mixPath f.path f.kids, s.setCf { f with kids := f.kids + 1 }) else (0, s)

/-! ## Ready (R33, R53, R56) -/

/-- Entries a bank holds on chip: all of them, and those reinserted. -/
def bankUse (s : State) (d b : Nat) : Nat × Nat :=
  let l := s.firings.filter (fun e => e.2.stage == .ready && e.2.die == d && e.2.bank == b && !e.2.spilled && !e.2.pin)
  (l.length, (l.filter (fun e => e.2.reins)).length)

/-- A bank has room on chip (R56): of its 2,048 entries 256 are kept for reinserted firings. A reinserted firing that finds
all 2,048 in use spills. (DESIGN CHOICE, log 81) -/
def bankRoom (s : State) (d b : Nat) (reins : Bool) : Bool :=
  let u := s.bankUse d b
  if reins then decide (u.1 < 2048) else decide (u.1 - Nat.min u.2 256 < 1792)

/-- A firing enters Ready: in a bank chosen at random, or its spill list where the bank has no room for it (R53, R56).
(DESIGN CHOICE, log 17) -/
def enterReady (s : State) (f : Firing) : State :=
  let b := s.choice 32
  let f := { f with
    stage := .ready, bank := b, spilled := !s.bankRoom f.die b false, reins := false, watched := false, arrived := s.time
    age := s.time.toNat % 2 ^ 48 }
  (s.dropChoice.setFir f).planNow (.pop f.die)

/-- A firing whose try failed returns to its bank with its age (R53, R61). (DESIGN CHOICE, log 81) -/
def reinsert (s : State) (f : Firing) : State :=
  (s.setFir { f with
    stage := .ready, spilled := !s.bankRoom f.die f.bank true, reins := true, got := [], outstanding := 0
    tryFailed := false }).planNow (.pop f.die)

/-- Pending firings that hold a watch entry of a cassette (R103). -/
def watchUse (s : State) (k : Nat) : Nat :=
  (s.firings.filter (fun e => e.2.watched && (match e.2.guard with | .sync c _ _ => casOf c == k | _ => false))).length

/-- The generation a Pending firing names is reached (R33): to a bank, or, for a bound DET firing of a deterministic
context, to its round (R182). -/
def released (s : State) (f : Firing) : State :=
  if s.det f.ctx && f.head.det && f.head.bound then
    (s.setFir { f with
      stage := .between, inRound := true, watched := false, arrived := s.time, age := s.time.toNat % 2 ^ 48 }).planNow
      (.roundResolve f.key)
  else s.enterReady f

/-- Release notices for the Pending firings whose guards now hold (R43, R103). -/
def releaseAll (s : State) : State :=
  s.firings.foldl (fun s e =>
    if e.2.stage == .pending && s.guardRec e.2.ctx e.2.guard && (match e.2.guard with | .sync _ _ _ => e.2.watched | _ => true)
    then s.planNow (.releaseNotice e.1) else s) s

end State

/-- AGE a is older than b (R54). -/
def olderAge (a b : Nat) : Bool :=
  let d := (b + 2 ^ 48 - a % 2 ^ 48) % 2 ^ 48
  d != 0 && decide (d < 2 ^ 47)

/-- Order within a heap, and between heads of different banks: PRIO, AGE, lower bank (R53, R57). -/
def betterHead (f g : Firing) : Bool :=
  if f.head.prio != g.head.prio then decide (f.head.prio > g.head.prio)
  else if f.age != g.age then olderAge f.age g.age
  else decide (f.bank < g.bank)

/-- The best of a list. (DEDUCED, log 27) -/
def bestHead (l : List Firing) : Option Firing :=
  l.foldl (fun b f => match b with
    | none => some f
    | some g => if betterHead f g then some f else some g) none

namespace State

/-- The Ready firings a die's banks hold of a context; pinned ones are not among them (R55). -/
def readyOf (s : State) (d x : Nat) : List Firing :=
  (s.firings.map (·.2)).filter (fun f => f.stage == .ready && f.die == d && f.ctx == x && !f.pin)

/-- A heap below 896 entries on chip takes in its spilled ones, best first, while its bank has room for them, of the entries kept for
reinserted firings too where they are such (R56); fuel bounds the count taken. -/
def refill (s : State) (d b x : Nat) : Nat → State
  | 0 => s
  | n + 1 =>
    let mine := (s.readyOf d x).filter (fun f => f.bank == b)
    if (mine.filter (fun f => !f.spilled)).length ≥ 896 then s
    else match bestHead (mine.filter (fun f => f.spilled)) with
      | none => s
      | some f => if s.bankRoom d b f.reins then (s.setFir { f with spilled := false }).refill d b x n else s

/-- An entry has left a bank: its heaps that have fallen below 896 are refilled, context by context (R56). -/
def refillBank (s : State) (d b : Nat) : State :=
  (((s.firings.map (·.2)).filter (fun f => f.stage == .ready && f.die == d && f.bank == b && f.spilled)).map (·.ctx)).eraseDups.foldl
    (fun s x => s.refill d b x 896) s

/-! ## Releases (R34, R71, R79) -/

/-- The slots a firing has claimed: their input, when each was counted and its header (R40, R375). Slots that were dropped
between them are not among them. -/
def claimSlots (s : State) (c : Nat) (f : Firing) : List (Nat × Word × SlotHdr) :=
  f.claims.flatMap (fun q =>
    match s.descAt c f.ctx q.chan with
    | .error _ => []
    | .ok d => (List.range q.count).filterMap (fun j =>
        match (s.chan d.key).counted.find? (fun e => e.1 == BitVec.ofNat 32 (q.first + j)),
          s.devKey c f.ctx (d.slot (q.first + j)) .load with
        | some e, .ok h => some (q.input, e.2, s.slotHdr h)
        | _, _ => none))

/-- Release requests for records, under a context, one message a home; those of a lost package are kept (R433). -/
def releaseLocks (s : State) (d x : Nat) (els : List LockEl) (mode : RelMode) : State :=
  let homes := els.foldl (fun l e => if l.contains (s.home e.addr) then l else l ++ [s.home e.addr]) []
  homes.foldl (fun s h =>
    let mine := els.filter (fun e => s.home e.addr == h)
    if (s.pkg (d / 16)).lost.contains (pkgOf h) then
      let q := s.die d
      s.setDie d { q with keptRel := q.keptRel ++ [(h, x, mine, mode)] }
    else s.post (.lockRel d h x mine mode) .lockRelease) s

/-- The releases of retirement or abandonment (R34, R79): void slots with the firing's final store-issue count (R293),
claimed slots, the set, and the reservations of a firing that never had its set. The workspace is free once the firing is
gone. -/
def releases (s : State) (f : Firing) (freeSlots : Bool) : State :=
  let c := if f.placed then f.core else dieCore f.die
  let s := f.resv.foldl (fun s r => s.voidSlot c f.ctx r f.last) s
  let s := if freeSlots then s.freeClaims c f.ctx f.claims else s
  let s := s.releaseLocks f.die f.ctx f.got .free
  match f.ticket with
  | some t => if f.placed then s else s.releaseLocks f.die f.ctx f.order (.clear t)
  | none => s

/-- A trace record FEND (R372). (DEDUCED, log 28) -/
def traceEnd (s : State) (c : Nat) (f : Firing) (how : Nat) : State :=
  s.traceAfterBranch c 2 f.ctx ((f.id.toNat % 65536) * 2 ^ 48 + how * 2 ^ 44 + f.executed % 2 ^ 40)

end State

/-- Entry of a delay account a sender's cassette has (R376). -/
def acctIndex (sender : Nat) : Nat :=
  let v := sender / 8
  (v % 256) ^^^ (v / 256 % 256) ^^^ (v / 65536 % 32)

/-- A difference of two times mod 2^32; 2^31 or more counts as 0 (R375). -/
def timeDiff (a b : BitVec 32) : Nat := if (a - b).toNat ≥ 2 ^ 31 then 0 else (a - b).toNat

/-- A sum saturating at a bound. -/
def satAdd (a b bound : Nat) : Nat := Nat.min (a + b) bound

/-- Add parts to a delay account entry (R375, R376). -/
def State.account (s : State) (c x sender transit wait run count : Nat) : State :=
  let t := (s.die (dieOf c)).trctl
  if sender = 0xFFFFFF || !t.getLsbD 0 || (t.getLsbD 25 && (t.extractLsb' 26 6).toNat != x) then s
  else
    let k := s.cas (casOf c)
    let h := acctIndex sender
    let e := k.acct.get h [0, 0, 0, 0]
    let w := fun i => (e.getD i 0).toNat
    let tag := sender / 8 % 2 ^ 21
    let m := 2 ^ 48 - 1
    let cnt := satAdd (w 3 / 2 ^ 32) count (2 ^ 32 - 1)
    let coll := w 3 / 2 ^ 31 % 2 = 1 || ((k.acct.find h).isSome && w 3 % 2 ^ 21 != tag)
    let words : List Word := [BitVec.ofNat 64 (satAdd (w 0) transit m), BitVec.ofNat 64 (satAdd (w 1) wait m),
      BitVec.ofNat 64 (satAdd (w 2) run m), BitVec.ofNat 64 (cnt * 2 ^ 32 + coll.toNat * 2 ^ 31 + tag)]
    s.setCas (casOf c) { k with acct := k.acct.set h words }

end Sys2Proof.Machine
end

