-- ==== Sys2Proof/Machine/Faults.lean ====
section
/-! DEFINITION. Stops and continuations: the fault stop, its record and disposition (R396 to R406), abandonment (R34,
R79), pre-emption (R47, R407), the orders of tret (R314), and entering a halt (R361, R362). -/

namespace Sys2Proof.Machine

/-- The firing a planned step names. -/
def planOf (i : Instr) : Option Nat :=
  match i with
  | .firingInsert f => some f
  | .releaseNotice f => some f
  | .tryResult f => some f
  | .reservation f => some f
  | .reservationRetry f => some f
  | .displacementNotice f _ => some f
  | .ticketedTryRetry f => some f
  | .roundResolve f => some f
  | .roundTryRetry f => some f
  | .placement f => some f
  | .footprintResident f => some f
  | .preciseResume f => some f
  | .faultRecordWrite f => some f
  | .tandemStart f => some f
  | _ => none

/-- The next instruction of a firing on a core. -/
def Firing.nextPc (f : Firing) : Nat := if f.stage == .running then f.pc else f.entry

namespace State

/-- A firing is gone: no step that names it will happen, and no core keeps it. -/
def forget (s : State) (key : Nat) : State :=
  { s with
    firings := s.firings.del key
    agenda := s.agenda.filter (fun e => planOf e.2 != some key)
    cores := s.cores.map (fun e => (e.1, { e.2 with
      slot := if e.2.slot == some key then none else e.2.slot
      stage := if e.2.stage == some key then none else e.2.stage
      kept := (e.2.kept.filter (fun k => k.1 != key)).map (fun k => (k.1, k.2.filter (· != key)))
      spawnq := e.2.spawnq.filter (· != key) })) }

/-- No core kept for a tandem waits for a firing any more (R123). -/
def clearWait (s : State) (key : Nat) : State :=
  { s with cores := s.cores.map (fun e => (e.1, { e.2 with kept := e.2.kept.map (fun k => (k.1, k.2.filter (· != key))) })) }

/-- The forks that have moved from the spill area into the spawn channel of a core (R60, R318). -/
def settleForks (s : State) (c : Nat) : State :=
  ((s.core c).spawnq.take (s.die (dieOf c)).spawnq).foldl (fun s k =>
    match s.fir? k with
    | some f => if f.spilled then s.setFir { f with spilled := false } else s
    | none => s) s

/-- A context that has no Ready firing yields the rest of its share at once (R59). -/
def dryShare (s : State) (d x : Nat) : State :=
  let q := s.die d
  if q.lastCtx = x && (s.readyOf d x).isEmpty then s.setDie d { q with popsTaken := 256 } else s

/-- A core may qualify for what waits in Placing on its die: each is placed if it can be (R50, R63). -/
def rePlace (s : State) (d : Nat) : State :=
  s.firings.foldl (fun s e =>
    if e.2.stage == .placing && e.2.die == d then s.planNow (.placement e.1) else s) s

/-- A core has room again: its next firing, and what waits for a core of its die or for a quiet cassette. -/
def freed (s : State) (c : Nat) : State :=
  let s := s.firings.foldl (fun s e =>
    if e.2.stage == .composed && dieOf e.2.core == dieOf c then s.planNow (.tandemStart e.1)
    else s) ((s.planNow (.nextFiring c)).rePlace (dieOf c))
  let k := s.cas (casOf c)
  let s := if k.l1coNext.isSome then s.planNow (.l1coTakeEffect (casOf c)) else s
  if k.wsareaNext.isSome then s.planNow (.wsareaTakeEffect (casOf c)) else s

/-- Two firings belong to one round (R182). (DEDUCED, log 20) -/
def sameRound (f g : Firing) : Bool := f.ctx == g.ctx && f.head.map == g.head.map && f.guard == g.guard

/-- A granted firing of a round has ended: the next pass may begin (R182). (DEDUCED, log 20) -/
def nextPass (s : State) (f : Firing) : State :=
  if !f.granted then s
  else s.firings.foldl (fun s e =>
    if e.2.stage == .between && e.2.inRound && !e.2.granted && sameRound f e.2 then s.planNow (.roundResolve e.1) else s) s

/-- The run of a firing goes to the account of its sender (R375): of one that has issued an instruction, and whose first slot
on ic0 is no void slot and no debug response. -/
def accountRun (s : State) (f : Firing) : State :=
  let ours := match (s.claimSlots f.core f).find? (fun e => e.1 == 0) with
    | some e => e.2.2.opc != 0xFFF && e.2.2.opc != 0xFDB
    | none => true
  if f.begun && !f.fresh && ours then
    s.account f.core f.ctx f.sender 0 0 (timeDiff (s.time.extractLsb' 0 32) (f.started.extractLsb' 0 32)) 0
  else s

/-- ABANDON (R34, R79, R406): the firing's releases are performed, its slots and workspace freed; what it published
or applied stands. -/
def abandon (s : State) (f : Firing) : State :=
  let s := (s.accountRun f).releases f true
  let kept := s.cores.filter (fun e => e.2.kept.any (fun k => k.1 == f.key))
  let s := kept.foldl (fun s e => s.planNow (.nextFiring e.1)) ((s.forget f.key).nextPass f)
  let s := if f.stage == .ready then (s.refillBank f.die f.bank).dryShare f.die f.ctx else s
  let s := if f.stage == .spawnq then s.settleForks f.core else s
  s.freed (if f.placed then f.core else dieCore f.die)

/-- Bytes of a save block with the largest grant, 64 + 1,024·9 (R402). -/
def saveBytes : Nat := 9280

/-- The key of save block n of a die's spill area: the blocks follow each other from its start (R56, R318, R402).
(DESIGN CHOICE, log 80) -/
def saveKey (s : State) (d n : Nat) : Nat := d * 2 ^ 36 + (s.die d).dspillBase.toNat * 2 ^ 24 + n * saveBytes

/-- The save block of a precise stop is written: the grant, PC, C and K, and the vector registers (R402); the lowest free
block takes it. (DESIGN CHOICE, log 80) -/
def saveBlock (s : State) (f : Firing) : State × Firing :=
  let d := dieOf f.core
  let held := (s.firings.map (·.2)).filter (fun g => g.saved && dieOf g.core == d)
  let n := ((List.range (held.length + 1)).find? (fun i => held.all (fun g => g.block != i))).getD held.length
  let k := s.saveKey d n
  let s := ((s.setNum k 8 f.groups).setNum (k + 8) 8 f.pc).setNum (k + 16) 48 (f.c.toNat + 2 * f.k.toNat)
  let s := (List.range 16).foldl (fun s i =>
    s.setNum (k + 64 + 64 * f.groups * i) (64 * f.groups) (f.vregs.getD i 0).toNat) s
  (s, { f with saved := true, block := n })

/-- A precise resume reloads the grant, PC, C, K and the registers from the save block, which is then free (R402). -/
def loadBlock (s : State) (f : Firing) : Firing :=
  let k := s.saveKey (dieOf f.core) f.block
  let g := s.num k 8
  let flags := s.num (k + 16) 1
  { f with
    groups := g, pc := s.num (k + 8) 8, c := flags % 2 = 1, k := flags / 2 % 2 = 1, saved := false
    vregs := (List.range 16).map (fun i => BitVec.ofNat 4608 (s.num (k + 64 + 64 * g * i) (64 * g))) }

/-- A stop that is precise writes its save block; any other holds none. -/
def saveIf (s : State) (prec : Bool) (f : Firing) : State × Firing :=
  if prec then s.saveBlock f else (s, { f with saved := false })

/-- The words of a tandem go back to the leader's workspace, and its members are free (R131, R437). -/
def gather (s : State) (f : Firing) : State × Firing :=
  match f.tandem with
  | none => (s, f)
  | some t =>
    let s := (List.range (f.head.wsn + 1)).foldl (fun s i =>
      s.setNum (sliceKey f.core (f.wp + 8 * i)) 8 (s.rawWord f i).toNat) s
    (t.members.foldl (fun s m => (s.setCore m { s.core m with memberOf := none }).freed m) s,
      { f with tandem := none })

/-- The run slot of a core is empty (R62). -/
def emptyRun (s : State) (c : Nat) : State :=
  let k := s.core c
  let s := s.setCore c { k with run := none, stopping := false, preempt := none, ending := none }
  { s with agenda := s.agenda.filter (fun e => e.2 != Instr.preemptWindowExpiry c) }.freed c

/-- The running firing of a core leaves it and is stopped (R33, R240): its groups return to the pool, its count and
what it holds are kept. (DEDUCED, log 28) -/
def stopRun (s : State) (c : Nat) (f : Firing) (st : Stage) : State :=
  let s := (s.leaveStores c).traceEnd c f (if f.doomed then 3 else 2)
  let g := s.gather { f with last := (s.core c).issued }
  (g.1.emptyRun c).setFir { g.2 with stage := st }

/-- A continuation is ordered (R55): the entry is pinned and keeps its set, slots and age. -/
def order (s : State) (f : Firing) (k : Cont) : State :=
  (s.setFir { f with stage := .ordered k, pin := true, trap := none }).planNow (.nextFiring f.core)

/-- The firing on a core (R360): running, held by a halt, or staged to run next. -/
def onCoreFiring (s : State) (c : Nat) : Option Firing :=
  let k := s.core c
  match k.run with
  | some f => some f
  | none => (k.slot.or k.stage).bind s.fir?

/-- The word of a pending step (R360). -/
def stepCode : StepReq → Nat
  | .none => 0
  | .instr => 1
  | .firing => 2

/-- DSTAT (R360). (DEDUCED, log 50) -/
def dstat (s : State) (c : Nat) : Word :=
  let k := s.core c
  let f := s.onCoreFiring c
  let pc := match f with
    | some g => if k.halted then g.nextPc % 2 ^ 50 else 0
    | none => 0
  let x := match f with | some g => g.ctx | none => 0
  BitVec.ofNat 64 (pc * 2 ^ 14 + x * 2 ^ 8 + (if k.halted then k.reason.toNat else 0) * 2 ^ 4 + f.isSome.toNat * 8
    + stepCode k.step * 2 + k.halted.toNat)

/-- The core halts (R361): a HALT record (R372), and the answers that waited for it (R371). -/
def haltNow (s : State) (c : Nat) (reason : BitVec 4) : State :=
  let k := s.core c
  let next := s.onCoreFiring c
  let x := match next with | some f => f.ctx | none => k.spown.toNat
  let pc := match next with | some f => f.nextPc | none => 0
  let s := s.setCore c { k with halted := true, reason := reason, step := .none, haltReq := none }
  let s := s.traceAfterBranch c 12 x (reason.toNat * 2 ^ 60 + pc % 2 ^ 50)
  s.msgs.foldl (fun s m =>
    match m.2 with
    | .dbg r =>
      if r.target = c ∧ r.status = 257 then
        (s.setMsg m.1 (.dbg { r with status := 0, dstat := s.dstat c })).planNow (.debugResponseWrite m.1)
      else s
    | _ => s) s

/-- A stop by pre-emption (R47, R407): no record; the device resumes the firing, or abandons it when that is asked. -/
def preemptStop (s : State) (c : Nat) (f : Firing) (k : Cont) : State :=
  let r := s.saveIf (k == .precise) { f with pin := true }
  let f := r.2
  let s := r.1.stopRun c f (.ordered k)
  if f.doomed then
    match s.fir? f.key with
    | some g => s.abandon g
    | none => s
  else s.planNow (.nextFiring f.core)

/-- A pre-emption request to a core (R47): the window runs from it. -/
def requestPreempt (s : State) (c : Nat) : State :=
  let k := s.core c
  match k.run with
  | none => s
  | some _ =>
    if k.preempt.isSome then s
    else
      let due := s.time.toNat + (s.die (dieOf c)).preemptwin
      (s.setCore c { k with preempt := some due }).plan due (.preemptWindowExpiry c)

/-- A firing stops before a core runs it (R425, R431, R433, R439): its record follows. -/
def stopEarly (s : State) (f : Firing) (t : Trap) : State :=
  (s.setFir { f with
    stage := .stopping, saved := false, trap := some { t with pc := f.entry, time := s.time } }).planNow
    (.faultRecordWrite f.key)

/-- A firing whose header or map was defective returns to Ready with TRIES 0 and its age (R431); its header is read
again. (DEDUCED, log 32) -/
def reenter (s : State) (f : Firing) : State :=
  match s.hdrOf (dieCore f.die) f.ctx f.hdr with
  | .error t => s.stopEarly f t
  | .ok (h, sound) =>
    if !sound then s.stopEarly f (trapAt Cls.task 0)
    else
      let f := { f with head := h, entry := h.entry, tries := 0, trap := none, ticket := none }
      let s := s.enterReady f
      match s.fir? f.key with
      | some g => s.setFir { g with age := if f.age = 0 then g.age else f.age }
      | none => s

/-- Device retries a firing may use (R404). -/
def allowance (h : Hdr) : Nat := if h.retry = 0 then 2 else if h.retry = 15 then 0 else h.retry

/-- The entry of the current region, pw.REGION·4 (R400). -/
def regionOf (s : State) (f : Firing) : Nat := if f.placed then (s.rawWord f 0).toNat / 2 ^ 16 * 4 else f.entry

end State

/-- A halt that waited for a fault's stop (R362): REASON 0xB for a HALT request, or the step that ends with it (R365). -/
def State.haltAfterFault (s : State) (c : Nat) (k : Core) : State :=
  if k.haltReq = some 1 then s.haltNow c 0xB
  else if k.step == .instr then s.haltNow c 9
  else match k.haltReq with
    | some r => s.haltNow c r
    | none => s

/-- Where a stopped firing goes on (R399, R400): at the faulting instruction, or after a trap or breakpoint. -/
def Firing.resumePc (f : Firing) (t : Trap) : Nat := if t.cls == Cls.trap || t.cls == Cls.brk then t.pc else f.pc

/-- FAULT_STOP (R399): once loads and answers have arrived, a save block when the stop is precise (R402), and the
firing is Stopped. -/
def execFaultStop (c : Nat) (s : State) : Out :=
  let k := s.core c
  match k.run with
  | none => .fault .notDue
  | some f =>
    match f.trap with
    | none => .fault .notDue
    | some t =>
      if !k.stopping then .fault .notDue
      else if k.loads != 0 || k.waits != 0 then .next (s.plan (s.time.toNat + 1) (.faultStop c))
      else
        let prec := f.c || t.cls == Cls.trap || t.cls == Cls.brk
        let s := if t.cls = Cls.uncorr then s.noteBad (physKey (pkgOf c) t.info) else s
        let r := s.saveIf prec { f with recorded := false, pc := f.resumePc t, faultCore := none }
        let s := (r.1.stopRun c r.2 .stopping).planNow (.faultRecordWrite f.key)
        .next (s.haltAfterFault c k)

/-- What the device does with a stop (R403): the code DISP. -/
def disposition (s : State) (f : Firing) (t : Trap) : Nat :=
  if f.doomed then 4
  else if t.cls < 0x20 then (if (s.ctx f.ctx).fltch = 0 then 4 else 0)
  else if f.retries < State.allowance f.head then (if !f.k then 1 else if !f.c then 2 else 3)
  else 4

/-- FAULT_RECORD_WRITE (R400, R401, R403): the record goes into the fault channel once it has room, and the dispatcher
decides. -/
def execFaultRecordWrite (key : Nat) (s : State) : Out :=
  match s.fir? key with
  | none => .fault .noSuchStep
  | some f =>
    match f.trap with
    | none => .fault .notDue
    | some t =>
      if f.stage != .stopping then .fault .notDue
      else
        let c := if f.placed then f.core else State.dieCore f.die
        let disp := disposition s f t
        let retries := if disp = 1 ∨ disp = 2 ∨ disp = 3 then f.retries + 1 else f.retries
        let ws := State.recordWords (f.faultCore.getD c) f.ctx retries disp f.saved f.k f.c t f.id (s.regionOf f) f.hdr
        let written := if (s.ctx f.ctx).fltch = 0 then some s else s.writeRecord c (f.faultCore.getD c) f.ctx ws
        match written with
        | none => .next (s.plan (s.time.toNat + 1) (.faultRecordWrite key))
        | some s =>
          let f := { f with retries := retries, recorded := true }
          .next (match disp with
            | 0 => s.setFir { f with stage := .waiting }
            | 1 =>
              if f.placed then s.order f .replay
              else if f.granted then
                (s.setFir { f with trap := none, stage := .between }).planNow (.roundTryRetry f.key)
              else s.reinsert { f with trap := none }
            | 2 => s.order f .restart
            | 3 => s.order f .precise
            | _ => s.abandon f)

/-- The reservations a firing left unpublished become void slots (R405). -/
def State.voidAll (s : State) (f : Firing) : State :=
  f.resv.foldl (fun s r => s.voidSlot f.core f.ctx r f.last) s

/-- The order of a firing takes effect at its dispatcher (R314, R406, R431): what a core does with it follows when the core
takes the firing. (DEDUCED, log 32) -/
def orderNow (s : State) (f : Firing) (k : Cont) : State :=
  match k with
  | .abandon => s.abandon f
  | .precise => s.order f .precise
  | .restart => if f.placed then s.order f .restart else s.reenter f
  | .replay => if f.placed then (s.voidAll f).order { f with resv := [] } .replay else s.reenter f

/-- Apply an order of tret to a waiting firing (R314, R406): the status. At weight 0 the order waits for the weight (R407).
(DEDUCED, log 32) -/
def applyOrder (s : State) (f : Firing) (act : Nat) : State × Nat :=
  let go := fun (k : Cont) =>
    (if ((s.die f.die).cxwt.get f.ctx 16).toNat = 0 then s.setFir { f with stage := .ordered k } else orderNow s f k, 0)
  match act with
  | 0 => go .restart
  | 1 => if f.saved then go .precise else (s, 2)
  | 2 => go .replay
  | 3 => go .abandon
  | _ => (s, 3)

/-- TRET_ORDER (R314): the firing's dispatcher applies the order and answers with a status. -/
def execTretOrder (tag : Nat) (s : State) : Out :=
  match s.msg? tag with
  | some (.tret c x fid act dword) =>
    let s := s.dropMsg tag
    let r := match s.firings.find? (fun e => e.2.id == fid && e.2.ctx == x && e.2.stage == .waiting) with
      | some e => applyOrder s e.2 act
      | none => (s, if act > 3 then 3 else 1)
    .next ((r.1.gotAnswer c).onCore c (fun s => s.setWord dword (BitVec.ofNat 64 r.2)))
  | _ => .fault .noSuchStep

/-- PREEMPT_WINDOW_EXPIRY (R47, R361, R374): at the end of the window the core stops by C, at a block boundary on a
tandem; the window does not run while the core is halted. -/
def execPreemptWindowExpiry (c : Nat) (s : State) : Out :=
  let k := s.core c
  let again := fun (s : State) => Host.Outcome.next (s.plan (s.time.toNat + 1) (.preemptWindowExpiry c))
  match k.preempt, k.run with
  | some d, some f =>
    if s.time.toNat < d then .next (s.plan d (.preemptWindowExpiry c))
    else if k.halted then again s
    else if f.trap.isSome || k.ending.isSome then .next s
    else if (match f.tandem with | some t => t.mid | none => false) then again s
    else if k.loads != 0 || k.waits != 0 then again (s.setCore c { k with stopping := true })
    else .next (s.preemptStop c f (if f.c then .precise else .restart))
  | _, _ => .fault .notDue

end Sys2Proof.Machine
end

