-- ==== Sys2Proof/Machine/Dispatcher.lean ====
section
/-! DEFINITION. The dispatcher (R52 to R80), the start and the retirement of firings (R28, R34, R47, R49), rounds
(R182), and the counting and claiming of channel slots (R40 to R42, R429, R430). -/

namespace Sys2Proof.Machine

/-! ## Insertion and guards -/

/-- The fault of a record or counter that its atomic unit cannot read (R444, R446). (DESIGN CHOICE, log 100) -/
def lineTrap (va k : Nat) : Trap := { trapAt Cls.uncorr va with info := keyPa k }

namespace State

/-- A new firing identifier of a die's dispatcher (R29). (DESIGN CHOICE, log 106) -/
def newId (s : State) (d : Nat) : Word × State :=
  let x := s.die d
  (BitVec.ofNat 64 (d / 16 * 2 ^ 55 + d % 16 * 2 ^ 51 + x.inserted % 2 ^ 51), s.setDie d { x with inserted := x.inserted + 1 })

/-- A firing enters Pending: a watch entry of the word's cassette, or a reading every 256 ck (R103). -/
def enterPending (s : State) (f : Firing) : State :=
  let w := match f.guard with
    | .sync c _ _ => decide (s.watchUse (casOf c) < 1024)
    | _ => true
  let s := s.setFir { f with stage := .pending, watched := w }
  if w then s else s.plan (s.time.toNat + 256) (.releaseNotice f.key)

end State

/-- FIRING_INSERT (R33, R52, R425): the firing reaches its dispatcher. -/
def execFiringInsert (key : Nat) (s : State) : Out :=
  match s.fir? key with
  | none => .fault .noSuchStep
  | some f =>
    if f.stage != .made then .fault .notDue
    else if f.src == .post && !writeReady s key f.sender 0 0 (some .die) then .next (s.planNow (.firingInsert key))
    else
      let r := s.newId f.die
      let f := { f with id := r.1 }
      let s := r.2
      if f.width > 0 then .next ((s.setFir { f with stage := .composed }).planNow (.tandemStart key))
      else
        let sound := match s.hdrOf (State.dieCore f.die) f.ctx f.hdr with
          | .ok h => h.2
          | .error _ => true
        if f.src == .chan && !sound then .next (s.stopEarly f (trapAt Cls.task 0))
        else if s.guardRec f.ctx f.guard then .next (s.enterReady f)
        else .next (s.enterPending f)

/-- RELEASE_NOTICE (R103): the generation a Pending firing names is reached. -/
def execReleaseNotice (key : Nat) (s : State) : Out :=
  match s.fir? key with
  | none => .fault .noSuchStep
  | some f =>
    if f.stage != .pending then .next s
    else if s.guardRec f.ctx f.guard then .next (s.released f)
    else if f.watched then .next s
    else .next (s.plan (s.time.toNat + 256) (.releaseNotice key))

/-- WATCH_POLL (R103): the dispatcher reads the word of a firing that holds no watch entry. -/
def execWatchPoll (key : Nat) (s : State) : Out :=
  match s.fir? key with
  | none => .fault .noSuchStep
  | some f =>
    if f.stage != .pending || f.watched then .fault .notDue
    else .next (if s.guardRec f.ctx f.guard then s.released f else s)

/-! ## The pop (R57 to R61) -/

namespace State

/-- The head of a bank for a context. -/
def headOf (s : State) (d x b : Nat) : Option Firing := bestHead ((s.readyOf d x).filter (fun f => f.bank == b))

/-- The weight of a context (R59). -/
def weight (s : State) (d x : Nat) : Nat := ((s.die d).cxwt.get x 16).toNat

/-- The context a pop serves (R59): the last one while its share lasts, else the next with a Ready firing. -/
def chooseCtx (s : State) (d : Nat) : Option Nat :=
  let q := s.die d
  let live := fun x => !(s.readyOf d x).isEmpty && decide (0 < s.weight d x)
  if live q.lastCtx && decide (q.popsTaken < s.weight d q.lastCtx) then some q.lastCtx
  else ((List.range 64).map (fun i => (q.lastCtx + 1 + i) % 64)).find? live

/-- The pops counted for the head of a bank (R58): 0 for a head that has just become head. (DEDUCED, log 27) -/
def headCount (s : State) (d x b : Nat) (f : Firing) : Nat :=
  match (s.die d).heads.find (b * 64 + x) with
  | some (k, n) => if k = f.key then n else 0
  | none => 0

/-- The head an ordinary pop takes (R57, R58): the best aged one, or the better of two sampled, and the state after the
samples are drawn. (DESIGN CHOICE, log 17; DEDUCED, log 27) -/
def samplePop (s : State) (d x : Nat) (heads : List Firing) : Option Firing × State :=
  let aged := heads.filter (fun f => decide (s.headCount d x f.bank f ≥ 64))
  if !aged.isEmpty then (bestHead aged, s)
  else
    match heads with
    | [] => (none, s)
    | [f] => (some f, s)
    | _ =>
      let i := s.choice heads.length
      let s := s.dropChoice
      let rest := heads.eraseIdx i
      let j := s.choice rest.length
      (bestHead ((heads[i]?).toList ++ (rest[j]?).toList), s.dropChoice)

/-- The firing a pop of a context takes. In a deterministic context the best of all heads is popped where it is of a DET
actor (R60); where it is not, the pop samples the heads of DET = 0 as an ordinary one does (R174). (DEDUCED, log 82) -/
def choosePop (s : State) (d x : Nat) : Option Firing × State :=
  let heads := (List.range 32).filterMap (s.headOf d x)
  if !s.det x then s.samplePop d x heads
  else match bestHead heads with
    | none => (none, s)
    | some b => if b.head.det then (some b, s) else s.samplePop d x (heads.filter (fun f => !f.head.det))

/-- Count a pop for the other heads of its context (R58), and in the share of the context (R59): one that has no other Ready
firing yields the rest. (DEDUCED, log 27) -/
def countPop (s : State) (d x : Nat) (taken : Firing) : State :=
  let q := s.die d
  let dry := ((s.readyOf d x).filter (fun f => f.key != taken.key)).isEmpty
  s.setDie d { q with
    lastCtx := x
    patienceNow := q.patience
    popsTaken := if dry then 256
      else if q.lastCtx = x ∧ q.popsTaken < s.weight d x then q.popsTaken + 1 else 1
    heads := (List.range 32).foldl (fun h b =>
      match s.headOf d x b with
      | none => h.del (b * 64 + x)
      | some f => if f.key = taken.key then h.del (b * 64 + x) else h.set (b * 64 + x) (f.key, s.headCount d x b f + 1))
      q.heads }

/-! ## Tries, tickets and reservations (R71 to R79) -/

/-- The home slices of elements, each once. -/
def homesOf (s : State) (els : List LockEl) : List Nat :=
  els.foldl (fun l e => if l.contains (s.home e.addr) then l else l ++ [s.home e.addr]) []

/-- One lock request to each home slice of elements (R71). -/
def askHomes (s : State) (key : Nat) (els : List LockEl) (ticket : Option Nat) (homes : List Nat) : State :=
  homes.foldl (fun s h => s.post (.lockReq key h (els.filter (fun e => s.home e.addr == h)) ticket 0) .lockRequest) s

/-- Send the lock requests of a try (R71): one to each home slice of the own package, and one batch to each foreign one;
those to a lost package go unanswered (R433). -/
def startTry (s : State) (f : Firing) (set : List LockEl) : State :=
  let p := f.die / 16
  let near := (s.homesOf set).filter (fun h => !(s.pkg p).lost.contains (pkgOf h))
  let s := s.setFir { f with stage := .acquiring, set := set, got := [], outstanding := near.length, tryFailed := false }
  let s := s.askHomes f.key set f.ticket (near.filter (fun h => pkgOf h == p))
  let pkgs := (near.filter (fun h => pkgOf h != p)).foldl (fun l h => if l.contains (pkgOf h) then l else l ++ [pkgOf h]) []
  let s := pkgs.foldl (fun s q =>
    s.post (.lockBatch f.key q (set.filter (fun e => s.homePkg e.addr == q)) f.ticket) .lockRequest) s
  if near.isEmpty then s.planNow (.tryResult f.key) else s

/-- The set in the order of reservations: package, then element (R77). -/
def insertEl (s : State) (e : LockEl) : List LockEl → List LockEl
  | [] => [e]
  | h :: t =>
    if s.homePkg e.addr < s.homePkg h.addr || (s.homePkg e.addr == s.homePkg h.addr && decide (e.elem < h.elem)) then
      e :: h :: t
    else h :: insertEl s e t

/-- The key of the ticket counter of a context, as seen from a die (R76). -/
def ticketKey (s : State) (d x : Nat) : Nat := physKey (d / 16) (s.ctx x).ticketw.toNat

/-- Why the atomic unit cannot read a line (R444). -/
def lineFails (s : State) (k : Nat) : Option ErrKind :=
  if s.silent.contains (k / 128) then some .silent else if s.isBad k then some .uncorrectable else none

/-- Draw a ticket from the counter of a context (R76), an atomic that the dispatcher numbers as the first core of its
die (R343): the counter goes up by one and the ticket is its new value, as in the worked star run, where the counter goes from 0
to 1 and the firing takes ticket 1. (DEDUCED, log 19) -/
def drawTicket (s : State) (d x : Nat) : Nat × State :=
  let k := s.ticketKey d x
  let t := (s.num k 4 + 1) % 2 ^ 32
  let c := s.core (dieCore d)
  let s := s.setCore (dieCore d) { c with seq := c.seq.set (s.home k) (c.seq.get (s.home k) 0 + 1) }
  (t, (s.setNum k 4 t).soil k 0)

/-- Reservation starts (R75, R77). A firing whose ticket counter cannot be read stops (R444). (DESIGN CHOICE, log 100) -/
def startReservation (s : State) (f : Firing) (set : List LockEl) : State :=
  let k := s.ticketKey f.die f.ctx
  if f.ticket.isNone && (s.lineFails k).isSome then (s.noteBad k).stopEarly f (lineTrap 0 k)
  else
  let r := match f.ticket with
    | some t => (t, s)
    | none => s.drawTicket f.die f.ctx
  (r.2.setFir { f with
    stage := .reserving, ticket := some r.1, set := set, order := set.foldr (s.insertEl) [], rsvd := 0, got := [] }).planNow
    (.reservation f.key)

/-- A defective map stops a firing (R431): its successes and reservations are released, its ticket given up; one granted in
a round no longer holds back its next pass (R182). -/
def mapStop (s : State) (f : Firing) (t : Trap) : State :=
  let s := s.releaseLocks f.die f.ctx f.got .free
  let s := match f.ticket with
    | some n => s.releaseLocks f.die f.ctx f.order (.clear n)
    | none => s
  (s.stopEarly { f with got := [], ticket := none, order := [], rsvd := 0, granted := false } t).nextPass f

/-- A try with the set as the map gives it now (R67, R71). -/
def tryNow (s : State) (f : Firing) : State :=
  match s.exclSet (dieCore f.die) f with
  | .error t => s.mapStop f t
  | .ok set => s.startTry f set

/-- A firing has its set: it waits for a core (R33); the ck is kept for its XWAIT record. -/
def acquired (s : State) (f : Firing) : State :=
  (s.setFir { f with stage := .placing, got := f.set, tryFailed := false, started := s.time }).planNow (.placement f.key)

end State

/-- POP (R57 to R61, R70, R75, R183). -/
def execPop (d : Nat) (s : State) : Out :=
  match s.chooseCtx d with
  | none => .next s
  | some x =>
    match s.choosePop d x with
    | (none, s) => .next s
    | (some f, s) =>
      let s := s.countPop d x f
      let f := { f with firstPop := if f.firstPop = 0 then s.time else f.firstPop, spilled := false }
      let s := if f.head.bound then
          match s.exclSet (State.dieCore d) f with
          | .error t => s.mapStop f t
          | .ok set =>
            let s := if s.det x && f.head.det then s.setCtx x { s.ctx x with detstat := (s.ctx x).detstat ||| 1 } else s
            if f.tries ≥ (s.die d).patienceNow || f.ticket.isSome then s.startReservation f set else s.startTry f set
        else s.acquired { f with set := [], elem := none }
      let s := s.refillBank d f.bank
      .next (if (s.chooseCtx d).isSome then s.planNow (.pop d) else s)

/-- A lock record's fields (R68). -/
def lockTicket (r : Nat) : Nat := r / 2 ^ 32
/-- Held exclusive. -/
def lockExc (r : Nat) : Bool := r / 2 ^ 31 % 2 = 1
/-- Reserved. -/
def lockRsv (r : Nat) : Bool := r / 2 ^ 30 % 2 = 1
/-- Shared holders. -/
def lockShr (r : Nat) : Nat := r % 2 ^ 16

/-- The record without its reservation. -/
def clearRsv (r : Nat) : Nat := if lockRsv r then r - 2 ^ 30 else r

/-- A lock request applied to a record (R72). (DESIGN CHOICE, log 102) -/
def applyLock (r : Nat) (exc : Bool) (ticket : Option Nat) : Option Nat :=
  let mine := ticket == some (lockTicket r)
  if lockRsv r && !mine then none
  else
    let r' := if lockRsv r then clearRsv r else r
    if lockExc r then none
    else if exc then (if lockShr r = 0 then some (r' + 2 ^ 31) else none)
    else if lockShr r < 65535 then some (r' + 1)
    else none

/-- Apply every request of a list, or none (R71). -/
def State.applyLocks (s : State) (els : List LockEl) (ticket : Option Nat) : Option State :=
  match els with
  | [] => some s
  | e :: t =>
    match applyLock (s.num e.addr 8) e.exc ticket with
    | none => none
    | some r => ((s.setNum e.addr 8 r).soil e.addr 0).applyLocks t ticket

/-- A lock request or release that the dispatcher of a die sent to a home slice before this one is still on its way: they arrive
in the order they were sent (R343). -/
def lockBehind (s : State) (tag die home : Nat) : Bool :=
  s.msgs.any (fun m => decide (m.1 < tag) && (match m.2 with
    | .lockReq k h _ _ _ => h == home && (match s.fir? k with | some f => f.die == die | none => false)
    | .lockRel d h _ _ _ => d == die && h == home
    | _ => false))

/-- Why the atomic unit cannot apply a request to some records (R444). -/
def State.locksFail (s : State) (els : List LockEl) : Option ErrKind :=
  if els.any (fun e => s.lineFails e.addr == some .silent) then some .silent
  else if els.any (fun e => (s.lineFails e.addr).isSome) then some .uncorrectable
  else none

/-- LOCK_REQUEST (R71, R72): a slice applies the requests of one try in one step; a foreign package's entry router fans a
batch out to its slices. A record whose line cannot be read is read up to four times more, and then the request fails (R444).
(DESIGN CHOICE, log 100) -/
def execLockRequest (tag : Nat) (s : State) : Out :=
  match s.msg? tag with
  | some (.lockBatch key _ els ticket) => .next ((s.dropMsg tag).askHomes key els ticket (s.homesOf els))
  | some (.lockReq key home els ticket reads) =>
    match s.fir? key with
    | none => .fault .noSuchStep
    | some f =>
      let why := s.locksFail els
      let slow := why == some .silent
      if lockBehind s tag f.die home then .next (s.planNow (.lockRequest tag))
      else if why.isSome && (reads < 4 || (slow && reads < 5)) then
        .next (((els.foldl (fun s e => s.noteBad e.addr) s).setMsg tag (.lockReq key home els ticket (reads + 1))).plan
          (s.time.toNat + if slow then 4096 else 0) (.lockRequest tag))
      else
      let s := s.dropMsg tag
      let r := if why.isSome then none else s.applyLocks els ticket
      let s := r.getD s
      let f := { f with
        outstanding := f.outstanding - 1
        got := if r.isSome then f.got ++ els else f.got
        tryFailed := f.tryFailed || r.isNone }
      let s := s.setFir f
      .next (if f.outstanding = 0 then s.planNow (.tryResult key) else s)
  | _ => .fault .noSuchStep

/-- A release of a record, or the clearing of a reservation by its ticket (R72, R79). A shared release of a record without
shared holders leaves it. (DESIGN CHOICE, log 78) -/
def releaseRec (r : Nat) (exc : Bool) (mode : RelMode) : Nat :=
  match mode with
  | .clear t => if lockRsv r && lockTicket r == t then clearRsv r else r
  | _ => if exc then (if lockExc r then r - 2 ^ 31 else r) else (if lockShr r = 0 then r else r - 1)

/-- Ticket a is older than b (R76). -/
def olderTicket (a b : Nat) : Bool :=
  let d := (b + 2 ^ 32 - a % 2 ^ 32) % 2 ^ 32
  d != 0 && decide (d < 2 ^ 31)

/-- A reservation under a ticket at a record (R77), with the notice to the firing it displaces; none where it is busy. -/
def State.reserveAt (s : State) (f : Firing) (t : Nat) (e : LockEl) : Option State :=
  let r := s.num e.addr 8
  let mark := (s.setNum e.addr 8 (t * 2 ^ 32 + r % 2 ^ 32 / 2 ^ 31 * 2 ^ 31 + 2 ^ 30 + r % 2 ^ 30)).soil e.addr 0
  if !lockRsv r then some mark
  else if lockTicket r = t then some s
  else if olderTicket t (lockTicket r) then
    match s.firings.find? (fun g => g.2.ticket == some (lockTicket r) && g.2.ctx == f.ctx && g.1 != f.key) with
    | some g => some (mark.planNow (.displacementNotice g.1 e.elem))
    | none => some mark
  else none

/-- A failed ticketed try keeps its reservation of a record whose lock it took (R78): the reservation is placed again by
R77, or repeated from there where an older ticket has come in between. (DEDUCED, log 85) -/
def State.keepRsv (s : State) (t : Nat) (e : LockEl) : State :=
  match s.firings.find? (fun g => g.2.ticket == some t && g.2.order.contains e && !g.2.placed) with
  | none => s
  | some g =>
    match s.reserveAt g.2 t e with
    | some s => s
    | none => s.planNow (.displacementNotice g.1 e.elem)

/-- LOCK_RELEASE (R72, R73, R78, R79). One at a record whose line cannot be read is not applied, and reported (R444, R446).
(DEDUCED, log 85; DESIGN CHOICE, log 100) -/
def execLockRelease (tag : Nat) (s : State) : Out :=
  match s.msg? tag with
  | some (.lockRel die home x els mode) =>
    if lockBehind s tag die home then .next (s.planNow (.lockRelease tag))
    else .next (els.foldl (fun s e =>
      if (s.lineFails e.addr).isSome then
        (s.noteBad e.addr).notice (State.dieCore die) (State.dieCore die) x Cls.uncorr 0 (keyPa e.addr) 0 0
      else
      let s := (s.setNum e.addr 8 (releaseRec (s.num e.addr 8) e.exc mode)).soil e.addr 0
      match mode with
      | .again t => s.keepRsv t e
      | _ => s) (s.dropMsg tag))
  | _ => .fault .noSuchStep

/-- TRY_RESULT (R71, R75, R78, R433): every reply of a try is in. A failed one stops its firing where the line of a record cannot be
read (R444). (DESIGN CHOICE, log 100) -/
def execTryResult (key : Nat) (s : State) : Out :=
  match s.fir? key with
  | none => .fault .noSuchStep
  | some f =>
    if f.stage != .acquiring || f.outstanding != 0 then .fault .notDue
    else if f.doomed then .next (s.abandon f)
    else
      let lost := f.set.find? (fun e => (s.pkg (f.die / 16)).lost.contains (s.homePkg e.addr))
      let broken := f.set.find? (fun e => (s.lineFails e.addr).isSome)
      if !f.tryFailed && lost.isNone then .next (s.acquired { f with elem := some (State.elemNo f) })
      else
        let s := s.releaseLocks f.die f.ctx f.got (match f.ticket with | some t => .again t | none => .free)
        let f := { f with got := [], tries := Nat.min (f.tries + 1) 255, tryFailed := false }
        .next (if lost.isSome then s.stopEarly f (trapAt Cls.unreach ((lost.map (fun e => s.lockVa f e.elem)).getD 0))
          else if let some e := broken then s.stopEarly f (lineTrap (s.lockVa f e.elem) e.addr)
          else if f.ticket.isSome then
            if f.rsvd < f.order.length then (s.setFir { f with stage := .reserving }).planNow (.reservation key)
            else (s.setFir { f with stage := .between }).plan (s.time.toNat + 64) (.ticketedTryRetry key)
          else if f.tries ≥ (s.die f.die).patienceNow then s.startReservation f f.set
          else if f.granted then (s.setFir { f with stage := .between }).plan (s.time.toNat + 64) (.roundTryRetry key)
          else s.reinsert f)

/-- One reservation at an element's home (R77), after what its dispatcher sent there before (R343), then the next, or the try (R78).
A record whose line cannot be read stops the firing (R444). (DESIGN CHOICE, log 100) -/
def reserveNext (s : State) (f : Firing) (t : Nat) : State :=
  match f.order[f.rsvd]? with
  | none => s.tryNow f
  | some e =>
    if (s.pkg (f.die / 16)).lost.contains (s.homePkg e.addr) then s.stopEarly f (trapAt Cls.unreach (s.lockVa f e.elem))
    else if (s.lineFails e.addr).isSome then (s.noteBad e.addr).stopEarly f (lineTrap (s.lockVa f e.elem) e.addr)
    else if lockBehind s s.nextTag f.die (s.home e.addr) then s.planNow (.reservation f.key)
    else match s.reserveAt f t e with
      | none => s.plan (s.time.toNat + 64) (.reservationRetry f.key)
      | some s =>
        let f := { f with rsvd := f.rsvd + 1 }
        if f.rsvd < f.order.length then (s.setFir f).planNow (.reservation f.key) else s.tryNow f

/-- RESERVATION (R77). -/
def execReservation (key : Nat) (s : State) : Out :=
  match s.fir? key with
  | none => .fault .noSuchStep
  | some f =>
    match f.ticket with
    | none => .next s
    | some t => .next (if f.stage == .reserving then reserveNext s f t else s)

/-- RESERVATION_RETRY (R77): a busy reservation is repeated after 64 ck. -/
def execReservationRetry (key : Nat) (s : State) : Out :=
  match s.fir? key with
  | none => .fault .noSuchStep
  | some f =>
    match f.ticket with
    | none => .next s
    | some t => .next (if f.stage == .reserving then reserveNext s f t else s)

/-- DISPLACEMENT_NOTICE (R77): the reservation of an element is repeated, and nothing is placed beyond it. -/
def execDisplacementNotice (key elem : Nat) (s : State) : Out :=
  match s.fir? key with
  | none => .fault .noSuchStep
  | some f =>
    let i := f.order.findIdx (fun e => e.elem == elem)
    let f := { f with rsvd := Nat.min f.rsvd i }
    .next (match f.stage with
      | .reserving => s.setFir f
      | .between =>
        ({ s with agenda := s.agenda.filter (fun e => e.2 != Instr.ticketedTryRetry key) }.setFir
          { f with stage := .reserving }).planNow (.reservation key)
      | .acquiring => s.setFir f
      | _ => s)

/-- TICKETED_TRY_RETRY (R78). -/
def execTicketedTryRetry (key : Nat) (s : State) : Out :=
  match s.fir? key with
  | none => .fault .noSuchStep
  | some f => if f.stage == .between && f.ticket.isSome then .next (s.tryNow f) else .fault .notDue

/-! ## Rounds (R182) -/

/-- Two requested sets conflict (R70). -/
def setsMeet (a b : List LockEl) : Bool := a.any (fun x => b.any (fun y => x.elem == y.elem && (x.exc || y.exc)))

/-- Order within a round: element, then path (R182). -/
def insertRound (f : Firing) : List Firing → List Firing
  | [] => [f]
  | g :: t =>
    if State.elemNo f < State.elemNo g || (State.elemNo f == State.elemNo g && decide (f.path.toNat < g.path.toNat)) then
      f :: g :: t
    else g :: insertRound f t

/-- Grant, in order, each firing whose set meets no set granted before it in the pass (R182). (DEDUCED, log 20) -/
def grantPass (s : State) (fs : List Firing) (taken : List LockEl) : State :=
  match fs with
  | [] => s
  | f :: t =>
    match s.exclSet (State.dieCore f.die) f with
    | .error tr => grantPass (s.mapStop f tr) t taken
    | .ok set =>
      if setsMeet set taken then grantPass s t taken
      else grantPass (s.startTry { f with granted := true } set) t (taken ++ set)

/-- ROUND_RESOLVE (R182): a pass of the round a firing belongs to, once every firing of the pass before has retired.
(DEDUCED, log 20) -/
def execRoundResolve (key : Nat) (s : State) : Out :=
  match s.fir? key with
  | none => .fault .noSuchStep
  | some f =>
    let all := (s.firings.map (·.2)).filter (fun g =>
      State.sameRound f g && g.head.det && g.head.bound && (g.inRound || g.stage == .pending))
    if f.stage != .between || f.granted then .next s
    else if all.any (fun g => g.granted) || s.cores.any (fun e => match e.2.run with
        | some g => g.granted && State.sameRound f g
        | none => false) then .next s
    else
      let s := all.foldl (fun s g =>
        if g.stage == .pending then
          s.setFir { g with stage := .between, inRound := true, watched := false, arrived := s.time, age := s.time.toNat % 2 ^ 48 }
        else s) s
      let here := (s.firings.map (·.2)).filter (fun g =>
        State.sameRound f g && g.head.det && g.head.bound && g.inRound && g.stage == .between && !g.granted)
      .next (grantPass s (here.foldr insertRound []) [])

/-- ROUND_TRY_RETRY (R182): a granted firing repeats its failed try. -/
def execRoundTryRetry (key : Nat) (s : State) : Out :=
  match s.fir? key with
  | none => .fault .noSuchStep
  | some f => if f.stage == .between && f.granted then .next (s.tryNow f) else .fault .notDue

/-! ## Placement (R62 to R65, R84) -/

namespace State

/-- The workspaces allocated on a core: offset and bytes. -/
def areas (s : State) (c : Nat) : List (Nat × Nat) :=
  let held := (s.firings.map (·.2)).filter (fun f => f.placed && f.core == c)
  (held ++ (s.core c).run.toList).map (fun f => (f.wp, 8 * (f.head.wsn + 1)))

/-- First-fit on 8-byte boundaries in the workspace area (R64). -/
def findArea (s : State) (c n : Nat) : Option Nat :=
  let size := s.sliceSize c
  let lo := size - s.wsBytes c
  let used := s.areas c
  let starts := lo :: used.map (fun u => u.1 + u.2)
  let ok := starts.filter (fun p => decide (lo ≤ p ∧ p + n ≤ size) && !used.any (fun u => overlaps p n u.1 u.2))
  ok.foldl (fun b p => match b with | none => some p | some q => if p < q then some p else some q) none

/-- The cassette takes no new firing while a write of ctl.L1CO or ctl.WSAREA waits (R82, R318). -/
def casOpen (s : State) (k : Nat) : Bool := (s.cas k).l1coNext.isNone && (s.cas k).wsareaNext.isNone

/-- A core may be given a firing of a context at all (R62, R84, R123, R361). -/
def coreOpen (s : State) (x c : Nat) : Bool :=
  let k := s.core c
  k.spawnq.isEmpty && !k.halted && k.kept.isEmpty && k.memberOf.isNone && k.spown.toNat == x && s.casOpen (casOf c)

/-- The cores of a die, from a pointer on (R63). -/
def dieCores (s : State) (d : Nat) : List Nat :=
  let all := (List.range 2048).filterMap (fun i =>
    if i / 128 % 16 < 12 ∧ i / 8 % 16 < 12 then some (d * 2048 + i) else none)
  let p := (s.die d).pointer % 1152
  all.drop p ++ all.take p

/-- The core a firing is placed on (R63) and its workspace there, and whether it is placed for the empty run slot. A core of the
home cassette needs room for the workspace too. (DESIGN CHOICE, log 89) -/
def chooseCore (s : State) (f : Firing) : Option (Nat × Nat × Bool) :=
  let n := 8 * (f.head.wsn + 1)
  let fit := fun (p : Nat → Bool) => (s.dieCores f.die).findSome? (fun c =>
    if p c && s.coreOpen f.ctx c then (s.findArea c n).map (fun w => (c, w)) else none)
  match fit (fun c => (s.core c).run.isNone && (s.core c).slot.isNone) with
  | some r => some (r.1, r.2, true)
  | none =>
    let near := match (if f.head.bound then s.lockKey (dieCore f.die) f (elemNo f) else .error mapDefect) with
      | .ok k => fit (fun c => casOf c * 8 == s.home k && (s.core c).stage.isNone)
      | .error _ => none
    let far := match near with
      | some r => some r
      | none => fit (fun c => (s.core c).stage.isNone)
    far.map (fun r => (r.1, r.2, false))

end State

/-- PLACEMENT (R63, R64): a core is chosen, the workspace allocated, the footprint prefetch issued. -/
def execPlacement (key : Nat) (s : State) : Out :=
  match s.fir? key with
  | none => .fault .noSuchStep
  | some f =>
    if f.stage != .placing then .next s
    else match s.chooseCore f with
      | none => .next s
      | some (c, w, direct) =>
        let q := s.die f.die
        let s := s.setDie f.die { q with pointer := (q.pointer + 1) % 1152 }
        let k := s.core c
        let s := s.setCore c (if direct then { k with slot := some key } else { k with stage := some key })
        let wait := Nat.min (f.started - f.firstPop).toNat (2 ^ 23 - 1)
        let s := if f.head.bound then
            s.traceDev f.die 9 f.ctx c
              (State.elemNo f * 2 ^ 32 + f.tries * 2 ^ 24 + f.ticket.isSome.toNat * 2 ^ 23 + wait)
          else s
        .next ((s.setFir { f with stage := .fetching, placed := true, core := c, wp := w }).planNow
          (.footprintResident key))

/-- Copy up to 128 bytes of a footprint into a core's slice, where a whole line replaces one that cannot be corrected (R446), or the
trap they meet (R25, R65, R439): footprints are read from translated memory, checked as every access is (R251). -/
def State.fetchLine (s : State) (c x va n dest : Nat) : Res State := do
  match ← s.whereAt c x va n .load with
  | .slice _ _ _ => .error (trapAt Cls.window va)
  | .phys g =>
    g.forM (fun q =>
      match (List.range q.len).find? (fun i => s.isBad (q.key + i)) with
      | some i => .error { trapAt Cls.uncorr ((q.va + i) / 128 * 128) with info := keyPa ((q.key + i) / 128 * 128) }
      | none => if s.lostHome (pkgOf c) q.key then .error (trapAt Cls.unreach q.va) else .ok ())
    let data := g.flatMap (fun q => (List.range q.len).map (fun i => s.pathByte c (q.key + i)))
    .ok (((s.noteLoc (casOf c) (.phys g)).landBytes (sliceKey c dest) data).mend [(sliceKey c dest, data.length)])

/-- Copy one footprint entry in ascending address order, 128 bytes at a time (R65): what precedes a trap is written. Fuel is
the count of pieces. -/
def State.fetchRange (s : State) (c x va n dest : Nat) : Nat → State × Option Trap
  | 0 => (s, none)
  | fuel + 1 =>
    if n = 0 then (s, none)
    else
      let m := Nat.min n 128
      match s.fetchLine c x va m dest with
      | .error t => (s, some t)
      | .ok s => s.fetchRange c x ((va + m) % 2 ^ 64) (n - m) (dest + m) fuel

/-- The address and the key of a footprint's byte that no packet finds its way to (R448). -/
def State.footFar (s : State) (f : Firing) : Option (Nat × Nat) :=
  (f.head.fps.filter (fun e => e.len != 0)).findSome? (fun e => (List.range (e.len / 128)).findSome? (fun i =>
    let va := (e.base + (if e.addArg then f.argWord e.arg else 0) + 128 * i) % 2 ^ 64
    match s.whereAt f.core f.ctx va 128 .load with
    | .ok (.phys g) => (g.find? (fun q => s.cutOff f.core q.key)).map (fun q => (va, q.key))
    | _ => none))

/-- The prefetch of a firing waits where a line of its footprint lies where no packet finds its way: the read goes out (R448).
(DEDUCED, log 59) -/
def State.footAwait (s : State) (f : Firing) (again : Instr) (go : Out) : Out :=
  match s.footFar f with
  | some e => .next ((s.askFar f.core false f.ctx e.1 e.2).plan (s.time.toNat + 1) again)
  | none => go

/-- Fetch the used footprint entries of a firing in order (R65), up to the first trap. -/
def State.fetchFootprint (s : State) (f : Firing) : State × Option Trap :=
  f.head.fps.foldl (fun r e =>
    if r.2.isSome || e.len = 0 then r
    else
      let va := (e.base + if e.addArg then f.argWord e.arg else 0) % 2 ^ 64
      r.1.fetchRange f.core f.ctx va e.len e.dest (e.len / 128 + 1)) (s, none)

/-- A footprint that cannot be fetched stops the firing before it starts (R439). -/
def State.footprintStop (s : State) (f : Firing) (t : Trap) : State :=
  let k := s.core f.core
  let s := s.setCore f.core { k with
    slot := if k.slot == some f.key then none else k.slot, stage := if k.stage == some f.key then none else k.stage }
  ((s.clearWait f.key).stopEarly f t).rePlace (dieOf f.core)

/-- FOOTPRINT_RESIDENT (R65, R25): every byte of every used entry has been written. -/
def execFootprintResident (key : Nat) (s : State) : Out :=
  match s.fir? key with
  | none => .fault .noSuchStep
  | some f =>
    if f.stage != .fetching then .fault .notDue
    else s.footAwait f (.footprintResident key) <| match s.fetchFootprint f with
      | (s, some t) => .next (s.footprintStop f t)
      | (s, none) => .next ((s.setFir { f with stage := .resident }).planNow (.nextFiring f.core))

/-- FOOTPRINT_FAULT (R439): the prefetch of a firing fails. -/
def execFootprintFault (key : Nat) (s : State) : Out :=
  match s.fir? key with
  | none => .fault .noSuchStep
  | some f =>
    if f.stage != .fetching then .fault .notDue
    else match s.fetchFootprint f with
      | (s, some t) => .next (s.footprintStop f t)
      | (_, none) => .fault .notDue

/-! ## The start of a firing (R28, R47, R49, R62, R402, R405) -/

namespace State

/-- Write the words of a starting firing (R28). -/
def initWords (s : State) (f : Firing) : State :=
  (List.range (f.head.wsn + 1)).foldl (fun s i =>
    let v := if i = 0 then f.entry / 4 * 2 ^ 16 + 1 else if i ≤ 8 then f.argWord (i - 1) else 0
    s.setNum (sliceKey f.core (f.wp + 8 * i)) 8 v) s

/-- Volatile words are undefined after a resume (R49): a free value each. (DESIGN CHOICE, log 10) -/
def loseVolatile (s : State) (f : Firing) : State :=
  if f.head.volLo = 0 then s
  else ((List.range (f.head.volHi + 1 - f.head.volLo)).foldl (fun s i =>
    s.setNum (sliceKey f.core (f.wp + 8 * (f.head.volLo + i))) 8 (Config.volatileWord (256 * s.fresh + i)).toNat)
    s).useFresh

/-- Vector registers that hold nothing defined (R216, R240): a free value each. (DESIGN CHOICE, log 9) -/
def freeVecs (s : State) : List VecBits := (List.range 16).map (fun i => Config.vecUndef (16 * s.fresh + i))

/-- The scope of the acquire at a start (R165): the smallest that holds the core and every source of the firing; compose has
the core itself as its source, and what brought a sync word to its generation may come from any agent.
(DESIGN CHOICE, log 84) -/
def startScope (s : State) (c : Nat) (f : Firing) : Scope :=
  let from_ := fun (a : Nat) => if a = 0xFFFFFF then Scope.pkg else spanScope c a
  let made := if f.src == .chan then (s.claimSlots c f).map (fun e => from_ e.2.2.sender) else [from_ f.sender]
  let guard := match f.guard with
    | .none => Scope.cas
    | .sync _ _ _ => Scope.pod
    | .bar key _ => (match key / 2 ^ 24 with | 1 => .cas | 2 => .die | 3 => .pkg | _ => .pod)
  let all := if f.src == .compose then [] else guard :: made
  if all.contains .pod then .pod else if all.contains .pkg then .pkg else if all.contains .die then .die else .cas

/-- A firing takes the run slot: the FSTART record (R372), and the halt of a firing step, which a resumed firing does not end
(R365). What waits in Placing may find the core open again (R63). (DEDUCED, log 28) -/
def takeRun (s : State) (c : Nat) (f : Firing) : State :=
  let s := { s with firings := s.firings.del f.key }.clearWait f.key
  let k := s.core c
  let s := s.setCore c { k with
    run := some { f with stage := .running, trap := none, begun := true }
    slot := if k.slot == some f.key then none else k.slot
    stage := if k.stage == some f.key then none else k.stage
    spawnq := k.spawnq.filter (· != f.key) }
  let s := ((if f.stage == .spawnq then s.settleForks c else s)).rePlace (dieOf c)
  let s := s.traceCore c 1 f.ctx ((f.id.toNat % 65536) * 2 ^ 48 + f.hdr / 256 % 2 ^ 48)
  let k := s.core c
  if k.step == .firing && k.stepCtx == f.ctx && !(f.begun && (f.stage == .ordered .restart || f.stage == .ordered .precise)) then
    s.haltNow c 0xA
  else s

/-- A firing starts at ENTRY (R28): WORKSPACE_INIT, or REPLAY when it ran before (R405); an acquire (R165), and a RECV record
for each claimed slot (R372). (DEDUCED, log 108) -/
def startFresh (s : State) (c : Nat) (f : Firing) : State :=
  let s := ((s.acquire c (s.startScope c f)).initWords f).count c 0x09 1
  let s := (s.takeRun c { f with
    pc := f.entry, c := false, k := false, groups := 1, vregs := s.freeVecs, badVecs := [], vecUsed := false, resv := [], kids := 0
    saved := false, executed := 0, fresh := !f.begun || f.fresh }).useFresh
  (s.claimSlots c f).foldl (fun s e =>
    s.traceCore c 6 f.ctx (e.2.2.time.toNat * 2 ^ 32 + e.2.2.sender * 2 ^ 8 + e.2.2.cls * 2 ^ 4 + e.1)) s

/-- REGION_RESTART (R47, R49): the firing resumes at pw.REGION. -/
def startRegion (s : State) (c : Nat) (f : Firing) : State :=
  let s := ((s.loseVolatile f).count c 0x0D 1)
  (s.takeRun c { f with
    pc := s.regionOf f, c := false, vregs := s.freeVecs, badVecs := [], vecUsed := false, saved := false }).useFresh

/-- A precise resume (R49, R402): registers, C and K as saved. -/
def startPrecise (s : State) (c : Nat) (f : Firing) : State :=
  ((s.loseVolatile f).count c 0x0E 1).takeRun c (s.loadBlock f)

/-- The cassette can grant a stopped firing its count again (R240). -/
def canGrant (s : State) (c : Nat) (f : Firing) (k : Cont) : Bool :=
  k == .replay || decide (f.groups - 1 ≤ 8 - (List.range 8).foldl (fun n i =>
    match (s.core (casOf c * 8 + i)).run with
    | some g => n + (g.groups - 1)
    | none => n) 0)

/-- The aligned set of cores of a tandem (R122), member 0 first. -/
def tandemSet (c n : Nat) : List Nat :=
  let cy := c / 8 % 16
  let cx := c / 128 % 16
  let base := c / 2048 * 2048
  let m := n / 8
  let p0 := if n ≤ 8 then c % 8 % n else 8 * (cx % m) + c % 8
  (List.range n).map (fun i =>
    let p := (p0 + i) % n
    if n ≤ 8 then casOf c * 8 + c % 8 / n * n + p
    else base + (cx / m * m + p / 8) * 128 + cy * 8 + p % 8)

/-- The cores a firing will run on. -/
def coresFor (g : Firing) : List Nat := if g.width = 0 then [g.core] else tandemSet g.core g.width

/-- A tandem takes its place among those a core is kept for: before one that waits for it, else last. -/
def insertKept (l : List (Nat × List Nat)) (key : Nat) (first : List Nat) : List (Nat × List Nat) :=
  if l.any (fun e => e.1 == key) then l
  else
    let i := l.findIdx (fun e => e.2.contains key)
    l.take i ++ [(key, first)] ++ l.drop i

/-- Cores are kept for the start of a tandem (R123): what they already hold, and the continuations already ordered for
them, run there first. -/
def reserveSet (s : State) (f : Firing) : State :=
  (tandemSet f.core f.width).foldl (fun s m =>
    let k := s.core m
    let ord := (s.firings.map (·.2)).filter (fun g =>
      g.placed && (coresFor g).contains m && g.key != f.key
        && (match g.stage with | .ordered .abandon => false | .ordered _ => true | _ => false))
    s.setCore m { k with
      kept := insertKept k.kept f.key (k.slot.toList ++ k.stage.toList ++ k.spawnq ++ ord.map (·.key)) }) s

/-- A core kept for a tandem takes only that tandem and what goes before it (R123). -/
def mayTake (k : Core) (key : Nat) : Bool :=
  match k.kept with
  | [] => true
  | e :: _ => e.1 == key || e.2.contains key

/-- The next firing of a core whose run slot is empty (R62). Of several continuations ordered for it the first listed is
taken (DESIGN CHOICE, log 77); a firing placed for the run slot comes after the continuations and spawns that are there
when its footprint is resident. (DESIGN CHOICE, log 90) -/
def nextOf (s : State) (c : Nat) : Option Firing :=
  let k := s.core c
  let ord := (s.firings.map (·.2)).find? (fun f =>
    f.placed && f.core == c && (match f.stage with | .ordered .abandon => false | .ordered _ => true | _ => false) && mayTake k f.key
      && decide (0 < s.weight (dieOf c) f.ctx))
  match ord with
  | some f => some f
  | none =>
    let spawned := (k.spawnq.find? (mayTake k)).bind s.fir?
    match spawned.bind (fun f => (s.findArea c (8 * (f.head.wsn + 1))).map (fun w => { f with wp := w, placed := true })) with
    | some f => some f
    | none =>
      let ready := fun (o : Option Nat) => ((o.filter (mayTake k)).bind s.fir?).filter (fun f => f.stage == .resident)
      (ready k.slot).or (ready k.stage)

end State

/-- NEXT_FIRING (R62): a core with an empty run slot takes its next firing; none starts while the package is not
running (R352). (DEDUCED, log 23) -/
def execNextFiring (c : Nat) (s : State) : Out :=
  let k := s.core c
  if (s.pkg (pkgOf c)).st != 0x03 || k.run.isSome || k.halted || k.memberOf.isSome then .next s
  else match s.nextOf c with
    | none =>
      match k.kept with
      | f :: _ => .next (s.planNow (.tandemStart f.1))
      | [] => .next s
    | some f =>
      match f.stage with
      | .ordered ct =>
        if f.width > 0 then .next ((s.reserveSet f).planNow (.tandemStart f.key))
        else if !f.begun then
          s.footAwait f (.nextFiring c) <| match s.fetchFootprint f with
          | (s, some t) => .next (s.footprintStop f t)
          | (s, none) => .next (s.startFresh c f)
        else if !s.canGrant c f ct then .next (s.plan (s.time.toNat + 1) (.nextFiring c))
        else match ct with
          | .replay => .next (s.startFresh c f)
          | .restart => .next (s.startRegion c f)
          | .precise => .next (s.planNow (.preciseResume f.key))
          | .abandon => .next (s.abandon f)
      | _ => .next (s.startFresh c f)

/-- PRECISE_RESUME (R49, R402): the registers are reloaded and the firing continues at PC. -/
def execPreciseResume (key : Nat) (s : State) : Out :=
  match s.fir? key with
  | none => .fault .noSuchStep
  | some f =>
    let k := s.core f.core
    if f.stage != .ordered .precise || !f.saved || f.width > 0 then .fault .notDue
    else if k.run.isSome || k.halted || k.memberOf.isSome || !s.canGrant f.core f .precise then
      .next (s.plan (s.time.toNat + 1) (.nextFiring f.core))
    else .next (s.startPrecise f.core f)

/-- The first instruction of a firing issues: its start, and the delay accounts of what it consumes (R375). -/
def State.firstIssue (s : State) (c : Nat) : State :=
  match (s.core c).run with
  | none => s
  | some f =>
    let now := s.time.extractLsb' 0 32
    let s := s.setCore c { s.core c with run := some { f with started := s.time, fresh := false } }
    if f.src == .chan then
      (s.claimSlots c f).foldl (fun s e =>
        let hd := e.2.2
        if hd.opc = 0xFFF || hd.opc = 0xFDB then s
        else s.account c f.ctx hd.sender (timeDiff (e.2.1.extractLsb' 0 32) hd.time)
          (timeDiff now (e.2.1.extractLsb' 0 32)) 0 1) s
    else if f.src == .compose then s
    else
      s.account c f.ctx f.sender (timeDiff (f.arrived.extractLsb' 0 32) (f.sent.extractLsb' 0 32))
        (timeDiff now (f.arrived.extractLsb' 0 32)) 0 1

/-- RETIRE (R34, R41, R282): with every load returned, the slots, the set, the workspace and the groups are free.
(DEDUCED, log 28) -/
def execRetire (c : Nat) (s : State) : Out :=
  let k := s.core c
  match k.run, k.ending with
  | some f, some how =>
    if k.loads != 0 || k.waits != 0 then .next (s.plan (s.time.toNat + 1) (.retire c))
    else
      let s := ((s.leaveStores c).traceEnd c f how).accountRun f
      let g := s.gather { f with last := (s.core c).issued }
      let f := g.2
      let s := (g.1.releases f true).count c 0x0A 1
      let s := (s.emptyRun c).nextPass f
      .next (if k.step == .instr then s.haltNow c 9 else s)
  | _, _ => .fault .notDue

/-! ## Counting and claiming slots (R40 to R42, R429, R430) -/

/-- The first check a counted slot fails (R429). -/
def slotCause (s : State) (p : Nat) (d : Desc) (h : SlotHdr) : Nat :=
  let host := h.sender == 0xFFFFFF
  if h.len + 16 > 2 ^ d.sz then 1
  else if h.resv != 0 then 2
  else if !host && !s.isCore p h.sender then 3
  else if h.opc == 0xFFF && h.len != 0 then 4
  else if host && decide (0xF00 ≤ h.opc ∧ h.opc ≤ 0xFFE) then 5
  else 0

/-- A dropped slot updates ERR (R430), in the descriptor's home slice (R94). -/
def State.dropErr (s : State) (k : Nat) (i : BitVec 32) (cause : Nat) : State :=
  let e := s.num (k + 28) 4
  (s.setNum (k + 28) 4 (Nat.min (e / 2 ^ 16 + 1) 65535 * 2 ^ 16 + cause * 2 ^ 12 + i.toNat % 4096)).soil (k + 28) 0

/-- A store, atomic or write-back that a core issued before a stamp is not yet performed (R165). (DEDUCED, log 83) -/
def State.outstanding (s : State) (c : Nat) (stamp : BitVec 32) : Bool :=
  let early := fun (n : BitVec 32) => decide ((stamp - n - 1).toNat < 2 ^ 31)
  s.pend.any (fun p => p.core == c && early p.num)
    || s.msgs.any (fun m => match m.2 with
      | .atom a => a.core == c && !a.applied && early a.num
      | .wback d _ _ _ n => d == c && early n
      | _ => false)

/-- The drain check passes (R40, R44): only a slot that a core wrote for itself waits for one. Writes that complete out of
their order do not stand in for one issued before the stamp (R165). (DEDUCED, log 83) -/
def drained (s : State) (p : Nat) (h : SlotHdr) : Bool :=
  h.sender == 0xFFFFFF || !s.isCore p h.sender || h.cls != 0 || h.opc == 0xFA0 || h.opc == 0xFDB
    || (decide (((s.core h.sender).drained - h.stamp).toNat < 2 ^ 31) && !s.outstanding h.sender h.stamp)

/-- The first n counted slots at and after CLM that a firing may consume, or none (R40); fuel bounds the walk.
(DESIGN CHOICE, log 73) -/
def goodSlots (x : Chan) (i : BitVec 32) (n : Nat) : Nat → Option (List (BitVec 32))
  | 0 => none
  | fuel + 1 =>
    if n = 0 then some []
    else if i = x.next then none
    else if x.freed.contains i then goodSlots x (i + 1) n fuel
    else (goodSlots x (i + 1) (n - 1) fuel).map (fun l => i :: l)

/-- The slots of every used input, or none when some input has too few (R40). Slots that were dropped between the counted
ones lie inside the claim, and an input channel of another context is claimed as any other.
(DESIGN CHOICE, log 73; DESIGN CHOICE, log 75; DESIGN CHOICE, log 105) -/
def claimsOf (s : State) (c x : Nat) (ins : List (Nat × ChanEnt)) : Option (List (Claim × Desc)) :=
  ins.mapM (fun e =>
    match s.descAt c x e.2.chan with
    | .error _ => none
    | .ok d =>
      if !d.ok then none
      else match goodSlots (s.chan d.key) d.clm e.2.count (2 ^ d.cnt + 1) with
        | none => none
        | some is =>
          let first := is.headD d.clm
          some (⟨e.1, e.2.chan, first.toNat, ((is.getLastD first) - first).toNat + 1, d.slot first.toNat⟩, d))

/-- The argument words of a channel firing, from its first slot on ic0 (R42). -/
def slotArgs (s : State) (c x : Nat) (d : Desc) (i : Nat) : List Word :=
  match s.devKey c x (d.slot i) .load with
  | .error _ => List.replicate 8 0
  | .ok k =>
    let len := (s.slotHdr k).len
    (List.range 8).map (fun j =>
      if 8 * j + 8 ≤ len ∧ 24 + 8 * j ≤ 2 ^ d.sz then BitVec.ofNat 64 (s.num (k + 16 + 8 * j) 8) else 0)

/-- CHANNEL_CLAIM (R30, R40, R42, R52, R180): every input claimed in one step, and the firing made. Without an input IN0 the
argument words are 0 and the sender is none; of several inputs the one whose slot completes the claim gives the die, and a
packet on any of them its destination's. (DESIGN CHOICE, log 74; DESIGN CHOICE, log 76) -/
def claimChannel (s : State) (c : Nat) (d : Desc) : State :=
  let x := d.ctx
  match s.hdrOf c x d.cons with
  | .error _ => s
  | .ok (h, sound) =>
    let ins := ((List.range 8).zip h.ins).filter (fun e => e.2.count != 0)
    let mine := ins.any (fun e => match s.descAt c x e.2.chan with | .ok q => q.key == d.key | .error _ => false)
    if !mine then s
    else match claimsOf s c x ins with
      | none => s
      | some cl =>
        let s := cl.foldl (fun s q => s.setClm q.2.key (BitVec.ofNat 32 (q.1.first + q.1.count))) s
        let zero := cl.find? (fun q => q.1.input == 0)
        let from0 := match zero with
          | some q =>
            match s.devKey c x (q.2.slot q.1.first) .load with
            | .ok k => (slotArgs s c x q.2 q.1.first, (s.slotHdr k).sender)
            | .error _ => (List.replicate 8 0, 0xFFFFFF)
          | none => (List.replicate 8 0, 0xFFFFFF)
        let dest := cl.findSome? (fun q => (s.chan q.2.key).dests.find? (fun e =>
          (List.range q.1.count).any (fun j => e.1 == BitVec.ofNat 32 (q.1.first + j))))
        let path := match zero with
          | some q => if s.det x then mixPath (BitVec.ofNat 64 q.1.chan) q.1.first else 0
          | none => 0
        let f := { Firing.blank with
          ctx := x, hdr := d.cons, head := h, entry := h.entry, args := from0.1, src := .chan, sender := from0.2
          path := path, claims := cl.map Prod.fst }
        let dflt := match dest with | some e => dieOf e.2 | none => s.homeDie d.key
        let r := s.make { f with die := s.dispatchDie c f sound dflt }
        (r.1.planNow (.firingInsert r.2.key)).planNow (.slotCount d.key)

/-- SLOT_COUNT (R40, R44, R429): the next slot of a channel is counted once it is published and drain-cleared; one
that fails a check is dropped, a void slot freed. A header with a wrong mark is looked at again when it is written (R425); the
slots of a restored channel are new, whatever the counters of a core hold (R454). The position counted from belongs to the
channel's place in memory. (DESIGN CHOICE, log 91) -/
def execSlotCount (k : Nat) (s : State) : Out :=
  let d := s.desc k
  let die := s.homeDie k
  let c := State.dieCore die
  let x := s.chan k
  if !d.ok || x.next = d.pidx then .next s
  else match s.devKey c d.ctx (d.slot x.next.toNat) .load with
    | .error _ => .next s
    | .ok h =>
      let hd := s.slotHdr h
      if hd.mark != d.mark x.next then .next (s.setChan k { x with await := some h })
      else if x.restored.isNone && !drained s (die / 16) hd then .next (s.plan (s.time.toNat + 1) (.slotCount k))
      else
        let i := x.next
        let s := s.setChan k { x with
          next := i + 1, counted := x.counted ++ [(i, s.time)], await := none
          restored := if x.restored == some (i + 1) then none else x.restored }
        let cause := slotCause s (die / 16) d hd
        let s := if cause != 0 then (s.dropErr k i cause).freeSlots k [i]
          else if hd.opc == 0xFFF then s.freeSlots k [i]
          else if d.cons == 1 then s.planNow (.debugForward k)
          else claimChannel s c d
        .next (s.planNow (.slotCount k))

/-! ## Spilling and the forecast (R56, R80) -/

/-- SPILL_REFILL (R56). -/
def execSpillRefill (d b x : Nat) (s : State) : Out := .next (s.refill d b x 896)

/-- ACTIVITY_FORECAST (R80): the die's forecast is written into ctl.ACTFC. READY counts what the ready banks and their spill
lists hold, without what waits in spawn channels. (DESIGN CHOICE, log 92) -/
def execActivityForecast (d : Nat) (s : State) : Out :=
  let all := s.firings.map (·.2)
  let q := s.die d
  let ready := (all.filter (fun f => f.stage == .ready && f.die == d)).length
  let inbox := (s.cass.filter (fun e => e.1 / 256 == d && !(e.2.queues.get 0 []).isEmpty)).length
  let mx := (all.filter (fun f => f.stage == .ready && f.die == d && q.mxActors.contains (f.ctx * 2 ^ 56 + f.hdr))).length
  let running := (s.cores.filter (fun e => dieOf e.1 == d && e.2.run.isSome)).length
  let staged := (s.cores.filter (fun e => dieOf e.1 == d)).foldl (fun n e => n + e.2.slot.toList.length + e.2.stage.toList.length) 0
  let seq := (q.actfc.toNat / 2 ^ 48 + 1) % 65536
  .next (s.setDie d { q with actfc := BitVec.ofNat 64 (seq * 2 ^ 48 + Nat.min ready 65535 * 2 ^ 32
    + Nat.min 144 (inbox + mx) * 2 ^ 16 + Nat.min 1152 (running + staged + ready)) })

end Sys2Proof.Machine
end

