-- ==== Sys2Proof/Machine/VectorOps.lean ====
section
/-! DEFINITION. Lane grants, lane moves, reductions, scans and narrow blocks, 0x58 to 0x66 (R239 to R250, R150, R151). -/

namespace Sys2Proof.Machine

/-- Shared lane groups of a cassette that no core holds (R239). -/
def State.freeGroups (s : State) (k : Nat) : Nat :=
  8 - (List.range 8).foldl (fun n i =>
    match (s.core (k * 8 + i)).run with
    | some f => n + (f.groups - 1)
    | none => n) 0

/-- VCLAIM (R239): the grant after a request, every vector register undefined. -/
def execVclaim (x : Task) (s : State) : Out :=
  withGuard s x.hd (fun s => do
    if s.cf.vecUsed then .error (trapAt Cls.illegal 0)
    else
      s.needOpnds [x.d, x.a]
      let a ← s.src64 x.a
      let want := (Nat.min (Nat.max a.toNat 1) 256 + 15) / 16
      let held := s.cf.groups
      let g := if want ≤ held then want else held + Nat.min (want - held) (s.freeGroups (casOf s.cf.core))
      let s := s.setCf { s.cf with groups := g }
      .ok (s.undefVecs.setWord (State.wordNo x.d) (BitVec.ofNat 64 (16 * g))))

/-- A lane move: the scalar sources, then the element of D for each index (R241 to R246), each one written where lm is false.
A B that the form does not use is not read; the lane mask is, wherever the word has LM (R216). -/
def laneMove (x : Arith) (s : State) (lm useB : Bool) (res : State → Nat → Nat → Nat → Nat) : Out :=
  withGuard s x.hd (fun s => do
    s.needOpnds (if useB then [x.a, x.b] else [x.a])
    let a ← s.srcT x.a x.ty x.rnd
    let b ← if useB then s.srcR x.b .n64 x.rnd else .ok 0
    s.needLanes [x.a, x.b]
    s.needMask x.lm
    .ok (s.putLanes (State.vecNo x.d) lm x.ty.width (res s a b)))

/-- Element k of a vector source. -/
def State.elem (s : State) (o : Opnd) (w k : Nat) : Nat := elemOf (s.vreg (State.vecNo o)) w k

/-- The count of elements of a type under the grant. -/
def State.n (s : State) (t : Ty) : Nat := lanes s.cf.groups t.width

/-- The number of active elements below k (R244). -/
def State.rank (s : State) (lm : Bool) (w k : Nat) : Nat :=
  ((List.range k).filter (fun i => s.active lm w i)).length

/-- VBCAST (R241). -/
def execVbcast (x : Arith) (s : State) : Out :=
  laneMove x s x.lm x.a.isV (fun s a b _ => if x.a.isV then s.elem x.a x.ty.width (b % s.n x.ty) else a)

/-- The element vperm puts at k (R242). -/
def permElem (s : State) (f : PermFn) (x : Arith) (k : Nat) : Nat :=
  let w := x.ty.width
  let n := s.n x.ty
  let a := s.elem x.a w
  let b := s.elem x.b w
  match f with
  | .idx => a (b k % n)
  | .rev => a (n - 1 - k)
  | .zipl => if k % 2 = 0 then a (k / 2) else b ((k - 1) / 2)
  | .ziph => if k % 2 = 0 then a (n / 2 + k / 2) else b (n / 2 + (k - 1) / 2)
  | .unzl => if k < n / 2 then a (2 * k) else b (2 * k - n)
  | .unzh => if k < n / 2 then a (2 * k + 1) else b (2 * k - n + 1)

/-- VPERM (R242). -/
def execVperm (f : PermFn) (x : Arith) (s : State) : Out :=
  laneMove x s x.lm false (fun s _ _ k => permElem s f x k)

/-- The element vslide puts at k for a count c (R243). -/
def slideElem (s : State) (f : SlideFn) (x : Arith) (c k : Nat) : Nat :=
  let w := x.ty.width
  let n := s.n x.ty
  match f with
  | .up => if k ≥ c then s.elem x.a w (k - c) else 0
  | .down => if k + c < n then s.elem x.a w (k + c) else 0
  | .rotu => s.elem x.a w ((k + n - c % n) % n)
  | .rotd => s.elem x.a w ((k + c) % n)

/-- VSLIDE (R243). -/
def execVslide (f : SlideFn) (x : Arith) (s : State) : Out :=
  laneMove x s x.lm true (fun s _ b k => slideElem s f x b k)

/-- VCOMP (R244): the active elements packed, 0 above them. -/
def execVcomp (x : Arith) (s : State) : Out :=
  laneMove x s false false (fun s _ _ k =>
    let w := x.ty.width
    let live := (List.range (s.n x.ty)).filter (fun i => s.active x.lm w i)
    match live[k]? with
    | some i => s.elem x.a w i
    | none => 0)

/-- VXPND (R244): the elements spread to the active places. -/
def execVxpnd (x : Arith) (s : State) : Out :=
  laneMove x s x.lm false (fun s _ _ k => s.elem x.a x.ty.width (s.rank x.lm x.ty.width k))

/-- VIOTA (R245). -/
def execViota (x : Arith) (s : State) : Out :=
  laneMove x s x.lm false (fun s a _ k => (a + s.rank x.lm x.ty.width k) % 2 ^ x.ty.width)

/-- VEXT (R246). -/
def execVext (x : Arith) (s : State) : Out :=
  withGuard s x.hd (fun s => do
    s.needOpnds [x.d, x.b]
    let b ← s.src64 x.b
    s.needLanes [x.a]
    .ok ((s.setWord (State.wordNo x.d)
      (fillWord x.ty (s.elem x.a x.ty.width (b.toNat % s.n x.ty))))))

/-- VINS (R246): one element, when it is active. -/
def execVins (x : Arith) (s : State) : Out :=
  laneMove x s x.lm true (fun s a b k =>
    if k = b % s.n x.ty then a else elemOf (s.vreg (State.vecNo x.d)) x.ty.width k)

/-- VANY (R247). -/
def execVany (x : Arith) (s : State) : Out :=
  withGuard s x.hd (fun s => do
    s.needOpnds [x.d]
    s.needLanes [x.a]
    s.needMask x.lm
    let w := x.ty.width
    let r := (List.range (s.n x.ty)).any (fun k => s.active x.lm w k && s.elem x.a w k != 0)
    .ok ((s.setWord (State.wordNo x.d) (if r then 1 else 0))))

/-- VALL (R247). -/
def execVall (x : Arith) (s : State) : Out :=
  withGuard s x.hd (fun s => do
    s.needOpnds [x.d]
    s.needLanes [x.a]
    s.needMask x.lm
    let w := x.ty.width
    let r := (List.range (s.n x.ty)).all (fun k => !s.active x.lm w k || s.elem x.a w k != 0)
    .ok ((s.setWord (State.wordNo x.d) (if r then 1 else 0))))

/-- One combination of a reduction (R150): rounded with the instruction's mode, SAT and FTZ. -/
def redStep (f : RedFn) (x : Arith) (a b : Nat) : Nat :=
  if x.ty.isFloat then
    match f with
    | .min => minMaxF x.ty false false a b
    | .max => minMaxF x.ty true false a b
    | _ => roundTo x.ty x.rnd x.sat x.ftz ((decodeF x.ty a).add x.rnd (decodeF x.ty b))
  else
    match f with
    | .add => intResult x.ty x.sat (intOf x.ty a + intOf x.ty b)
    | .min => bitsOf x.ty.width (min (intOf x.ty a) (intOf x.ty b))
    | .max => bitsOf x.ty.width (max (intOf x.ty a) (intOf x.ty b))
    | .and => a &&& b
    | .or => a ||| b
    | .xor => a ^^^ b

/-- The identity of a reduction (R151). -/
def redIdentity (f : RedFn) (t : Ty) : Nat :=
  if t.isFloat then
    match f with
    | .min => infResult t false true
    | .max => infResult t true true
    | _ => signBit t
  else
    match f with
    | .min => bitsOf t.width (tmax t)
    | .max => bitsOf t.width (tmin t)
    | .and => 2 ^ t.width - 1
    | _ => 0

/-- Node of the fixed tree over 2^lg elements from lo (R150): absent leaves pass their siblings on. -/
def redTree (op : Nat → Nat → Nat) (leaf : Nat → Option Nat) : Nat → Nat → Option Nat
  | 0, lo => leaf lo
  | lg + 1, lo =>
    match redTree op leaf lg lo, redTree op leaf lg (lo + 2 ^ lg) with
    | none, b => b
    | a, none => a
    | some a, some b => some (op a b)

/-- The least power of two at or above n, as its logarithm. -/
def ceilLog2 (n : Nat) : Nat := if n ≤ 1 then 0 else Nat.log2 (n - 1) + 1

/-- VRED (R150, R248). -/
def execVred (f : RedFn) (x : Arith) (s : State) : Out :=
  withGuard s x.hd (fun s => do
    s.needOpnds [x.d]
    s.needLanes [x.a]
    s.needMask x.lm
    let w := x.ty.width
    let n := s.n x.ty
    let leaf := fun k => if k < n && s.active x.lm w k then some (s.elem x.a w k) else none
    let r := (redTree (redStep f x) leaf (ceilLog2 n) 0).getD (redIdentity f x.ty)
    .ok ((s.setWord (State.wordNo x.d) (fillWord x.ty r))))

/-- The running values of a scan (R151), in element order. -/
def scanFrom (op : Nat → Nat → Nat) (ident : Nat) : Option Nat → List (Option Nat) → List Nat
  | _, [] => []
  | run, none :: t => run.getD ident :: scanFrom op ident run t
  | none, some v :: t => v :: scanFrom op ident (some v) t
  | some r, some v :: t => op r v :: scanFrom op ident (some (op r v)) t

/-- VSCAN (R151, R248): every element of D is written. -/
def execVscan (f : RedFn) (x : Arith) (s : State) : Out :=
  withGuard s x.hd (fun s => do
    s.needLanes [x.a]
    s.needMask x.lm
    let w := x.ty.width
    let els := (List.range (s.n x.ty)).map (fun k => if s.active x.lm w k then some (s.elem x.a w k) else none)
    let out := scanFrom (redStep f x) (redIdentity f x.ty) none els
    .ok ((s.setVreg (State.vecNo x.d) (withElems (s.vreg (State.vecNo x.d)) w out)).useVec))

/-! ## Narrow blocks (R140, R249, R250) -/

/-- The exact product of two values without sign rules beyond R233. -/
def scaled (c : Nat) (band : FVal) : FVal := (scaleVal c).mul band

/-- The magnitude of a value is at least another's. -/
def magGe (x y : FVal) : Bool :=
  match x, y with
  | .fin _ a b, .fin _ c d => decide (a * d ≥ c * b)
  | .inf _, _ => true
  | _, _ => false

/-- The larger magnitude of two values, NaN ignored. -/
def magMax (x y : FVal) : FVal :=
  match x, y with
  | .nan, y => y
  | x, .nan => x
  | x, y => if magGe x y then x else y

/-- The scale code of a block: the smallest whose scale times band times 6 reaches m, or 0xFF (R249). -/
def packScale (m band : FVal) : Nat :=
  match m with
  | .fin _ 0 _ => 0
  | .nan => 0
  | _ => ((List.range 256).find? (fun c => magGe ((scaled c band).mul (ofInt 6)) m)).getD 0xFF

/-- The element code of one value of a block (R249). -/
def packElem (m : FVal) (c : Nat) (band x : FVal) (rnd : Rnd) : Nat :=
  match x, m with
  | .nan, _ => 0
  | .fin neg _ _, .fin _ 0 _ => if neg then 8 else 0
  | x, _ => roundTo .e2m1 rnd false false (x.div (scaled c band))

/-- The register image qpack writes, element by element and scale by scale (R249). -/
def qpackImage (n : Nat) (xs : List FVal) (band : FVal) (rnd : Rnd) : Nat :=
  match band with
  | .fin false (_ + 1) _ =>
    let block := fun b => (xs.drop (8 * b)).take 8
    let ms := (List.range (n / 8)).map (fun b => (block b).foldl magMax (.fin false 0 1))
    let cs := ms.map (fun m => packScale m band)
    let es := (List.range n).map (fun k =>
      packElem (ms.getD (k / 8) .nan) (cs.getD (k / 8) 0) band (xs.getD k .nan) rnd)
    packElems 4 es + 2 ^ (4 * n) * packElems 8 cs
  | _ => 0

/-- QPACK (R249): the whole register is written, zero above the image. (DESIGN CHOICE, log 110) -/
def execQpack (ts : Ty) (x : Arith) (s : State) : Out :=
  withGuard s x.hd (fun s => do
    s.needOpnds [x.b]
    let b ← s.src64 x.b
    s.needLanes [x.a]
    let n := s.n ts
    let xs := (List.range n).map (fun k => decodeF ts (s.elem x.a ts.width k))
    let img := qpackImage n xs (decodeF .bf16 (b.toNat % 65536)) x.rnd
    let old := s.vreg (State.vecNo x.d)
    let g := 512 * s.cf.groups
    .ok ((s.setVreg (State.vecNo x.d) (BitVec.ofNat 4608 (img + old.toNat / 2 ^ g * 2 ^ g))).useVec))

/-- QUNPK (R250). (DESIGN CHOICE, log 110) -/
def execQunpk (_ts : Ty) (x : Arith) (s : State) : Out :=
  laneMove x s x.lm true (fun s _ b k =>
    let n := s.n x.ty
    let band := decodeF .bf16 (b % 65536)
    let e := decodeF .e2m1 (s.elem x.a 4 k)
    let c := scaleVal (s.elem x.a 8 (n / 2 + k / 8))
    roundTo x.ty x.rnd x.sat x.ftz ((e.mul c).mul band))

end Sys2Proof.Machine
end

