-- ==== Sys2Proof/Machine/Atomics.lean ====
section
/-! DEFINITION. Atomics and reductions, 0x78 to 0x7D (R264 to R268), their application at the home and acknowledgement
(R443, R444), reduce regions (R184 to R187), handover and capq (R178, R297, R298), and the caches of translations and
capabilities (R98, R177). -/

namespace Sys2Proof.Machine

/-! ## Operations -/

/-- One operation of an atomic on values of a type (R265). -/
def atomElem (fn : AtomFn) (t : Ty) (a b : Nat) : Nat :=
  match fn with
  | .add | .padd => (a + b) % 2 ^ t.width
  | .min | .pmin => if intOf t a ≤ intOf t b then a else b
  | .max | .pmax => if intOf t a ≥ intOf t b then a else b
  | .and => a &&& b
  | .or => a ||| b
  | .xor => a ^^^ b
  | .swap => b
  | .fadd | .pfadd => roundTo t .rne false false ((decodeF t a).add .rne (decodeF t b))
  | .fmin | .pfmin => minMaxF t false false a b
  | .fmax | .pfmax => minMaxF t true false a b

/-- The new value of a location: packed halves are independent (R208, R265). -/
def atomNew (fn : AtomFn) (t : Ty) (a b : Nat) : Nat :=
  let w := t.width
  if fn.packed then
    atomElem fn t (a % 2 ^ w) (b % 2 ^ w) + 2 ^ w * atomElem fn t (a / 2 ^ w % 2 ^ w) (b / 2 ^ w % 2 ^ w)
  else atomElem fn t (a % 2 ^ w) (b % 2 ^ w)

/-! ## Issue -/

/-- The acquire part of an order (R154). -/
def acqOf (x : Mem) : Option Scope := if x.ord == .acq || x.ord == .acqrel then some x.scope else none

namespace State

/-- An atomic leaves its core: numbered for its home (R343), counted once an instruction (R253, R378), and later plain
loads of its line wait (R170). -/
def sendAtom (s : State) (a : Atom) : State :=
  let c := s.cur
  let k := s.core c
  let h := s.home a.key
  let n := k.seq.get h 0
  let s := s.setCore c { k with seq := k.seq.set h (n + 1), atomLines := (a.key / 128) :: k.atomLines }
  s.post (.atom { a with seq := n, made := h }) (if a.kind == .red then .redApply else .atomicApply)

/-- An atomic instruction has issued (R167, R253, R378). -/
def atomIssued (s : State) (x : Mem) : State := ((s.countIssue s.cur).count s.cur 0x07 1).closeEpoch s.cur (relOf x)

end State

/-- The location of an atomic of n bytes: alignment (R252), then R251. -/
def atomLoc (s : State) (ea n : Nat) : Res (Loc × Nat) := do
  needAlign ea n true
  let l ← s.whereAt s.cur s.cctx ea n .atomic
  .ok (l, (l.keys 1).headD 0)

/-- The class of an access at its home (R90). -/
def Loc.cls (l : Loc) (cls : BitVec 2) : BitVec 2 :=
  match l with
  | .phys (q :: _) => q.cls cls
  | _ => cls

/-- The message of an atomic instruction. -/
def atomMsg (s : State) (x : Mem) (kind : AtomKind) (fn : AtomFn) (l : Loc) (va : Nat) (ops : List Nat) (expd : Nat) : Atom :=
  ⟨s.cur, s.cctx, kind, fn, x.ty, (l.keys 1).headD 0, va, ops, expd, State.wordNo x.d, 0, acqOf x, relOf x,
    s.carried s.cur (relOf x), s.nextTag, (s.core s.cur).issued - 1, l.cls x.ccls, false, 0, 0⟩

/-- The operand of an atomic: in a packed form the word's low bits (R265). -/
def atomOpnd (s : State) (fn : AtomFn) (x : Mem) : Res Nat :=
  if fn.packed then (s.src64 x.b).map (fun v => v.toNat % 2 ^ atomWidth fn x.ty) else s.srcT x.b x.ty .rne

/-- AMO (R265): the core issues nothing until the old value returns (R253). -/
def execAmo (fn : AtomFn) (x : Mem) (s : State) : Out :=
  notYet s x.hd (relBlocks x) <| withGuard s x.hd (fun s => do
    s.needOpnds [x.d, x.a, x.b]
    let ea := (← s.src64 x.a).toNat
    let n := atomWidth fn x.ty / 8
    let l ← atomLoc s ea n
    let b ← atomOpnd s fn x
    let s := (s.noteLoc (casOf s.cur) l.1).atomIssued x
    let s := s.sendAtom (atomMsg s x .amo fn l.1 ea [b] 0)
    .ok (s.awaitAnswer s.cur))

/-- AMON (R265): no answer; a commit point once it has left the core. -/
def execAmon (fn : AtomFn) (x : Mem) (s : State) : Out :=
  notYet s x.hd (relBlocks x) <| withGuard s x.hd (fun s => do
    s.needOpnds [x.a, x.b]
    let ea := (← s.src64 x.a).toNat
    let n := atomWidth fn x.ty / 8
    let l ← atomLoc s ea n
    let b ← atomOpnd s fn x
    let s := (s.noteLoc (casOf s.cur) l.1).atomIssued x
    let s := s.sendAtom (atomMsg s x .amon fn l.1 ea [b] 0)
    .ok (s.commit.watch s.cur s.cctx [(ea, n)] true true))

/-- CAS (R266). -/
def execCas (x : Mem) (s : State) : Out :=
  notYet s x.hd (relBlocks x) <| withGuard s x.hd (fun s => do
    s.needOpnds [x.d, x.a, x.b]
    let ea := (← s.src64 x.a).toNat
    let n := x.ty.width / 8
    let l ← atomLoc s ea n
    let e ← s.srcT x.d x.ty .rne
    let b ← s.srcT x.b x.ty .rne
    let s := (s.noteLoc (casOf s.cur) l.1).atomIssued x
    let s := s.sendAtom (atomMsg s x .cas .swap l.1 ea [b] e)
    .ok (s.awaitAnswer s.cur))

/-- A pair of words as 128 bits, the low half in the even word. -/
def State.pair (s : State) (i : Nat) : Res Nat := do
  let lo ← s.srcWord i
  let hi ← s.srcWord (i + 1)
  .ok (lo.toNat + 2 ^ 64 * hi.toNat)

/-- CASQ (R266). -/
def execCasq (x : Mem) (s : State) : Out :=
  notYet s x.hd (relBlocks x) <| withGuard s x.hd (fun s => do
    s.needPair (State.wordNo x.d)
    s.needPair (State.wordNo x.b)
    s.needOpnds [x.a]
    let ea := (← s.src64 x.a).toNat
    let l ← atomLoc s ea 16
    let e ← s.pair (State.wordNo x.d)
    let b ← s.pair (State.wordNo x.b)
    let s := (s.noteLoc (casOf s.cur) l.1).atomIssued x
    let s := s.sendAtom (atomMsg s x .casq .swap l.1 ea [b] e)
    .ok (s.awaitAnswer s.cur))

/-- Split elements at the ends of lines (R267). -/
def lineRuns {α : Type} : List (Nat × Nat × α) → List (List (Nat × Nat × α))
  | [] => []
  | e :: t =>
    match lineRuns t with
    | (f :: r) :: u => if f.2.1 / 128 = e.2.1 / 128 then (e :: f :: r) :: u else [e] :: (f :: r) :: u
    | u => [e] :: u

/-- AMOV (R267): every element is checked before any line is sent. -/
def execAmov (fn : AtomFn) (x : Mem) (s : State) : Out :=
  notYet s x.hd (relBlocks x) <| withGuardElems s x.hd (ldgOpnds x) (fun s => do
    s.needOpnds [x.a]
    let ea := (← s.src64 x.a).toNat
    let w := atomWidth fn x.ty
    let n := w / 8
    needAlign ea n true
    let els ← (List.range (lanes s.cf.groups w)).mapM (fun k => do
      let va := (ea + k * n) % 2 ^ 64
      let l ← s.whereAt s.cur s.cctx va n .atomic
      .ok (k, l, va))
    s.needLanes [x.b]
    let v := s.vreg (State.vecNo x.b)
    let s := (els.foldl (fun s e => s.noteLoc (casOf s.cur) e.2.1) s).atomIssued x
    let g := s.nextTag
    let runs := lineRuns (els.map (fun e => (e.1, (e.2.1.keys 1).headD 0, e.2)))
    let s := runs.foldl (fun s r =>
      match r with
      | [] => s
      | e :: _ => s.sendAtom { atomMsg s x .amov fn e.2.2.1 e.2.2.2 (r.map (fun q => elemOf v w q.1)) 0 with group := g }) s
    .ok ((s.commit.useVec).watch s.cur s.cctx (els.map (fun e => (e.2.2, n))) true true))

/-! ## Reduce regions (R184 to R187, R268) -/

/-- SLOTS of a region entry. -/
def rgnSlots (e : BitVec 256) : Nat := (e.extractLsb' 224 32).toNat
/-- STAGE of a region entry. -/
def rgnStage (e : BitVec 256) : Nat := (e.extractLsb' 160 52).toNat
/-- SWOFF of a region entry, as an offset. -/
def rgnSync (e : BitVec 256) : Nat := (e.extractLsb' 128 14).toNat * 16
/-- RTY of a region entry. -/
def rgnTy (e : BitVec 256) : Ty := tyOf (e.extractLsb' 12 4)

/-- Op of R185: add wraps or rounds by RNE, min and max as the atomics do. -/
def redOp (t : Ty) (rop a b : Nat) : Nat :=
  let fn : AtomFn := match rop with
    | 0 => if t.isFloat then .fadd else .add
    | 1 => if t.isFloat then .fmin else .min
    | _ => if t.isFloat then .fmax else .max
  atomElem fn t a b

/-- A region entry permits a contribution of a type with a level and a first index (R176, R268). -/
def redPermits (e : BitVec 256) (t : Ty) (j lo : Nat) : Bool :=
  !rgnBad e && rgnState e == 3 && rgnTy e == t && decide (lo % 2 ^ j = 0 ∧ lo < rgnSlots e)

/-- The cached region entry that permits a contribution at an address (R177). -/
def State.redCached (s : State) (t : Ty) (ea j lo : Nat) : Option (BitVec 256) :=
  (((s.cas (casOf s.cur)).caps.find? (fun q => q.1 == s.cctx && rgnHolds q.2.2 ea)).map (·.2.2)).filter (fun e => redPermits e t j lo)

/-- RED (R268): against a cached entry that permits it, else against the entry at its home (R177). -/
def execRed (j : BitVec 5) (x : Mem) (s : State) : Out :=
  notYet s x.hd (relBlocks x) <| withGuard s x.hd (fun s => do
    s.needOpnds [x.d, x.a, x.b]
    let ea := (← s.src64 x.a).toNat
    let n := x.ty.width / 8
    let c := s.cur
    let lo := (s.word (State.wordNo x.d)).toNat % 2 ^ 32
    let cached := s.redCached x.ty ea j.toNat lo
    let rgn := if !s.det s.cctx then none
      else cached.or ((s.findRegion (pkgOf c) s.cctx ea).map (fun i => s.region (pkgOf c) s.cctx i))
    needAlign ea ((rgn.filter (fun e => !rgnBad e && rgnState e == 3)).elim 1 (fun e => (rgnTy e).width / 8)) true
    let bad := trapAt Cls.capability ea
    let g ← (if ea / 2 ^ 55 != 0 || ea + n ≤ s.sliceSize c || ea < 0x80000 || ea + n > 2 ^ 55 then
        match s.whereAt c s.cctx ea n .atomic with
        | .error t => .error t
        | .ok _ => .error bad
      else s.segs c s.cctx ea n .atomic 3)
    if !rgn.any (fun e => redPermits e x.ty j.toNat lo) then .error bad
    else
      s.needRead (State.wordNo x.d) 1
      let v ← s.srcT x.b x.ty .rne
      let l := Loc.phys g
      let s := (if cached.isSome then s.notePages (casOf c) l else s.noteLoc (casOf c) l).atomIssued x
      let m := { atomMsg s x .red .swap l ea [v] lo with dword := j.toNat }
      .ok ((s.sendAtom m).commit.watch c s.cctx [(ea, n)] true true))

namespace State

/-- Write region entry i of a context, in its home slice (R94, R178). -/
def setRegion (s : State) (p x i : Nat) (e : BitVec 256) : State :=
  (s.setNum (s.rgnKey p x i) 32 e.toNat).soil (s.rgnKey p x i) 0

/-- Staging image address of a contribution (R184). -/
def stageKey (p : Nat) (e : BitVec 256) (va lo : Nat) : Nat :=
  physKey p (rgnStage e + lo * (rgnLen e * 65536) + (va - rgnBase e * 65536))

/-- Stored contributions of an element (R184). -/
def coverOf (s : State) (x va : Nat) : List (Nat × Nat × Nat) := (s.ctx x).cover.filter (fun q => q.1 == va)

/-- Node(lo, size) of R185, size 2^n: none is ABSENT. Above P every upper half is ABSENT, so Node(0, 2^16) is Node(0, P),
and a contribution of a level above log2 P is found. -/
def redNode (s : State) (p x va : Nat) (e : BitVec 256) : Nat → Nat → Option Nat
  | n, lo =>
    if lo ≥ rgnSlots e then none
    else if (s.coverOf x va).any (fun q => q.2.1 == lo && q.2.2 == n) then
      some (s.num (stageKey p e va lo) ((rgnTy e).width / 8))
    else match n with
      | 0 => none
      | m + 1 =>
        match s.redNode p x va e m lo, s.redNode p x va e m (lo + 2 ^ m) with
        | none, b => b
        | a, none => a
        | some a, some b => some (redOp (rgnTy e) (rgnOp e) a b)
termination_by structural n _ => n

/-- Indices below C a contribution covers. -/
def coverCount (c : Nat) (q : Nat × Nat × Nat) : Nat := Nat.min (q.2.1 + 2 ^ q.2.2) c - q.2.1

/-- DETSTAT.ROVL is set (R184). -/
def setRovl (s : State) (x : Nat) : State := s.setCtx x { s.ctx x with detstat := (s.ctx x).detstat ||| 2 }

/-- The region an entry describes holds every element's value: it becomes read-only and adds its arrival (R187).
(DEDUCED, log 30) -/
def reduceDone (s : State) (p x i : Nat) (e : BitVec 256) : State :=
  let base := rgnBase e * 65536
  let len := rgnLen e * 65536
  let mine := (s.ctx x).cover.filter (fun q => decide (base ≤ q.1 ∧ q.1 < base + len))
  let got := mine.foldl (fun n q => n + coverCount (rgnSlots e) q) 0
  if got < rgnSlots e * (len / ((rgnTy e).width / 8)) then s
  else
    let s := s.setCtx x { s.ctx x with cover := (s.ctx x).cover.filter (fun q => !decide (base ≤ q.1 ∧ q.1 < base + len)) }
    let e' : BitVec 256 := (e &&& ~~~(BitVec.ofNat 256 (3 * 2 ^ 62 + (2 ^ 32 - 1) * 2 ^ 224))) ||| BitVec.ofNat 256 (2 * 2 ^ 62)
    (s.setRegion p x i e').post (.sync (s.home (s.rgnKey p x i)) (rgnOwner e) (rgnSync e) 1 0 none) .syncWordUpdate

/-- A contribution at its home (R184, R268): dropped, stored, or stored as the last of its element.
(DEDUCED, log 30) -/
def contribute (s : State) (a : Atom) : State :=
  let p := pkgOf a.core
  let x := a.ctx
  match s.findRegion p x a.va with
  | none => s.setRovl x
  | some i =>
    let e := s.region p x i
    let lo := a.expected
    let n := a.dword
    if rgnState e != 3 then s.setRovl x
    else if (s.coverOf x a.va).any (fun q => overlaps q.2.1 (2 ^ q.2.2) lo (2 ^ n)) then s.setRovl x
    else
      let w := (rgnTy e).width / 8
      let s := (s.setNum (stageKey p e a.va lo) w (a.ops.headD 0)).soil (stageKey p e a.va lo) a.cls
      let s := s.setCtx x { s.ctx x with cover := (s.ctx x).cover ++ [(a.va, lo, n)] }
      let got := (s.coverOf x a.va).foldl (fun k q => k + coverCount (rgnSlots e) q) 0
      if got < rgnSlots e then s
      else
        match s.redNode p x a.va e 16 0 with
        | none => s
        | some v => ((s.setNum a.key w v).soil a.key a.cls).reduceDone p x i e

/-- The keys whose lines the atomic unit reads or merges into for an atomic (R444): of a contribution its region entry and its
place in its staging image, and where it is the last of its element every staged contribution and the element. -/
def unitKeys (s : State) (a : Atom) : List Nat :=
  if a.kind != .red then [a.key]
  else
    let p := pkgOf a.core
    match s.findRegion p a.ctx a.va with
    | none => []
    | some i =>
      let e := s.region p a.ctx i
      let mine := s.coverOf a.ctx a.va ++ [(a.va, a.expected, a.dword)]
      [physKey p ((s.ctx a.ctx).rgntab.toNat + 32 * i), stageKey p e a.va a.expected]
        ++ (if mine.foldl (fun k q => k + coverCount (rgnSlots e) q) 0 < rgnSlots e then []
          else a.key :: mine.map (fun q => stageKey p e a.va q.2.1))

/-- A line the atomic unit needs for an atomic has DRAM that does not answer, or holds data it cannot correct (R444).
(DESIGN CHOICE, log 87) -/
def unitFails (s : State) (a : Atom) : Option ErrKind :=
  let ks := s.unitKeys a
  if ks.any (fun k => s.silent.contains (k / 128)) then some .silent
  else if ks.any s.isBad then some .uncorrectable
  else none

/-! ## Application and acknowledgement -/

/-- The value an atomic writes over an old one; none of a comparison that fails, which writes nothing (R265, R266). -/
def atomWrites (a : Atom) (old b : Nat) : Option Nat :=
  match a.kind with
  | .cas | .casq => if old = a.expected then some b else none
  | _ => some (atomNew a.fn a.ty old b)

/-- Apply the elements of an atomic from a key on: the values before. -/
def applyElems (s : State) (a : Atom) (key : Nat) : List Nat → List Nat × State
  | [] => ([], s)
  | b :: t =>
    let n := a.bytes
    let old := s.num key n
    let s := match atomWrites a old b with
      | some v => s.landBytes key (toLe n v)
      | none => s
    let r := applyElems s a (key + n) t
    (old :: r.1, r.2)

/-- The words and the predicate an atomic returns (R265, R266). -/
def atomResult (a : Atom) (old : Nat) : List (Nat × Word) × Option Bool :=
  match a.kind with
  | .amo => ([(a.dword, if a.fn.packed then BitVec.ofNat 64 old else fillWord a.ty old)], none)
  | .cas => ([(a.dword, fillWord a.ty old)], some (old == a.expected))
  | .casq => ([(a.dword, BitVec.ofNat 64 old), (a.dword + 1, BitVec.ofNat 64 (old / 2 ^ 64))], some (old == a.expected))
  | _ => ([], none)

/-- The core waits for what the atomic returns. -/
def atomReturns (a : Atom) : Bool := a.kind == .amo || a.kind == .cas || a.kind == .casq

/-- The last line of an instruction is applied or refused: the drain count advances (R253). -/
def atomDrain (s : State) (a : Atom) : State :=
  if s.msgs.any (fun m => match m.2 with | .atom b => b.group == a.group && b.core == a.core && !b.applied | _ => false)
  then s else s.countDrain a.core

/-- An atomic that its home cannot apply, or whose answer is lost (R444, R446, R448): a fault of the waiting core, otherwise a
notice. One that was applied has drained already. (DEDUCED, log 25) -/
def atomFail (s : State) (tag : Nat) (a : Atom) (cls : Nat) : State :=
  let info := if cls = Cls.uncorr then keyPa a.key else 0
  let k := s.core a.core
  let s := s.setCore a.core { k with atomLines := k.atomLines.erase (a.key / 128) }
  let s := if a.applied then s.dropMsg tag else (s.dropMsg tag).atomDrain a
  if atomReturns a then
    let pc := match k.run with | some f => f.pc - 12 | none => 0
    (s.gotAnswer a.core).takeFaultAt a.core { trapAt cls a.va with info := info, pc := pc }
  else s.notice a.core a.core a.ctx cls a.va info 0 0

/-- An entry is that of an atomic: its source core, the slice it is numbered for and its SEQ (R343, R443). A slice's entries move
with its retirement, whatever slice homes the atomic's line then (R447). -/
def dupIs (d : Dup) (a : Atom) : Bool := d.made == a.made && d.core == a.core && d.seq == a.seq

/-- The home's duplicate entry for an atomic (R443). -/
def dupOf (s : State) (a : Atom) : Option Dup := (s.die (s.homeDie a.key)).dups.find? (fun d => dupIs d a)

/-- The home slice's duplicate table has no entry left (R443). -/
def dupFull (s : State) (a : Atom) : Bool :=
  decide (((s.die (s.homeDie a.key)).dups.filter (fun d => d.slice == s.home a.key)).length ≥ 4096)

/-- Keep a duplicate entry with the result (R443). -/
def addDup (s : State) (a : Atom) (ws : List (Nat × Word)) (p7 : Option Bool) : State :=
  let d := s.homeDie a.key
  let q := s.die d
  s.setDie d { q with dups := q.dups ++ [⟨s.home a.key, a.made, a.core, a.seq, ws, p7⟩] }

/-- The entry of an acknowledged atomic is freed (R443). (DEDUCED, log 31) -/
def freeDup (s : State) (a : Atom) : State :=
  let d := s.homeDie a.key
  let q := s.die d
  s.setDie d { q with dups := q.dups.filter (fun d => !dupIs d a) }

end State

/-- An atomic may be applied at its home: after the writes it follows (R158, R167), and in the order its core sent it there
(R343). -/
def atomReady (s : State) (tag : Nat) (a : Atom) : Bool :=
  writeReady s tag a.core a.key a.span a.rel && s.clockReady a.core a.key a.clock
    && s.msgs.all (fun m => match m.2 with
      | .atom b => m.1 ≥ tag || b.applied || b.core != a.core || s.home b.key != s.home a.key
      | _ => true)

namespace State

/-- The atomic unit has read a line that fails (R444): it reads again up to four times, each read after the one before has
returned, or has timed out after 4,096 ck; then the atomic is not applied. -/
def unitRead (s : State) (tag : Nat) (a : Atom) (again : Instr) : State :=
  let s := ((s.unitKeys a).map (fun k => k / 128 * 128)).eraseDups.foldl noteBad s
  let slow := s.unitFails a == some .silent
  if a.reads < 4 || (slow && a.reads < 5) then
    (s.setMsg tag (.atom { a with reads := a.reads + 1 })).plan (s.time.toNat + (if slow then 4096 else 0)) again
  else s.atomFail tag a Cls.uncorr

end State

/-- An atomic or red at its home (R264, R443, R444): apply is what the operation does there. -/
def applyAtHome (s : State) (tag : Nat) (a : Atom) (again : Nat → Instr)
    (apply : State → (List (Nat × Word) × Option Bool) × State) : Out :=
  let foreign := s.homePkg a.key != pkgOf a.core
  match (if foreign then s.dupOf a else none) with
  | some d => .next (s.post (.atomAck tag d.p7 d.vals) .atomicAck)
  | none =>
    if a.applied then .fault .notDue
    else if s.lostHome (pkgOf a.core) a.key then .next (s.atomFail tag a Cls.unreach)
    else if !atomReady s tag a then .next (s.planNow (again tag))
    else if foreign && s.dupFull a then .next (s.plan (s.time.toNat + 4096) (again tag))
    else if (s.unitFails a).isSome then .next (s.unitRead tag a (again tag))
    else
      let r := apply s
      let s := (r.2.setMsg tag (.atom { a with applied := true })).applyClock a.core a.clock
      let s := if foreign then s.addDup a r.1.1 r.1.2 else s
      .next ((s.atomDrain a).post (.atomAck tag r.1.2 r.1.1) .atomicAck)

/-- ATOMIC_APPLY (R264 to R267): the atomic unit applies the elements of one line in one step, and the line leaves the issuing
core's L1, so that its cassette reads nothing older from then on (R158, R160, R165, R169). -/
def execAtomicApply (tag : Nat) (s : State) : Out :=
  match s.msg? tag with
  | some (.atom a) =>
    if a.kind == .red then .fault .noSuchStep
    else applyAtHome s tag a .atomicApply (fun s =>
      let r := s.applyElems a a.key a.ops
      let wrote := (State.atomWrites a (r.1.headD 0) 0).isSome
      let s := if !wrote then r.2
        else if sliceBase ≤ a.key then r.2.spoilSync a.key a.span
        else r.2.soil a.key a.cls
      (State.atomResult a (r.1.headD 0), s.dropLine (casOf a.core) (a.key / 128)))
  | _ => .fault .noSuchStep

/-- RED_APPLY (R184, R268, R443): a contribution is stored, dropped or completes its element, and the element's line leaves the
issuing core's L1 (R169, R170). -/
def execRedApply (tag : Nat) (s : State) : Out :=
  match s.msg? tag with
  | some (.atom a) =>
    if a.kind != .red then .fault .noSuchStep
    else applyAtHome s tag a .redApply (fun s => (([], none), (s.contribute a).dropLine (casOf a.core) (a.key / 128)))
  | _ => .fault .noSuchStep

/-- ATOMIC_ACK (R264, R170, R253): the line leaves the cassette's L1; the value of amo, cas and casq returns, and the
commit point completes. (DEDUCED, log 25; DEDUCED, log 31) -/
def execAtomicAck (tag : Nat) (s : State) : Out :=
  match s.msg? tag with
  | some (.atomAck of p7 ws) =>
    let s := s.dropMsg tag
    match s.msg? of with
    | some (.atom a) =>
      let line := a.key / 128
      let s := (s.dropMsg of).freeDup a
      let s := s.dropLine (casOf a.core) line
      let q := s.core a.core
      let s := s.setCore a.core { q with atomLines := q.atomLines.erase line }
      .next (if State.atomReturns a then
        let s := s.gotAnswer a.core
        let s := match a.acq with | some sc => s.acquire a.core sc | none => s
        s.onCore a.core (fun s =>
          let s := s.setWords ws
          ((match p7 with | some b => s.setPred 7 b | none => s).commit).watch a.core a.ctx [(a.va, a.bytes)] true true)
      else s)
    | _ => .next s
  | _ => .fault .noSuchStep

/-- ATOMIC_RESEND (R443): an atomic toward another package that is not acknowledged is sent again. -/
def execAtomicResend (tag : Nat) (s : State) : Out :=
  match s.msg? tag with
  | some (.atom a) =>
    if s.homePkg a.key == pkgOf a.core then .fault .notDue
    else .next (if a.kind == .red then s.planNow (.redApply tag) else s.planNow (.atomicApply tag))
  | _ => .fault .noSuchStep

/-- DRAM_REREAD (R444): an atomic unit reads again a line that it could not correct or that did not answer. -/
def execDramReread (tag : Nat) (s : State) : Out :=
  match s.msg? tag with
  | some (.atom a) =>
    let again : Instr := if a.kind == .red then .redApply tag else .atomicApply tag
    if a.applied || (s.unitFails a).isNone || s.agenda.any (fun e => e.2 == again && decide (s.time.toNat < e.1)) then
      .fault .notDue
    else .next ({ s with agenda := s.agenda.filter (fun e => e.2 != again) }.unitRead tag a again)
  | _ => .fault .noSuchStep

/-! ## Handover and capq (R178, R297, R298) -/

/-- The fields of a handover image (R297). -/
def handOk (kind : HandKind) (img stage : Word) : Bool :=
  match kind with
  | .ex | .ro => true
  | .rd =>
    let c := img.toNat / 2 ^ 32
    decide (1 ≤ c ∧ c ≤ 65536) && (tyOf (img.extractLsb' 28 4)).isRed && decide (img.toNat / 2 ^ 24 % 16 ≤ 2)
      && stage.toNat % 2 ^ 52 % 128 == 0

/-- The entry a handover leaves (R178, R297): STATE and OWNER change, and with a reduce state all its fields. -/
def handEntry (e : BitVec 256) (kind : HandKind) (t : Nat) (img stage : Word) : BitVec 256 :=
  let others : BitVec 256 := e &&& ~~~(BitVec.ofNat 256 (3 * 2 ^ 62 + (2 ^ 24 - 1) * 2 ^ 64))
  match kind with
  | .ex => others ||| BitVec.ofNat 256 (1 * 2 ^ 62 + t * 2 ^ 64)
  | .ro => others ||| BitVec.ofNat 256 (2 * 2 ^ 62 + t * 2 ^ 64)
  | .rd => BitVec.ofNat 256 (rgnLen e * 2 ^ 96 + rgnBase e * 2 ^ 16 + t * 2 ^ 64 + 3 * 2 ^ 62
      + img.toNat / 2 ^ 32 * 2 ^ 224 + stage.toNat % 2 ^ 52 * 2 ^ 160 + img.toNat % 2 ^ 14 * 2 ^ 128
      + img.toNat / 2 ^ 28 % 16 * 2 ^ 12 + img.toNat / 2 ^ 24 % 16 * 2 ^ 8)

/-- handover waits as a release of scope .pod does (R178). -/
def handWaits (s : State) : Bool := s.relWaits s.cur .pod

/-- HANDOVER (R297). -/
def execHandover (kind : HandKind) (x : Task) (s : State) : Out :=
  notYet s x.hd handWaits <| withGuard s x.hd (fun s => do
    let d := State.wordNo x.d
    s.needOpnds [x.a, x.b]
    if kind == .rd then s.needPair d else s.needWord d
    let ea := (← s.src64 x.a).toNat
    let c := s.cur
    let bad := trapAt Cls.capability ea
    let g ← (if ea / 2 ^ 55 != 0 || ea < s.sliceSize c || ea < 0x80000 then
        match s.whereAt c s.cctx ea 1 .load with
        | .error t => .error t
        | .ok _ => .error bad
      else s.seg c s.cctx ea 1 .load)
    match (if s.det s.cctx then s.findRegion (pkgOf c) s.cctx ea else none) with
    | none => .error bad
    | some i =>
      let e := s.region (pkgOf c) s.cctx i
      if rgnBad e || rgnOwner e != c || rgnState e == 3 then .error bad
      else
        let b ← s.srcLate x.b
        let t := b.1.toNat % 2 ^ 24
        let img := s.word d
        let stage := if kind == .rd then s.word (d + 1) else 0
        if !s.isCore (pkgOf c) t || !handOk kind img stage then .error bad
        b.2
        s.needRead d (if kind == .rd then 2 else 1)
        let s := s.noteTlb (casOf c) g.tlb
        let k := s.cas (casOf c)
        let s := s.setCas (casOf c) { k with caps := k.caps.filter (fun q => !(q.1 == s.cctx && q.2.1 == i)) }
        .ok ((s.awaitAnswer c).post (.hand c s.cctx ea kind t img stage s.cf.pc) .handoverApply))

/-- HANDOVER_APPLY (R178): the entry changes at its home in one step, then every cached copy is invalidated. -/
def execHandoverApply (tag : Nat) (s : State) : Out :=
  match s.msg? tag with
  | some (.hand c x va kind t img stage pc) =>
    let s := s.dropMsg tag
    let p := pkgOf c
    let fail := fun (h : Nat) => s.post (.handDone tag h c (some { trapAt Cls.capability va with pc := pc }) none) .handoverComplete
    match s.findRegion p x va with
    | none => .next (fail c)
    | some i =>
      let e := s.region p x i
      let h := s.home (s.rgnKey p x i)
      if s.lostHome p (s.rgnKey p x i) then
        .next (s.post (.handDone tag c c (some { trapAt Cls.unreach va with pc := pc }) none) .handoverComplete)
      else if rgnOwner e != c || rgnState e == 3 then .next (fail h)
      else
        let base := rgnBase e * 65536
        let len := rgnLen e * 65536
        let s := if kind == .rd then
            s.setCtx x { s.ctx x with cover := (s.ctx x).cover.filter (fun q => !decide (base ≤ q.1 ∧ q.1 < base + len)) }
          else s
        let s := s.setRegion p x i (handEntry e kind t img stage)
        let s := { s with cass := s.cass.map (fun (q : Nat × Cas) =>
          (q.1, { q.2 with caps := q.2.caps.filter (fun (r : Nat × Nat × BitVec 256) => !(r.1 == x && r.2.1 == i)) })) }
        let sw := if img.getLsbD 14 then some (t, img.toNat % 2 ^ 14 * 16) else none
        .next (s.post (.handDone tag h c none sw) .handoverComplete)
  | _ => .fault .noSuchStep

/-- HANDOVER_COMPLETE (R178, R253): the home's acknowledgement, or its refusal as a precise fault.
(DEDUCED, log 25) -/
def execHandoverComplete (tag : Nat) (s : State) : Out :=
  match s.msg? tag with
  | some (.handDone _ _ c fail sw) =>
    let s := (s.dropMsg tag).gotAnswer c
    .next (match fail with
      | some t => s.takeFaultAt c t
      | none =>
        let s := s.onCore c State.commit
        match sw with
        | some (t, off) => s.post (.sync c t off 1 0 none) .syncWordUpdate
        | none => s)
  | _ => .fault .noSuchStep

/-- CAPQ (R298). (DEDUCED, log 26) -/
def execCapq (x : Task) (s : State) : Out :=
  withGuard s x.hd (fun s => do
    s.needOpnds [x.d, x.a]
    let ea := (← s.src64 x.a).toNat
    let c := s.cur
    if ea / 2 ^ 56 != 0 then .error (trapAt Cls.noncanon ea)
    else
      let v := if !s.det s.cctx || ea / 2 ^ 55 % 2 = 1 || ea < 0x80000 then 0
        else match s.findRegion (pkgOf c) s.cctx ea with
          | none => 0
          | some i =>
            let e := s.region (pkgOf c) s.cctx i
            (if rgnState e = 3 then rgnSlots e % 2 ^ 17 * 2 ^ 47 else 0) + rgnOp e * 2 ^ 36
              + (e.extractLsb' 12 4).toNat * 2 ^ 32 + rgnState e * 2 ^ 30 + (rgnOwner e == c).toNat * 2 ^ 29 + rgnOwner e
      .ok ((s.loadIssued c).setWord (State.wordNo x.d) (BitVec.ofNat 64 v)))

/-! ## Caches (R98, R177) -/

/-- CAPABILITY_REFETCH (R177): a cassette's cache takes the entry that holds an address from its home. -/
def execCapabilityRefetch (k x va : Nat) (s : State) : Out := .next (s.noteCap k x va)

/-- PAGE_WALK (R96 to R98): a walk fills the cassette's TLB and the die's table cache; one that faults fills nothing. -/
def execPageWalk (k x va : Nat) (s : State) : Out :=
  let d := k / 256
  match s.walkFrom d x va 4 (s.ctx x).ptroot.toNat with
  | .error _ => .next s
  | .ok t => .next ((s.noteTables d x va).noteTlb k t)

end Sys2Proof.Machine
end

