-- ==== Sys2Proof/Machine/SyncOps.lean ====
section
/-! DEFINITION. Barriers and sync words, 0xA0 to 0xA3 (R43, R100 to R103, R269 to R272), and the device steps that
apply them. -/

namespace Sys2Proof.Machine

/-- The scope of a barrier level (R2, R269). -/
def levelScope : Level → Scope
  | .cas => .cas
  | .die => .die
  | .pkg => .pkg
  | .pod => .pod

/-- The barrier instance of a level that belongs to a core (R269). -/
def barKey (l : Level) (c : Nat) : Nat :=
  match l with
  | .cas => 2 ^ 24 + casOf c
  | .die => 2 * 2 ^ 24 + dieOf c
  | .pkg => 3 * 2 ^ 24 + pkgOf c
  | .pod => 4 * 2 ^ 24

/-- A message that acts as a release is taken once the earlier writes it follows are performed (R167).
(DEDUCED, log 34) -/
def releaseReady (s : State) (tag core : Nat) (sc : Scope) : Bool := writeReady s tag core 0 0 (some sc)

/-! ## Barriers -/

/-- bara waits as a release of its level does; a query waits for nothing (R269). -/
def baraWaits (l : Level) (x : Task) (s : State) : Bool :=
  match s.src64 x.a with
  | .ok v => v.toNat % 2 ^ 32 != 0 && s.relWaits s.cur (levelScope l)
  | .error _ => false

/-- BARA (R269): a query of GEN, or an arrival on its way to the barrier's root. (DEDUCED, log 24) -/
def execBara (l : Level) (x : Task) (s : State) : Out :=
  notYet s x.hd (baraWaits l x) <| withGuard s x.hd (fun s => do
    s.needOpnds [x.d, x.a]
    let e := (← s.src64 x.a).toNat % 2 ^ 32
    let c := s.cur
    let key := barKey l c
    if e = 0 then
      .ok (s.setWord (State.wordNo x.d) ((s.barrier s.cctx key).gen.zeroExtend 64))
    else
      .ok ((s.awaitAnswer c).commit.post (.bar c s.cctx key e (State.wordNo x.d)) .barrierArrival))

/-- The scope of the level a barrier key belongs to. -/
def keyScope (key : Nat) : Scope :=
  match key / 2 ^ 24 with
  | 1 => .cas
  | 2 => .die
  | 3 => .pkg
  | _ => .pod

/-- One arrival at a barrier (R269): the instance after it, and the generation it belongs to. -/
def arrive (b : Barrier) (e : Nat) : Barrier × BitVec 32 :=
  let e := if b.count = 0 then e else b.e
  let n := b.count + 1
  if n = e then (⟨b.gen + 1, 0, e⟩, b.gen + 1) else (⟨b.gen, n, e⟩, b.gen + 1)

/-- BARRIER_ARRIVAL (R269, R43): an arrival reaches the root, and an advance releases the guarded firings. -/
def execBarrierArrival (tag : Nat) (s : State) : Out :=
  match s.msg? tag with
  | some (.bar c x key e dword) =>
    if !releaseReady s tag c (keyScope key) then .next (s.planNow (.barrierArrival tag))
    else
      let s := s.dropMsg tag
      let r := arrive (s.barrier x key) e
      let q := s.ctx x
      let s := (s.setCtx x { q with bars := q.bars.set key r.1 }).gotAnswer c
      .next (s.onCore c (fun s => s.setWord dword (r.2.zeroExtend 64))).releaseAll
  | _ => .fault .noSuchStep

/-! ## Sync words -/

/-- A sync word (R100). -/
structure SyncWord where
  arr : Nat
  exp : Nat
  gen : BitVec 32
  bytes : Nat
  tgt : Nat
deriving DecidableEq, Repr

/-- One update of a sync word (R101): a arrivals and b bytes. -/
def SyncWord.update (w : SyncWord) (a b : Nat) : SyncWord :=
  let arr := Nat.min (w.arr + a) 65535
  let bytes := Nat.min (w.bytes + b) 0xFFFFFFFF
  let done := (w.exp == 0 || arr == w.exp) && (w.tgt == 0 || decide (bytes ≥ w.tgt))
  if done && !(w.exp == 0 && w.tgt == 0) then { w with gen := w.gen + 1, arr := 0, bytes := 0 }
  else { w with arr := arr, bytes := bytes }

namespace State

/-- The sync word at an offset of a core's slice, as its 16 bytes stand (R100). -/
def syncAt (s : State) (c off : Nat) : SyncWord :=
  let w0 := s.num (sliceKey c off) 8
  let w1 := s.num (sliceKey c off + 8) 8
  ⟨w0 / 2 ^ 48, w0 / 2 ^ 32 % 2 ^ 16, BitVec.ofNat 32 w0, w1 / 2 ^ 32, w1 % 2 ^ 32⟩

/-- Write a sync word. -/
def setSync (s : State) (c off : Nat) (w : SyncWord) : State :=
  s.landBytes (sliceKey c off)
    (toLe 8 (w.arr * 2 ^ 48 + w.exp * 2 ^ 32 + w.gen.toNat) ++ toLe 8 (w.bytes * 2 ^ 32 + w.tgt))

end State

/-- The place of a sync word (R270): alignment, R251, and a window violation of a translated address. -/
def syncLoc (s : State) (ea : Nat) (need : Need) : Res (Nat × Nat) := do
  needAlign ea 16 true
  if ea / 2 ^ 55 = 0 && ea + 16 > s.sliceSize s.cur then .error (trapAt Cls.window ea)
  else match ← s.whereAt s.cur s.cctx ea 16 need with
    | .slice c off _ => .ok (c, off)
    | .phys _ => .error (trapAt Cls.window ea)

/-- SWINIT (R270): the image is on its way to the word's unit. (DEDUCED, log 24) -/
def execSwinit (x : Task) (s : State) : Out :=
  withGuard s x.hd (fun s => do
    let d := State.wordNo x.d
    s.needPair d
    s.needOpnds [x.a, x.b]
    let ea ← s.addr x.a x.b
    let l ← syncLoc s ea .store
    let w0 ← s.srcWord d
    let w1 ← s.srcWord (d + 1)
    .ok ((s.awaitAnswer s.cur).post (.swinit l.1 l.2 w0 w1 s.cur) .swinitApply))

/-- SWINIT_APPLY (R270): the unit writes the word, ARR and BYTES zero, after the core's earlier writes to its bytes (R158), and
releases what now holds. -/
def execSwinitApply (tag : Nat) (s : State) : Out :=
  match s.msg? tag with
  | some (.swinit c off w0 w1 back) =>
    let k := sliceKey c off
    if !writeReady s tag back k 16 none then .next (s.planNow (.swinitApply tag))
    else
      let s := s.dropMsg tag
      let w : SyncWord := ⟨0, w0.toNat / 2 ^ 32 % 2 ^ 16, w0.extractLsb' 0 32, 0, w1.toNat % 2 ^ 32⟩
      let s := { s.setSync c off w with syncs := if s.syncs.contains k then s.syncs else k :: s.syncs }
      .next ((s.gotAnswer back).releaseAll)
  | _ => .fault .noSuchStep

/-- The scope of the release at an address: it holds the word's cassette (R271). -/
def syncScope (s : State) (ea : Nat) : Scope :=
  if ea / 2 ^ 55 = 1 then spanScope s.cur (ea / 2 ^ 31 % 2 ^ 24) else .cas

/-- swarr waits as its release does (R167, R271). -/
def swarrWaits (x : Task) (s : State) : Bool :=
  match s.addr x.a x.b with
  | .ok ea => s.relWaits s.cur (syncScope s ea)
  | .error _ => false

/-- SWARR (R271): one arrival on its way; a commit point. (DEDUCED, log 24) -/
def execSwarr (x : Task) (s : State) : Out :=
  notYet s x.hd (swarrWaits x) <| withGuard s x.hd (fun s => do
    s.needOpnds [x.a, x.b]
    let ea ← s.addr x.a x.b
    let l ← syncLoc s ea .store
    let s := (s.awaitAnswer s.cur).commit.post (.sync s.cur l.1 l.2 1 0 (some s.cur)) .syncWordUpdate
    .ok (s.watch s.cur s.cctx [(ea, 16)] true true))

/-- SYNC_WORD_UPDATE (R101, R103): the unit applies an update and notices the watchers whose guards now hold. -/
def execSyncWordUpdate (tag : Nat) (s : State) : Out :=
  match s.msg? tag with
  | some (.sync _ c off a b back) =>
    if (match back with | some f => !releaseReady s tag f (spanScope f c) | none => false) then
      .next (s.planNow (.syncWordUpdate tag))
    else
      let s := s.dropMsg tag
      let w := s.syncAt c off
      let w' := w.update a b
      let s := s.setSync c off w'
      let s := match back with | some f => s.gotAnswer f | none => s
      .next (if w'.gen != w.gen then s.releaseAll else s)
  | _ => .fault .noSuchStep

/-- The address and the key of a sync word that swtest finds no way to (R448). -/
def swtestFar (x : Task) (s : State) : Option (Nat × Nat) :=
  match (do s.needOpnds [x.d, x.a, x.b]; let ea ← s.src64 x.a; let l ← syncLoc s ea.toNat .load; .ok (ea, l) : Res (Word × Nat × Nat)) with
  | .ok (ea, l) => (s.farByte s.cur (.slice l.1 l.2 true) 16 3).map (fun k => (ea.toNat, k))
  | .error _ => none

/-- SWTEST (R272): GEN, and p7 when the generation is reached, which makes it an acquire. (DEDUCED, log 21) -/
def execSwtest (x : Task) (s : State) : Out :=
  reachFirst s x.hd (swtestFar x) <| withGuard s x.hd (fun s => do
    s.needOpnds [x.d, x.a, x.b]
    let ea := (← s.src64 x.a).toNat
    let g := BitVec.ofNat 32 (← s.src64 x.b).toNat
    let l ← syncLoc s ea .load
    s.readable s.cur ea (.slice l.1 l.2 false) 16 3
    let gen := s.syncGen l.1 l.2
    let ok := genReached gen g
    let s := if ok then s.acquire s.cur .pod else s
    .ok ((s.setWord (State.wordNo x.d) (gen.zeroExtend 64)).setPred 7 ok))

end Sys2Proof.Machine
end

