-- ==== Sys2Proof/Machine/Groups.lean ====
section
/-! DEFINITION. Multicast groups, 0xA4 to 0xA6 (R107 to R120, R273 to R275), holds and fills, and their failures
(R434 to R436, R460, R461). -/

namespace Sys2Proof.Machine

/-- A group descriptor as read (R108). -/
structure GroupDesc where
  valid : Bool
  scope : Nat
  ctx : Nat
  blog : Nat
  timer : Nat
  ext : Nat
  mbmp : Nat
  dest : Nat
  len : Nat
  swoff : Nat
  gen0 : BitVec 32
  sound : Bool
deriving DecidableEq, Repr

namespace GroupDesc
/-- Buffers of the group. -/
def bufs (g : GroupDesc) : Nat := 2 ^ g.blog
/-- The hold timer in ck: 0 selects 4,096. -/
def window (g : GroupDesc) : Nat := if g.timer = 0 then 4096 else g.timer
/-- A core lies in the group's extent (R108): EXT's fields at and below the scope are not looked at, and a member bitmap at any
alignment is used where it lies. (DESIGN CHOICE, log 93) -/
def inExtent (g : GroupDesc) (c : Nat) : Bool :=
  match g.scope with
  | 1 => c / 8 == g.ext / 8
  | 2 => c / 2048 == g.ext / 2048
  | 3 => c / 32768 == g.ext / 32768
  | _ => false
/-- The bit of a core in the member bitmap (R109). -/
def bit (g : GroupDesc) (c : Nat) : Nat :=
  match g.scope with
  | 1 => c % 8
  | 2 => c % 2048
  | _ => c % 32768
/-- Bytes of the member bitmap (R109). -/
def mapBytes (g : GroupDesc) : Nat :=
  match g.scope with
  | 1 => 1
  | 2 => 256
  | _ => 4096
/-- The descriptor serves a context (R108, R273, R425). -/
def serves (g : GroupDesc) (x : Nat) : Bool := g.valid && g.sound && g.ctx == x
/-- Offset of the buffer of a generation (R110). -/
def buffer (g : GroupDesc) (gen : BitVec 32) : Nat := g.dest + gen.toNat % g.bufs * g.len
end GroupDesc

namespace State

/-- The die a handle names, as seen from a core (R107). -/
def groupDie (c handle : Nat) : Nat := pkgOf c * 16 + handle / 1024 % 16

/-- The physical address of the descriptor a handle names (R107). -/
def groupKey (s : State) (c handle : Nat) : Nat := (s.die (groupDie c handle)).grptab.toNat + 64 * (handle % 1024)

/-- The descriptor at a key (R108, R425). -/
def groupAt (s : State) (k : Nat) : GroupDesc :=
  let ctl := s.num k 8
  let len := s.num (k + 0x1C) 4
  let dest := s.num (k + 0x18) 4
  let sw := s.num (k + 0x20) 4
  let timer := ctl % 2 ^ 21
  let scope := ctl / 2 ^ 60 % 8
  { valid := ctl / 2 ^ 63 = 1, scope := scope, ctx := ctl / 2 ^ 54 % 64, blog := ctl / 2 ^ 52 % 4, timer := timer
    ext := s.num (k + 8) 8, mbmp := s.num (k + 16) 8, dest := dest, len := len, swoff := sw
    gen0 := BitVec.ofNat 32 (s.num (k + 0x24) 4)
    sound := ctl / 2 ^ 21 % 2 ^ 31 == 0 && decide (1 ≤ scope ∧ scope ≤ 3) && ctl / 2 ^ 52 % 4 != 3
      && len % 128 == 0 && decide (128 ≤ len ∧ len ≤ 65536) && dest % 128 == 0 && sw % 16 == 0
      && (timer == 0 || decide (256 ≤ timer ∧ timer ≤ 1048576)) && s.num (k + 0x28) 24 == 0 }

/-- The descriptor of a handle, when a core of a context may use it (R273). -/
def groupOf (s : State) (c x handle : Nat) : Option GroupDesc :=
  let g := s.groupAt (s.groupKey c handle)
  if handle / 2 ^ 14 = 0 && (s.die (groupDie c handle)).grptabSet && g.serves x && g.inExtent c
  then some g else none

/-- a is at or before b, as generations compare (R103, R111). -/
def genLe (a b : BitVec 32) : Bool := genReached b a

/-- A core is a member for a generation (R112). -/
def isMember (q : Group) (c : Nat) (g : BitVec 32) : Bool :=
  q.members.any (fun m => m.1 == c && genLe m.2.1 g && (match m.2.2 with | none => true | some e => !genLe e g))

/-- Write a member's bit (R109). -/
def setMapBit (s : State) (g : GroupDesc) (c : Nat) (b : Bool) : State :=
  let k := physKey (pkgOf c) (g.mbmp + g.bit c / 8)
  let m : Byte := 1#8 <<< (g.bit c % 8)
  (s.landBytes k [if b then s.byte k ||| m else s.byte k &&& ~~~m]).soil k 0

/-- What the home keeps of a group (R112). -/
def groupState (s : State) (k : Nat) (g : GroupDesc) : Group := (s.groups.find k).getD ⟨g.gen0 - 1, [], []⟩

end State

/-- Send a membership change (R273). (DEDUCED, log 24) -/
def groupChange (join : Bool) (x : Task) (s : State) : Out :=
  withGuard s x.hd (fun s => do
    s.needOpnds [x.d, x.a]
    let h := (← s.src64 x.a).toNat % 2 ^ 32
    match s.groupOf s.cur s.cctx h with
    | none => .error (trapAt Cls.group 0)
    | some _ =>
      .ok ((s.awaitAnswer s.cur).commit.post (.group s.cur s.cctx h (State.wordNo x.d) join) .groupMembership))

/-- GJOIN (R273). -/
def execGjoin (x : Task) (s : State) : Out := groupChange true x s

/-- GLEAVE (R273). -/
def execGleave (x : Task) (s : State) : Out := groupChange false x s

/-- GROUP_MEMBERSHIP (R112, R460): the change takes effect at HIGH + 1, or is discarded. -/
def execGroupMembership (tag : Nat) (s : State) : Out :=
  match s.msg? tag with
  | some (.group c x h dword join) =>
    let s := (s.dropMsg tag).gotAnswer c
    let k := s.groupKey c h
    let g := s.groupAt k
    if !g.serves x then
      let s := s.notice (s.home k) c x Cls.group 0 h 0 0
      .next (s.onCore c (fun s => s.setWord dword (-1)))
    else
      let q := s.groupState k g
      let eff := q.high + 1
      let is := State.isMember q c eff
      let s := if is == join then s
        else if join then
          { s.setMapBit g c true with groups := s.groups.set k { q with members := q.members ++ [(c, eff, none)] } }
        else
          { s.setMapBit g c false with groups := s.groups.set k { q with
              members := q.members.map (fun m => if m.1 = c && m.2.2.isNone then (m.1, m.2.1, some eff) else m) } }
      .next (s.onCore c (fun s => s.setWord dword (eff.zeroExtend 64)))
  | _ => .fault .noSuchStep

/-! ## gld -/

/-- gld waits for earlier loads, and for earlier stores to the own slice (R275). -/
def gldWaits (s : State) : Bool := (s.core s.cur).loads != 0 || s.ownWrites s.cur

/-- GLD (R274). -/
def execGld (x : Task) (s : State) : Out :=
  notYet s x.hd gldWaits <| withGuard s x.hd (fun s => do
    s.needOpnds [x.d, x.a, x.b]
    let ea := (← s.src64 x.a).toNat
    let c := s.cur
    needAlign ea 128 true
    let _ ← s.whereAt c s.cctx ea 1 .load
    let d := (← s.srcWord (State.wordNo x.d)).toNat
    let rlen := d / 2 ^ 32 % 2 ^ 17
    let h := d % 2 ^ 32
    let bad := trapAt Cls.group ea
    match ← s.whereAt c s.cctx ea (Nat.max rlen 1) .load with
    | .slice _ _ _ => .error (trapAt Cls.window ea)
    | .phys segs =>
      match s.groupOf c s.cctx h, segs with
      | some g, [q] =>
        if rlen = 0 || rlen % 128 != 0 || rlen > g.len then .error bad
        else
          let gen := BitVec.ofNat 32 (← s.src64 x.b).toNat
          let s := (s.noteTlb (casOf c) q.tlb).commit
          .ok ((s.post (.gld c s.cctx h gen q.pa rlen ea) .groupRequest).watch c s.cctx [(ea, rlen)] true true)
      | _, _ => .error bad)

/-! ## Holds (R113 to R117) -/

namespace State

/-- GFIRE record of the home slice (R372). -/
def traceFire (s : State) (home x : Nat) (gen : BitVec 32) (handle asked cause : Nat) : State :=
  s.traceDev (dieOf home) 10 x home
    (gen.toNat * 2 ^ 32 + handle % 1024 * 2 ^ 22 + handle / 1024 % 16 * 2 ^ 18 + asked % 2 ^ 15 * 8 + cause)

/-- Replace a hold entry. -/
def setHold (s : State) (key : Nat) (h : Hold) : State := { s with holds := s.holds.set key h }

/-- A hold entry is gone. Its group keeps the members it had marked, whose repeated requests are ignored (R434); after a
failed read every later request is a private one (R436). -/
def dropHold (s : State) (key : Nat) : State :=
  match s.holds.find key with
  | none => s
  | some h =>
    let s := { s with
      holds := s.holds.del key
      agenda := s.agenda.filter (fun e => e.2 != Instr.holdTimerExpiry key) }
    match s.groups.find h.desc with
    | none => s
    | some q =>
      let kept := q.past.filter (fun e => e.1 != h.gen && genLe e.1 q.high)
      { s with groups := s.groups.set h.desc { q with
          past := (h.gen, if h.state == .failed then [] else h.marked) :: kept } }

/-- A hold entry is free: requests that wait at its slice may be admitted (R113, R116). -/
def freeHold (s : State) (h : Nat) (slice : Nat) : State :=
  let s := s.dropHold h
  if s.holdWait.any (fun w => w.1 == slice) then s.planNow (.holdAdmit slice) else s

/-- A private read is on its way (R114). -/
def soloGo (s : State) (c x pa len handle : Nat) (g : GroupDesc) (gen : BitVec 32) : State :=
  s.post (.solo c x pa len (g.buffer gen) g.swoff handle gen) .soloRead

/-- A fill from a hold buffer to a member (R117, R118). -/
def sendFill (s : State) (h : Hold) (g : GroupDesc) (c : Nat) : State :=
  s.post (.fill (h.asks.get c 0) h.slice c h.ctx (g.buffer h.gen) g.swoff h.data) .fillLand

/-- The hold for generation g fires (R114): the range is read, and the hold for g − B + 1 is released. -/
def fireHold (s : State) (key : Nat) (h : Hold) (g : GroupDesc) (cause : Nat) : State :=
  let old := h.gen - BitVec.ofNat 32 (g.bufs - 1)
  let s := { s with holds := s.holds.set key { h with state := .fired } }
  let s := s.traceFire h.slice h.ctx h.gen h.handle h.marked.length cause
  let s := s.planNow (.holdReadComplete key)
  s.holds.foldl (fun s e =>
    if e.2.desc == h.desc && e.2.gen == old then
      if e.2.state == .held || e.2.state == .failed then s.freeHold e.1 e.2.slice
      else { s with holds := s.holds.set e.1 { e.2 with surpassed := true } }
    else s) s

/-- Bytes of hold buffers and asked bitmaps of a slice (R116). -/
def holdBytes (s : State) (slice : Nat) : Nat :=
  (s.holds.filter (fun e => e.2.slice == slice)).foldl (fun n e => n + e.2.len + (s.groupAt e.2.desc).mapBytes) 0

/-- Released oldest first, Held and Failed entries make room for a new hold (R116, R436); fuel bounds the count. -/
def evictHolds (s : State) (slice need : Nat) : Nat → State
  | 0 => s
  | n + 1 =>
    if s.holdBytes slice + need ≤ 3 * 2 ^ 20 then s
    else match s.holds.find? (fun e => e.2.slice == slice && (e.2.state == .held || e.2.state == .failed)) with
      | none => s
      | some e => (s.dropHold e.1).evictHolds slice need n

/-- Members of a group for a generation (R114). -/
def memberCount (q : Group) (g : BitVec 32) : Nat :=
  ((q.members.map (·.1)).eraseDups.filter (fun c => isMember q c g)).length

/-- The message of a waiting request stays at a slice, in arrival order (R113, R116). -/
def waitHold (s : State) (slice tag : Nat) : State :=
  if s.holdWait.contains (slice, tag) then s else { s with holdWait := s.holdWait ++ [(slice, tag)] }

/-- Other requests than this one wait at a slice before it (R113). -/
def behindOthers (s : State) (slice tag : Nat) : Bool :=
  match s.holdWait.find? (fun w => w.1 == slice) with
  | none => false
  | some w => w.2 != tag

/-- Open a hold for a first request, or leave it waiting at the slice behind those that came before (R113, R116). -/
def openHold (s : State) (tag c x handle pa len : Nat) (gen : BitVec 32) (q : Group) (g : GroupDesc) : State :=
  let desc := s.groupKey c handle
  let slice := s.home desc
  if s.behindOthers slice tag || (s.holds.filter (fun e => e.2.slice == slice)).length ≥ 64 then s.waitHold slice tag
  else
  let s := s.evictHolds slice (len + g.mapBytes) 64
  if s.holdBytes slice + len + g.mapBytes > 3 * 2 ^ 20 then s.waitHold slice tag
  else
    let key := s.nextTag
    let due := s.time.toNat + g.window
    let h : Hold := ⟨slice, desc, handle, x, gen, pa, len, due, memberCount q gen, [c], .opened, [], false, false, [(c, tag)]⟩
    let s := { ((s.dropMsg tag).plan due (.holdTimerExpiry key)) with
      nextTag := key + 1, holds := s.holds ++ [(key, h)] }
    if h.expc ≤ 1 then s.fireHold key h g 0 else s

/-- A request meets the entry of its generation (R114, R420, R434, R436). (DEDUCED, log 33) -/
def meetHold (s : State) (key : Nat) (h : Hold) (g : GroupDesc) (tag c x handle pa len : Nat) : State :=
  let set := fun (h : Hold) => { s with holds := s.holds.set key h }
  match h.state with
  | .failed => s.soloGo c x pa len handle g h.gen
  | .opened =>
    if h.marked.contains c then s
    else if h.pa != pa || h.len != len then s.soloGo c x pa len handle g h.gen
    else
      let h := { h with marked := h.marked ++ [c], asks := h.asks.set c tag }
      if h.marked.length = h.expc then (set h).fireHold key h g 0 else set h
  | .fired | .held =>
    if h.marked.contains c then s
    else
      let h := { h with marked := h.marked ++ [c], asks := h.asks.set c tag }
      let s := (set h).traceFire h.slice x h.gen handle h.marked.length 2
      if !h.read then s
      else
        let s := s.sendFill h g c
        if h.marked.length ≥ h.expc then s.freeHold key h.slice else s

/-- A request for a generation of a group waits for its first hold entry (R113). (DEDUCED, log 33) -/
def genWaits (s : State) (k : Nat) (gen : BitVec 32) : Bool :=
  s.holdWait.any (fun w => match s.msg? w.2 with
    | some (.gld c _ h g _ _ _) => g == gen && s.groupKey c h == k
    | _ => false)

/-- Serve a request at its home (R114, R434, R460): high is HIGH as the first request for its generation found it.
(DEDUCED, log 33) -/
def serveGroup (s : State) (tag c x handle : Nat) (gen : BitVec 32) (pa len : Nat) : State :=
  let k := s.groupKey c handle
  let g := s.groupAt k
  if !g.serves x then (s.dropMsg tag).notice (s.home k) c x Cls.group 0 pa 0 0
  else
    let q := s.groupState k g
    let high := if q.high == gen && s.genWaits k gen then gen - 1 else q.high
    let q' := { q with high := if genLe gen q.high then q.high else gen }
    let s := { s with groups := s.groups.set k q' }
    if !isMember q' c gen then (s.dropMsg tag).soloGo c x pa len handle g gen
    else match s.holds.find? (fun e => e.2.desc == k && e.2.gen == gen), q.past.find? (fun e => e.1 == gen) with
      | some e, _ => (s.dropMsg tag).meetHold e.1 e.2 g tag c x handle pa len
      | none, some e =>
        if e.2.contains c then s.dropMsg tag else (s.dropMsg tag).soloGo c x pa len handle g gen
      | none, none =>
        if genLe gen (high - BitVec.ofNat 32 g.bufs + 1) then (s.dropMsg tag).soloGo c x pa len handle g gen
        else s.openHold tag c x handle pa len gen q' g

end State

/-- GROUP_REQUEST (R114, R420, R434, R460). (DEDUCED, log 33) -/
def execGroupRequest (tag : Nat) (s : State) : Out :=
  match s.msg? tag with
  | some (.gld c x h gen pa len _) => .next (s.serveGroup tag c x h gen pa len)
  | _ => .fault .noSuchStep

/-- HOLD_ADMIT (R113, R116): the first request that waits at a slice is served again, and once it is, the next. -/
def execHoldAdmit (slice : Nat) (s : State) : Out :=
  match s.holdWait.find? (fun w => w.1 == slice) with
  | none => .next s
  | some w =>
    let s := match s.msg? w.2 with
      | some (.gld c x h gen pa len _) => s.serveGroup w.2 c x h gen pa len
      | _ => s
    if (s.msg? w.2).isSome then .next s
    else
      let s := { s with holdWait := s.holdWait.erase w }
      .next (if s.holdWait.any (fun w => w.1 == slice) then s.planNow (.holdAdmit slice) else s)

/-- HOLD_TIMER_EXPIRY (R114, R115): an Open hold fires when TIMER ck have passed. -/
def execHoldTimerExpiry (key : Nat) (s : State) : Out :=
  match s.holds.find key with
  | none => .fault .noSuchStep
  | some h =>
    if h.state != .opened then .next s
    else if s.time.toNat < h.due then .fault .notDue
    else .next (s.fireHold key h (s.groupAt h.desc) 1)

/-- HOLD_READ_COMPLETE (R114, R436): fills go to the marked members and the entry is freed or held; a line that
cannot be corrected fails it. -/
def execHoldReadComplete (key : Nat) (s : State) : Out :=
  match s.holds.find key with
  | none => .fault .noSuchStep
  | some h =>
    if h.state != .fired || h.read then .fault .notDue
    else
      let g := s.groupAt h.desc
      let k := physKey (pkgOf h.slice) h.pa
      match (List.range h.len).find? (fun i => s.isBad (k + i)) with
      | some i =>
        let s := (s.noteBad (k + i)).setHold key { h with state := .failed }
        let s := if h.surpassed then s.freeHold key h.slice else s
        .next (s.notice h.slice h.slice h.ctx Cls.uncorr 0 ((h.pa + i) / 128 * 128) 0 0)
      | none =>
        let h := { h with read := true, data := s.bytes k h.len }
        let s := h.marked.foldl (fun s c => s.sendFill h g c) s
        .next (if h.marked.length ≥ h.expc || h.surpassed then s.freeHold key h.slice
          else { s with holds := s.holds.set key { h with state := .held } })

/-- Bytes land in a core's slice, where they replace whole lines (R446), and are counted at its sync word (R118), or are discarded
(R435). -/
def State.land (s : State) (c x dest sw : Nat) (data : List Byte) : State :=
  if (s.core c).spown.toNat != x then s
  else ((s.landBytes (sliceKey c dest) data).mend [(sliceKey c dest, data.length)]).post (.sync c c sw 0 data.length none) .syncWordUpdate

/-- PRIVATE_READ (R114, R117, R461): the range as it stands lands in the requester's buffer. -/
def execSoloRead (tag : Nat) (s : State) : Out :=
  match s.msg? tag with
  | some (.solo c x pa len dest sw handle gen) =>
    let s := s.dropMsg tag
    let k := physKey (pkgOf c) pa
    let home := s.home (s.groupKey c handle)
    match (List.range len).find? (fun i => s.isBad (k + i)) with
    | some i => .next ((s.noteBad (k + i)).notice home c x Cls.uncorr 0 ((pa + i) / 128 * 128) 0 0)
    | none => .next ((s.traceFire home x gen handle 1 3).land c x dest sw (s.bytes k len))
  | _ => .fault .noSuchStep

/-- FILL_LAND (R118, R435). -/
def execFillLand (tag : Nat) (s : State) : Out :=
  match s.msg? tag with
  | some (.fill _ _ c x dest sw data) => .next ((s.dropMsg tag).land c x dest sw data)
  | _ => .fault .noSuchStep

end Sys2Proof.Machine
end

