-- ==== Sys2Proof/Machine/Control.lean ====
section
/-! DEFINITION. Control transfer, 0x80 to 0x8A (R280 to R284), and the end of a firing. -/

namespace Sys2Proof.Machine

/-- A transfer target is a legal instruction address, or the misaligned fetch of R281. -/
def target (t : Int) : Res Nat :=
  if t % 4 != 0 || t < 0 || t ≥ 2 ^ 50 then .error (trapAt Cls.misfetch (bitsOf 64 t)) else .ok t.toNat

/-- The target of a direct transfer: PC + 12·offset (R281). -/
def State.rel (s : State) (off : Int) : Res Nat := target ((s.cf.pc : Int) + 12 * off)

/-- The guard field is 0b0000 (R372). -/
def Guard.always (g : Guard) : Bool := !g.neg && g.p == 0

/-- A transfer whose outcome is traced (R372): with a false guard it falls through and records 0. -/
def branching (s : State) (hd : Head) (body : State → Res State) : Out :=
  if s.run?.isSome && !s.guardHolds hd.g then .next (s.branchOutcome s.cur s.cctx false).advance
  else withGuardJump s hd body

/-- A taken direct transfer: traced when its guard makes it conditional. -/
def State.taken (s : State) (hd : Head) (t : Nat) : State :=
  (if Guard.always hd.g then s else s.branchOutcome s.cur s.cctx true).jump t

/-- An indirect transfer: an INDIR record (R372). -/
def State.indirect (s : State) (t : Nat) : State := (s.traceAfterBranch s.cur 4 s.cctx (t % 2 ^ 50)).jump t

/-- The address after this instruction, as a link (R281). -/
def State.link (s : State) : Word := BitVec.ofNat 64 (s.cf.pc + 12)

/-- BR (R281). -/
def execBr (hd : Head) (off : BitVec 36) (s : State) : Out :=
  branching s hd (fun s => do
    let t ← s.rel off.toInt
    .ok (s.taken hd t))

/-- JMP (R281). -/
def execJmp (hd : Head) (off : BitVec 54) (s : State) : Out :=
  branching s hd (fun s => do
    let t ← s.rel off.toInt
    .ok (s.taken hd t))

/-- JMPI (R281). -/
def execJmpi (hd : Head) (a : Opnd) (s : State) : Out :=
  withGuardJump s hd (fun s => do
    s.needOpnds [a]
    let t ← target ((← s.src64 a).toNat : Int)
    .ok (s.indirect t))

/-- CALL (R281): the link is written once the target is known to be legal. -/
def execCall (hd : Head) (d : Opnd) (off : BitVec 36) (s : State) : Out :=
  branching s hd (fun s => do
    let t ← s.rel off.toInt
    s.needOpnds [d]
    .ok ((s.setWord (State.wordNo d) s.link).taken hd t))

/-- CALLI (R281): the target is read before the link is written. -/
def execCalli (hd : Head) (d a : Opnd) (s : State) : Out :=
  withGuardJump s hd (fun s => do
    s.needOpnds [a]
    let t ← target ((← s.src64 a).toNat : Int)
    s.needOpnds [d]
    .ok ((s.setWord (State.wordNo d) s.link).indirect t))

/-- RET (R281). -/
def execRet (hd : Head) (a : Opnd) (s : State) : Out :=
  withGuardJump s hd (fun s => do
    s.needOpnds [a]
    let t ← target ((← s.src64 a).toNat : Int)
    .ok (s.indirect t))

/-- LOOP (R281): the counter falls by one, and the transfer is taken while it is not 0. -/
def execLoop (hd : Head) (a : Opnd) (off : BitVec 18) (s : State) : Out :=
  branching s hd (fun s => do
    s.needOpnds [a]
    let c := (← s.src64 a) - 1
    let t ← if c != 0 then s.rel off.toInt else s.rel 1
    .ok (((s.setWord (State.wordNo a) c).branchOutcome s.cur s.cctx (c != 0)).jump t))

/-- END (R282, R34): the core waits to retire. -/
def execEnd (hd : Head) (s : State) : Out :=
  withGuardJump s hd (fun s =>
    .ok ((s.setCore s.cur { s.core s.cur with ending := some 0 }).planNow (.retire s.cur)))

/-- Enter a region at the next instruction (R45): pw.REGION is set and C cleared. -/
def State.enterRegion (s : State) : State :=
  let w := s.rawWord s.cf 0
  let r := (s.cf.pc + 12) / 4
  let s := s.setRaw 0 (BitVec.ofNat 64 (r * 2 ^ 16 + w.toNat % 2 ^ 16))
  s.setCf { s.cf with c := false, vecUsed := false }

/-- A pre-emption request is served at a marker (R47): the firing later restarts at the new region. -/
def State.marker (s : State) : State :=
  match (s.core s.cur).preempt, s.run? with
  | some _, some f => s.preemptStop s.cur { f with executed := f.executed + 1 } .restart
  | _, _ => s

/-- A marker that will stop the firing waits for the loads under way (R279). -/
def markerWaits (s : State) : Bool := (s.core s.cur).preempt.isSome && (s.core s.cur).loads != 0

/-- REGION (R283, R45, R47). -/
def execRegion (hd : Head) (s : State) : Out :=
  notYet s hd markerWaits <| withGuardJump s hd (fun s => .ok s.enterRegion.advance.marker)

/-- brk halts the core (R284, R359). -/
def State.brkHalts (s : State) : Bool :=
  let d := (s.core s.cur).dctl
  d.getLsbD 0 && (d.extractLsb' 8 6).toNat == s.cctx

/-- BRK (R284): a halt before the next instruction, or a trap of class breakpoint. -/
def execBrk (hd : Head) (code : BitVec 8) (s : State) : Out :=
  withGuardJump s hd (fun s =>
    if s.brkHalts then
      let k := s.core s.cur
      .ok ((s.setCore s.cur { k with haltReq := some (k.haltReq.getD 8) }).advance)
    else .error ⟨Cls.brk, code.toNat, 0, 0, s.cf.pc + 12, 0⟩)

/-- NOP (R283). -/
def execNop (hd : Head) (s : State) : Out := withGuard s hd (fun s => .ok s)

end Sys2Proof.Machine
end

