-- ==== Sys2Proof/Machine/Tasks.lean ====
section
/-! DEFINITION. Work and messages, 0x90 to 0x99 (R285 to R296), the cassette inbox pool (R344, R345), and the device
steps that carry them out. -/

namespace Sys2Proof.Machine

/-! ## The inbox pool (R344, R345) -/

/-- Blocks a packet takes in the pool (R344). -/
def packetBlocks (p : Packet) : Nat := (16 + p.payload.length + 63) / 64

namespace State

/-- Blocks queue q of a cassette holds (R344). (DEDUCED, log 44) -/
def poolUsed (s : State) (k q : Nat) : Nat :=
  if q < 8 then
    (s.core (k * 8 + q)).held.foldl (fun n t => match s.msg? t with | some (.packet p) => n + packetBlocks p | _ => n) 0
  else ((s.cas k).queues.get (q - 8) []).length

/-- ctl.INBMIN of a queue. -/
def inbMin (s : State) (k q : Nat) : Nat := (s.cas k).inbmin.get q 32

/-- ctl.INBCAP of a queue. -/
def inbCap (s : State) (k q : Nat) : Nat := (s.cas k).inbcap.get q 512

/-- The pool's blocks beyond what other queues are owed (R345). -/
def poolSpare (s : State) (k : Nat) : Int :=
  let qs := List.range 13
  (1024 : Int) - qs.foldl (fun n q => n + s.poolUsed k q) 0 - qs.foldl (fun n q => n + (s.inbMin k q - s.poolUsed k q)) 0

/-- An entry of b blocks is admitted to each queue of a list together (R345). -/
def admits (s : State) (k b : Nat) (qs : List Nat) : Bool :=
  qs.all (fun q => decide (s.poolUsed k q + b ≤ s.inbCap k q))
    && decide (((b * qs.length : Nat) : Int) ≤ s.poolSpare k + (qs.foldl (fun n q => n + (s.inbMin k q - s.poolUsed k q)) 0 : Nat))

/-! ## Arguments and answers -/

/-- The eight argument words from a word on exist (R285, R410). -/
def needArgs (s : State) (d : Nat) : Res Unit := if d + 7 > s.wsn then .error (trapAt Cls.operand 0) else .ok ()

/-- The eight argument words from a word on (R285). -/
def argWords (s : State) (d : Nat) : Res (List Word) := (List.range 8).mapM (fun i => s.srcWord (d + i))

/-- SEND record of a core (R372). -/
def traceSend (s : State) (dest opc cls kind : Nat) : State :=
  s.traceCore s.cur 5 s.cctx (dest * 2 ^ 40 + opc * 2 ^ 28 + cls * 2 ^ 24 + kind * 2 ^ 20)

/-- The payload of a SEND record that its answer completes. -/
def sendMark (dest opc cls kind : Nat) : Option (Nat × Nat) := some (5, dest * 2 ^ 40 + opc * 2 ^ 28 + cls * 2 ^ 24 + kind * 2 ^ 20)

/-- The answer to a request of a tag is on its way from a core or slice to the core (R277). -/
def reply (s : State) (req src c : Nat) (refused : Bool) (ws : List (Nat × Word)) (mark : Option (Nat × Nat)) : State :=
  s.post (.answer req src c (some refused) ws mark) .p7Result

end State

/-- P7_RESULT (R277): the answer of the party that accepted or refused. -/
def execP7Result (tag : Nat) (s : State) : Out :=
  match s.msg? tag with
  | some (.answer _ _ c p7 ws mark) =>
    let s := (s.dropMsg tag).gotAnswer c
    let s := if p7 == some true then s.count c 0x0B 1 else s
    .next (s.onCore c (fun s =>
      let s := s.setWords ws
      let s := match p7 with | some b => s.setPred 7 b | none => s
      match mark with
      | some (ty, pay) => s.traceCore c ty s.cctx (pay + (p7 == some true).toNat)
      | none => s))
  | _ => .fault .noSuchStep

/-! ## post (R286) -/

/-- The guard a post names; an address that is not a scratchpad one raises a window violation (R286). -/
def postGuard (s : State) (k : PostGuard) (b : Opnd) : Res GuardRec :=
  match k with
  | .none => .ok .none
  | .sw => do
    let w := State.wordNo b
    let ea := (← s.srcWord w).toNat
    let g ← s.srcWord (w + 1)
    match syncLoc s ea .load with
    | .ok l => .ok (.sync l.1 l.2 (g.toNat % 2 ^ 32))
    | .error _ => .error (trapAt Cls.window ea)
  | .bar l => do
    let g ← s.src64 b
    .ok (.bar (barKey l s.cur) (g.toNat % 2 ^ 32))

/-- The guard's operand words (R410). -/
def postOperand (s : State) (k : PostGuard) (b : Opnd) : Res Unit :=
  match k with
  | .none => .ok ()
  | .sw => s.needPair (State.wordNo b)
  | .bar _ => s.needOpnds [b]

/-- The alignment of a guard's sync word (R252). -/
def guardAlign (s : State) (k : PostGuard) (b : Opnd) : Res Unit :=
  match k with
  | .sw => do needAlign (← s.srcWord (State.wordNo b)).toNat 16 true
  | _ => .ok ()

/-- The header a post names (R286, R425): its address, then its alignment, then its contents where they can be read. -/
def postHeader (s : State) (h : Nat) : Res Hdr := do
  let c := s.cur
  match ← s.whereAt c s.cctx h 1 .load with
  | .slice _ _ _ => .error (trapAt Cls.window h)
  | .phys _ =>
    if h % 256 != 0 then .error (trapAt Cls.task 0)
    else
      s.readable c h (← s.whereAt c s.cctx h 256 .load) 256 3
      let hd ← s.hdrOf c s.cctx h
      if !hd.2 || hd.1.hasInput then .error (trapAt Cls.task 0) else .ok hd.1

/-- post waits as its release does (R165, R286). (DEDUCED, log 34) -/
def postWaits (s : State) : Bool := s.relWaits s.cur .die

/-- POST (R286). -/
def execPost (k : PostGuard) (x : Task) (s : State) : Out :=
  notYet s x.hd postWaits <| withGuard s x.hd (fun s => do
    s.needOpnds [x.a]
    postOperand s k x.b
    s.needArgs (State.wordNo x.d)
    let h := (← s.src64 x.a).toNat
    let c := s.cur
    let priv := s.privHdr s.cctx h && !s.privileged s.cf
    if priv then .error (trapAt Cls.privilege 0)
    else
      let guard := postGuard s k x.b
      let args := s.argWords (State.wordNo x.d)
      let head := postHeader s h
      firstFault [guardAlign s k x.b, (s.whereAt c s.cctx h 1 .load).map (fun _ => ()), guard.map (fun _ => ()),
        head.map (fun _ => ()), args.map (fun _ => ())]
      let f := s.cf
      let r := s.childPath
      let hd ← head
      let n := { Firing.blank with
        ctx := f.ctx, hdr := h, head := hd, entry := hd.entry, args := ← args, src := .post, sender := c
        guard := ← guard, path := r.1 }
      let m := r.2.make { n with die := s.dispatchDie c n true (dieOf c) }
      .ok (((m.1.planNow (.firingInsert m.2.key)).commit).traceSend 0 0 0 5))

/-! ## spawn and fork (R287, R288) -/

/-- The child of a spawn or fork: the spawner's header with another ENTRY, BIND and footprints unused (R30). -/
def childFiring (f : Firing) (src : Source) (entry target : Nat) (args : List Word) (path : Word) : Firing :=
  { Firing.blank with
    ctx := f.ctx, hdr := f.hdr, head := { f.head with entry := entry, bound := false, fps := [] }, entry := entry
    args := args, src := src, sender := f.core, path := path, die := dieOf target }

/-- The core a fork of a deterministic context is placed on (R181, R412). A placement table that lies in a slice, as one at
address 0 does, raises the task fault too. (DESIGN CHOICE, log 95) -/
def placedCore (s : State) (path : Word) : Res Nat :=
  let q := s.ctx s.cctx
  if q.detn = 0 then .error (trapAt Cls.task 0)
  else
    let va := (q.dettab.toNat + 4 * (path.toNat % q.detn.toNat)) % 2 ^ 64
    match s.whereAt s.cur s.cctx va 4 .load with
    | .ok (.phys [g]) =>
      let t := s.num g.key 4
      if s.isBad g.key then .error { trapAt Cls.uncorr va with info := g.pa }
      else if s.isCore (pkgOf s.cur) t then .ok t else .error (trapAt Cls.task 0)
    | _ => .error (trapAt Cls.task 0)

/-- The operands spawn and fork share, with their checks (R287): arguments, target and entry, and the placement of a fork in a
deterministic context. -/
def spawnOperands (s : State) (x : Task) (place : Bool) : Res (List Word × Nat × Nat) := do
  s.needOpnds [x.a, x.b]
  s.needArgs (State.wordNo x.d)
  let bad := fun (r : Res Word) (p : Nat → Bool) => r.bind (fun v => if p v.toNat then .error (trapAt Cls.task 0) else .ok ())
  let a := s.src64 x.a
  let b := s.src64 x.b
  let args := s.argWords (State.wordNo x.d)
  firstFault [bad a (fun v => !s.isCore (pkgOf s.cur) (v % 2 ^ 24)), bad b (fun v => v % 4 != 0 || decide (v ≥ 2 ^ 50)),
    if place then (placedCore s s.childPath.1).map (fun _ => ()) else .ok (), args.map (fun _ => ())]
  .ok (← args, (← a).toNat % 2 ^ 24, (← b).toNat)

/-- A fork leaves its core (R60, R181, R288). -/
def forkGo (s : State) (args : List Word) (t b : Nat) : Res State := do
  let r := s.childPath
  let target ← if s.det s.cctx then placedCore s r.1 else .ok t
  let m := r.2.make (childFiring s.cf .fork b target args r.1)
  .ok (((m.1.post (.spawn s.cur target m.2.key) .forkArrival).commit).traceSend target 0 0 4)

/-- The release of a spawn or fork waits (R165, R167). (DEDUCED, log 34) -/
def spawnWaits (x : Task) (s : State) : Bool :=
  match s.src64 x.a with
  | .ok v => s.relWaits s.cur (if s.det s.cctx then .pod else spanScope s.cur (v.toNat % 2 ^ 24))
  | .error _ => false

/-- SPAWN (R287): of a DET firing of a deterministic context it is performed as fork (R174). -/
def execSpawn (x : Task) (s : State) : Out :=
  notYet s x.hd (spawnWaits x) <| withGuard s x.hd (fun s => do
    let (args, t, b) ← spawnOperands s x (s.det s.cctx && s.cf.head.det)
    if s.det s.cctx && s.cf.head.det then
      let s ← forkGo s args t b
      .ok (s.setPred 7 false)
    else
      let r := s.childPath
      let m := r.2.make (childFiring s.cf .spawn b t args r.1)
      .ok ((m.1.awaitAnswer s.cur).commit.post (.spawn s.cur t m.2.key) .spawnArrival))

/-- FORK (R288). -/
def execFork (x : Task) (s : State) : Out :=
  notYet s x.hd (spawnWaits x) <| withGuard s x.hd (fun s => do
    let (args, t, b) ← spawnOperands s x (s.det s.cctx)
    forkGo s args t b)

/-- A spawn or fork enters a core's spawn channel (R52, R62). -/
def State.enqueue (s : State) (t : Nat) (f : Firing) : State :=
  let r := s.newId (dieOf t)
  let s := r.2.setFir { f with
    id := r.1, stage := .spawnq, core := t, arrived := s.time
    spilled := decide ((s.core t).spawnq.length ≥ (s.die (dieOf t)).spawnq) }
  (s.setCore t { s.core t with spawnq := (s.core t).spawnq ++ [f.key] }).planNow (.nextFiring t)

/-- The target returns a spawn (R287, R361). -/
def State.refusesSpawn (s : State) (t x : Nat) : Bool :=
  let k := s.core t
  decide (k.spawnq.length ≥ (s.die (dieOf t)).spawnq) || k.spown.toNat != x || k.memberOf.isSome || !k.kept.isEmpty
    || (match k.run with | some f => f.tandem.isSome | none => false) || k.halted

/-- A spawn or fork that the same core sent to the same target before this one is still on its way: they arrive in the order
they were sent, so that the forks of one parent are queued in their order (R60, R181, R343). -/
def spawnBehind (s : State) (tag src t : Nat) : Bool :=
  s.msgs.any (fun m => decide (m.1 < tag) && (match m.2 with | .spawn a b _ => a == src && b == t | _ => false))

/-- A spawn or fork may be taken: after those before it, and after the writes it releases. -/
def spawnReady (s : State) (tag src t : Nat) : Bool :=
  !spawnBehind s tag src t && releaseReady s tag src (spanScope src t)

/-- SPAWN_ARRIVAL (R287): the spawn is accepted or returned. -/
def execSpawnArrival (tag : Nat) (s : State) : Out :=
  match s.msg? tag with
  | some (.spawn src t key) =>
    match s.fir? key with
    | none => .fault .noSuchStep
    | some f =>
      if !spawnReady s tag src t then .next (s.planNow (.spawnArrival tag))
      else
        let s := s.dropMsg tag
        if s.refusesSpawn t f.ctx then .next ((s.forget key).reply tag t src true [] (State.sendMark t 0 0 3))
        else .next ((s.enqueue t f).reply tag t src false [] (State.sendMark t 0 0 3))
  | _ => .fault .noSuchStep

/-- FORK_ARRIVAL (R288): queued without limit, or discarded with a record where the core has another owner. -/
def execForkArrival (tag : Nat) (s : State) : Out :=
  match s.msg? tag with
  | some (.spawn src t key) =>
    match s.fir? key with
    | none => .fault .noSuchStep
    | some f =>
      if !spawnReady s tag src t then .next (s.planNow (.forkArrival tag))
      else
        let s := s.dropMsg tag
        if (s.core t).spown.toNat != f.ctx then
          .next ((s.forget key).notice t src f.ctx Cls.task 0 t f.entry f.hdr)
        else .next (s.enqueue t f)
  | _ => .fault .noSuchStep

/-! ## send and reply (R289, R290) -/

/-- The payload of send: aligned, and wholly in the core's own slice (R289). -/
def sendPayload (s : State) (a n : Nat) : Res (List Byte) :=
  if n > 1024 || a % 8 != 0 || a + n > s.sliceSize s.cur then .error (trapAt Cls.task 0)
  else do
    s.readable s.cur a (.slice s.cur a false) n 3
    .ok (s.bytes (sliceKey s.cur a) n)

/-- A packet leaves its core (R289): late are the data faults of the words that name it, which come last (R397). -/
def sendGo (s : State) (d : Opnd) (route : Word) (n dest kind : Nat) (late : Res Unit) : Res State := do
  let cls := route.toNat / 2 ^ 24 % 16
  let opc := route.toNat / 2 ^ 28 % 4096
  let c := s.cur
  let priv := s.privileged s.cf
  if cls = 15 && !priv then .error (trapAt Cls.privilege 0)
  else if cls = 0 || opc ≥ 0xF00 || !s.isCore (pkgOf c) dest || n > 1024 then .error (trapAt Cls.task 0)
  else
    let a ← s.srcLate d
    let pay := sendPayload s a.1.toNat n
    firstFault [late, a.2, pay.map (fun _ => ())]
    let p : Packet := ⟨c, dest, s.cctx, cls, opc, s.time.extractLsb' 0 32, ← pay, kind = 1⟩
    .ok ((s.awaitAnswer c).commit.post (.packet p) .packetArrival)

/-- The release of a packet waits (R167, R289). (DEDUCED, log 34) -/
def sendWaits (s : State) : Bool := s.relWaits s.cur .pkg

/-- SEND (R289). -/
def execSend (x : Task) (s : State) : Out :=
  notYet s x.hd sendWaits <| withGuard s x.hd (fun s => do
    s.needOpnds [x.d, x.a, x.b]
    let r ← s.srcLate x.a
    let n ← s.srcLate x.b
    sendGo s x.d r.1 n.1.toNat (r.1.toNat % 2 ^ 24) 0 (firstFault [r.2, n.2]))

/-- The sender of the firing's first claimed slot on ic0 (R290). -/
def replyDest (s : State) : Res Nat :=
  let f := s.cf
  match f.claims.find? (fun q => q.input == 0) with
  | none => .error (trapAt Cls.task 0)
  | some q => do
    let k ← s.devKey s.cur f.ctx q.slot .load
    let t := (s.slotHdr k).sender
    if t = 0xFFFFFF then .error (trapAt Cls.task 0) else .ok t

/-- REPLY (R290). -/
def execReply (x : Task) (s : State) : Out :=
  notYet s x.hd sendWaits <| withGuard s x.hd (fun s => do
    s.needOpnds [x.d, x.a, x.b]
    let r ← s.srcLate x.a
    let n ← s.srcLate x.b
    if r.1.toNat / 2 ^ 24 % 16 = 15 && !s.privileged s.cf then .error (trapAt Cls.privilege 0)
    else
      let t ← replyDest s
      sendGo s x.d r.1 n.1.toNat t 1 (firstFault [r.2, n.2]))

/-- What a destination does with a packet by rules 1 and 3 to 5 of R289. -/
inductive Delivery where
  /-- Rule 1, rule 3 or the payload limit of rule 4. -/
  | bad
  /-- The channel is full. -/
  | full
  | ok (s : State)

/-- Rules 1 and 3 to 5 of R289. -/
def deliver (s : State) (p : Packet) : Delivery :=
  let k := s.core p.dest
  let va := (k.rctab.get p.cls 0).toNat
  if k.spown.toNat != p.ctx || va = 0 then .bad
  else match s.descAt p.dest p.ctx va with
    | .error _ => .bad
    | .ok d =>
      if !d.ok || d.ctx != k.spown.toNat || p.payload.length + 16 > 2 ^ d.sz then .bad
      else if d.full then .full
      else match s.devKey p.dest p.ctx (d.slot d.pidx.toNat) .load with
        | .error _ => .bad
        | .ok key =>
          let i := d.pidx
          let s := (s.setPidx d.key (i + 1)).writeHome (key + 16) p.payload
          let x := s.chan d.key
          let s := s.setChan d.key { x with dests := x.dests ++ [(i, p.dest)] }
          .ok (s.publish p.dest p.ctx d i
            (slotHeader p.payload.length p.opc p.cls p.time (d.mark i) p.src 0))

/-- The route word of a packet, bits 39:0 (R289, R400). -/
def routeWord (p : Packet) : Nat := p.opc * 2 ^ 28 + p.cls * 2 ^ 24 + p.dest

/-- The first held packet of each unmasked class, in arrival order. -/
def releasable (s : State) (c : Nat) : List (Nat × Packet) :=
  let k := s.core c
  let all := k.held.filterMap (fun t => match s.msg? t with | some (.packet p) => some (t, p) | _ => none)
  (all.filter (fun e => !k.mask.getLsbD e.2.cls)).foldl
    (fun l e => if l.any (fun q => q.2.cls == e.2.cls) then l else l ++ [e]) []

/-- One held packet of an unmasked class is taken, or discarded with a record; one that meets a full channel stays ahead of
its class (R289). -/
def releaseOne (s : State) (c : Nat) : Option State :=
  ((releasable s c).find? (fun e => match deliver s e.2 with | .full => false | _ => true)).map (fun e =>
    let k := s.core c
    let s := (s.setCore c { k with held := k.held.erase e.1 }).dropMsg e.1
    match deliver s e.2 with
    | .ok s => s
    | _ => s.notice c e.2.src e.2.ctx Cls.task 0 (routeWord e.2) 0 0)

/-- The held packets of unmasked classes that can be taken; fuel bounds their count. -/
def releaseAll (s : State) (c : Nat) : Nat → State
  | 0 => s
  | n + 1 => match releaseOne s c with
    | some s => releaseAll s c n
    | none => s

/-- MASKED_PACKET_RELEASE (R289). -/
def execMaskedPacketRelease (c : Nat) (s : State) : Out :=
  match releaseOne s c with
  | some s => .next (s.planNow (.maskedPacketRelease c))
  | none => .next (if (releasable s c).isEmpty then s else s.plan (s.time.toNat + 16) (.maskedPacketRelease c))

/-- PACKET_ARRIVAL (R289): the destination's cassette takes, holds or refuses a packet. Packets of its class that were held
and can now be taken come before it. -/
def execPacketArrival (tag : Nat) (s : State) : Out :=
  match s.msg? tag with
  | some (.packet p) =>
    if !releaseReady s tag p.src (spanScope p.src p.dest) then .next (s.planNow (.packetArrival tag))
    else
      let k := s.core p.dest
      let mark := State.sendMark p.dest p.opc p.cls (if p.answered then 1 else 0)
      if k.spown.toNat != p.ctx then .next ((s.dropMsg tag).reply tag p.dest p.src true [] mark)
      else if k.mask.getLsbD p.cls then
        if s.admits (casOf p.dest) (packetBlocks p) [p.dest % 8] then
          .next ((s.setCore p.dest { k with held := k.held ++ [tag] }).reply tag p.dest p.src false [] mark)
        else .next ((s.dropMsg tag).reply tag p.dest p.src true [] mark)
      else
        let s := releaseAll (s.dropMsg tag) p.dest k.held.length
        match deliver s p with
        | .ok s => .next (s.reply tag p.dest p.src false [] mark)
        | _ => .next (s.reply tag p.dest p.src true [] mark)
  | _ => .fault .noSuchStep

/-! ## Channels (R291 to R294) -/

/-- The output an operand names, with its entry (R24, R291). -/
def outEntry (s : State) (o : Opnd) : Nat × ChanEnt :=
  match o with
  | .oc k => (k.toNat, s.cf.head.outs.getD k.toNat ⟨0, 0⟩)
  | _ => (0, ⟨0, 0⟩)

/-- The descriptor of an output, with the checks of privilege, context and contents (R278, R291, R425). -/
def outDesc (s : State) (e : ChanEnt) : Res Desc := do
  let d ← s.descAt s.cur s.cctx e.chan
  if s.privHdr s.cctx d.cons && !s.privileged s.cf then .error (trapAt Cls.privilege 0)
  else if d.ctx != s.cctx || !d.ok then .error (trapAt Cls.task 0)
  else .ok d

/-- CHRES (R291): a request to the descriptor's home. -/
def execChres (x : Task) (s : State) : Out :=
  withGuard s x.hd (fun s => do
    s.needPair (State.wordNo x.a)
    let (k, e) := outEntry s x.d
    if e.count = 0 then .error (trapAt Cls.task 0)
    else
      let _ ← outDesc s e
      if (s.cf.resv.filter (fun r => r.out == k)).length ≥ e.count then .error (trapAt Cls.task 0)
      else .ok ((s.awaitAnswer s.cur).commit.post (.chres s.cur k e.chan (State.wordNo x.a)) .channelReserve))

/-- CHANNEL_RESERVE (R291): one atomic step at the descriptor's home. -/
def execChannelReserve (tag : Nat) (s : State) : Out :=
  match s.msg? tag with
  | some (.chres c k va dword) =>
    let s := s.dropMsg tag
    match (s.core c).run with
    | none => .fault .noFiring
    | some f =>
      match s.descAt c f.ctx va with
      | .error _ => .next (s.reply tag c c true [] none)
      | .ok d =>
        if d.full then .next (s.reply tag (s.home d.key) c true [] none)
        else
          let i := d.pidx
          let s := s.setPidx d.key (i + 1)
          let s := s.setCore c { s.core c with run := some { f with resv := f.resv ++ [⟨k, va, i.toNat, false⟩] } }
          .next (s.reply tag (s.home d.key) c false [(dword, BitVec.ofNat 64 (d.slot i.toNat)), (dword + 1, i.zeroExtend 64)] none)
  | _ => .fault .noSuchStep

/-- chpub waits for the earlier writes to the bytes of its header: those of its cassette, and the core's atomics (R157, R158,
R169). -/
def chpubWaits (x : Task) (s : State) : Bool :=
  match outDesc s (outEntry s x.d).2 with
  | .error _ => false
  | .ok d => match s.devKey s.cur s.cctx (d.slot (s.word (State.wordNo x.a + 1)).toNat) .load with
    | .error _ => false
    | .ok k => !writeReady s s.nextTag s.cur k 16 none

/-- CHPUB (R292): the header is written at once, with the core's store-issue count as STAMP (R39). -/
def execChpub (x : Task) (s : State) : Out :=
  notYet s x.hd (chpubWaits x) <| withGuard s x.hd (fun s => do
    let w := State.wordNo x.a
    s.needPair w
    s.needOpnds [x.b]
    let (k, e) := outEntry s x.d
    if e.count = 0 then .error (trapAt Cls.task 0)
    else
      let d ← outDesc s e
      let wa := s.word w
      let i := BitVec.ofNat 32 (s.word (w + 1)).toNat
      let late ← s.srcLate x.b
      let b := late.1.toNat
      let len := b % 2 ^ 16
      let opc := b / 2 ^ 16 % 4096
      let mine := fun (r : Resv) => r.out == k && r.idx == i.toNat && !r.done
      if wa.toNat != d.slot i.toNat || !s.cf.resv.any mine || len + 16 > 2 ^ d.sz || opc ≥ 0xF00 then
        .error (trapAt Cls.task 0)
      else
        late.2
        s.needRead w 2
        let f := s.cf
        let s := s.setCf { f with resv := f.resv.map (fun r => if mine r then { r with done := true } else r) }
        let s := s.publishOwn s.cur s.cctx d i
          (slotHeader len opc 0 (s.time.extractLsb' 0 32) (d.mark i) s.cur (s.core s.cur).issued)
        .ok (s.commit.traceSend 0 opc 0 2))

/-- CLMASK (R294). -/
def execClmask (unmask : Bool) (x : Task) (s : State) : Out :=
  withGuard s x.hd (fun s => do
    s.needOpnds [x.d, x.a]
    let a := (← s.src64 x.a).extractLsb' 0 16
    let sel : BitVec 16 := a &&& (if s.privileged s.cf then 0xFFFE#16 else 0x7FFE#16)
    let k := s.core s.cur
    let s := s.setCore s.cur { k with mask := if unmask then k.mask &&& ~~~sel else k.mask ||| sel }
    let s := if unmask && !k.held.isEmpty then s.planNow (.maskedPacketRelease s.cur) else s
    .ok (s.setWord (State.wordNo x.d) (k.mask.zeroExtend 64)))

/-! ## compose and decomp (R121, R131, R295, R296) -/

/-- compose waits until every load has returned (R295). -/
def composeWaits (s : State) : Bool := (s.core s.cur).loads != 0

/-- COMPOSE (R295): the composing firing ends and posts the tandem firing. -/
def execCompose (logn : BitVec 3) (x : Task) (s : State) : Out :=
  notYet s x.hd composeWaits <| withGuardJump s x.hd (fun s => do
    s.needOpnds [x.a, x.b]
    let aw ← s.srcLate x.a
    let bw ← s.srcLate x.b
    let a := aw.1.toNat
    let b := bw.1.toNat
    let lo := b % 256
    let hi := b / 256 % 256
    let f := s.cf
    let c := s.cur
    if f.tandem.isSome || a % 4 != 0 || a ≥ 2 ^ 50
        || (lo != 0 && !decide (9 ≤ lo ∧ lo ≤ hi ∧ hi ≤ s.wsn)) then .error (trapAt Cls.task 0)
    else
      aw.2
      bw.2
      let f := { f with executed := f.executed + 1, c := true, k := true, last := (s.core c).issued }
      let s := ((s.traceEnd c f 1).accountRun f).voidAll f
      let k := s.core c
      let s := s.setCore c { k with run := none, preempt := none }
      let s := { s with agenda := s.agenda.filter (fun e => e.2 != Instr.preemptWindowExpiry c) }
      let n := { Firing.blank with
        ctx := f.ctx, hdr := f.hdr, head := { f.head with entry := a }, entry := a, args := f.args, src := .compose
        sender := f.sender, path := f.path, die := dieOf c, elem := f.elem, set := f.set, got := f.got, granted := f.granted
        guard := f.guard, core := c, wp := f.wp, placed := true, claims := f.claims, width := 2 ^ logn.toNat
        live := (lo, hi) }
      let m := s.make n
      let s := ((m.1.planNow (.firingInsert m.2.key)).reserveSet m.2).planNow (.nextFiring c)
      .ok (if k.step == .instr then s.haltNow c 9 else s))

/-- DECOMP (R131, R296): every word returns to the leader's workspace, the other members are free, and the firing
goes on in a new region (R46). -/
def execDecomp (hd : Head) (s : State) : Out :=
  notYet s hd markerWaits <| withGuardJump s hd (fun s =>
    let f := s.cf
    if f.tandem.isNone then .error (trapAt Cls.task 0)
    else
      let g := (s.leaveStores s.cur).gather f
      let s := g.1.setCf { g.2 with width := 0, groups := 1 }
      .ok s.commit.enterRegion.advance.marker)

end Sys2Proof.Machine
end

