-- ==== Sys2Proof/Machine/Engines.lean ====
section
/-! DEFINITION. Engine commands, 0xB0 to 0xB6 (R300 to R312, R423), the matrix and copy queues that perform them (R104,
R105, R147, R148, R164), and their holds and saves (R440 to R442). -/

namespace Sys2Proof.Machine

/-! ## Commands -/

namespace EngCmd
/-- Word i of the message (R303). -/
def w (c : EngCmd) (i : Nat) : Nat := (c.words.getD i 0).toNat
/-- EOP. -/
def eop (c : EngCmd) : Nat := c.w 0 / 2 ^ 24 % 256
/-- FLG. -/
def flg (c : EngCmd) : Nat := c.w 0 / 2 ^ 16 % 256
/-- TY. -/
def ty (c : EngCmd) : Ty := tyOf (BitVec.ofNat 4 (c.w 0 / 2 ^ 12))
/-- SYNC. -/
def sync (c : EngCmd) : Nat := c.w 2
/-- Image word i, from 1 on. -/
def img (c : EngCmd) (i : Nat) : Nat := c.w (i + 2)
/-- CRC of a copy. -/
def hasCrc (c : EngCmd) : Bool := c.flg % 2 = 1
/-- REC of a copy. -/
def hasRec (c : EngCmd) : Bool := c.flg / 2 % 2 = 1
end EngCmd

/-- The contracted length of a format (R305). -/
def tileK (t : Ty) : Nat := match t with | .bf16 | .f16 => 64 | .e2m1 => 256 | _ => 128

/-- Queues a qfence mask names (R211). -/
def maskQueues (m : Nat) : List Nat := (List.range 5).filter (fun q => m / 2 ^ q % 2 = 1)

/-- The geometry of a copy (R308, R309): source, destination, record address, row length, rows, and both pitches. -/
structure Copy where
  src : Nat
  dst : Nat
  recAddr : Nat
  rowLen : Nat
  rows : Nat
  sp : Int
  dp : Int
deriving DecidableEq, Repr

/-- Bytes of a copy. -/
def Copy.total (g : Copy) : Nat := g.rowLen * g.rows

/-- A copy of image words 1 to 5. -/
def copyOf (eop : Nat) (img : Nat → Nat) : Copy :=
  if eop = 0xB3 then ⟨img 1, img 2, img 4, img 3, 1, 0, 0⟩
  else ⟨img 1, img 2, img 3, img 4 % 2 ^ 32, img 4 / 2 ^ 32 % 2 ^ 16, signedOf 32 (img 5), signedOf 32 (img 5 / 2 ^ 32)⟩

/-- A byte address displaced by rows. -/
def rowAddr (base : Nat) (pitch : Int) (r w : Nat) : Nat := (((base : Int) + pitch * r + w) % 2 ^ 64).toNat

/-! ## Issue (R300 to R304, R311) -/

/-- FN, TY and QUE a command allows (R300, R311, R423). -/
def cmdLegal (eop flg ty que : Nat) : Bool :=
  let t := tyOf (BitVec.ofNat 4 ty)
  match eop with
  | 0xB0 => flg == 0 && t.isEngine && que == 0
  | 0xB1 => flg == 0 && ty == 0 && que == 0
  | 0xB2 => decide (flg < 4) && t.isEngine && (decide (flg < 2) || t == .bf16 || t == .f16) && que == 0
  | 0xB3 | 0xB4 => (flg == 0 || flg == 2 || flg == 3) && ty == 0 && decide (1 ≤ que ∧ que ≤ 4)
  | 0xB5 => decide (1 ≤ flg ∧ flg ≤ 31) && ty == 0 && que == 0
  | _ => false

/-- The queues a command enters. -/
def cmdQueues (eop flg que : Nat) : List Nat := if eop = 0xB5 then maskQueues flg else [que]

/-- An engine command fault. -/
def engBad : Trap := trapAt Cls.engcmd 0

namespace State

/-- A grant table entry (R302): as the cassette caches it, or as stored. -/
def grantOf (s : State) (c x idx : Nat) : Word :=
  match (s.cas (casOf c)).grants.find? (fun e => e.1 == x && e.2.1 == idx) with
  | some e => e.2.2
  | none =>
    let pa := (s.ctx x).captab.toNat + 8 * idx
    if s.goodPa (pkgOf c) pa && !s.isBad (physKey (pkgOf c) pa) then BitVec.ofNat 64 (s.num (physKey (pkgOf c) pa) 8) else 0

/-- The capability check (R302, R425). -/
def grants (s : State) (c x cap t : Nat) (qs : List Nat) : Bool :=
  let e := (s.grantOf c x (cap % 256)).toNat
  let ext := e / 2 ^ 24 % 2 ^ 24
  decide (cap % 256 < (s.ctx x).capcnt.toNat) && e / 2 ^ 63 == 1 && cap / 256 % 256 == 0 && e % 65536 == cap / 65536
    && e / 2 ^ 48 % 128 == 0 && e / 2 ^ 16 % 256 == 0
    && (match e / 2 ^ 60 % 8 with
        | 1 => casOf t == casOf ext
        | 2 => dieOf t == dieOf ext
        | 3 => pkgOf t == pkgOf ext
        | 4 => true
        | _ => false)
    && qs.all (fun q => e / 2 ^ (55 + q) % 2 == 1)

/-- The cassette caches a grant entry, 16 at most (R302). (DESIGN CHOICE, log 63) -/
def noteGrant (s : State) (c x idx : Nat) : State :=
  let k := s.cas (casOf c)
  if k.grants.any (fun e => e.1 == x && e.2.1 == idx) then s
  else s.setCas (casOf c) { k with
    grants := (if k.grants.length ≥ 16 then k.grants.drop 1 else k.grants) ++ [(x, idx, s.grantOf c x idx)] }

/-- An address is a scratchpad address (R251, R304). -/
def isPad (va : Nat) : Bool := decide (va < 0x80000) || va / 2 ^ 55 % 2 == 1

/-- A scratchpad address of n bytes with the checks of R251: its slice and offset. -/
def pad (s : State) (va n : Nat) : Res (Nat × Nat) := do
  match ← s.whereAt s.cur s.cctx va n .load with
  | .slice c off _ => .ok (c, off)
  | .phys _ => .error engBad

/-- A matrix operand (R305, R307): aligned, within one slice of the target cassette. (DEDUCED, log 42) -/
def tilePad (s : State) (k va n al : Nat) : Res Unit := do
  if !isPad va && va / 2 ^ 56 = 0 then .error engBad
  else
    let l ← s.pad va 1
    if va % al != 0 || casOf l.1 != k || l.2 + n > s.sliceSize l.1 then .error engBad else .ok ()

/-- An address word has bits 63:56 clear (R86). (DEDUCED, log 42) -/
def canon (va : Nat) : Res Unit := if va / 2 ^ 56 = 0 then .ok () else .error (trapAt Cls.noncanon va)

/-- A range a copy reads or writes, from its first to its last row: scratchpad ranges lie in one slice, the source's in
the issuing core's own (R87, R308). -/
def copyPad (s : State) (own : Bool) (base : Nat) (pitch : Int) (g : Copy) : Res Unit := do
  canon base
  if !isPad base then .ok ()
  else
    let l ← s.pad base 1
    if own && l.1 != s.cur then .error (trapAt Cls.window base)
    else if g.total = 0 then .ok ()
    else
      let span := pitch * ((g.rows : Int) - 1)
      let lo := min 0 span
      let va := (((base : Int) + lo) % 2 ^ 64).toNat
      (s.pad va ((max 0 span - lo).toNat + g.rowLen)).map (fun _ => ())

/-- SYNC (R304): 0, or an aligned scratchpad address, in a deterministic context of the own slice. -/
def syncPad (s : State) (va : Nat) : Res Unit := do
  if va = 0 then .ok ()
  else
    canon va
    if !isPad va then .error engBad
    else
      let l ← s.pad va 16
      if s.det s.cctx && l.1 != s.cur then .error (trapAt Cls.capability va)
      else if va % 16 != 0 then .error engBad
      else .ok ()

/-- An operand that may be translated: canonical, a scratchpad address in bounds, and aligned. -/
def anyPad (s : State) (va n al : Nat) : Res Unit := do
  canon va
  if isPad va then (s.pad va n).map (fun _ => ()) else .ok ()
  if va % al != 0 then .error engBad else .ok ()

/-- Every address of a command with its limits, operand by operand and SYNC last (R304 to R309): k is the target cassette.
(DEDUCED, log 42; DEDUCED, log 45) -/
def cmdChecks (s : State) (eop flg k : Nat) (t : Ty) (img : Nat → Nat) : List (Res Unit) :=
  let within := fun (b : Bool) => if b then Except.ok () else .error engBad
  (match eop with
  | 0xB0 => s.tilePad k (img 1) 8192 64 :: (if t == .e2m1 then [s.tilePad k (img 2) 2048 64] else [])
  | 0xB2 =>
    let m := img 5 % 8192
    within (1 ≤ m ∧ m ≤ 4096) :: s.tilePad k (img 1) (m * tileK t * t.width / 8) 64
      :: ((if t == .e2m1 then [s.tilePad k (img 2) (m * 32) 64, s.anyPad (img 3) (2 * ((m + 63) / 64)) 2] else [])
        ++ [s.tilePad k (img 4) (256 * m) 256])
  | 0xB3 | 0xB4 =>
    let g := copyOf eop img
    [within (g.total ≤ 0xFFFFFFFF), s.copyPad true g.src g.sp g, s.copyPad false g.dst g.dp g]
      ++ (if flg / 2 % 2 = 1 then [s.anyPad g.recAddr 16 16] else [])
  | _ => []) ++ [s.syncPad (img 0)]

/-- The address fault a check raises: none where it raises a failed limit. -/
def addrFault (r : Res Unit) : Option Trap :=
  match r with
  | .error t => if t.cls == Cls.engcmd then none else some t
  | .ok _ => none

/-- The fault of a command's addresses and limits (R304, R397): the address faults of every operand come before every failed
limit. (DESIGN CHOICE, log 41; DEDUCED, log 42; DEDUCED, log 45) -/
def cmdLimits (s : State) (eop flg k : Nat) (t : Ty) (img : Nat → Nat) : Res Unit :=
  let cs := s.cmdChecks eop flg k t img
  let limit := fun (r : Res Unit) => match r with | .error t => t.cls == Cls.engcmd | .ok _ => false
  (cs.filter (fun r => !limit r) ++ cs.filter limit).forM id

/-- Image words that are addresses (R303, R305 to R309). -/
def addrWords (eop flg : Nat) (t : Ty) : List Nat :=
  match eop with
  | 0xB0 => if t == .e2m1 then [1, 2] else [1]
  | 0xB2 => if t == .e2m1 then [1, 2, 3, 4] else [1, 4]
  | 0xB3 => if flg / 2 % 2 = 1 then [1, 2, 4] else [1, 2]
  | 0xB4 => if flg / 2 % 2 = 1 then [1, 2, 3] else [1, 2]
  | _ => []

/-- An alias address in the global-window form of the issuing core (R303). -/
def toWindow (c va : Nat) : Nat := if va < 0x80000 then 2 ^ 55 + c * 2 ^ 31 + va else va

/-- The cassette a target word names (R301): bits 63:26 and the low three bits of CORE are ignored. -/
def cmdTarget (a : Nat) : Nat := a % 2 ^ 24 / 8 * 8

/-- QUE of a copy command: its target word's CQ plus 1 (R301, R303). -/
def cmdCopyQueue (a : Nat) : Nat := a / 2 ^ 24 % 4 + 1

/-- Word 0 bits 31:0 of a command's message but for its CTX: EOP, FLG, TY and QUE (R303). -/
def cmdLow (eop flg ty que : Nat) : Nat := eop * 2 ^ 24 + flg * 2 ^ 16 + ty * 2 ^ 12 + que * 2 ^ 9

/-- The message of a command, in eight words (R303): CAP, EOP, FLG, TY, QUE and CTX; TIME and SENDER; SYNC; and OPND0 to OPND4,
each scratchpad address in the global-window form of the issuing core. Bits 8:6 of the word 0 of an image of engq are kept as they
are. (DESIGN CHOICE, log 94) -/
def cmdMessage (s : State) (eop flg : Nat) (fmt : Ty) (low cap : Nat) (img : Nat → Nat) : List Word :=
  let c := s.cur
  let addrs := addrWords eop flg fmt
  let sync := if img 0 = 0 then 0 else toWindow c (img 0)
  let opnds := (List.range 5).map (fun i => if addrs.contains (i + 1) then toWindow c (img (i + 1)) else img (i + 1))
  ((cap * 2 ^ 32 + low / 64 * 64 + s.cctx) :: ((s.time.toNat % 2 ^ 32) * 2 ^ 32 + c) :: sync :: opnds).map (BitVec.ofNat 64)

/-- The fault of a command that its capability does not allow. Where its addresses fault as well, R304 has the capability
checked first and R397 raises address faults first: which the part does is open. (DESIGN CHOICE, log 41) -/
def noCap {α : Type} (s : State) (eop flg k : Nat) (t : Ty) (img : Nat → Nat) : Res α :=
  match (s.cmdChecks eop flg k t img).findSome? addrFault with
  | some u => .error (if Config.addressFirst then u else trapAt Cls.engcap 0)
  | none => .error (trapAt Cls.engcap 0)

/-- A checked command leaves the core (R303, R304), for a cassette that is there (R301): low is word 0 bits 31:0, and late the data faults of the words it reads,
which come last (R397). (DESIGN CHOICE, log 41; DESIGN CHOICE, log 94) -/
def sendCmd (s : State) (eop flg ty que low : Nat) (tw : Nat) (cap : Nat) (img : Nat → Nat) (late : Res Unit) : Res State := do
  let c := s.cur
  let x := s.cctx
  let t := cmdTarget tw
  let qs := cmdQueues eop flg que
  let fmt := tyOf (BitVec.ofNat 4 ty)
  if !s.grants c x cap t qs then s.noCap eop flg (casOf t) fmt img
  else
    s.cmdLimits eop flg (casOf t) fmt img
    if !s.isCore (pkgOf c) t then .error engBad else .ok ()
    late
    let cmd : EngCmd := ⟨s.nextTag, c, x, casOf t, que, s.cmdMessage eop flg fmt low cap img, 0, 0, false, [], false⟩
    let s := s.noteGrant c x (cap % 256)
    let act := x * 2 ^ 56 + s.cf.hdr
    let s := if eop != 0xB2 then s else
      let s := { s with dies := s.dies.map (fun (e : Nat × Die) => (e.1, { e.2 with mxActors := e.2.mxActors.filter (· != act) })) }
      s.setDie (dieOf c) { s.die (dieOf c) with mxActors := act :: (s.die (dieOf c)).mxActors }
    .ok ((s.awaitAnswer c).commit.post (.eng cmd (if eop = 0xB5 then flg else 2 ^ que)) .engineCommandArrival)

/-- An engine command waits as its release does (R167, R171). (DEDUCED, log 34) -/
def engWaits (x : Task) (s : State) : Bool :=
  match s.src64 x.a with
  | .ok v => s.relWaits s.cur (spanScope s.cur (v.toNat % 2 ^ 24))
  | .error _ => false

/-- A command from an image of n workspace words (R300). -/
def engineCommand (x : Task) (eop flg : Nat) (ty : BitVec 4) (n : Nat) (copy : Bool) (s : State) : Out :=
  notYet s x.hd (engWaits x) <| withGuard s x.hd (fun s => do
    let d := wordNo x.d
    s.needWord (d + n - 1)
    s.needOpnds [x.a, x.b]
    let a ← s.srcLate x.a
    let b ← s.srcLate x.b
    let que := if copy then cmdCopyQueue a.1.toNat else 0
    s.sendCmd eop flg ty.toNat que (cmdLow eop flg ty.toNat que) a.1.toNat (b.1.toNat % 2 ^ 32) (fun i => if i < n then (s.word (d + i)).toNat else 0)
      (firstFault [a.2, b.2, s.needRead d n]))

end State

/-- MXLD (R305). -/
def execMxld (ty : Ty) (x : Task) (s : State) : Out := s.engineCommand x 0xB0 0 (tyCode ty) 4 false

/-- MXFLIP (R306). -/
def execMxflip (x : Task) (s : State) : Out := s.engineCommand x 0xB1 0 0 1 false

/-- MXRUN (R307). -/
def execMxrun (acc tr : Bool) (ty : Ty) (x : Task) (s : State) : Out :=
  s.engineCommand x 0xB2 (acc.toNat + 2 * tr.toNat) (tyCode ty) 6 false

/-- CPY (R308). -/
def execCpy (crc rec : Bool) (x : Task) (s : State) : Out := s.engineCommand x 0xB3 (crc.toNat + 2 * rec.toNat) 0 5 true

/-- CPYF (R309). -/
def execCpyf (crc rec : Bool) (x : Task) (s : State) : Out := s.engineCommand x 0xB4 (crc.toNat + 2 * rec.toNat) 0 6 true

/-- QFENCE (R310). -/
def execQfence (mask : BitVec 5) (x : Task) (s : State) : Out := s.engineCommand x 0xB5 mask.toNat 0 1 false

/-- ENGQ (R311): the image is read from the issuing core's slice and treated as the command it names. -/
def execEngq (x : Task) (s : State) : Out :=
  notYet s x.hd (State.engWaits x) <| withGuard s x.hd (fun s => do
    s.needOpnds [x.d, x.a, x.b]
    let d ← s.srcLate x.d
    let a ← s.srcLate x.a
    let b ← s.srcLate x.b
    let va := d.1.toNat
    if va % 64 != 0 || va + 64 > s.sliceSize s.cur then .error engBad
    else
      let w := fun i => s.num (sliceKey s.cur (va + 8 * i)) 8
      let eop := w 0 / 2 ^ 24 % 256
      let flg := w 0 / 2 ^ 16 % 256
      let ty := w 0 / 2 ^ 12 % 16
      let que := w 0 / 2 ^ 9 % 8
      if !cmdLegal eop flg ty que || (ty == 14 && !s.feature (pkgOf s.cur) 2) then .error engBad
      else
        s.sendCmd eop flg ty que (w 0 % 2 ^ 32) a.1.toNat (b.1.toNat % 2 ^ 32) (fun i => w (i + 2))
          (firstFault [a.2, b.2, d.2, s.readable s.cur va (.slice s.cur va false) 64 3]))

/-! ## Queues (R164, R304, R345) -/

namespace State

/-- The commands of a queue of a cassette, oldest first. -/
def queue (s : State) (k q : Nat) : List EngCmd := (s.cas k).queues.get q []

/-- Replace a queue. -/
def setQueue (s : State) (k q : Nat) (l : List EngCmd) : State :=
  s.setCas k { s.cas k with queues := (s.cas k).queues.set q l }

/-- The command a queue performs: none in a package that does not run, whose engines are stopped (R452). -/
def headCmd (s : State) (k q : Nat) : Option EngCmd :=
  if (s.pkg (k / 4096)).st == 0x03 then (s.queue k q).head? else none

/-- Replace the command a queue performs. -/
def setHead (s : State) (k q : Nat) (c : EngCmd) : State := s.setQueue k q (c :: (s.queue k q).drop 1)

/-- A qfence that stands at the head of every queue of its mask it has not left (R310). -/
def readyFence (s : State) (k : Nat) : Option EngCmd :=
  ((List.range 5).filterMap (fun q => s.headCmd k q)).find? (fun c =>
    c.eop == 0xB5 && (List.range 5).all (fun q => !((s.queue k q).drop 1).any (fun e => e.id == c.id))
      && !(s.die (k / 256)).savedCmds.any (fun e => e.id == c.id))

/-- An mxld that stands behind mxruns only, whose results its tile does not overlap, is performed while they stream (R305): its
place in the queue. -/
def earlyLoad (s : State) (k : Nat) : Option (Nat × EngCmd) :=
  if (s.pkg (k / 4096)).st != 0x03 || (s.queue k 0).any (·.held) then none
  else
    let runs := (s.queue k 0).takeWhile (fun c => c.eop == 0xB2)
    match (s.queue k 0)[runs.length]? with
    | none => none
    | some c =>
      let meets := fun (r : EngCmd) => overlaps (c.img 1) 8192 (r.img 4) (256 * (r.img 5 % 8192))
        || (c.ty == .e2m1 && overlaps (c.img 2) 2048 (r.img 4) (256 * (r.img 5 % 8192)))
      if c.eop == 0xB0 && !runs.any meets then some (runs.length, c) else none

/-- The step planned for a queue. -/
def isQueueStep (k q : Nat) (i : Instr) : Bool :=
  match i with
  | .mxldPerform k' | .mxflipPerform k' | .mxrunPiece k' => k' == k && q == 0
  | .copySector k' q' | .completionRecord k' q' | .engineRewalk k' q' => k' == k && q' == q
  | .qfenceComplete k' => k' == k
  | _ => false

/-- The next step of a queue's first command, in place of any planned for the queue. -/
def kick (s : State) (k q : Nat) : State :=
  let s := { s with agenda := s.agenda.filter (fun e => !isQueueStep k q e.2) }
  let s := match s.headCmd k q with
    | none => s
    | some c =>
      if c.held then s.plan (s.time.toNat + 65536) (.engineRewalk k q)
      else match c.eop with
        | 0xB0 => s.planNow (.mxldPerform k)
        | 0xB1 => s.planNow (.mxflipPerform k)
        | 0xB2 => s.planNow (.mxrunPiece k)
        | 0xB5 => s
        | _ => if c.prog ≥ (copyOf c.eop c.img).total then s.planNow (.completionRecord k q) else s.planNow (.copySector k q)
  let s := if q = 0 && (s.earlyLoad k).any (fun e => e.1 != 0) then s.planNow (.mxldPerform k) else s
  if (s.readyFence k).isSome then s.planNow (.qfenceComplete k) else s

/-- ENGDONE (R372). -/
def traceDone (s : State) (k : Nat) (c : EngCmd) : State :=
  s.traceDev (k / 256) 8 c.ctx c.core (c.eop * 2 ^ 56 + c.queue * 2 ^ 53 + c.w 1 / 2 ^ 32)

/-- Arrivals or bytes for the sync word of a command (R101, R102). -/
def tell (s : State) (c : EngCmd) (arr bytes : Nat) : State :=
  if c.sync = 0 then s
  else s.post (.sync (c.cas * 8) (c.sync / 2 ^ 31 % 2 ^ 24) (c.sync % 2 ^ 19) arr bytes none) .syncWordUpdate

/-- A command of a queue is done: the one at a place. -/
def doneCmd (s : State) (k q i : Nat) (c : EngCmd) : State :=
  ((s.setQueue k q ((s.queue k q).eraseIdx i)).traceDone k c).kick k q

/-- The first command of a queue is done. -/
def popCmd (s : State) (k q : Nat) (c : EngCmd) : State := s.doneCmd k q 0 c

/-- ENGINE_OPERATION_FAULT (R440): the command is held in its queue, one record is written, and the engine tries again
every 65,536 ck. (DEDUCED, log 44) -/
def holdCmd (s : State) (k q : Nat) (c : EngCmd) (addr : Nat) : State :=
  ((s.notice (k * 8) c.core c.ctx Cls.engop addr (c.w 0) 0 0).setHead k q { c with held := true }).kick k q

/-! ## Operands (R87, R98, R440) -/

/-- The pages of n bytes an engine of a cassette reaches at a translated address, under the command's context and sender; a
row that a pitch carries out of translated addresses fails as a window violation (R85, R86). (DEDUCED, log 42) -/
def engSegs (s : State) (k : Nat) (c : EngCmd) (va n : Nat) (need : Need) : Res (List Seg) :=
  if va < 0x80000 || va + n > 2 ^ 55 then .error (trapAt Cls.window va)
  else do
    let g ← s.segs (k * 8) c.ctx va n need (n / 2 ^ 19 + 2)
    g.forM (fun p => s.capSpan c.core c.ctx p.va p.va p.len need)
    .ok g

/-- The keys of n bytes of an operand that begins at a base: a scratchpad operand was checked at issue (R304).
(DEDUCED, log 42) -/
def engKeys (s : State) (k : Nat) (c : EngCmd) (base va n : Nat) (need : Need) : Res (List Nat) :=
  if isPad base then .ok ((List.range n).map (fun i => sliceKey (va / 2 ^ 31 % 2 ^ 24) (va % 2 ^ 19 + i)))
  else (s.engSegs k c va n need).map (fun g => Loc.keys (.phys g) n)

/-- The cassette's TLB holds what an engine's access has walked (R98). -/
def engNote (s : State) (k : Nat) (c : EngCmd) (base va n : Nat) (need : Need) : State :=
  if isPad base then s
  else match s.engSegs k c va n need with
    | .ok g => s.noteLoc k (.phys g)
    | .error _ => s

/-- A byte of an operand, or of its destination, that an engine finds no way to (R448). -/
def engFar (s : State) (k : Nat) (c : EngCmd) (base va n : Nat) (need : Need) : Option Nat :=
  match s.engKeys k c base va n need with
  | .ok ks => ks.find? (s.cutOff (8 * k))
  | .error _ => none

/-- A step of a queue's command waits where an operand lies where no packet finds its way: the first such read goes out (R448). Each
operand is its base, its address, its length and what is needed of it. (DEDUCED, log 59) -/
def engAwait (s : State) (k q : Nat) (c : EngCmd) (os : List (Nat × Nat × Nat × Need)) (go : Out) : Out :=
  match os.findSome? (fun o => (s.engFar k c o.1 o.2.1 o.2.2.1 o.2.2.2).map (fun key => (o.2.1, key))) with
  | some e => .next ((s.askFar (8 * k) false c.ctx e.1 e.2).kick k q)
  | none => go

/-- Bytes an engine reads, stores of its cassette on their way among them (R171): a line that cannot be corrected, or a lost
home, holds the command (R440). -/
def engRead (s : State) (k : Nat) (c : EngCmd) (base va n : Nat) : Res (List Byte) := do
  let ks ← s.engKeys k c base va n .load
  match (ks.zipIdx).find? (fun p => s.isBad p.1 || s.lostHome (k / 4096) p.1) with
  | some p => .error (trapAt Cls.uncorr (va + p.2))
  | none => .ok (ks.map (s.pathByte (8 * k)))

/-- Keys an engine may write: part of a line that cannot be corrected holds the command, a whole line replaces it
(R440, R446). -/
def engWritable (s : State) (k : Nat) (c : EngCmd) (base va n : Nat) : Res (List Nat) := do
  let ks ← s.engKeys k c base va n .store
  match (ks.zipIdx).find? (fun p => (s.isBad p.1 && (ks.filter (fun j => j / 128 == p.1 / 128)).length < 128)
      || s.lostHome (k / 4096) p.1) with
  | some p => .error (trapAt Cls.uncorr (va + p.2))
  | none => .ok ks

/-- Write bytes at keys for an engine of cassette k; lines they replace whole are correct again, and lines the
cassette's L1 holds take the bytes too, so that an acquire of scope .cas sees them (R155, R169). (DEDUCED, log 22) -/
def putKeys (s : State) (k : Nat) (ks : List Nat) (v : List Byte) : State :=
  let s := (ks.zip v).foldl (fun s p => ((s.landBytes p.1 [p.2]).soil p.1 0).updateLines (8 * k) p.1 [p.2]) s
  s.restore (fun l => decide ((ks.filter (fun j => j / 128 == l)).length ≥ 128))

/-- A store of the cassette to bytes an engine is to write is still on its way: it was seen before the engine's write, which
follows it (R153, R158, R171). -/
def engBehind (s : State) (k : Nat) (ks : List Nat) : Bool :=
  s.pend.any (fun p => casOf p.core == k && p.blk.isNone && ks.any (fun j => decide (p.key ≤ j ∧ j < p.key + p.data.length)))

end State

/-- ENGINE_COMMAND_ARRIVAL (R304, R345): the command enters every queue it names, or is refused whole. A command whose
context has saved commands of the queue follows them (R164, R442). A package that has stopped takes none (R452). -/
def execEngineCommandArrival (tag : Nat) (s : State) : Out :=
  match s.msg? tag with
  | some (.eng c mask) =>
    if (s.pkg (c.cas / 4096)).st != 0x03 then .next s
    else if !releaseReady s tag c.core (spanScope c.core (c.cas * 8)) then .next (s.planNow (.engineCommandArrival tag))
    else
      let s := s.dropMsg tag
      let qs := maskQueues mask
      let pay := c.eop * 2 ^ 56 + c.queue * 2 ^ 53 + (c.cas * 8) * 2 ^ 29
      let mark := some (7, pay)
      if !s.admits c.cas 1 (qs.map (· + 8)) then .next (s.reply tag (c.cas * 8) c.core true [] mark)
      else
        let d := c.cas / 256
        let s := qs.foldl (fun s q =>
          let e := { c with queue := q }
          if (s.die d).savedCmds.any (fun p => p.cas == c.cas && p.queue == q && p.ctx == c.ctx) then
            s.setDie d { s.die d with savedCmds := (s.die d).savedCmds ++ [e] }
          else
            let s' := s.setQueue c.cas q (s.queue c.cas q ++ [e])
            if (s.queue c.cas q).isEmpty || (q = 0 && (s'.earlyLoad c.cas).any (fun e => e.2.id == c.id)) then s'.kick c.cas q
            else s') s
        .next (s.reply tag (c.cas * 8) c.core false [] mark)
  | _ => .fault .noSuchStep

/-! ## The matrix engine (R147, R148, R305 to R307) -/

/-- MXLD_PERFORM (R305): the tile enters the shadow plane, and one arrival is added. One that fails while earlier mxruns stream
is performed again behind them. -/
def execMxldPerform (k : Nat) (s : State) : Out :=
  match s.earlyLoad k with
  | none => .fault .notDue
  | some (i, c) =>
      let r : Res Plane := do
        let w ← s.engRead k c (c.img 1) (c.img 1) 8192
        let sc ← if c.ty == .e2m1 then s.engRead k c (c.img 2) (c.img 2) 2048 else .ok []
        .ok ⟨true, c.ctx, c.ty, w, sc, BitVec.ofNat 16 (c.img 3)⟩
      match r with
      | .error t => .next (if i = 0 then s.holdCmd k 0 c t.addr else s)
      | .ok p => .next (((s.setCas k { s.cas k with shadow := p }).tell c 1 0).doneCmd k 0 i c)

/-- MXFLIP_PERFORM (R306): the planes are exchanged, and one arrival is added. -/
def execMxflipPerform (k : Nat) (s : State) : Out :=
  match s.headCmd k 0 with
  | none => .fault .noSuchStep
  | some c =>
    if c.eop != 0xB1 || c.held then .fault .notDue
    else
      let x := s.cas k
      .next (((s.setCas k { x with shadow := x.active, active := x.shadow }).tell c 1 0).popCmd k 0 c)

/-- The formats combine (R307). -/
def pairs (a w : Ty) : Bool :=
  let h := fun (t : Ty) => t == .bf16 || t == .f16
  let q := fun (t : Ty) => t == .e4m3 || t == .e5m2
  (h a && h w) || (q a && q w) || (a == .i8 && w == .i8) || (a == .e2m1 && w == .e2m1)

/-- The code of element i of packed elements (R4, R140). -/
def codeAt (t : Ty) (data : List Byte) (i : Nat) : Nat :=
  match t.width with
  | 16 => leNat ((data.drop (2 * i)).take 2)
  | 4 => (data.getD (i / 2) 0).toNat / 16 ^ (i % 2) % 16
  | _ => (data.getD i 0).toNat

/-- The exact value of element k of a row (R140, R147): FP4 elements take their block and band scales. -/
def matVal (t : Ty) (data scales : List Byte) (band row k : Nat) : FVal :=
  let v := decodeF t (codeAt t data (row * tileK t + k))
  if t == .e2m1 then (v.mul (scaleVal (scales.getD (row * 32 + k / 8) 0).toNat)).mul (decodeF .bf16 band) else v

/-- One result element in floating point (R147). -/
def dotF (a w : Nat → FVal) (kk : Nat) (start : Option Nat) : Nat :=
  ((List.range (kk / 16)).foldl (fun (acc : Option Nat) j =>
    let sum := (List.range 15).foldl (fun x i => FVal.add .rne x ((a (16 * j + i + 1)).mul (w (16 * j + i + 1))))
      ((a (16 * j)).mul (w (16 * j)))
    let g := roundTo .f32 .rto false false sum
    some (match acc with
      | none => g
      | some x => roundTo .f32 .rne false false (FVal.add .rne (decodeF .f32 x) (decodeF .f32 g)))) start).getD 0

/-- One result element of an INT8 tile (R148). -/
def dotI (a w : Nat → Int) (kk : Nat) (start : Int) : Nat :=
  bitsOf 32 ((List.range kk).foldl (fun acc i => acc + a i * w i) start)

/-- The result of a pairing that does not combine (R307). -/
def noPair (t : Ty) : Nat := if t == .i8 then 0x80000000 else 0x7FC00000

/-- The rows of one piece: their result words, row by row (R147, R148, R307). -/
def mxRows (c : EngCmd) (p : Plane) (act scales bands res : List Byte) (n : Nat) : List Nat :=
  let t := c.ty
  let kk := tileK t
  let acc := c.flg % 2 = 1
  let tr := c.flg / 2 % 2 = 1
  let fits := p.loaded && p.ctx == c.ctx && pairs t p.ty
  (List.range n).flatMap (fun m => (List.range 64).map (fun col =>
    let old := leNat ((res.drop (256 * m + 4 * col)).take 4)
    let wAt := fun (k : Nat) => if tr then (k, col) else (col, k)
    if !fits then noPair t
    else if t == .i8 then
      dotI (fun k => signedOf 8 (codeAt .i8 act (m * kk + k)))
        (fun k => signedOf 8 (codeAt .i8 p.data ((wAt k).1 * kk + (wAt k).2))) kk (if acc then signedOf 32 old else 0)
    else
      dotF (fun k => matVal t act scales (leNat ((bands.drop (2 * m)).take 2)) m k)
        (fun k => matVal p.ty p.data p.scales p.band.toNat (wAt k).1 (wAt k).2) kk (if acc then some old else none)))

/-- Rows of the running piece of mxrun, and bytes of one of its activation rows (R307). -/
def mxPiece (c : EngCmd) : Nat × Nat := (Nat.min 16 (c.img 5 % 8192 - c.prog), tileK c.ty * c.ty.width / 8)

/-- The address of the next activation block of the running piece: rows are read in blocks of 64 bytes (R172). -/
def mxBlock (c : EngCmd) : Nat := c.img 1 + (mxPiece c).2 * c.prog + c.act.length

/-- Every activation block of the running piece is read. -/
def mxReady (c : EngCmd) : Bool := decide ((mxPiece c).1 * (mxPiece c).2 ≤ c.act.length)

/-- What the rest of a piece reads and may write: scales, bands, old results, and the keys of the results (R307). -/
def State.mxRest (s : State) (k : Nat) (c : EngCmd) : Res (List Byte × List Byte × List Byte × List Nat) := do
  let n := (mxPiece c).1
  let res := c.img 4 + 256 * c.prog
  let sc ← if c.ty == .e2m1 then s.engRead k c (c.img 2) (c.img 2 + 32 * c.prog) (32 * n) else .ok []
  let bands ← if c.ty == .e2m1 then
      (List.range n).mapM (fun i => s.engRead k c (c.img 3) (c.img 3 + 2 * ((c.prog + i) / 64)) 2) else .ok []
  let old ← if c.flg % 2 = 1 then s.engRead k c (c.img 4) res (256 * n) else .ok []
  let ks ← s.engWritable k c (c.img 4) res (256 * n)
  .ok (sc, bands.flatten, old, ks)

/-- MXRUN_PIECE (R172, R307, R442): one more activation block is read, or, with those of the next 16 rows or fewer, the rows
are computed, written and added to the sync word. -/
def execMxrunPiece (k : Nat) (s : State) : Out :=
  match s.headCmd k 0 with
  | none => .fault .noSuchStep
  | some c =>
    if c.eop != 0xB2 || c.held then .fault .notDue
    else
      let m := c.img 5 % 8192
      let n := (mxPiece c).1
      if !mxReady c then
        match s.engRead k c (c.img 1) (mxBlock c) 64 with
        | .error t => .next (s.holdCmd k 0 c t.addr)
        | .ok b => .next ((s.setHead k 0 { c with act := c.act ++ b }).kick k 0)
      else s.engAwait k 0 c (if c.ty == .e2m1 then [(c.img 3, c.img 3 + 2 * (c.prog / 64), 2, .load)] else []) <|
      match s.mxRest k c with
      | .error t => .next (s.holdCmd k 0 c t.addr)
      | .ok (sc, bands, old, ks) =>
        if s.engBehind k ks then .next (s.kick k 0)
        else
        let vs := mxRows c (s.cas k).active c.act sc bands old n
        let s := if c.ty == .e2m1 then s.engNote k c (c.img 3) (c.img 3 + 2 * (c.prog / 64)) 2 .load else s
        let s := (s.putKeys k ks (vs.flatMap (toLe 4))).tell c 0 (256 * n)
        if c.prog + n ≥ m then .next (s.popCmd k 0 c)
        else .next ((s.setHead k 0 { c with prog := c.prog + n, act := [] }).kick k 0)

/-! ## The copy engine (R104, R105, R308, R309, R441) -/

/-- CRC-64 over one more byte (R105). -/
def crcByte (crc : Word) (b : Byte) : Word :=
  (List.range 8).foldl (fun c _ => if c.getLsbD 63 then (c <<< 1) ^^^ 0x42F0E1EBA9EA3693#64 else c <<< 1)
    (crc ^^^ (b.zeroExtend 64 <<< 56))

/-- CRC-64 over bytes (R105). -/
def crc64 (crc : Word) (v : List Byte) : Word := v.foldl crcByte crc

/-- The next n bytes of a copy from byte p as runs of one row: source, destination, length (R309). -/
def copyRuns (g : Copy) (p n : Nat) : Nat → List (Nat × Nat × Nat)
  | 0 => []
  | fuel + 1 =>
    if n = 0 || g.rowLen = 0 then []
    else
      let r := p / g.rowLen
      let w := p % g.rowLen
      let m := Nat.min n (g.rowLen - w)
      (rowAddr g.src g.sp r w, rowAddr g.dst g.dp r w, m) :: copyRuns g (p + m) (n - m) fuel

/-- Runs of keys the source range covers, for the bytes R308 leaves unspecified. (DESIGN CHOICE, log 14) -/
def State.sourceRuns (s : State) (k : Nat) (c : EngCmd) (g : Copy) : List (Nat × Nat) :=
  (List.range g.rows).flatMap (fun r =>
    let va := rowAddr g.src g.sp r 0
    if isPad g.src then [(sliceKey (va / 2 ^ 31 % 2 ^ 24) (va % 2 ^ 19), g.rowLen)]
    else match s.segs (k * 8) c.ctx va g.rowLen .load (g.rowLen / 2 ^ 19 + 2) with
      | .ok l => l.map (fun q => (q.key, q.len))
      | .error _ => [])

/-- The bytes and keys of one sector. -/
def State.sector (s : State) (k : Nat) (c : EngCmd) (g : Copy) (n : Nat) : Res (List Byte × List Nat) := do
  let runs := copyRuns g c.prog n 128
  let src ← runs.mapM (fun r => s.engRead k c g.src r.1 r.2.2)
  let dst ← runs.mapM (fun r => s.engWritable k c g.dst r.2.1 r.2.2)
  .ok (src.flatten, dst.flatten)

/-- The translations of one sector stay in the TLB (R98). -/
def State.sectorNote (s : State) (k : Nat) (c : EngCmd) (g : Copy) (n : Nat) : State :=
  (copyRuns g c.prog n 128).foldl (fun s r =>
    (s.engNote k c g.src r.1 r.2.2 .load).engNote k c g.dst r.2.1 r.2.2 .store) s

/-- COPY_SECTOR (R308, R441): the next 128 destination bytes, with their byte update and their part of the CRC. The
update of the last sector follows the record (R104). (DESIGN CHOICE, log 14; DEDUCED, log 43) -/
def execCopySector (k q : Nat) (s : State) : Out :=
  match s.headCmd k q with
  | none => .fault .noSuchStep
  | some c =>
    let g := copyOf c.eop c.img
    if !(c.eop == 0xB3 || c.eop == 0xB4) || c.held || c.prog ≥ g.total then .fault .notDue
    else
      let n := Nat.min 128 (g.total - c.prog)
      s.engAwait k q c ((copyRuns g c.prog n 128).flatMap (fun r => [(g.src, r.1, r.2.2, .load), (g.dst, r.2.1, r.2.2, .store)])) <|
      match s.sector k c g n with
      | .error t => .next (s.holdCmd k q c t.addr)
      | .ok (bytes, ks) =>
        if s.engBehind k ks then .next (s.kick k q)
        else
        let src := s.sourceRuns k c g
        let out := (bytes.zip ks).zipIdx.map (fun e =>
          if src.any (fun r => decide (r.1 ≤ e.1.2 ∧ e.1.2 < r.1 + r.2)) then Config.overlapByte (128 * s.fresh + e.2)
          else e.1.1)
        let c' := { c with prog := c.prog + n, crc := if c.hasCrc then crc64 c.crc bytes else 0 }
        let s := ((s.sectorNote k c g n).putKeys k ks out).useFresh
        let s := if c'.prog < g.total then s.tell c 0 n else s
        .next ((s.setHead k q c').kick k q)

/-- COMPLETION_RECORD (R104, R308): the record, once, then the final byte update; the copy is done.
(DEDUCED, log 43) -/
def execCompletionRecord (k q : Nat) (s : State) : Out :=
  match s.headCmd k q with
  | none => .fault .noSuchStep
  | some c =>
    let g := copyOf c.eop c.img
    if !(c.eop == 0xB3 || c.eop == 0xB4) || c.held || c.prog < g.total then .fault .notDue
    else
      let last := if g.total % 128 = 0 then Nat.min 128 g.total else g.total % 128
      let done := fun (s : State) => (if g.total = 0 then s else s.tell c 0 last).popCmd k q c
      if !c.hasRec then .next (done s)
      else s.engAwait k q c [(g.recAddr, g.recAddr, 16, .store)] <|
        match s.engWritable k c g.recAddr g.recAddr 16 with
        | .error t => .next (s.holdCmd k q c t.addr)
        | .ok ks => .next (if s.engBehind k ks then s.kick k q
          else done ((s.engNote k c g.recAddr g.recAddr 16 .store).putKeys k ks (toLe 8 g.total ++ toLe 8 c.crc.toNat)))

/-- QFENCE_COMPLETE (R164, R310): every earlier command of its queues is done; one arrival is added. -/
def execQfenceComplete (k : Nat) (s : State) : Out :=
  match s.readyFence k with
  | none => .fault .notDue
  | some c =>
    let qs := (List.range 5).filter (fun q => (s.headCmd k q).any (fun e => e.id == c.id))
    let s := qs.foldl (fun s q => s.setQueue k q ((s.queue k q).drop 1)) s
    .next (qs.foldl (fun s q => s.kick k q) ((s.tell c 1 0).traceDone k { c with queue := 0 }))

/-! ## Holds and saves (R440, R442) -/

/-- The check of the next step of a command: none where it can go on, else the failing address. -/
def State.engTrouble (s : State) (k : Nat) (c : EngCmd) : Option Nat :=
  let bad := fun {α : Type} (r : Res α) => match r with | .ok _ => none | .error t => some t.addr
  match c.eop with
  | 0xB0 => bad (do
      let _ ← s.engRead k c (c.img 1) (c.img 1) 8192
      if c.ty == .e2m1 then s.engRead k c (c.img 2) (c.img 2) 2048 else .ok [])
  | 0xB2 => if mxReady c then bad (s.mxRest k c) else bad (s.engRead k c (c.img 1) (mxBlock c) 64)
  | 0xB3 | 0xB4 =>
    let g := copyOf c.eop c.img
    if c.prog < g.total then bad (s.sector k c g (Nat.min 128 (g.total - c.prog)))
    else if c.hasRec then bad (s.engWritable k c g.recAddr g.recAddr 16)
    else none
  | _ => none

/-- ENGINE_OPERATION_FAULT (R440): the first command of a queue meets a failure. -/
def execEngineOperationFault (k q : Nat) (s : State) : Out :=
  match s.headCmd k q with
  | none => .fault .noSuchStep
  | some c =>
    if c.held then .fault .notDue
    else match s.engTrouble k c with
      | none => .fault .notDue
      | some a => .next (s.holdCmd k q c a)

/-- ENGINE_REWALK (R440): the engine walks or reads again; once it can, the command goes on. (DEDUCED, log 44) -/
def execEngineRewalk (k q : Nat) (s : State) : Out :=
  match s.headCmd k q with
  | none => .fault .noSuchStep
  | some c =>
    if !c.held then .fault .notDue
    else match s.engTrouble k c with
      | some _ => .next (s.kick k q)
      | none => .next ((s.setHead k q { c with held := false }).kick k q)

/-- Saved commands of a context return to the heads of their queues, in queue order (R442). (DEDUCED, log 44) -/
def State.resumeCmds (s : State) (d x : Nat) : State :=
  let q := s.die d
  let mine := q.savedCmds.filter (fun c => c.ctx == x)
  let s := s.setDie d { q with savedCmds := q.savedCmds.filter (fun c => c.ctx != x) }
  let s := mine.reverse.foldl (fun s c => s.setQueue c.cas c.queue (c :: s.queue c.cas c.queue)) s
  mine.foldl (fun s c => s.kick c.cas c.queue) s

/-- ENGINE_PREEMPT (R442): at a sector or piece boundary the stopped context's commands of a queue are saved with their
progress; they resume once the context's weight is not zero. -/
def execEnginePreempt (k q : Nat) (s : State) : Out :=
  let x := s.cas k
  let cs := (x.stops.filter (fun e => e.1 == q)).map (·.2)
  if cs.isEmpty then .fault .notDue
  else
    let d := k / 256
    let s := s.setCas k { x with stops := x.stops.filter (fun e => e.1 != q) }
    let all := s.queue k q
    let mine := all.filter (fun c => cs.contains c.ctx)
    let s := s.setQueue k q (all.filter (fun c => !cs.contains c.ctx))
    let s := s.setDie d { s.die d with
      savedCmds := (s.die d).savedCmds ++ mine.map (fun c => { c with held := false, act := [], queue := q }) }
    let s := s.kick k q
    .next (cs.foldl (fun s x => if s.weight d x = 0 then s else s.resumeCmds d x) s)

/-- ENGINE_RESUME (R442): a context with a weight takes up its saved commands. -/
def execEngineResume (d x : Nat) (s : State) : Out :=
  if s.weight d x = 0 || !(s.die d).savedCmds.any (fun c => c.ctx == x) then .fault .notDue
  else .next (s.resumeCmds d x)

namespace State

/-- A stop with B = 0 asks the die's engines to save a context's commands (R442). -/
def stopEngines (s : State) (d x : Nat) : State :=
  (s.cass.filter (fun e => e.1 / 256 == d)).foldl (fun s e =>
    (List.range 5).foldl (fun s q =>
      if (s.queue e.1 q).any (fun c => c.ctx == x) then
        let k := s.cas e.1
        let s' := s.setCas e.1 { k with stops := k.stops ++ [(q, x)] }
        if k.stops.any (fun r => r.1 == q) then s' else s'.planNow (.enginePreempt e.1 q)
      else s) s) s

/-- A stop with B = 1 discards a context's held and saved commands on the die (R440). -/
def dropEngines (s : State) (d x : Nat) : State :=
  let s := s.setDie d { s.die d with savedCmds := (s.die d).savedCmds.filter (fun c => c.ctx != x) }
  (s.cass.filter (fun e => e.1 / 256 == d)).foldl (fun s e =>
    (List.range 5).foldl (fun s q =>
      let l := s.queue e.1 q
      if l.any (fun c => c.ctx == x && c.held) then
        (s.setQueue e.1 q (l.filter (fun c => !(c.ctx == x && c.held)))).kick e.1 q
      else s) s) s

end State

end Sys2Proof.Machine
end

