-- ==== Sys2Proof/Machine/Trace.lean ====
section
/-! DEFINITION. Event counters (R377 to R379) and the trace concentrator with its host ring (R372 to R374, R450). -/

namespace Sys2Proof.Machine

/-! ## Event counters -/

namespace State

/-- The core is stalled by its trace encoder (R374). -/
def traceStall (s : State) (c : Nat) : Bool := (s.die (dieOf c)).trctl.getLsbD 24 && decide ((s.core c).recs.length ≥ 64)

/-- What the ck itself adds to an event (R378): 1 for ck, and for the ck a core stalls, is trace-stalled or halted.
(DEDUCED, log 35) -/
def ckEvent (s : State) (c code : Nat) : Nat :=
  let k := s.core c
  match code with
  | 0x01 => 1
  | 0x04 => if k.run.isSome && !k.halted && k.waits != 0 then 1 else 0
  | 0x0C => if s.traceStall c then 1 else 0
  | 0x0F => if k.halted then 1 else 0
  | _ => 0

/-- The context whose events the core has now (R377). -/
def eventCtx (s : State) (c : Nat) : Nat :=
  match (s.core c).run with
  | some f => f.ctx
  | none => (s.core c).spown.toNat

/-- Counter k of a core counts one ck (R379). -/
def countOne (s : State) (c k : Nat) : State :=
  let x := s.core c
  let sel := x.evsel.get k 0
  let code := (sel.extractLsb' 0 8).toNat
  if !sel.getLsbD 15 || code = 0 || (sel.getLsbD 14 && (sel.extractLsb' 8 6).toNat != s.eventCtx c) then s
  else
    let v := x.evcnt.get k 0
    let sum := (v.extractLsb' 0 48).toNat + x.evinc.get code 0 + s.ckEvent c code
    let wraps := decide (sum ≥ 2 ^ 48)
    let s := s.setCore c { x with evcnt := x.evcnt.set k (BitVec.ofBool (v.getLsbD 48 || wraps) ++ BitVec.ofNat 48 sum) }
    if wraps then s.traceCore c 13 (s.eventCtx c) (k * 2 ^ 61) else s

/-- Every counter of a core counts this ck, once (R379). (DEDUCED, log 35) -/
def applyCounters (s : State) (c : Nat) : State :=
  if (s.core c).counted then s
  else
    let s := (List.range 8).foldl (fun s k => s.countOne c k) s
    s.setCore c { s.core c with counted := true }

end State

/-- EVENT_COUNT (R379). -/
def execEventCount (c : Nat) (s : State) : Out := .next (s.applyCounters c)

/-! ## The concentrator (R374) -/

/-- A byte of the MSI-X table (R350): every vector is masked at reset, as PCIe has it. (PRESUMED, log 61) -/
def Pkg.msixByte (q : Pkg) (o : Nat) : Byte := q.msixTab.get o (if o % 16 = 12 then 1 else 0)

/-- A vector sends no message yet: MSI-X is not enabled, or the function or the vector is masked (R350). (PRESUMED, log 61) -/
def Pkg.masked (q : Pkg) (v : Nat) : Bool :=
  !q.msixCtl.getLsbD 15 || q.msixCtl.getLsbD 14 || (q.msixByte (16 * v + 12)).getLsbD 0

namespace State

/-- How long the ring has been full (R450). -/
def noteFull (s : State) (d : Nat) : State :=
  let x := s.die d
  s.setDie d { x with fullSince := if s.ringFree d = 0 then some (x.fullSince.getD s.time.toNat) else none }

/-- MSI-X vector v of a package is raised (R349); one that is masked is pending (R350). -/
def raise (s : State) (p v : Nat) : State :=
  let q := s.pkg p
  s.setPkg p { q with
    msix := q.msix ++ [v], msixPend := if q.masked v && !q.msixPend.contains v then q.msixPend ++ [v] else q.msixPend }

/-- One record into the ring (R374). -/
def ringPut (s : State) (d : Nat) (r : TraceRec) : State :=
  let x := s.die d
  let a := s.hostNum (s.ringBlock d) 8 + 16 * (x.widx % 2 ^ s.ringLog d)
  (s.setHost a (toLe 16 r.toNat)).setDie d { x with widx := (x.widx + 1) % 2 ^ 64 }

/-- A LOSS record first, where records were dropped (R374). -/
def ringLoss (s : State) (d : Nat) : State :=
  let x := s.die d
  if x.drops = 0 || s.ringFree d = 0 then s
  else
    let n := Nat.min x.drops (2 ^ 32 - 1)
    let s := s.ringPut d (s.mkRec 15 0 (d * 2048) (n * 2 ^ 32))
    let x := s.die d
    let s := s.setDie d { x with drops := 0, lost := (x.lost + n) % 2 ^ 64 }
    ((s.setHost (s.ringBlock d + 0x20) (toLe 8 (s.die d).lost)).raise (d / 16) 2)

/-- Records of the ring between an index and the last RIDX read (R374). -/
def ringUsed (s : State) (d w : Nat) : Nat := (w + 2 ^ 64 - (s.die d).ridx) % 2 ^ 64

/-- The use of the ring rises to half of it as the index goes from w on (R374). -/
def passesHalf (s : State) (d w : Nat) : Bool :=
  decide (s.ringUsed d w < 2 ^ (s.ringLog d - 1) ∧ 2 ^ (s.ringLog d - 1) ≤ s.ringUsed d (s.die d).widx)

/-- A burst of up to 8 records, then WIDX (R374). -/
def burst (s : State) (d : Nat) : State :=
  let w0 := (s.die d).widx
  let s := s.ringLoss d
  let n := Nat.min 8 (Nat.min (s.die d).tbuf.length (s.ringFree d))
  let rs := (s.die d).tbuf.take n
  let s := s.setDie d { s.die d with tbuf := (s.die d).tbuf.drop n }
  let s := rs.foldl (fun s r => s.ringPut d r) s
  let s := s.setHost (s.ringBlock d + 0x10) (toLe 8 (s.die d).widx)
  let s := if s.passesHalf d w0 then s.raise (d / 16) 2 else s
  s.noteFull d

/-- The concentrator has something to write and room for it. -/
def burstReady (s : State) (d : Nat) : Bool :=
  (!(s.die d).tbuf.isEmpty || (s.die d).drops != 0) && s.ringFree d != 0

/-- A core of a die whose encoder holds a record. -/
def nextEncoder (s : State) (d : Nat) : Option Nat :=
  (s.cores.find? (fun e => dieOf e.1 == d && !e.2.recs.isEmpty)).map (·.1)

/-- The concentrator takes one record, or drops it when buffer and ring are full and STOPF is 0 (R374). -/
def takeRecord (s : State) (d c : Nat) : State :=
  let k := s.core c
  let x := s.die d
  if x.tbuf.length < 4096 then
    match k.recs with
    | [] => s
    | r :: t => (s.setCore c { k with recs := t }).setDie d { x with tbuf := x.tbuf ++ [r] }
  else if s.ringFree d = 0 && !x.trctl.getLsbD 24 then
    (s.setCore c { k with recs := k.recs.drop 1 }).setDie d { x with drops := x.drops + 1 }
  else s

end State

/-- The concentrator goes on while it has something to take or to write. -/
def State.takeOn (s : State) (d : Nat) : State :=
  if s.agenda.any (fun e => e.2 == .traceRecordTake d) then s
  else if s.burstReady d || ((s.nextEncoder d).isSome && ((s.die d).tbuf.length < 4096 || !(s.die d).trctl.getLsbD 24)) then
    s.plan (s.time.toNat + 1) (.traceRecordTake d)
  else s

/-- TRACE_RECORD_TAKE (R374): at most one record a ck; a full burst, or what is left, goes to the ring. -/
def execTraceRecordTake (d : Nat) (s : State) : Out :=
  match s.nextEncoder d with
  | some c =>
    let s := s.takeRecord d c
    let s := if (s.die d).tbuf.length ≥ 8 && s.burstReady d then s.burst d else s
    .next (s.takeOn d)
  | none => if s.burstReady d then .next ((s.burst d).takeOn d) else .fault .notDue

/-- TRACE_BURST_WRITE (R374). -/
def execTraceBurstWrite (d : Nat) (s : State) : Out := if s.burstReady d then .next (s.burst d) else .fault .notDue

/-- RIDX_READ (R374): the concentrator reads RIDX; with space it goes on writing. -/
def execRidxRead (d : Nat) (s : State) : Out :=
  let s := s.setDie d { s.die d with ridx := s.hostNum (s.ringBlock d + 0x18) 8 }
  let s := s.noteFull d
  .next (s.takeOn d)

/-- TSYNC (R372): CORE has PKG and DIE, the payload is %time. -/
def execTsync (d : Nat) (s : State) : Out :=
  if (s.die d).trctl.getLsbD 0 then .next (s.traceDev d 14 0 (d * 2048) s.time.toNat) else .fault .notDue

/-- STOPF_TIMEOUT (R450): free space has stayed at 0 for 2^30 ck: STOPF is cleared, and records are dropped from then
on, which releases the stalled cores. -/
def execStopfTimeout (d : Nat) (s : State) : Out :=
  let x := s.die d
  match x.fullSince with
  | none => .fault .notDue
  | some t =>
    if !x.trctl.getLsbD 24 || s.time.toNat < t + 2 ^ 30 then .fault .notDue
    else
      let s := s.setDie d { x with trctl := x.trctl &&& ~~~(1#64 <<< 24) }
      .next (s.takeOn d)

end Sys2Proof.Machine
end

