-- ==== Sys2Proof/Machine/System.lean ====
section
/-! DEFINITION. System instructions, 0xE0 to 0xE5 (R313 to R320), the control registers with the rule of each write
(R81, R82, R84, R106, R120, R174, R189, R302, R317, R318, R344, R373, R377, R401), and the steps that apply them. -/

namespace Sys2Proof.Machine

/-! ## Control registers (R315 to R318) -/

/-- Which instance of a register an access names (R316). -/
inductive CtlKind where
  | core | cas | die | ctx
deriving DecidableEq, Repr

/-- The control registers (R316). -/
inductive CtlReg where
  | spown | evsel (k : Nat) | evcnt (k : Nat) | rctab | l1co | wsarea | inbmin | inbcap | patience | cxwt | dspill | actfc
  | bktab | grptab | preemptwin | spawnq | trring | trctl | ticketw | xmapbase | xmapcnt | ptroot | detctl | rgntab
  | rgncnt | dettab | detn | detstat | captab | capcnt | syshdr | fltch | cxrun
deriving DecidableEq, Repr

/-- The register of a number (R316). -/
def ctlOf (n : Nat) : Option CtlReg :=
  match n with
  | 0x000 => some .spown
  | 0x020 => some .rctab
  | 0x100 => some .l1co
  | 0x101 => some .wsarea
  | 0x102 => some .inbmin
  | 0x103 => some .inbcap
  | 0x200 => some .patience
  | 0x201 => some .cxwt
  | 0x202 => some .dspill
  | 0x203 => some .actfc
  | 0x204 => some .bktab
  | 0x205 => some .grptab
  | 0x206 => some .preemptwin
  | 0x207 => some .spawnq
  | 0x210 => some .trring
  | 0x211 => some .trctl
  | 0x400 => some .ticketw
  | 0x401 => some .xmapbase
  | 0x402 => some .xmapcnt
  | 0x403 => some .ptroot
  | 0x404 => some .detctl
  | 0x405 => some .rgntab
  | 0x406 => some .rgncnt
  | 0x407 => some .dettab
  | 0x408 => some .detn
  | 0x409 => some .detstat
  | 0x40A => some .captab
  | 0x40B => some .capcnt
  | 0x40C => some .syshdr
  | 0x40D => some .fltch
  | 0x40E => some .cxrun
  | _ => if 0x10 ≤ n ∧ n < 0x18 then some (.evsel (n - 0x10)) else if 0x18 ≤ n ∧ n < 0x20 then some (.evcnt (n - 0x18)) else none

namespace CtlReg

/-- The instance of a register (R316). -/
def kind : CtlReg → CtlKind
  | .spown | .evsel _ | .evcnt _ | .rctab => .core
  | .l1co | .wsarea | .inbmin | .inbcap => .cas
  | .patience | .cxwt | .dspill | .actfc | .bktab | .grptab | .preemptwin | .spawnq | .trring | .trctl => .die
  | _ => .ctx

/-- The register is read only (R316). -/
def readOnly : CtlReg → Bool
  | .actfc | .bktab | .cxrun => true
  | _ => false

/-- Words of an indexed register (R316); 0 for one without an index. -/
def words : CtlReg → Nat
  | .rctab => 16
  | .inbmin | .inbcap => 13
  | .cxwt => 8
  | .bktab => 1024
  | _ => 0

end CtlReg

/-- The control register fault of a register number (R315, R396). -/
def ctlBad (n : Nat) : Trap := trapAt Cls.ctlreg n

namespace State

/-- A firing that no core runs counts in ctl.CXRUN (R317). One of a round that no pass has granted yet, like one that is
Ready, has sent no lock request and does not (R33, R182). -/
def countsHeld (f : Firing) : Bool :=
  match f.stage with
  | .between => f.granted || f.ticket.isSome
  | .acquiring | .reserving | .placing | .fetching | .resident | .stopping | .waiting | .ordered _ | .composed => true
  | _ => false

/-- The firings of a context that count in ctl.CXRUN of a die (R317). -/
def counted (s : State) (d x : Nat) : Nat :=
  (s.firings.filter (fun e => e.2.ctx == x && e.2.die == d && countsHeld e.2)).length
  + (s.cores.filter (fun e => dieOf e.1 == d && (match e.2.run with | some f => f.ctx == x | none => false))).length

/-- The value of a control register: c is a core of the instance, x the context (R315, R316).
(DESIGN CHOICE, log 107) -/
def ctlGet (s : State) (r : CtlReg) (c x i : Nat) : Word :=
  let k := s.core c
  let g := s.cas (casOf c)
  let d := s.die (dieOf c)
  let q := s.ctx x
  match r with
  | .spown => k.spown.zeroExtend 64
  | .evsel n => (k.evsel.get n 0).zeroExtend 64
  | .evcnt n => (k.evcnt.get n 0).zeroExtend 64
  | .rctab => k.rctab.get i 0
  | .l1co => (g.l1coNext.getD g.l1co).zeroExtend 64
  | .wsarea => (g.wsareaNext.getD g.wsarea).zeroExtend 64
  | .inbmin => BitVec.ofNat 64 (g.inbmin.get i 32)
  | .inbcap => BitVec.ofNat 64 (g.inbcap.get i 512)
  | .patience => BitVec.ofNat 64 d.patience
  | .cxwt => BitVec.ofNat 64 (leNat ((List.range 8).map (fun j => d.cxwt.get (8 * i + j) 16)))
  | .dspill => BitVec.ofNat 64 (d.dspillBase.toNat * 2 ^ 24 + d.dspillSize.toNat)
  | .actfc => d.actfc
  | .bktab => BitVec.ofNat 64 ((List.range 4).foldl (fun n j => n + s.bucketEntry (dieOf c) (4 * i + j) * 2 ^ (16 * j)) 0)
  | .grptab => d.grptab
  | .preemptwin => BitVec.ofNat 64 d.preemptwin
  | .spawnq => BitVec.ofNat 64 d.spawnq
  | .trring => d.trring
  | .trctl => d.trctl
  | .ticketw => q.ticketw
  | .xmapbase => q.xmapbase
  | .xmapcnt => q.xmapcnt
  | .ptroot => q.ptroot
  | .detctl => q.detctl
  | .rgntab => q.rgntab
  | .rgncnt => q.rgncnt
  | .dettab => q.dettab
  | .detn => q.detn
  | .detstat => q.detstat
  | .captab => q.captab
  | .capcnt => q.capcnt
  | .syshdr => q.syshdr
  | .fltch => q.fltch
  | .cxrun => BitVec.ofNat 64 (Nat.min 65535 (s.counted (dieOf c) x))

end State

/-! ## Writes -/

/-- A write that breaks a limit is a control register fault (R315). (DEDUCED, log 46) -/
def ctlWhen (a : CtlAcc) (ok : Bool) (s : State) : Res State := if ok then .ok s else .error (ctlBad a.num)

namespace State

/-- A core is quiet for R82 and R84: no running, staged or stopped firing, and an empty spawn channel. -/
def coreQuiet (s : State) (c : Nat) : Bool :=
  let k := s.core c
  k.run.isNone && k.slot.isNone && k.stage.isNone && k.spawnq.isEmpty && k.memberOf.isNone
    && s.firings.all (fun e => e.2.core != c || !e.2.placed || (match e.2.stage with
      | .stopping | .waiting | .ordered _ | .composed | .fetching | .resident => false
      | _ => true))

/-- A cassette is quiet (R82, R318). -/
def casQuiet (s : State) (k : Nat) : Bool :=
  (List.range 8).all (fun i => s.coreQuiet (k * 8 + i)) && (s.cas k).queues.all (fun e => e.2.isEmpty)

/-- The debug module's registers are zero (R359), DSTAT among them: the core is not halted and no step is pending. -/
def clearDebug (s : State) (c : Nat) : State :=
  s.setCore c { s.core c with
    dctl := 0, ibp := [], dwa := [], dwc := [], halted := false, reason := 0, step := .none, haltReq := none, skipBp := false
    stepCtx := 0 }

/-- ctl.SPOWN (R84, R294, R359): the core must be quiet; its mask and debug registers become 0. A firing that waits in
Placing may find its core (R50, R63). -/
def writeSpown (s : State) (a : CtlAcc) : Res State :=
  let c := a.inst
  ctlWhen a (decide (a.data.toNat < 64) && s.coreQuiet c) (
    let s := s.setCore c { s.core c with spown := a.data.extractLsb' 0 6, mask := 0 }
    let s := (s.clearDebug c).freed c
    if (s.core c).held.isEmpty then s else s.planNow (.maskedPacketRelease c))

/-- ctl.EVSELk (R377 to R379): the ck of the write is counted under the old selection. -/
def writeEvsel (s : State) (a : CtlAcc) (k : Nat) : Res State :=
  let v := a.data.toNat
  ctlWhen a (decide (v < 2 ^ 16) && decide (v % 256 ≤ 0x0F)) (
    let s := s.applyCounters a.inst
    let x := s.core a.inst
    s.setCore a.inst { x with evsel := x.evsel.set k (a.data.extractLsb' 0 16) })

/-- ctl.EVCNTk (R377, R379): the increments of its ck are discarded, but an overflow among them leaves OVF at 1. -/
def writeEvcnt (s : State) (a : CtlAcc) (k : Nat) : Res State :=
  ctlWhen a (decide (a.data.toNat < 2 ^ 49)) (
    let old := ((s.core a.inst).evcnt.get k 0).extractLsb' 0 48
    let s := s.applyCounters a.inst
    let x := s.core a.inst
    let now := (x.evcnt.get k 0).extractLsb' 0 48
    let wraps := decide (now.toNat < old.toNat)
    s.setCore a.inst { x with
      evcnt := x.evcnt.set k (BitVec.ofBool (a.data.getLsbD 48 || wraps) ++ a.data.extractLsb' 0 48) })

/-- ctl.RCTAB (R317). -/
def writeRctab (s : State) (a : CtlAcc) : Res State :=
  let x := s.core a.inst
  ctlWhen a (decide (a.data.toNat < 2 ^ 56) && a.data.toNat % 64 == 0)
    (s.setCore a.inst { x with rctab := x.rctab.set a.index a.data })

/-- ctl.L1CO (R82): the write waits for a quiet cassette. -/
def writeL1co (s : State) (a : CtlAcc) : Res State :=
  let k := casOf a.inst
  ctlWhen a (decide (a.data.toNat < 4))
    ((s.setCas k { s.cas k with l1coNext := some (a.data.extractLsb' 0 2) }).planNow (.l1coTakeEffect k))

/-- ctl.WSAREA (R26, R318): the write waits for a quiet cassette. -/
def writeWsarea (s : State) (a : CtlAcc) : Res State :=
  let k := casOf a.inst
  ctlWhen a (decide (1 ≤ a.data.toNat ∧ a.data.toNat ≤ 16))
    ((s.setCas k { s.cas k with wsareaNext := some (a.data.extractLsb' 0 5) }).planNow (.wsareaTakeEffect k))

/-- ctl.INBMIN and ctl.INBCAP (R344). (DEDUCED, log 46) -/
def writeInbox (s : State) (a : CtlAcc) (isMin : Bool) : Res State :=
  let k := casOf a.inst
  let v := a.data.toNat
  let g := s.cas k
  if isMin then
    let sum := (List.range 13).foldl (fun n q => n + (if q = a.index then v else s.inbMin k q)) 0
    ctlWhen a (decide (1 ≤ v ∧ v ≤ 256) && decide (sum ≤ 1024) && decide (v ≤ s.inbCap k a.index))
      (s.setCas k { g with inbmin := g.inbmin.set a.index v })
  else
    ctlWhen a (decide (s.inbMin k a.index ≤ v ∧ v ≤ 1024)) (s.setCas k { g with inbcap := g.inbcap.set a.index v })

/-- ctl.PATIENCE (R75, R81): it governs from the next pop. -/
def writePatience (s : State) (a : CtlAcc) : Res State :=
  let d := dieOf a.inst
  ctlWhen a (decide (1 ≤ a.data.toNat ∧ a.data.toNat ≤ 255)) (s.setDie d { s.die d with patience := a.data.toNat })

/-- Contexts with a weight take up what waited for it (R59, R62, R442): orders given at weight 0 take effect (R407). -/
def weighted (s : State) (d : Nat) : State :=
  let s := s.firings.foldl (fun s e =>
    match e.2.stage with
    | .ordered k => if e.2.die == d && s.weight d e.2.ctx != 0 then orderNow s e.2 k else s
    | _ => s) (s.planNow (.pop d))
  (List.range 64).foldl (fun s x =>
    if s.weight d x != 0 && (s.die d).savedCmds.any (fun c => c.ctx == x) then s.resumeCmds d x else s) s

/-- ctl.CXWT (R59, R81): word i holds the weights of contexts 8i to 8i + 7. -/
def writeCxwt (s : State) (a : CtlAcc) : Res State :=
  let d := dieOf a.inst
  let x := s.die d
  let s := s.setDie d { x with cxwt := (List.range 8).foldl (fun m j => m.set (8 * a.index + j) (a.data.extractLsb' (8 * j) 8)) x.cxwt }
  .ok (s.weighted d)

/-- The fork entries of a core that lie in the spill area (R287, R318): those that found the channel full when they came, as
long as it has no room for them. -/
def spilledForks (s : State) (c : Nat) : List Nat :=
  ((s.core c).spawnq.drop (s.die (dieOf c)).spawnq).filter (fun k => match s.fir? k with | some f => f.spilled | none => false)

/-- The die's spill area holds nothing (R318). -/
def spillEmpty (s : State) (d : Nat) : Bool :=
  s.firings.all (fun e => !(e.2.stage == .ready && e.2.die == d && e.2.spilled) && !(dieOf e.2.core == d && e.2.saved))
    && s.cores.all (fun e => dieOf e.1 != d || (s.spilledForks e.1).isEmpty)
    && (s.die d).savedCmds.isEmpty && (s.pkg (d / 16)).dump.isNone

/-- ctl.DSPILL (R318). -/
def writeDspill (s : State) (a : CtlAcc) : Res State :=
  let d := dieOf a.inst
  let v := a.data.toNat
  let base := v / 2 ^ 24 % 4096
  let size := v % 256
  ctlWhen a (v / 2 ^ 36 == 0 && v / 2 ^ 8 % 2 ^ 16 == 0 && decide (1 ≤ size ∧ size ≤ 64 ∧ base + size ≤ 3072) && s.spillEmpty d)
    (s.setDie d { s.die d with dspillBase := BitVec.ofNat 12 base, dspillSize := BitVec.ofNat 8 size })

/-- ctl.GRPTAB (R120). -/
def writeGrptab (s : State) (a : CtlAcc) : Res State :=
  let d := dieOf a.inst
  let v := a.data.toNat
  ctlWhen a (v % 65536 == 0 && v / 2 ^ 49 == 0 && v / 2 ^ 40 % 512 == d / 16 && decide (v % 2 ^ 36 + 65536 ≤ 0xC00000000))
    (s.setDie d { s.die d with grptab := a.data, grptabSet := true })

/-- ctl.PREEMPTWIN (R318): for requests made after the write. -/
def writePreemptwin (s : State) (a : CtlAcc) : Res State :=
  let d := dieOf a.inst
  ctlWhen a (decide (256 ≤ a.data.toNat ∧ a.data.toNat ≤ 16777216)) (s.setDie d { s.die d with preemptwin := a.data.toNat })

/-- ctl.SPAWNQ (R318): for spawns that arrive after the write; forks that a deeper channel has room for leave the spill area. -/
def writeSpawnq (s : State) (a : CtlAcc) : Res State :=
  let d := dieOf a.inst
  ctlWhen a (decide (4 ≤ a.data.toNat ∧ a.data.toNat ≤ 64)) ((s.cores.filter (fun e => dieOf e.1 == d && !e.2.spawnq.isEmpty)).foldl (fun s e => s.settleForks e.1)
      (s.setDie d { s.die d with spawnq := a.data.toNat }))

/-- ctl.TRRING (R373): not while tracing is enabled. -/
def writeTrring (s : State) (a : CtlAcc) : Res State :=
  let d := dieOf a.inst
  ctlWhen a (a.data.toNat % 64 == 0 && !(s.die d).trctl.getLsbD 0) (s.setDie d { s.die d with trring := a.data })

/-- ctl.TRCTL (R372 to R374): at enable the concentrator takes up the block's indices and a TSYNC record is written. -/
def writeTrctl (s : State) (a : CtlAcc) : Res State :=
  let d := dieOf a.inst
  let v := a.data
  ctlWhen a (v.extractLsb' 48 16 == 0 && v.extractLsb' 1 23 == 0 && (!v.getLsbD 24 || s.feature (d / 16) 6)) (
    let was := (s.die d).trctl.getLsbD 0
    let s := s.setDie d { s.die d with trctl := v }
    if v.getLsbD 0 && !was then
      let b := s.ringBlock d
      let s := s.setDie d { s.die d with
        widx := s.hostNum (b + 0x10) 8, ridx := s.hostNum (b + 0x18) 8, lost := s.hostNum (b + 0x20) 8, drops := 0 }
      (s.noteFull d).traceDev d 14 0 (d * 2048) s.time.toNat
    else s)

/-- A physical address word (R91, R96). (DEDUCED, log 46) -/
def isPa (v : Word) : Bool := v.extractLsb' 52 12 == 0

/-- A virtual address word (R86). (DEDUCED, log 46) -/
def isVa (v : Word) : Bool := v.extractLsb' 56 8 == 0

/-- The registers of a context whose write has no rule but its range (R81, R106, R189, R317). -/
def writePlain (s : State) (a : CtlAcc) (r : CtlReg) : Res State :=
  let x := a.inst
  let q := s.ctx x
  let v := a.data
  match r with
  | .ticketw => ctlWhen a (isPa v && v.toNat % 8 == 0) (s.setCtx x { q with ticketw := v })
  | .xmapbase => ctlWhen a (isVa v && v.toNat % 64 == 0) (s.setCtx x { q with xmapbase := v })
  | .xmapcnt => .ok (s.setCtx x { q with xmapcnt := v })
  | .ptroot => ctlWhen a (isPa v && v.toNat % 32768 == 0) (s.setCtx x { q with ptroot := v })
  | .rgntab => ctlWhen a (isPa v && v.toNat % 32 == 0) (s.setCtx x { q with rgntab := v })
  | .rgncnt => ctlWhen a (decide (1 ≤ v.toNat ∧ v.toNat ≤ 65536)) (s.setCtx x { q with rgncnt := v })
  | .dettab => ctlWhen a (isVa v && v.toNat % 4 == 0) (s.setCtx x { q with dettab := v })
  | .detn => ctlWhen a (decide (1 ≤ v.toNat ∧ v.toNat ≤ 18432)) (s.setCtx x { q with detn := v })
  | .syshdr => ctlWhen a (isVa v && v.toNat % 65536 == 0) (s.setCtx x { q with syshdr := v })
  | _ => .error (ctlBad a.num)

/-- The region table is sorted and without overlap (R174). -/
def tableSorted (s : State) (p x : Nat) : Bool :=
  (List.range ((s.ctx x).rgncnt.toNat - 1)).all (fun i =>
    let e := s.region p x i
    decide (rgnBase e + rgnLen e ≤ rgnBase (s.region p x (i + 1))))

/-- ctl.DETCTL (R174, R179, R352): DET = 1 needs feature DETC and a sound region table. -/
def writeDetctl (s : State) (a : CtlAcc) : Res State :=
  let x := a.inst
  let p := pkgOf a.core
  let n := (s.ctx x).rgncnt.toNat
  ctlWhen a (decide (a.data.toNat < 2) && (a.data == 0 || (s.feature p 3 && decide (1 ≤ n ∧ n ≤ 65536) && s.tableSorted p x)))
    (s.setCtx x { s.ctx x with detctl := a.data })

/-- ctl.DETSTAT (R189): ones clear. -/
def writeDetstat (s : State) (a : CtlAcc) : Res State :=
  let q := s.ctx a.inst
  ctlWhen a (decide (a.data.toNat < 4)) (s.setCtx a.inst { q with detstat := q.detstat &&& ~~~a.data })

/-- ctl.CAPTAB and ctl.CAPCNT (R302, R317): every grant cache of the package forgets the context. -/
def writeCaptab (s : State) (a : CtlAcc) (isTab : Bool) : Res State :=
  let x := a.inst
  let q := s.ctx x
  let p := pkgOf a.core
  let s' := { s with cass := s.cass.map (fun (e : Nat × Cas) =>
    (e.1, if e.1 / 4096 = p then { e.2 with grants := e.2.grants.filter (fun g => g.1 != x) } else e.2)) }
  if isTab then ctlWhen a (isPa a.data && a.data.toNat % 8 == 0) (s'.setCtx x { q with captab := a.data })
  else ctlWhen a (decide (a.data.toNat ≤ 256)) (s'.setCtx x { q with capcnt := a.data })

/-- ctl.FLTCH (R401): 0, or the address of a descriptor of the context with slots of 128 bytes or more.
(DEDUCED, log 46) -/
def writeFltch (s : State) (a : CtlAcc) : Res State :=
  let x := a.inst
  let ok := a.data == 0 || (isVa a.data && a.data.toNat % 64 == 0 && (match s.descAt a.core x a.data.toNat with
    | .ok d => d.ctx == x && decide (7 ≤ d.sz)
    | .error _ => false))
  ctlWhen a ok (s.setCtx x { s.ctx x with fltch := a.data })

/-- The write of a register at its instance (R315). (DEDUCED, log 46) -/
def ctlPut (s : State) (a : CtlAcc) (r : CtlReg) : Res State :=
  match r with
  | .spown => s.writeSpown a
  | .evsel k => s.writeEvsel a k
  | .evcnt k => s.writeEvcnt a k
  | .rctab => s.writeRctab a
  | .l1co => s.writeL1co a
  | .wsarea => s.writeWsarea a
  | .inbmin => s.writeInbox a true
  | .inbcap => s.writeInbox a false
  | .patience => s.writePatience a
  | .cxwt => s.writeCxwt a
  | .dspill => s.writeDspill a
  | .grptab => s.writeGrptab a
  | .preemptwin => s.writePreemptwin a
  | .spawnq => s.writeSpawnq a
  | .trring => s.writeTrring a
  | .trctl => s.writeTrctl a
  | .detctl => s.writeDetctl a
  | .detstat => s.writeDetstat a
  | .captab => s.writeCaptab a true
  | .capcnt => s.writeCaptab a false
  | .fltch => s.writeFltch a
  | .actfc | .bktab | .cxrun => .error (ctlBad a.num)
  | .ticketw | .xmapbase | .xmapcnt | .ptroot | .rgntab | .rgncnt | .dettab | .detn | .syshdr => s.writePlain a r

end State

/-- The step that applies a write of a register of the own core, cassette, die or package. -/
def CtlReg.step (r : CtlReg) (tag : Nat) : Instr :=
  match r with
  | .spown => .spownWrite tag
  | .evsel _ => .evselWrite tag
  | .evcnt _ => .evcntWrite tag
  | .l1co => .l1coWrite tag
  | .wsarea => .wsareaWrite tag
  | .inbmin | .inbcap => .inboxLimitWrite tag
  | .patience => .patienceWrite tag
  | .dspill => .dspillWrite tag
  | .grptab => .grptabWrite tag
  | .preemptwin => .preemptwinWrite tag
  | .spawnq => .spawnqWrite tag
  | .trring => .trringWrite tag
  | .trctl => .trctlWrite tag
  | .detctl => .detctlWrite tag
  | .detstat => .detstatClear tag
  | .captab | .capcnt => .captabWrite tag
  | .fltch => .fltchWrite tag
  | _ => .ctlRegisterWrite tag

/-! ## The instructions -/

/-- TRAP (R313): a precise stop after the instruction, whatever C holds. -/
def execTrap (hd : Head) (code : BitVec 8) (s : State) : Out :=
  withGuardJump s hd (fun s => .error ⟨Cls.trap, code.toNat, 0, 0, s.cf.pc + 12, 0⟩)

/-- The privilege fault of an unprivileged firing (R278). -/
def needPriv (s : State) : Res Unit := if s.privileged s.cf then .ok () else .error (trapAt Cls.privilege 0)

/-- TRET (R314): the order goes to the firing's dispatcher. -/
def execTret (x : Task) (s : State) : Out :=
  withGuard s x.hd (fun s => do
    s.needOpnds [x.d, x.a, x.b]
    needPriv s
    let fid ← s.src64 x.a
    let act := (← s.src64 x.b).toNat
    .ok ((s.awaitAnswer s.cur).post (.tret s.cur s.cctx fid act (State.wordNo x.d)) .tretOrder))

/-- A control register access waits for every earlier instruction of the core (R315). (DEDUCED, log 47) -/
def ctlWaits (s : State) : Bool :=
  (s.core s.cur).loads != 0 || s.writesWhere s.cur (fun _ => true)

/-- The register of a number, for a read or a write (R315, R316). -/
def ctlNumber (num : BitVec 12) (write : Bool) : Res CtlReg :=
  match ctlOf num.toNat with
  | none => .error (ctlBad num.toNat)
  | some r => if write && r.readOnly then .error (ctlBad num.toNat) else .ok r

/-- The register and instance an access names, with the faults of R315 that do not depend on the instance. -/
def ctlAccess (s : State) (num : BitVec 12) (sel : Word) (write : Bool) (data : Word) (dword : Nat) :
    Res (CtlReg × CtlAcc × Bool) :=
  let n := num.toNat
  let bad := ctlBad n
  let v := sel.toNat
  let rmt := v / 2 ^ 63 = 1
  let cid := v / 2 ^ 24 % 2 ^ 24
  let idx := v / 2 ^ 8 % 1024
  let x := v % 64
  match ctlNumber num write with
  | .error t => .error t
  | .ok r =>
    if rmt && (s.cctx != 0 || !s.isCore (pkgOf s.cur) cid) then .error bad
    else if r.words != 0 && decide (r.words ≤ idx) then .error bad
    else if write && s.cctx != 0 && (r.kind != .ctx || x != s.cctx) then .error bad
    else
      let c := if rmt then cid else s.cur
      .ok (r, ⟨s.cur, x, n, if r.kind == .ctx && write then x else c, idx, write, data, dword⟩, rmt)

/-- CTLRD (R315): at once for an instance of the own core, through REMOTE_CTL_ACCESS for another. -/
def execCtlrd (num : BitVec 12) (x : Task) (s : State) : Out :=
  notYet s x.hd ctlWaits <| withGuard s x.hd (fun s => do
    s.needOpnds [x.d, x.b]
    needPriv s
    let _ ← ctlNumber num false
    let b ← s.srcLate x.b
    let d := State.wordNo x.d
    let (r, a, rmt) ← ctlAccess s num b.1 false 0 d
    b.2
    if rmt then .ok ((s.awaitAnswer s.cur).post (.ctl a) .remoteCtlAccess)
    else .ok (s.setWord d (s.ctlGet r a.inst a.ctx a.index)))

/-- CTLWR (R315): the write takes effect as its register's rule states. -/
def execCtlwr (num : BitVec 12) (x : Task) (s : State) : Out :=
  notYet s x.hd ctlWaits <| withGuard s x.hd (fun s => do
    s.needOpnds [x.d, x.b]
    needPriv s
    let _ ← ctlNumber num true
    let b ← s.srcLate x.b
    let (r, a, rmt) ← ctlAccess s num b.1 true 0 0
    b.2
    let v ← s.srcWord (State.wordNo x.d)
    .ok ((s.awaitAnswer s.cur).post (.ctl { a with data := v }) (if rmt then .remoteCtlAccess else r.step)))

/-- A write answers its core: done, or a fault of the instruction that waits for it (R315). (DEDUCED, log 25) -/
def ctlDone (tag : Nat) (a : CtlAcc) (r : Res State) (s : State) : Out :=
  match r with
  | .ok s' => .next ((s'.dropMsg tag).gotAnswer a.core)
  | .error t =>
    let s := (s.dropMsg tag).gotAnswer a.core
    let pc := match (s.core a.core).run with | some f => f.pc - 12 | none => 0
    .next (s.takeFaultAt a.core { t with pc := pc })

/-- A local write of one of some registers. -/
def ctlApply (tag : Nat) (mine : CtlReg → Bool) (put : State → CtlAcc → CtlReg → Res State) (s : State) : Out :=
  match s.msg? tag with
  | some (.ctl a) =>
    match ctlOf a.num with
    | some r => if mine r && a.write then ctlDone tag a (put s a r) s else .fault .notDue
    | none => .fault .notDue
  | _ => .fault .noSuchStep

/-- REMOTE_CTL_ACCESS (R315): the access reaches its instance, and the instance answers. -/
def execRemoteCtlAccess (tag : Nat) (s : State) : Out :=
  match s.msg? tag with
  | some (.ctl a) =>
    match ctlOf a.num with
    | none => .fault .notDue
    | some r =>
      if a.write then ctlDone tag a (s.ctlPut a r) s
      else
        let v := s.ctlGet r a.inst a.ctx a.index
        .next (((s.dropMsg tag).gotAnswer a.core).onCore a.core (fun s => s.setWord a.dword v))
  | _ => .fault .noSuchStep

/-- SPOWN_WRITE (R84, R294, R359). -/
def execSpownWrite (tag : Nat) (s : State) : Out := ctlApply tag (· == .spown) (fun s a _ => s.writeSpown a) s
/-- L1CO_WRITE (R82). -/
def execL1coWrite (tag : Nat) (s : State) : Out := ctlApply tag (· == .l1co) (fun s a _ => s.writeL1co a) s
/-- WSAREA_WRITE (R318). -/
def execWsareaWrite (tag : Nat) (s : State) : Out := ctlApply tag (· == .wsarea) (fun s a _ => s.writeWsarea a) s
/-- DETCTL_WRITE (R174). -/
def execDetctlWrite (tag : Nat) (s : State) : Out := ctlApply tag (· == .detctl) (fun s a _ => s.writeDetctl a) s
/-- CAPTAB_WRITE (R302). -/
def execCaptabWrite (tag : Nat) (s : State) : Out :=
  ctlApply tag (fun r => r == .captab || r == .capcnt) (fun s a r => s.writeCaptab a (r == .captab)) s
/-- DETSTAT_CLEAR (R189). -/
def execDetstatClear (tag : Nat) (s : State) : Out := ctlApply tag (· == .detstat) (fun s a _ => s.writeDetstat a) s
/-- EVCNT_WRITE (R379). -/
def execEvcntWrite (tag : Nat) (s : State) : Out :=
  ctlApply tag (fun r => match r with | .evcnt _ => true | _ => false)
    (fun s a r => match r with | .evcnt k => s.writeEvcnt a k | _ => .ok s) s
/-- EVSEL_WRITE (R379). -/
def execEvselWrite (tag : Nat) (s : State) : Out :=
  ctlApply tag (fun r => match r with | .evsel _ => true | _ => false)
    (fun s a r => match r with | .evsel k => s.writeEvsel a k | _ => .ok s) s
/-- TRCTL_WRITE (R373). -/
def execTrctlWrite (tag : Nat) (s : State) : Out := ctlApply tag (· == .trctl) (fun s a _ => s.writeTrctl a) s
/-- TRRING_WRITE (R373). -/
def execTrringWrite (tag : Nat) (s : State) : Out := ctlApply tag (· == .trring) (fun s a _ => s.writeTrring a) s
/-- FLTCH_WRITE (R401). -/
def execFltchWrite (tag : Nat) (s : State) : Out := ctlApply tag (· == .fltch) (fun s a _ => s.writeFltch a) s
/-- GRPTAB_WRITE (R120). -/
def execGrptabWrite (tag : Nat) (s : State) : Out := ctlApply tag (· == .grptab) (fun s a _ => s.writeGrptab a) s
/-- DSPILL_WRITE (R318). -/
def execDspillWrite (tag : Nat) (s : State) : Out := ctlApply tag (· == .dspill) (fun s a _ => s.writeDspill a) s
/-- PREEMPTWIN_WRITE (R318). -/
def execPreemptwinWrite (tag : Nat) (s : State) : Out :=
  ctlApply tag (· == .preemptwin) (fun s a _ => s.writePreemptwin a) s
/-- SPAWNQ_WRITE (R318). -/
def execSpawnqWrite (tag : Nat) (s : State) : Out := ctlApply tag (· == .spawnq) (fun s a _ => s.writeSpawnq a) s
/-- PATIENCE_WRITE (R81). -/
def execPatienceWrite (tag : Nat) (s : State) : Out := ctlApply tag (· == .patience) (fun s a _ => s.writePatience a) s
/-- INBOX_LIMIT_WRITE (R344). -/
def execInboxLimitWrite (tag : Nat) (s : State) : Out :=
  ctlApply tag (fun r => r == .inbmin || r == .inbcap) (fun s a r => s.writeInbox a (r == .inbmin)) s
/-- CTL_REGISTER_WRITE (R315): the registers whose write has no step of its own. -/
def execCtlRegisterWrite (tag : Nat) (s : State) : Out :=
  ctlApply tag (fun r => match r with
    | .rctab | .cxwt | .ticketw | .xmapbase | .xmapcnt | .ptroot | .rgntab | .rgncnt | .dettab | .detn | .syshdr => true
    | _ => false) (fun s a r => s.ctlPut a r) s

/-- A pending change of a cassette is tried again while the cassette is not quiet. -/
def whenQuiet (k : Nat) (again : Instr) (s : State) (go : State) : Out :=
  if s.casQuiet k then .next go else .next (s.plan (s.time.toNat + 1) again)

/-- Placements that waited for the cassette (R82). -/
def State.reopened (s : State) (k : Nat) : State := (List.range 8).foldl (fun s i => s.freed (k * 8 + i)) s

/-- L1CO_TAKE_EFFECT (R82): the division changes, the L1 holds no lines, and every slice is undefined.
(DESIGN CHOICE, log 11) -/
def execL1coTakeEffect (k : Nat) (s : State) : Out :=
  let x := s.cas k
  match x.l1coNext with
  | none => .fault .notDue
  | some v =>
    whenQuiet k (.l1coTakeEffect k) s (
      let s := s.setCas k { x with l1co := v, l1coNext := none, lines := [] }
      let s := { s with
        mem := s.mem.filter (fun e => !(decide (sliceBase ≤ e.1) && keyCas e.1 == k))
        bad := s.bad.filter (fun l => !(decide (sliceBase ≤ l * 128) && keyCas (l * 128) == k))
        syncs := s.syncs.filter (fun w => keyCas w != k)
        changes := s.changes.set k (s.changes.get k 0 + 1) }
      s.reopened k)

/-- WSAREA_TAKE_EFFECT (R318): the area changes; slice bytes stay. -/
def execWsareaTakeEffect (k : Nat) (s : State) : Out :=
  let x := s.cas k
  match x.wsareaNext with
  | none => .fault .notDue
  | some v => whenQuiet k (.wsareaTakeEffect k) s ((s.setCas k { x with wsarea := v, wsareaNext := none }).reopened k)

/-! ## tlbinv (R319) -/

/-- tlbinv waits for earlier stores and atomics to be acknowledged (R319). -/
def tlbWaits (s : State) : Bool := s.pend.any (fun p => p.core == s.cur) || s.atomsOf s.cur

/-- TLBINV (R319). (DEDUCED, log 18) -/
def execTlbinv (k : TlbKind) (x : Task) (s : State) : Out :=
  notYet s x.hd tlbWaits <| withGuard s x.hd (fun s => do
    s.needOpnds [x.d, x.a]
    needPriv s
    if k == .all && s.cctx != 0 then .error (trapAt Cls.privilege 0)
    else
      let va ← match k with
        | .page => do
          let a ← s.srcLate x.a
          let v := a.1.toNat
          if v / 2 ^ 56 != 0 then .error (trapAt Cls.noncanon v)
          a.2
          .ok v
        | _ => .ok 0
      .ok ((s.awaitAnswer s.cur).post (.tlb s.cur s.cctx va (State.wordNo x.d) k) .tlbinvComplete))

/-- A translation is one tlbinv removes (R319); an alias or window address names no page. -/
def tlbHit (k : TlbKind) (x va tx base log : Nat) : Bool :=
  match k with
  | .all => true
  | .ctx => tx == x
  | .page => tx == x && decide (0x80000 ≤ va ∧ va < 2 ^ 55) && decide (base ≤ va ∧ va < base + 2 ^ log)

/-- TLBINV_COMPLETE (R99, R319): the translations are gone from every TLB and table cache of the package, and wD is
written. -/
def execTlbinvComplete (tag : Nat) (s : State) : Out :=
  match s.msg? tag with
  | some (.tlb c x va dword k) =>
    let p := pkgOf c
    let s := { s.dropMsg tag with
      cass := s.cass.map (fun (e : Nat × Cas) => (e.1, if e.1 / 4096 = p then
        { e.2 with tlb := e.2.tlb.filter (fun t => !tlbHit k x va t.ctx t.va t.log) } else e.2))
      dies := s.dies.map (fun (e : Nat × Die) => (e.1, if e.1 / 16 = p then
        { e.2 with tables := e.2.tables.filter (fun t =>
            !tlbHit k x va t.1 (t.2.2.1 * 2 ^ State.levelLog t.2.1) (State.levelLog t.2.1)) } else e.2)) }
    .next ((s.gotAnswer c).onCore c (fun s => s.setWord dword 0))
  | _ => .fault .noSuchStep

/-! ## stop (R320) -/

namespace State

/-- The cores of a die that run a firing of a context. (DEDUCED, log 49) -/
def runners (s : State) (d x : Nat) : List Nat :=
  (s.cores.filter (fun e => dieOf e.1 == d && (match e.2.run with | some f => f.ctx == x | none => false))).map (·.1)

/-- Firings of a context that a die holds and no core runs. (DEDUCED, log 49) -/
def holders (s : State) (d x : Nat) : List Firing :=
  (s.firings.map (·.2)).filter (fun f => f.ctx == x && f.stage != .made && (if f.placed then dieOf f.core else f.die) == d)

/-- Abandon a running firing: at its next stop, or at once on a halted core. R361 has that core stay halted, R450 has the halt end
there: which it does is open. (DEDUCED, log 49; DESIGN CHOICE, log 96) -/
def abandonRun (s : State) (c : Nat) : State :=
  match (s.core c).run with
  | none => s
  | some f =>
    let f := { f with doomed := true }
    if (s.core c).halted then
      let s := s.stopRun c f .stopping
      let s := match s.fir? f.key with
        | some g => s.abandon g
        | none => s
      if Config.stopEndsHalt then (s.setCore c { s.core c with halted := false, reason := 0 }).freed c else s
    else (s.setCore c { s.core c with run := some f }).requestPreempt c

/-- Abandon a firing no core runs: one whose try or record is under way ends with it (R79, R320). (DEDUCED, log 49) -/
def abandonHeld (s : State) (f : Firing) : State :=
  match f.stage with
  | .acquiring | .stopping => s.setFir { f with doomed := true }
  | _ => s.abandon f

end State

/-- STOP (R320, R440, R442). (DEDUCED, log 49) -/
def execStop (x : Task) (s : State) : Out :=
  withGuard s x.hd (fun s => do
    s.needOpnds [x.d, x.a, x.b]
    needPriv s
    let aw ← s.srcLate x.a
    let bw ← s.srcLate x.b
    let t := aw.1.toNat % 64
    let b := bw.1.toNat
    if t != s.cctx && s.cctx != 0 then .error (trapAt Cls.privilege 0)
    else if b > 1 then .error (ctlBad 0)
    else
      aw.2
      bw.2
      let d := dieOf s.cur
      let rs := s.runners d t
      let hs := s.holders d t
      let w := State.wordNo x.d
      if b = 0 then
        let s := s.setWord w (BitVec.ofNat 64 rs.length)
        .ok (rs.foldl State.requestPreempt (s.stopEngines d t))
      else
        let s := s.setWord w (BitVec.ofNat 64 (rs.length + hs.length))
        let s := hs.foldl State.abandonHeld (s.dropEngines d t)
        .ok (rs.foldl State.abandonRun s))

end Sys2Proof.Machine
end

