-- ==== Sys2Proof/Machine/Tandem.lean ====
section
/-! DEFINITION. Tandems (R121 to R131, R437, R438): the start, block tokens, blocks in flight, their squash and their commit,
and the tandem fault. (DEDUCED, log 36) -/

namespace Sys2Proof.Machine

/-- The member that runs the block at an address (R126). -/
def blockMember (t : Tandem) (a : Nat) : Nat :=
  let q := a / 12
  t.members.getD ((q ^^^ (q / 16)) % t.members.length) 0

/-- A block ends after this instruction (R126): a control transfer, taken or not, region, or end. -/
def endsBlock (i : Instr) : Bool :=
  match i with
  | .br _ _ | .jmp _ _ | .jmpi _ _ | .call _ _ _ | .calli _ _ _ | .ret _ _ | .loop _ _ _ | .region _ | .endFiring _ => true
  | _ => false

/-- A tandem about to run its first block, with BSN 0; so too one that goes on after a stop. (DESIGN CHOICE, log 97) -/
def newTandem (ms : List Nat) (ws : KMap Word) (pc : Nat) : Tandem := ⟨ms, ws, [], 0, 0, pc, [], false, [], 0, [], []⟩

namespace State

/-- The set of a tandem firing is free for its start (R123). -/
def setFree (s : State) (f : Firing) : Bool :=
  (tandemSet f.core f.width).all (fun m =>
    let k := s.core m
    k.run.isNone && k.slot.isNone && k.stage.isNone && k.memberOf.isNone && !k.halted && k.spown.toNat == f.ctx
      && (match k.kept with | e :: _ => e.1 == f.key && e.2.isEmpty | [] => false))

/-- The words of the workspace in the leader's slice. -/
def sliceWords (s : State) (f : Firing) (is : List Nat) : KMap Word :=
  is.map (fun i => (i, s.rawWord { f with tandem := none } i))

/-- pw at an entry (R28). -/
def entryPw (entry : Nat) : Word := BitVec.ofNat 64 (entry / 4 * 2 ^ 16 + 1)

/-- The words a tandem firing starts with (R124, R405, R438). -/
def tandemWords (s : State) (f : Firing) : KMap Word :=
  match f.stage with
  | .ordered .replay => (0, entryPw f.entry) :: (List.range 8).map (fun i => (i + 1, BitVec.ofNat 64 (f.argWord i)))
  | .ordered _ => s.sliceWords f (List.range (f.head.wsn + 1))
  | _ =>
    let live := if f.live.1 = 0 then [] else (List.range (f.live.2 + 1 - f.live.1)).map (· + f.live.1)
    (0, entryPw f.entry) :: s.sliceWords f ((List.range 8).map (· + 1) ++ live)

/-- The leader's run slot takes the tandem firing, and the other cores become members (R123 to R125).
(DEDUCED, log 108) -/
def beginTandem (s : State) (f : Firing) : State :=
  let c := f.core
  let ms := tandemSet c f.width
  let s := match f.stage with
    | .ordered .restart => (s.loseVolatile f).count c 0x0D 1
    | .ordered .precise => (s.loseVolatile f).count c 0x0E 1
    | _ => (s.acquire c (s.startScope c f)).count c 0x09 1
  let ws := s.tandemWords f
  let s := ms.foldl (fun s m => s.setCore m { s.core m with
    kept := (s.core m).kept.filter (fun e => e.1 != f.key), memberOf := if m = c then none else some c }) s
  let g := match f.stage with
    | .ordered .precise =>
      let f := s.loadBlock f
      { f with tandem := some (newTandem ms ws f.pc) }
    | .ordered .restart =>
      let pc := s.regionOf f
      { f with tandem := some (newTandem ms ws pc), pc := pc, c := false, vregs := s.freeVecs, badVecs := [], vecUsed := false, saved := false }
    | _ => { f with
        tandem := some (newTandem ms ws f.entry), pc := f.entry, c := false, k := false, groups := 1, vregs := s.freeVecs
        badVecs := [], vecUsed := false, resv := [], kids := 0, saved := false, executed := 0, fresh := !f.begun || f.fresh }
  ((s.takeRun c g).useFresh).planNow (.blockToken c)

end State

/-- TANDEM_START (R123, R124, R438). -/
def execTandemStart (key : Nat) (s : State) : Out :=
  match s.fir? key with
  | none => .fault .noSuchStep
  | some f =>
    let due := match f.stage with
      | .composed => true
      | .ordered _ => decide (0 < s.weight (dieOf f.core) f.ctx)
      | _ => false
    if f.width = 0 || !due then .fault .notDue
    else
      let k := match f.stage with | .ordered k => k | _ => .replay
      if s.setFree f && s.canGrant f.core f k then .next (s.beginTandem f)
      else .next (s.plan (s.time.toNat + 16) (.tandemStart key))

/-- Act on the tandem of a core. -/
def withTandem (s : State) (c : Nat) (go : Firing → Tandem → Out) : Out :=
  match (s.core c).run with
  | none => .fault .notDue
  | some f =>
    match f.tandem with
    | none => .fault .notDue
    | some t => go f t

/-- Replace the tandem of a core's firing. -/
def State.setTandem (s : State) (c : Nat) (f : Firing) (t : Tandem) : State :=
  s.setCore c { s.core c with run := some { f with tandem := some t } }

/-- The token of the block at an address that follows a block (R127). -/
def tokenTo (t : Tandem) (a bsn : Nat) : Token := ⟨blockMember t a, a % 2 ^ 50, (bsn + 1) % 2 ^ 32⟩

/-- BLOCK_TOKEN (R127): the member that runs the youngest block in flight predicts the next, as if its own fell through, and
sends a token to the member of that address; a member takes up to 8. (DEDUCED, log 36) -/
def execBlockToken (c : Nat) (s : State) : Out :=
  withTandem s c (fun f t =>
    let next := match t.tokens.getLast? with
      | some k => tokenTo t (k.addr + 192) k.bsn
      | none => tokenTo t (t.blockPc + 192) t.bsn
    if (t.tokens.filter (fun k => k.member == next.member)).length ≥ 8 then .fault .notDue
    else .next (s.setTandem c f { t with tokens := t.tokens ++ [next] }))

/-- The first token names another block than the one that follows. -/
def Tandem.mispredicts (t : Tandem) (pc : Nat) : Bool := match t.tokens with | k :: _ => k.addr != pc | [] => false

/-- The last place of a block in a tandem's program order. -/
def lastOf (bsn : Nat) : Nat := 16 * bsn + 15

/-- Versions of blocks up to a place (R128). -/
def Tandem.versionsTo (t : Tandem) (p : Nat) : List Version := t.versions.filter (fun v => !tagAfter (16 * v.bsn + v.slot) p)

/-- Loads of blocks up to a place (R129). -/
def Tandem.loadsTo (t : Tandem) (p : Nat) : List LoadEntry := t.queue.filter (fun e => !tagAfter (16 * e.bsn + e.slot) p)

/-- Words mentioned by blocks up to a place (R128). -/
def Tandem.readsTo (t : Tandem) (p : Nat) : List (Nat × Nat) := t.reads.filter (fun e => !tagAfter e.2 p)

/-- Stores of a core's tandem that follow a place and have not left (R129, R130). -/
def State.storesAfter (s : State) (c p : Nat) : List PStore := s.pend.filter (fun q => q.core == c && q.blk.any (fun g => tagAfter g p))

/-- Stores of discarded blocks are gone, and no longer counted as issued (R39, R127 to R129). -/
def State.dropStores (s : State) (c p : Nat) : State :=
  let k := s.core c
  let n := ((s.storesAfter c p).map (·.tag)).eraseDups.length
  { s.setCore c { k with issued := k.issued - BitVec.ofNat 32 n } with
    pend := s.pend.filter (fun q => !(q.core == c && q.blk.any (fun g => tagAfter g p))) }

/-- A prediction that did not hold (R127 to R129): every younger block, its versions, loads and stores are discarded, and a
corrected token is sent. -/
def State.squash (s : State) (c : Nat) (f : Firing) (t : Tandem) : State :=
  (s.dropStores c (lastOf t.bsn)).setTandem c f { t with
    versions := t.versionsTo (lastOf t.bsn), queue := t.loadsTo (lastOf t.bsn), reads := t.readsTo (lastOf t.bsn)
    tokens := [tokenTo t f.pc t.bsn] }

/-- BLOCK_SQUASH (R127, R129): the ended block's successor is not the predicted one. (DEDUCED, log 36) -/
def execBlockSquash (c : Nat) (s : State) : Out :=
  withTandem s c (fun f t => if t.ended && t.mispredicts f.pc then .next (s.squash c f t) else .fault .notDue)

/-- A BCOMMIT record of a block (R372). -/
def State.traceBlockAt (s : State) (f : Firing) (t : Tandem) (addr bsn : Nat) : State :=
  s.traceCore (blockMember t addr) 11 f.ctx (bsn % 65536 * 2 ^ 48 + addr / 4 % 2 ^ 48)

/-- A BCOMMIT record of the youngest block (R372). -/
def State.traceBlock (s : State) (f : Firing) (t : Tandem) : State := s.traceBlockAt f t t.blockPc t.bsn

/-- The committed words after blocks (R130). -/
def settled (ws : KMap Word) (vs : List Version) : KMap Word := vs.foldl (fun m v => m.set v.word v.val) ws

/-- The committed words after every block in flight (R130). -/
def Tandem.settle (t : Tandem) : KMap Word := settled t.words t.versions

/-- The block after the youngest takes its token, or a corrected one, and begins (R126, R127). -/
def State.startNext (s : State) (c : Nat) (f : Firing) (t : Tandem) : State :=
  let toks := if t.mispredicts f.pc then [] else t.tokens.drop 1
  let s := s.setTandem c f { t with
    bsn := (t.bsn + 1) % 2 ^ 32, slot := 0, blockPc := f.pc, tokens := toks, ended := false, loads := 0 }
  if toks.isEmpty then s.planNow (.blockToken c) else s

/-- The oldest of the blocks before the youngest commits (R130): its versions become the words' values, and its stores leave for
memory in slot order. -/
def State.commitOldest (s : State) (c : Nat) (f : Firing) (t : Tandem) (b : Block) : State :=
  ((s.traceBlockAt f t b.addr b.bsn).leaveUpTo c (fun g => g / 16 == b.bsn)).setTandem c f { t with
    words := settled t.words (t.versions.filter (fun v => v.bsn == b.bsn))
    versions := t.versions.filter (fun v => v.bsn != b.bsn), queue := t.queue.filter (fun e => e.bsn != b.bsn)
    reads := t.reads.filter (fun e => e.2 / 16 != b.bsn), flight := t.flight.drop 1 }

/-- BLOCK_COMMIT (R126, R130): the oldest uncommitted block commits, once it has ended and every instruction of it has
completed: its versions become the words' values and its stores leave for memory in slot order. Where it is the youngest too,
the next block begins. A block step is complete (R365). A block whose instruction has faulted does not commit (R437).
(DEDUCED, log 36) -/
def execBlockCommit (c : Nat) (s : State) : Out :=
  withTandem s c (fun f t =>
    let k := s.core c
    let again := s.plan (s.time.toNat + 1) (.blockCommit c)
    match t.flight with
    | b :: rest =>
      if !b.ended || rest.foldl (fun n q => n + q.loads) t.loads < k.loads then .next again
      else .next (s.commitOldest c f t b)
    | [] =>
      if !t.ended || f.trap.isSome || k.stopping then .fault .notDue
      else if k.loads != 0 || k.waits != 0 then .next again
      else
        let s := ((s.traceBlock f t).leaveStores c).startNext c f { t with words := t.settle, versions := [], queue := [], reads := [] }
        let k := s.core c
        .next (if k.step == .instr then s.setCore c { k with haltReq := some (k.haltReq.getD 9) } else s))

/-! ## Blocks in flight (R127 to R129) -/

/-- Blocks in flight on a member (R127). -/
def Tandem.flightOn (t : Tandem) (m : Nat) : Nat := ((t.blockPc :: t.flight.map (·.addr)).filter (fun a => blockMember t a == m)).length

/-- The youngest block as one of those before the youngest. -/
def Tandem.asBlock (t : Tandem) (f : Firing) : Block := ⟨t.bsn, t.blockPc, f.pc, t.slot, t.ended, t.loads, f.executed⟩

/-- The core is asked to stop at the next commit boundary: by a halt, a block step, or a window that has ended (R47, R131). -/
def stopAsked (s : State) (c : Nat) : Bool :=
  let k := s.core c
  k.haltReq.isSome || k.step == .instr || k.stopping || k.ending.isSome
    || (match k.preempt with | some d => decide (d ≤ s.time.toNat) | none => false)

/-- The youngest block has ended: the next one begins before it commits, where its member has fewer than 8 in flight (R127).
(DEDUCED, log 36) -/
def State.nextBlock (s : State) (c : Nat) : State :=
  match (s.core c).run with
  | none => s
  | some f =>
    match f.tandem with
    | none => s
    | some t =>
      if !t.ended || f.trap.isSome || (s.core c).waits != 0 || stopAsked s c || t.flightOn (blockMember t f.pc) ≥ 8 then s
      else s.startNext c f { t with flight := t.flight ++ [t.asBlock f] }

/-- The member of the first token begins its predicted block before the youngest has ended (R127); not while the core is debugged
or traced. (DEDUCED, log 36) -/
def State.runAhead (s : State) (c : Nat) : State :=
  match (s.core c).run with
  | none => s
  | some f =>
    match f.tandem with
    | none => s
    | some t =>
      let k := s.core c
      match t.tokens with
      | [] => s
      | n :: rest =>
        if t.ended || f.fresh || f.trap.isSome || k.waits != 0 || stopAsked s c || k.preempt.isSome || k.step != .none
            || k.dctl != 0 || !k.ibp.isEmpty || !k.dwc.isEmpty || (s.die (dieOf c)).trctl.getLsbD 0 || t.flightOn n.member ≥ 8 then s
        else
          let s := s.setTandem c { f with pc := n.addr } { t with
            flight := t.flight ++ [t.asBlock f], bsn := n.bsn, slot := 0, blockPc := n.addr, tokens := rest, loads := 0 }
          if rest.isEmpty then s.planNow (.blockToken c) else s

/-- The tandem as block j of those in flight sees it: every younger block is discarded (R127 to R129).
(DEDUCED, log 36) -/
def State.rewind (s : State) (c : Nat) (f : Firing) (t : Tandem) (j : Nat) (b : Block) : State :=
  (s.dropStores c (lastOf b.bsn)).setTandem c { f with pc := b.pc, executed := b.executed } { t with
    versions := t.versionsTo (lastOf b.bsn), queue := t.loadsTo (lastOf b.bsn), reads := t.readsTo (lastOf b.bsn)
    bsn := b.bsn, slot := b.slot, blockPc := b.addr, ended := b.ended, loads := b.loads, flight := t.flight.take j, tokens := [] }

/-- Between two states a tandem's instruction did nothing but what a squash can discard: it moved on, and it may have read
memory, written words and kept stores in the load-store queue (R128, R129). (DEDUCED, log 36) -/
def plainStep (s s' : State) (c : Nat) : Bool :=
  let k := s.core c
  let k' := s'.core c
  (match k.run, k'.run with
    | some f, some g => g.tandem.isSome && g.trap.isNone
        && { g with pc := f.pc, executed := f.executed, tandem := f.tandem } == f
    | _, _ => false)
    && { k' with run := k.run, loads := k.loads, issued := k.issued, evinc := k.evinc } == k
    && s'.mem == s.mem && s'.msgs == s.msgs && s'.firings == s.firings && s'.notices == s.notices && s'.ctxs == s.ctxs

/-- After an instruction of block j the younger blocks stay, where it made no version that one of them has read too early (R128),
stored over and loaded no byte that they have loaded (R129), and left its block, if it did, as predicted (R127).
(DEDUCED, log 36) -/
def State.rejoin (s s1 s2 : State) (c j : Nat) (b : Block) : Option State :=
  match (s.core c).run, (s1.core c).run, (s2.core c).run with
  | some f, some f1, some f2 =>
    match f.tandem, f1.tandem, f2.tandem with
    | some t, some t1, some t2 =>
      let next := match t.flight[j + 1]? with | some n => n.addr | none => t.blockPc
      let last := lastOf b.bsn
      let wrote := (t2.versions.drop t1.versions.length).map (·.word)
      let stale := t.reads.any (fun r => tagAfter r.2 last && wrote.contains r.1)
      let loads := t.queue.filter (fun e => tagAfter (16 * e.bsn + e.slot) last)
      let runs := ((s2.pend.filter (fun p => p.core == c && p.blk == some t1.now)).map (fun p => (p.key, p.data.length)))
        ++ (t2.queue.drop t1.queue.length).map (fun e => (e.key, e.len))
      let late := runs.any (fun r => loads.any (fun e => overlaps r.1 r.2 e.key e.len))
      if plainStep s1 s2 c && t2.bsn == b.bsn && (!t2.ended || f2.pc == next) && !stale && !late then
        let d := f2.executed - f1.executed
        let b' := { b with pc := f2.pc, slot := t2.slot, ended := t2.ended, loads := t2.loads, executed := f2.executed }
        let k := s2.core c
        let s3 := { s2.setCore c { k with issued := k.issued + ((s.core c).issued - (s1.core c).issued) } with
          pend := s2.pend ++ s.storesAfter c last }
        some (s3.setTandem c { f2 with pc := f.pc, executed := f.executed + d } { t with
          versions := t2.versions ++ t.versions.filter (fun v => tagAfter (16 * v.bsn + v.slot) last)
          queue := t2.queue ++ loads, reads := t2.reads ++ t.reads.filter (fun r => tagAfter r.2 last)
          flight := t.flight.take j ++ b' :: (t.flight.drop (j + 1)).map (fun q => { q with executed := q.executed + d }) })
      else none
    | _, _, _ => none
  | _, _, _ => none

/-- The first block in flight that has not ended, where younger ones have begun. -/
def Tandem.behind (t : Tandem) : Option (Nat × Block) :=
  match t.flight.findIdx? (fun b => !b.ended) with
  | none => none
  | some j => (t.flight[j]?).map (fun b => (j, b))

/-- TANDEM_FAULT (R437): the block's instructions older than the faulting one commit, the words are gathered, the
members are free, and the firing is Stopped at the faulting instruction; the record names the member. -/
def execTandemFault (c : Nat) (s : State) : Out :=
  withTandem s c (fun f t =>
    let k := s.core c
    match f.trap with
    | none => .fault .notDue
    | some tr =>
      if !k.stopping then .fault .notDue
      else if k.loads != 0 || k.waits != 0 || !t.flight.isEmpty then .next (s.plan (s.time.toNat + 1) (.tandemFault c))
      else
        let prec := f.c || tr.cls == Cls.trap || tr.cls == Cls.brk
        let s := if t.slot = 0 then s else s.traceBlock f t
        let s := if tr.cls = Cls.uncorr then s.noteBad (physKey (pkgOf c) tr.info) else s
        let r := s.saveIf prec { f with
          recorded := false, pc := f.resumePc tr, faultCore := some (blockMember t t.blockPc) }
        let s := (r.1.stopRun c r.2 .stopping).planNow (.faultRecordWrite f.key)
        .next (s.haltAfterFault c k))

/-- A member would hold more than its 64 versions while an older block's commit will free some: an instruction that writes waits
for that (R128). (DEDUCED, log 36) -/
def Tandem.overFull (t : Tandem) : Bool :=
  !t.flight.isEmpty && t.members.any (fun m => decide (64 < (t.versions.filter (fun v => v.owner == m)).length))

/-- A core's tandem holds more versions than it has room for (R128). -/
def State.overFull (s : State) (c : Nat) : Bool := (s.tandem? c).any Tandem.overFull

/-- The instruction executes only in the oldest uncommitted block, once every older instruction of it has completed (R130, R276):
a commit point (R46), an ordered access, a fence, lbf, what synchronises, decomp or end. -/
def needsOldest (i : Instr) : Bool :=
  match i with
  | .ld x | .st x | .ldv x | .ldg x => x.ord != .rlx
  | .stv _ | .sts _ => true
  | .fence _ | .lbf _ | .cwb _ | .amo _ _ | .amon _ _ | .cas _ | .casq _ | .amov _ _ | .red _ _ => true
  | .send _ | .reply _ | .post _ _ | .spawn _ | .fork _ | .chres _ | .chpub _ | .bara _ _ | .swarr _ => true
  | .gjoin _ | .gleave _ | .gld _ | .handover _ _ | .mxld _ _ | .mxflip _ | .mxrun _ _ _ _ | .cpy _ _ _ | .cpyf _ _ _ => true
  | .ctlrd _ _ | .ctlwr _ _ | .tlbinv _ _ | .region _ | .swinit _ | .swtest _ => true
  | .qfence _ _ | .engq _ | .compose _ _ | .decomp _ | .endFiring _ => true
  | _ => false

/-- The instruction reads or writes predicates otherwise than by its guard (R27). -/
def touchesPreds (i : Instr) : Bool :=
  match i with
  | .addc _ | .subb _ | .sel _ | .cmp _ _ | .fcmp _ _ | .pand _ | .por _ | .pxor _ | .pnot _ | .pmov _ => true
  | _ => needsOldest i

/-- The words an operand field names, two for a pair (R196). -/
def fieldWords (pair : Bool) (o : BitVec 18) : List Nat :=
  match opndOf o with
  | .ok (.w n) => if pair then [n.toNat, n.toNat + 1] else [n.toNat]
  | _ => []

/-- The words an instruction may read or write in a tandem's program order, w0 for its guard and its predicates (R27, R128).
(DEDUCED, log 36) -/
def mentions (i : Instr) : List Nat :=
  match fieldsOf i with
  | none => []
  | some f =>
    let pair := f.ty == 15 || needsOldest i
    (if f.g.extractLsb' 0 3 != 0 || touchesPreds i then [0] else []) ++ [f.d, f.a, f.b].flatMap (fieldWords pair)

/-- The words an instruction will make versions of (R128); an unused field names w0. (DEDUCED, log 36) -/
def makes (i : Instr) : List Nat :=
  match fieldsOf i with
  | none => []
  | some f => (if touchesPreds i then [0] else []) ++ (fieldWords (f.ty == 15) f.d).filter (· != 0)

/-- The instruction follows every older one of its tandem's block (R130, R276). -/
def State.mustBeOldest (s : State) (c : Nat) (i : Instr) : Bool :=
  let on := match (s.core c).run with
    | some f => f.tandem.isSome
    | none => false
  let guard := match fieldsOf i with
    | some f => s.guardHolds ⟨f.g.getLsbD 3, f.g.extractLsb' 0 3⟩
    | none => false
  on && guard && needsOldest i

/-- The stores of the older instructions of a tandem's block leave for memory before an instruction that follows every one of
them (R130). (DEDUCED, log 36) -/
def State.oldest (s : State) (c : Nat) (i : Instr) : State := if s.mustBeOldest c i then s.leaveStores c else s

/-- Older blocks of a core's tandem are in flight. -/
def State.olderInFlight (s : State) (c : Nat) : Bool := match s.tandem? c with | some t => !t.flight.isEmpty | none => false

/-- An instruction that follows every older one does not execute yet (R130). (DEDUCED, log 36) -/
def State.notOldest (s : State) (c : Nat) (i : Instr) : Bool :=
  s.mustBeOldest c i && (s.olderInFlight c || (s.core c).loads != 0)

/-- A fault that is not yet taken: an older block is in flight (R437). (DEDUCED, log 36) -/
def State.faultWaits (s s' : State) (c : Nat) : Bool :=
  s.olderInFlight c && (match (s'.core c).run with | some f => f.trap.isSome | none => false)

/-- The tandem a core's instruction issues under. -/
def State.tandemOf (s : State) (c : Nat) : Option (Firing × Tandem) :=
  match (s.core c).run with
  | some f => f.tandem.map (fun t => (f, t))
  | none => none

/-- Bookkeeping after an instruction of a core has issued: was is the tandem it issued under (R126, R130).
(DEDUCED, log 36) -/
def State.afterBlock (s : State) (c : Nat) (i : Instr) (was : Option (Firing × Tandem)) : State :=
  match was with
  | none => s
  | some (f0, t0) =>
    match (s.core c).run with
    | none => s.traceBlock f0 t0
    | some f =>
      match f.tandem with
      | none => s.traceBlock f0 t0
      | some t =>
        if f.trap.isSome then s
        else
          let n := t.slot + 1
          let e := endsBlock i || decide (n ≥ 16)
          let s := s.setTandem c f { t with slot := n, ended := e, reads := t.reads ++ (mentions i).map (fun w => (w, t.now)) }
          if !e then s
          else if (s.core c).ending.isSome then s.traceBlock f t
          else s.planNow (.blockCommit c)

end Sys2Proof.Machine
end

