-- ==== Sys2Proof/Machine/Fetch.lean ====
section
/-! DEFINITION. Instruction fetch and its checks (R190, R192, R397), decoding with the disabled features (R352, R408), and
the static extent of a tandem block (R126). -/

namespace Sys2Proof.Machine

/-- The addresses of the three words of an instruction (R190). -/
def wordAddrs (pc : Nat) : List Nat := [pc, pc + 4, pc + 8]

/-- The L1 line that gives instruction fetch a byte (R192). -/
def State.codeLine (s : State) (c : Nat) (cached : Bool) (key : Nat) : Option L1Line :=
  if cached then (s.cas (casOf c)).lines.find? (fun l => l.line == key / 128) else none

/-- A byte as instruction fetch finds it (R192): in the L1 line as it was filled, until cinv or its replacement drops it,
whatever stores and acquires have come since; else in its home. (DEDUCED, log 29) -/
def State.codeByte (s : State) (c : Nat) (cached : Bool) (key : Nat) : Byte :=
  match s.codeLine c cached key with
  | some l => l.code.extractLsb' (8 * (key % 128)) 8
  | none => s.byte key

/-- One word of an instruction as a core fetches it (R190, R192). (DEDUCED, log 29) -/
def State.fetchWord (s : State) (c : Nat) (key : Nat) (cached : Bool) : Nat :=
  leNat ((List.range 4).map (fun i => s.codeByte c cached (key + i)))

/-- A fault of a fetch whose record's PC and ADDR are the address fetched (R176, R446). (DEDUCED, log 51) -/
def fetchTrap (cls a : Nat) : Trap := { trapAt cls a with pc := a }

/-- The translations of the three words, with the checks of a fetch in their order (R190, R397). (DEDUCED, log 51) -/
def State.fetchCheck (s : State) (c x pc : Nat) : Res (List Tlb) := do
  if pc % 4 != 0 then .error (trapAt Cls.misfetch pc)
  else if pc < 0x80000 || pc ≥ 2 ^ 55 then .error (trapAt Cls.window pc)
  else
    let ts ← (wordAddrs pc).mapM (fun a => s.page c x a .fetch)
    let at_ := (wordAddrs pc).zip ts
    at_.forM (fun e => if s.goodPa (pkgOf c) (e.2.pa + (e.1 - e.2.va)) then .ok () else .error (trapAt Cls.badpa e.1))
    at_.forM (fun e => match s.capCheck c x e.1 e.1 .fetch with
      | .ok () => .ok ()
      | .error t => .error (fetchTrap t.cls e.1))
    at_.forM (fun e =>
      let pa := e.2.pa + (e.1 - e.2.va)
      let k := physKey (pkgOf c) pa
      match s.codeLine c e.2.c k with
      | some l => if l.bad then .error { fetchTrap Cls.uncorr e.1 with info := keyPa k } else .ok ()
      | none =>
        if s.isBad k then .error { fetchTrap Cls.uncorr e.1 with info := keyPa k }
        else if s.lostHome (pkgOf c) k then .error (trapAt Cls.unreach e.1)
        else .ok ())
    .ok ts

/-- The 96 bits of an instruction whose translations are known (R190). (DEDUCED, log 1) -/
def State.fetchBits (s : State) (c pc : Nat) (ts : List Tlb) : IWord :=
  BitVec.ofNat 96 (((wordAddrs pc).zip ts).foldr (fun e n =>
    s.fetchWord c (physKey (pkgOf c) (e.2.pa + (e.1 - e.2.va))) e.2.c + 2 ^ 32 * n) 0)

/-- An encoding names e2m1 in TY or FN (R352). -/
def namesFp4 (w : IWord) (i : Instr) : Bool :=
  w.extractLsb' 72 4 == 14#4 || (match i with
    | .fcvt t _ | .ficvt t _ | .ifcvt t _ | .qpack t _ | .qunpk t _ => t == .e2m1
    | _ => false)

/-- A compose of 16 or 32 cores (R352). -/
def isWide (i : Instr) : Bool :=
  match i with
  | .compose n _ => decide (4 ≤ n.toNat)
  | _ => false

/-- Decode with the enabled features of the package (R194, R352, R408). -/
def State.decodeFor (s : State) (p : Nat) (w : IWord) : Res Instr :=
  match decode w with
  | .error _ => .error (trapAt Cls.illegal 0)
  | .ok i =>
    if (namesFp4 w i && !s.feature p 2) || (isWide i && !s.feature p 1) then .error (trapAt Cls.illegal 0) else .ok i

/-- The instruction a core finds at an address, with the translations it used. -/
def State.fetch (s : State) (c x pc : Nat) : Res (Instr × List Tlb) := do
  let ts ← s.fetchCheck c x pc
  let i ← s.decodeFor (pkgOf c) (s.fetchBits c pc ts)
  .ok (i, ts)

/-- The address and the key of a word of the instruction whose home the fetch finds no way to (R448). (DEDUCED, log 59) -/
def State.fetchFar (s : State) (c x pc : Nat) : Option (Nat × Nat) :=
  match s.fetchCheck c x pc with
  | .error _ => none
  | .ok ts => (((wordAddrs pc).zip ts).map (fun e => (e.1, physKey (pkgOf c) (e.2.pa + (e.1 - e.2.va)), e.2.c))).findSome? (fun e =>
      if (s.codeLine c e.2.2 e.2.1).isNone && s.cutOff c e.2.1 then some (e.1, e.2.1) else none)

/-- What a fetch leaves in the cassette: its translations, and lines on their way to the L1 (R98, R192).
(DEDUCED, log 29) -/
def State.noteFetch (s : State) (c pc : Nat) (ts : List Tlb) : State :=
  let s := ((wordAddrs pc).zip ts).foldl (fun s e =>
    let s := s.noteTlb (casOf c) e.2
    if s.det e.2.ctx then s.noteCap (casOf c) e.2.ctx e.1 else s) s
  if (s.cas (casOf c)).l1co = 0 then s
  else ((wordAddrs pc).zip ts).foldl (fun s e =>
    let k := physKey (pkgOf c) (e.2.pa + (e.1 - e.2.va))
    let i := Instr.l1Fill (casOf c) (k / 128)
    if !e.2.c || (s.cas (casOf c)).lines.any (fun l => l.line == k / 128) || s.agenda.any (fun a => a.2 == i) then s else s.planNow i) s

/-- The instructions from an address to the end of its block, at most so many, as the code stands (R126). -/
def State.blockRest (s : State) (c x : Nat) : Nat → Nat → List Instr
  | _, 0 => []
  | pc, n + 1 =>
    match s.fetch c x pc with
    | .ok (i, _) => if endsBlock i then [i] else i :: s.blockRest c x (pc + 12) n
    | .error _ => []

/-- The instruction addresses of the block at an address, as the code stands (R126). -/
def State.blockAddrs (s : State) (c x : Nat) : Nat → Nat → List Nat
  | _, 0 => []
  | pc, n + 1 =>
    match s.fetch c x pc with
    | .ok (i, _) => if endsBlock i then [pc] else pc :: s.blockAddrs c x (pc + 12) n
    | .error _ => [pc]

end Sys2Proof.Machine
end

