-- ==== Sys2Proof/Machine/Debug.lean ====
section
/-! DEFINITION. The debug module of a core and debug channels (R359 to R371). -/

namespace Sys2Proof.Machine

namespace State

/-! ## Registers (R359, R360) -/

/-- Read a debug register (R359). -/
def dbgGet (s : State) (c n : Nat) : Word :=
  let k := s.core c
  match n with
  | 0 => s.dstat c
  | 1 => k.dctl
  | 8 => k.dwa.get 0 0
  | 9 => k.dwc.get 0 0
  | 10 => k.dwa.get 1 0
  | 11 => k.dwc.get 1 0
  | _ => k.ibp.get (n - 4) 0

/-- Write a debug register; a CTX field is filled from the channel's context (R359). -/
def dbgPut (s : State) (c n x : Nat) (v : Word) : State :=
  let k := s.core c
  let fill := fun (lo : Nat) => (v &&& ~~~(63#64 <<< lo)) ||| (BitVec.ofNat 64 x <<< lo)
  s.setCore c (match n with
    | 1 => { k with dctl := fill 8 }
    | 8 => { k with dwa := k.dwa.set 0 v }
    | 9 => { k with dwc := k.dwc.set 0 (fill 55) }
    | 10 => { k with dwa := k.dwa.set 1 v }
    | 11 => { k with dwc := k.dwc.set 1 (fill 55) }
    | _ => { k with ibp := k.ibp.set (n - 4) (fill 57) })

end State

/-- The number names a debug register (R359). -/
def dbgReg (n : Nat) : Bool := n == 0 || n == 1 || decide (4 ≤ n ∧ n ≤ 11)

/-- A value breaks no reserved bit of a register (R359, R363, R364). -/
def dbgValue (n : Nat) (v : Word) : Bool :=
  match n with
  | 1 => v.extractLsb' 14 50 == 0 && v.extractLsb' 1 7 == 0
  | 8 | 10 => v.extractLsb' 56 8 == 0
  | 9 | 11 => v.extractLsb' 0 52 == 0
  | _ => v.extractLsb' 50 7 == 0 && v.extractLsb' 0 2 == 0

/-! ## The checks of a request (R370) -/

namespace State

/-- The core a request acts on: the leader of a tandem for any of its members (R361). -/
def served (s : State) (t : Nat) : Nat := (s.core t).memberOf.getD t

/-- The response channel, where a response can be written (R370). -/
def respOk (s : State) (near x va : Nat) : Bool :=
  va % 64 == 0 && (match s.descAt near x va with
    | .ok d => d.ok && d.ctx == x && d.cons != 1
    | .error _ => false)

/-- Register, word, vector and lane numbers, and reserved bits (R370). -/
def dbgArgs (s : State) (r : DbgReq) (c : Nat) : Bool :=
  let a := r.arg0.toNat
  match r.op with
  | 5 => dbgReg a
  | 6 => dbgReg a && a != 0 && dbgValue a r.arg1
  | 7 | 8 => decide (a < 256) && (match s.onCoreFiring c with | some f => decide (a ≤ f.head.wsn) | none => true)
  | 9 => decide (a < 16) && (match s.onCoreFiring c with
    | some f => decide (r.arg1.toNat < 16 * f.groups)
    | none => true)
  | 10 => decide (a < 256)
  | _ => true

/-- The operation needs a halted core with a firing (R365, R369). -/
def needsHalt (op : Nat) : Bool := op == 3 || op == 7 || op == 8 || op == 9

/-- The status of a request: the first check it fails, or 0 (R370). (DEDUCED, log 50) -/
def dbgStatus (s : State) (r : DbgReq) : Nat :=
  if r.op = 0 || r.op > 11 then 5
  else if !s.isCore (s.homeDie r.chan / 16) r.target || !s.respOk r.target r.ctx r.resp then 3
  else
    let c := s.served r.target
    let k := s.core c
    let t := (s.die (dieOf c)).trctl
    if r.ctx != 0 && (k.spown.toNat != r.ctx || (match s.onCoreFiring c with | some f => f.ctx != r.ctx | none => false)) then 1
    else if (r.op = 10 || r.op = 11) && r.ctx != 0 && !(t.getLsbD 25 && (t.extractLsb' 26 6).toNat == r.ctx) then 1
    else if !s.dbgArgs r c then 3
    else if needsHalt r.op || r.op = 2 then
      if !k.halted then 2
      else if needsHalt r.op && (s.onCoreFiring c).isNone then 4
      else 0
    else 0

/-! ## Responses (R371) -/

/-- The debug channel's slot is freed, and its next request may be forwarded (R367). -/
def dbgFree (s : State) (r : DbgReq) : State :=
  let x := s.chan r.chan
  ((s.setChan r.chan { x with busy := false }).freeSlots r.chan [r.idx]).planNow (.debugForward r.chan)

/-- The module has served a request with a status and a value: the response follows. -/
def dbgReply (s : State) (tag : Nat) (r : DbgReq) (status : Nat) (v : Word) : State :=
  (s.setMsg tag (.dbg { r with status := status, value := v, dstat := s.dstat r.target })).planNow (.debugResponseWrite tag)

/-- Serve a request of one operation: the checks of R370, then its effect; none leaves the response to a later halt. For a
member of a tandem its leader's module serves and answers (R361, R371). -/
def serveDbg (s : State) (tag op : Nat) (go : State → DbgReq → Nat → State × Option Word) : Out :=
  match s.msg? tag with
  | some (.dbg r) =>
    if r.op != op || r.status != 256 then .fault .notDue
    else
      let c := s.served r.target
      let r := { r with target := c }
      let st := s.dbgStatus r
      if st != 0 then .next (s.dbgReply tag r st 0)
      else
        let r := { r with status := 257 }
        match go (s.setMsg tag (.dbg r)) r c with
        | (s, some v) => .next (s.dbgReply tag r 0 v)
        | (s, none) => .next s
  | _ => .fault .noSuchStep

/-- The slot the response channel gives next is written whole (R371); none where the channel is full or unreadable. -/
def writeResp (s : State) (r : DbgReq) : Option State :=
  match s.descAt r.target r.ctx r.resp with
  | .error _ => none
  | .ok d =>
    if d.full || !d.ok then none
    else match s.devKey r.target r.ctx (d.slot d.pidx.toNat) .load with
      | .error _ => none
      | .ok k =>
        let i := d.pidx
        let ws := [r.tag.toNat * 2 ^ 32 + r.status, r.value.toNat, r.dstat.toNat]
        let s := (s.setPidx d.key (i + 1)).writeHome (k + 16) (ws.flatMap (toLe 8))
        some (s.publish r.target r.ctx d i
          (slotHeader 24 0xFDB 0 (s.time.extractLsb' 0 32) (d.mark i) r.target 0))

end State

/-- DEBUG_FORWARD (R367): the next counted slot of a debug channel goes to the module of its target. -/
def execDebugForward (chan : Nat) (s : State) : Out :=
  let d := s.desc chan
  let x := s.chan chan
  let c := State.dieCore (s.homeDie chan)
  if x.busy || d.cons != 1 || !d.ok || d.clm = x.next then .next s
  else match s.devKey c d.ctx (d.slot d.clm.toNat) .load with
    | .error _ => .next s
    | .ok k =>
      let w := fun i => s.num (k + 16 + 8 * i) 8
      let r : DbgReq := ⟨chan, chan, d.ctx, d.clm, BitVec.ofNat 32 (w 0 / 2 ^ 32), w 0 % 256, w 1 % 2 ^ 24, BitVec.ofNat 64 (w 2),
        BitVec.ofNat 64 (w 3), w 4 % 2 ^ 56, 256, 0, 0⟩
      let s := (s.setChan chan { x with busy := true }).setClm chan (d.clm + 1)
      match r.op with
      | 1 => .next (s.post (.dbg r) .halt)
      | 2 => .next (s.post (.dbg r) .resume)
      | 3 => .next (s.post (.dbg r) .stepi)
      | 4 => .next (s.post (.dbg r) .stepf)
      | 5 => .next (s.post (.dbg r) .rdreg)
      | 6 => .next (s.post (.dbg r) .wrreg)
      | 7 => .next (s.post (.dbg r) .rdws)
      | 8 => .next (s.post (.dbg r) .wrws)
      | 9 => .next (s.post (.dbg r) .rdvec)
      | 10 => .next (s.post (.dbg r) .rdacct)
      | 11 => .next (s.post (.dbg r) .clracct)
      | _ =>
        let r := { r with target := s.served r.target }
        .next (s.post (.dbg { r with status := 5, dstat := s.dstat r.target }) .debugResponseWrite)

/-- The core goes on from a halt (R361, R363), and what waits in Placing may be given to it (R50). -/
def State.unhalt (s : State) (c : Nat) (step : StepReq) (x : Nat) : State :=
  let k := s.core c
  (s.setCore c { k with halted := false, reason := 0, skipBp := true, step := step, stepCtx := x }).freed c

/-- HALT (R361, R362, R369): at once on a core with nothing to stop, else at the next boundary; on a core that stops for a fault
after that stop, whatever halt was due before. -/
def execHalt (tag : Nat) (s : State) : Out :=
  s.serveDbg tag 1 (fun s _ c =>
    let k := s.core c
    if k.halted then (s, some 0)
    else if k.run.isNone then (s.haltNow c 1, none)
    else (s.setCore c { k with
      haltReq := if k.stopping || k.run.any (fun f => f.trap.isSome) then some 1 else some (k.haltReq.getD 1) }, none))

/-- RESUME (R369). -/
def execResume (tag : Nat) (s : State) : Out := s.serveDbg tag 2 (fun s _ c => (s.unhalt c .none 0, some 0))

/-- STEPI (R365). -/
def execStepi (tag : Nat) (s : State) : Out := s.serveDbg tag 3 (fun s r c => (s.unhalt c .instr r.ctx, none))

/-- STEPF (R365): of a running core it only arms the step. -/
def execStepf (tag : Nat) (s : State) : Out :=
  s.serveDbg tag 4 (fun s r c =>
    if (s.core c).halted then (s.unhalt c .firing r.ctx, some 0)
    else (s.setCore c { s.core c with step := .firing, stepCtx := r.ctx }, some 0))

/-- RDREG (R369). -/
def execRdreg (tag : Nat) (s : State) : Out := s.serveDbg tag 5 (fun s r c => (s, some (s.dbgGet c r.arg0.toNat)))

/-- WRREG (R359, R369). -/
def execWrreg (tag : Nat) (s : State) : Out :=
  s.serveDbg tag 6 (fun s r c => (s.dbgPut c r.arg0.toNat r.ctx r.arg1, some 0))

/-- RDWS (R369): a word of the firing on the halted core. (DEDUCED, log 50) -/
def execRdws (tag : Nat) (s : State) : Out :=
  s.serveDbg tag 7 (fun s r c =>
    match s.onCoreFiring c with
    | some f => (s, some (if r.arg0 = 0 then pwRead (s.rawWord f 0) else s.rawWord f r.arg0.toNat))
    | none => (s, some 0))

/-- A tandem that stands at a commit boundary holds its words' values and no version (R130, R361). -/
def State.settled (s : State) (c : Nat) : State :=
  match s.tandemOf c with
  | some (f, t) => s.setTandem c f { t with words := t.settle, versions := [] }
  | none => s

/-- WRWS (R196, R369). -/
def execWrws (tag : Nat) (s : State) : Out :=
  s.serveDbg tag 8 (fun s r c =>
    if (s.core c).run.isSome then ((s.onCore c (fun s => s.setWord r.arg0.toNat r.arg1)).settled c, some 0)
    else match s.onCoreFiring c with
      | some f =>
        let i := r.arg0.toNat
        let old := s.rawWord f i
        let v := if i = 0 then (old &&& ~~~0xFE#64) ||| (r.arg1 &&& 0xFE#64) else r.arg1
        (s.setNum (sliceKey f.core (f.wp + 8 * i)) 8 v.toNat, some 0)
      | none => (s, some 0))

/-- RDVEC (R369). -/
def execRdvec (tag : Nat) (s : State) : Out :=
  s.serveDbg tag 9 (fun s r c =>
    match s.onCoreFiring c with
    | some f => (s, some (BitVec.ofNat 64 (elemOf (f.vregs.getD r.arg0.toNat 0) 32 r.arg1.toNat)))
    | none => (s, some 0))

/-- RDACCT (R369, R376). -/
def execRdacct (tag : Nat) (s : State) : Out :=
  s.serveDbg tag 10 (fun s r c =>
    (s, some (((s.cas (casOf c)).acct.get r.arg0.toNat [0, 0, 0, 0]).getD (r.arg1.toNat % 4) 0)))

/-- CLRACCT (R369, R376). -/
def execClracct (tag : Nat) (s : State) : Out :=
  s.serveDbg tag 11 (fun s _ c => (s.setCas (casOf c) { s.cas (casOf c) with acct := [] }, some 0))

/-- DEBUG_RESPONSE_WRITE (R371): written once the RESP channel has room, tried again every 1,024 ck; the debug channel's
slot is then freed. A request whose RESP can hold no response gets none. (DEDUCED, log 50) -/
def execDebugResponseWrite (tag : Nat) (s : State) : Out :=
  match s.msg? tag with
  | some (.dbg r) =>
    if 256 ≤ r.status then .fault .notDue
    else if !s.respOk r.target r.ctx r.resp then .next ((s.dropMsg tag).dbgFree r)
    else match s.writeResp r with
      | none => .next (s.plan (s.time.toNat + 1024) (.debugResponseWrite tag))
      | some s => .next ((s.dropMsg tag).dbgFree r)
  | _ => .fault .noSuchStep

/-- DEBUG_RESPONSE_RETRY (R371): a response kept by a core's module is tried again. -/
def execDebugResponseRetry (c : Nat) (s : State) : Out :=
  match s.msgs.find? (fun m => match m.2 with | .dbg r => r.target == c && decide (r.status < 256) | _ => false) with
  | some (tag, .dbg r) =>
    match s.writeResp r with
    | none => .next s
    | some s =>
      .next ({ s.dropMsg tag with agenda := s.agenda.filter (fun e => e.2 != Instr.debugResponseWrite tag) }.dbgFree r)
  | _ => .fault .notDue

/-! ## Halts at a boundary (R361 to R366) -/

namespace State

/-- The core stands at an instruction boundary with every answer in; a tandem, at a commit boundary (R279, R361). -/
def atBoundary (s : State) (c : Nat) : Bool :=
  let k := s.core c
  k.loads == 0 && k.waits == 0 && !k.stopping && k.ending.isNone
    && (match k.run with
        | some f => f.trap.isNone && (match f.tandem with | some t => !t.mid | none => true)
        | none => true)

/-- The breakpoint that hits before the next instruction, or the next block, of a core (R363). (DEDUCED, log 50) -/
def breakpoint (s : State) (c : Nat) : Option Nat :=
  let k := s.core c
  match k.run with
  | none => none
  | some f =>
    if k.skipBp || k.ibp.isEmpty then none
    else
      let at_ := match f.tandem with
        | some t => if t.slot = 0 then s.blockAddrs c f.ctx f.pc 16 else []
        | none => [f.pc]
      [0, 1, 2, 3].find? (fun i =>
        let b := k.ibp.get i 0
        b.getLsbD 63 && (b.extractLsb' 57 6).toNat == f.ctx && at_.contains ((b.extractLsb' 0 50).toNat / 4 * 4))

end State

/-- HALT_TAKE_EFFECT (R361). -/
def execHaltTakeEffect (c : Nat) (s : State) : Out :=
  match (s.core c).haltReq with
  | none => .fault .notDue
  | some r => if s.atBoundary c && !(s.core c).halted then .next (s.haltNow c r) else .fault .notDue

/-- BREAKPOINT_HIT (R363): the core halts before the instruction issues, and a pending step is over (R365). -/
def execBreakpointHit (c : Nat) (s : State) : Out :=
  match s.breakpoint c with
  | none => .fault .notDue
  | some k => if s.atBoundary c && !(s.core c).halted then .next (s.haltNow c (BitVec.ofNat 4 (2 + k))) else .fault .notDue

/-- STEP_COMPLETE (R365): the stepped instruction, or block, is done. -/
def execStepComplete (c : Nat) (s : State) : Out :=
  if (s.core c).haltReq = some 9 && s.atBoundary c && !(s.core c).halted then .next (s.haltNow c 9) else .fault .notDue

end Sys2Proof.Machine
end

