-- ==== Sys2Proof/Machine/Sha.lean ====
section
/-! DEFINITION. SHA-256 (R356, R453) as FIPS 180-4 publishes it. (PRESUMED, log 57) -/

namespace Sys2Proof.Machine

/-- A word of SHA-256. -/
abbrev ShaWord := BitVec 32

/-- The eight working variables, or the hash value so far. -/
structure Sha where
  a : ShaWord
  b : ShaWord
  c : ShaWord
  d : ShaWord
  e : ShaWord
  f : ShaWord
  g : ShaWord
  h : ShaWord
deriving DecidableEq, Repr

/-- The initial hash value. -/
def Sha.init : Sha :=
  ⟨0x6a09e667, 0xbb67ae85, 0x3c6ef372, 0xa54ff53a, 0x510e527f, 0x9b05688c, 0x1f83d9ab, 0x5be0cd19⟩

/-- The constants of the 64 rounds. -/
def shaK : List ShaWord :=
  [0x428a2f98, 0x71374491, 0xb5c0fbcf, 0xe9b5dba5, 0x3956c25b, 0x59f111f1, 0x923f82a4, 0xab1c5ed5]
  ++ [0xd807aa98, 0x12835b01, 0x243185be, 0x550c7dc3, 0x72be5d74, 0x80deb1fe, 0x9bdc06a7, 0xc19bf174]
  ++ [0xe49b69c1, 0xefbe4786, 0x0fc19dc6, 0x240ca1cc, 0x2de92c6f, 0x4a7484aa, 0x5cb0a9dc, 0x76f988da]
  ++ [0x983e5152, 0xa831c66d, 0xb00327c8, 0xbf597fc7, 0xc6e00bf3, 0xd5a79147, 0x06ca6351, 0x14292967]
  ++ [0x27b70a85, 0x2e1b2138, 0x4d2c6dfc, 0x53380d13, 0x650a7354, 0x766a0abb, 0x81c2c92e, 0x92722c85]
  ++ [0xa2bfe8a1, 0xa81a664b, 0xc24b8b70, 0xc76c51a3, 0xd192e819, 0xd6990624, 0xf40e3585, 0x106aa070]
  ++ [0x19a4c116, 0x1e376c08, 0x2748774c, 0x34b0bcb5, 0x391c0cb3, 0x4ed8aa4a, 0x5b9cca4f, 0x682e6ff3]
  ++ [0x748f82ee, 0x78a5636f, 0x84c87814, 0x8cc70208, 0x90befffa, 0xa4506ceb, 0xbef9a3f7, 0xc67178f2]

/-- A big-endian word of four bytes. -/
def shaWord (b : List Byte) : ShaWord := b.foldl (fun w x => (w <<< 8) ||| x.zeroExtend 32) 0

/-- The words of a block of 64 bytes, the newest first. -/
def shaBlock (b : List Byte) : List ShaWord := ((List.range 16).map (fun i => shaWord ((b.drop (4 * i)).take 4))).reverse

/-- The message schedule goes on by one word; it is kept the newest first. -/
def shaExtend (w : List ShaWord) : List ShaWord :=
  let x := w.getD 14 0
  let y := w.getD 1 0
  let s0 := x.rotateRight 7 ^^^ x.rotateRight 18 ^^^ (x >>> 3)
  let s1 := y.rotateRight 17 ^^^ y.rotateRight 19 ^^^ (y >>> 10)
  (w.getD 15 0 + s0 + w.getD 6 0 + s1) :: w

/-- One round with a constant and a word of the schedule. -/
def Sha.round (v : Sha) (k w : ShaWord) : Sha :=
  let s1 := v.e.rotateRight 6 ^^^ v.e.rotateRight 11 ^^^ v.e.rotateRight 25
  let ch := (v.e &&& v.f) ^^^ (~~~v.e &&& v.g)
  let t1 := v.h + s1 + ch + k + w
  let s0 := v.a.rotateRight 2 ^^^ v.a.rotateRight 13 ^^^ v.a.rotateRight 22
  let maj := (v.a &&& v.b) ^^^ (v.a &&& v.c) ^^^ (v.b &&& v.c)
  ⟨t1 + (s0 + maj), v.a, v.b, v.c, v.d + t1, v.e, v.f, v.g⟩

/-- The hash value after one more block. -/
def Sha.step (h : Sha) (block : List Byte) : Sha :=
  let w := (Nat.repeat shaExtend 48 (shaBlock block)).reverse
  let v := (shaK.zip w).foldl (fun v p => v.round p.1 p.2) h
  ⟨h.a + v.a, h.b + v.b, h.c + v.c, h.d + v.d, h.e + v.e, h.f + v.f, h.g + v.g, h.h + v.h⟩

/-- A message with its padding: a one bit, zeros, and the length in bits as eight big-endian bytes. -/
def shaPad (m : List Byte) : List Byte :=
  m ++ 0x80 :: List.replicate ((119 - m.length % 64) % 64) 0 ++ (toLe 8 (8 * m.length)).reverse

/-- The hash value after so many blocks of a message. -/
def shaBlocks (h : Sha) (m : List Byte) : Nat → Sha
  | 0 => h
  | n + 1 => shaBlocks (h.step (m.take 64)) (m.drop 64) n

/-- The 32 bytes of a hash value. -/
def Sha.bytes (v : Sha) : List Byte :=
  [v.a, v.b, v.c, v.d, v.e, v.f, v.g, v.h].flatMap (fun w => (toLe 4 w.toNat).reverse)

/-- The SHA-256 digest of a message. (PRESUMED, log 57) -/
def sha256 (m : List Byte) : List Byte :=
  let p := shaPad m
  (shaBlocks Sha.init p (p.length / 64)).bytes

end Sys2Proof.Machine
end

