-- ==== Sys2Proof/Machine/HostOps.lean ====
section
/-! DEFINITION. The host endpoint (R44, R173, R349 to R353), the management mailbox (R358), attestation (R356), reset
(R459), junction temperatures (R20) and fatal errors with their dump (R451 to R453). -/

namespace Sys2Proof.Machine

/-! ## BAR2 (R353, R173) -/

/-- Bytes BAR2 reaches: 768 GiB (R353). -/
def bar2Size : Nat := 0xC000000000

/-- The key of a BAR2 offset (R353). -/
def bar2Key (p o : Nat) : Nat := p * 2 ^ 40 + o / 0xC00000000 * 2 ^ 36 + o % 0xC00000000

namespace State

/-- The relaxed-ordering attribute of a host write counts: feature HRLX is enabled (R173, R351). -/
def relaxes (s : State) (p : Nat) (relaxed : Bool) : Bool := relaxed && s.feature p 4

/-- A host write waits for an earlier ordered write to the package, through BAR2 or BAR0 (R173, R358). -/
def hostWriteWaits (s : State) (tag p : Nat) (relaxed : Bool) : Bool :=
  !s.relaxes p relaxed && s.msgs.any (fun m => decide (m.1 < tag) && (match m.2 with
    | .hostWrite q _ _ r => q == p && !s.relaxes p r
    | .bar0 q _ _ => q == p
    | .facc q _ => q == p
    | _ => false))

/-- A host read waits for every earlier one, of whichever package (R173). (DEDUCED, log 53) -/
def hostReadWaits (s : State) (tag : Nat) : Bool :=
  s.msgs.any (fun m => decide (m.1 < tag) && (match m.2 with | .hostRead _ _ _ => true | _ => false))

/-- A package whose firmware image has failed has no power: nothing of it answers but its STATUS (R356). (DEDUCED, log 54) -/
def dark (s : State) (p : Nat) : Bool := (s.pkg p).st == 0x00

/-- A line a write of n bytes from a key covers whole (R446). -/
def wholeLine (k n l : Nat) : Bool := decide (k ≤ l * 128 ∧ l * 128 + 128 ≤ k + n)

/-- Bytes of its package that BAR2 reaches as it is sized (R349, R353). -/
def bar2Reach (s : State) (p : Nat) : Nat := Nat.min bar2Size (2 ^ (s.pkg p).bar2)

/-- The bytes of a host write that land: those below 768 GiB, and none that merge into a line that cannot be corrected
(R353, R446). (DEDUCED, log 53) -/
def hostCells (s : State) (p off : Nat) (data : List Byte) : List (Nat × Byte) :=
  let k0 := bar2Key p off
  (data.zipIdx.filter (fun b => decide (off + b.2 < s.bar2Reach p))).filterMap (fun b =>
    let k := bar2Key p (off + b.2)
    if s.isBad k && !wholeLine k0 data.length (k / 128) then none else some (k, b.1))

/-- Descriptors whose PIDX a write from a key covers: their slots may now be counted (R44). (DEDUCED, log 53) -/
def pidxKeys (cells : List (Nat × Byte)) : List Nat :=
  (cells.filter (fun c => c.1 % 64 == 16)).map (fun c => c.1 - 16)

/-- Write cells. -/
def setCells (s : State) (cells : List (Nat × Byte)) : State :=
  { s with mem := cells.foldl (fun m c => Memory.write s.changes m c.1 c.2) s.mem }

end State

/-- HOST_BAR2_WRITE (R44, R173, R353): a posted write becomes visible; a PIDX it covers, or a header that had a wrong mark
(R425), lets the slots be counted. One to a package without power is dropped. (DEDUCED, log 53) -/
def execHostBar2Write (tag : Nat) (s : State) : Out :=
  match s.msg? tag with
  | some (.hostWrite p off data relaxed) =>
    if s.hostWriteWaits tag p relaxed then .fault .notDue
    else if s.dark p then .next (s.dropMsg tag)
    else
      let cells := s.hostCells p off data
      let k0 := bar2Key p off
      let s := (s.dropMsg tag).setCells cells
      let s := s.restore (State.wholeLine k0 data.length)
      let s := cells.foldl (fun s c => ((s.soil c.1 0).closeGroups c.1 1).recount c.1 1) s
      .next ((State.pidxKeys cells).foldl (fun s k => s.planNow (.slotCount k)) s)
  | _ => .fault .noSuchStep

/-- HOST_BAR2_READ (R353, R446): the bytes, or none for an unsupported request or a line that cannot be corrected. -/
def execHostBar2Read (tag : Nat) (s : State) : Out :=
  match s.msg? tag with
  | some (.hostRead p off n) =>
    if s.hostReadWaits tag then .fault .notDue
    else
      let ks := (List.range n).map (fun i => bar2Key p (off + i))
      let ok := !s.dark p && decide (off + n ≤ s.bar2Reach p) && ks.all (fun k => !s.isBad k)
      let r := if ok then some (ks.map s.byte) else none
      .next { (ks.find? s.isBad).elim s s.noteBad |>.dropMsg tag with hostAns := s.hostAns ++ [(tag, r)] }
  | _ => .fault .noSuchStep

/-! ## The PCIe function (R349) -/

/-- BAR0 has 16 MiB (R349). -/
def bar0Size : Nat := 0x1000000

/-- A byte of a base address register of a BAR of some size, a power of two: its kind, and the address bits the size leaves
(R349). (PRESUMED, log 61) -/
def barByte (q : Pkg) (o size kind : Nat) : Byte :=
  let i := o % 8
  BitVec.ofNat 8 ((q.bars.get o 0).toNat * 256 ^ i / size * size / 256 ^ i + if i = 0 then kind else 0)

/-- A byte of the function's configuration space (R349): a type 0 header with Vendor ID 0x1F3A, Device ID 0x0160, Class Code
0x12_0000, BAR0 and BAR2; the MSI-X capability at 0x40 with 4 vectors, its table and pending bits in BAR0; and the Resizable BAR
capability at 0x100, for BAR2, with the sizes 1 GiB to 1 TiB. (PRESUMED, log 61) -/
def cfgByte (q : Pkg) (o : Nat) : Byte :=
  if 0x10 ≤ o ∧ o < 0x18 then barByte q o bar0Size 0x04
  else if 0x18 ≤ o ∧ o < 0x20 then barByte q o (2 ^ q.bar2) 0x0C
  else match o with
    | 0x00 => 0x3A
    | 0x01 => 0x1F
    | 0x02 => 0x60
    | 0x03 => 0x01
    | 0x06 => 0x10
    | 0x0B => 0x12
    | 0x34 => 0x40
    | 0x40 => 0x11
    | 0x42 => 0x03
    | 0x43 => q.msixCtl.extractLsb' 8 8
    | 0x46 => 0x01
    | 0x49 => 0x80
    | 0x4A => 0x01
    | 0x100 => 0x15
    | 0x102 => 0x01
    | 0x105 => 0xC0
    | 0x106 => 0xFF
    | 0x107 => 0x01
    | 0x108 => 0x22
    | 0x109 => BitVec.ofNat 8 (q.bar2 - 20)
    | _ => 0

/-- Vectors that a write has unmasked are sent, and no longer pending (R350). (PRESUMED, log 61) -/
def Pkg.unmask (q : Pkg) : Pkg := { q with msixPend := q.msixPend.filter q.masked }

/-- The size of BAR2 is set: 1 GiB to 1 TiB (R349). -/
def Pkg.sizeBar2 (q : Pkg) (log : Nat) : Pkg := if 30 ≤ log ∧ log ≤ 40 then { q with bar2 := log } else q

/-- One byte of a write of configuration space (R349): base addresses, the MSI-X enable and function mask, and the size of BAR2
take it. (PRESUMED, log 61) -/
def Pkg.cfgPut (q : Pkg) (o : Nat) (b : Byte) : Pkg :=
  if 0x10 ≤ o ∧ o < 0x20 then { q with bars := q.bars.set o b }
  else if o = 0x43 then { q with msixCtl := BitVec.ofNat 16 (b.toNat / 64 * 2 ^ 14) }.unmask
  else if o = 0x109 then q.sizeBar2 (b.toNat % 64 + 20)
  else q

/-- The host reads configuration space (R349). -/
def execConfigRead (tag : Nat) (s : State) : Out :=
  match s.msg? tag with
  | some (.cfgRead p off n) =>
    .next { s.dropMsg tag with
      hostAns := s.hostAns ++ [(tag, some ((List.range n).map (fun i => cfgByte (s.pkg p) (off + i))))] }
  | _ => .fault .noSuchStep

/-- The host writes configuration space (R349). -/
def execConfigWrite (tag : Nat) (s : State) : Out :=
  match s.msg? tag with
  | some (.cfgWrite p off data) =>
    .next ((s.dropMsg tag).setPkg p (data.zipIdx.foldl (fun q b => q.cfgPut (off + b.2) b.1) (s.pkg p)))
  | _ => .fault .noSuchStep

/-- The host sizes BAR2 by its Resizable BAR capability: 1 GiB to 1 TiB (R349). -/
def execSizeBar (tag : Nat) (s : State) : Out :=
  match s.msg? tag with
  | some (.sizeBar p log) =>
    let s := s.dropMsg tag
    .next (s.setPkg p ((s.pkg p).sizeBar2 log))
  | _ => .fault .noSuchStep

/-- The host writes its own memory, where the trace rings lie: RIDX, and BASE and LOG before it sets EN (R374). -/
def execHostMem (tag : Nat) (s : State) : Out :=
  match s.msg? tag with
  | some (.hostMem a data) => .next ((s.dropMsg tag).setHost a data)
  | _ => .fault .noSuchStep

/-! ## Measurements (R356) -/

/-- M := SHA-256(M ‖ digest) in one of the eight registers (R356): which one, and the digest of what is measured, are free.
(DESIGN CHOICE, log 16) -/
def measure (m : KMap (BitVec 256)) (n : Nat) : KMap (BitVec 256) :=
  let i := Config.measuredIn n % 8
  m.set i (BitVec.ofNat 256 (leNat (sha256 (toLe 32 (m.get i 0).toNat ++ toLe 32 (Config.measured n).toNat))))

/-- The stages measured at a reset (R356). (DESIGN CHOICE, log 16) -/
def bootMeas (fresh : Nat) : KMap (BitVec 256) :=
  (List.range (Config.measuredIn (256 * fresh))).foldl (fun m i => measure m (256 * fresh + 1 + i)) []

/-! ## BAR0 (R349 to R352, R355) -/

/-- Features offered (R351): reserved bits are offered as zero. (DEDUCED, log 52) -/
def featOffered : BitVec 128 := 0x7F#128

/-- FACC_WRITE (R352): the one write of accepted features, while STATE is 0x02; with BASE the cores may start firings.
(DEDUCED, log 52) -/
def execFaccWrite (tag : Nat) (s : State) : Out :=
  match s.msg? tag with
  | some (.facc p v) =>
    if s.hostWriteWaits tag p false then .fault .notDue
    else
    let s := s.dropMsg tag
    let q := s.pkg p
    if q.st != 0x02 || q.facc.isSome then .next s
    else
      let on := v &&& featOffered
      let s := (s.setPkg p { q with
        facc := some on
        st := if on.getLsbD 0 then 0x03 else 0x0F
        meas := measure q.meas (256 * s.fresh) }).useFresh
      .next ((s.cores.filter (fun e => pkgOf e.1 == p)).foldl (fun s e => s.planNow (.nextFiring e.1)) s)
  | _ => .fault .noSuchStep

/-- Replace byte i of a value. -/
def putByte {w : Nat} (x : BitVec w) (i : Nat) (b : Byte) : BitVec w :=
  BitVec.ofNat w (x.toNat / 256 ^ (i + 1) * 256 ^ (i + 1) + b.toNat * 256 ^ i + x.toNat % 256 ^ i)

/-- The bits of a CXL decoder that hold a field (R355); the others read as zero (R5). -/
def cxldecMask : BitVec 256 :=
  BitVec.ofNat 256 (2 ^ 255 + (2 ^ 212 - 2 ^ 124) + (2 ^ 100 - 2 ^ 93) + (2 ^ 64 - 1))

/-- A context is live in a package (R51): some firing of it is there. (DEDUCED, log 54) -/
def State.liveIn (s : State) (p : Nat) : Bool :=
  s.firings.any (fun e => e.2.die / 16 == p) || s.cores.any (fun e => pkgOf e.1 == p && e.2.run.isSome)

/-- One byte of a mailbox write (R358): GO takes a 1 while it is 0; the response fields are the controller's.
(DEDUCED, log 54) -/
def Mailbox.putByte (m : Mailbox) (o : Nat) (b : Byte) : Mailbox :=
  if o < 0x004 then { m with cmd := Machine.putByte m.cmd o b }
  else if o < 0x008 then { m with seq := Machine.putByte m.seq (o - 4) b }
  else if o < 0x00C then { m with len := Machine.putByte m.len (o - 8) b }
  else if o = 0x00C then (if b = 1 then { m with go := true } else m)
  else if 0x020 ≤ o ∧ o < 0x800 then { m with req := m.req.set (o - 0x020) b }
  else m

/-- One byte of a BAR0 write (R350): writes to other offsets are dropped. The MSI-X table takes its four entries.
(DEDUCED, log 54; PRESUMED, log 61; DESIGN CHOICE, log 104) -/
def State.bar0Put (s : State) (p o : Nat) (b : Byte) : State :=
  let q := s.pkg p
  if 0x40 ≤ o ∧ o < 0x50 then
    (if q.facc.isSome then s else s.setPkg p { q with rcroute := q.rcroute.set (o - 0x40) (b &&& 1) })
  else if 0x50 ≤ o ∧ o < 0x58 then
    (if q.facc.isSome then s
     else s.setPkg p { q with podgeom := (putByte (q.podgeom.zeroExtend 64) (o - 0x50) b).extractLsb' 0 18 })
  else if 0x1000 ≤ o ∧ o < 0x1100 then
    (if s.liveIn p then s
     else
       let i := (o - 0x1000) / 32
       s.setPkg p { q with cxldec := q.cxldec.set i (putByte (q.cxldec.get i 0) ((o - 0x1000) % 32) b &&& cxldecMask) })
  else if 0x2000 ≤ o ∧ o < 0x3000 then s.setPkg p { q with mbox := q.mbox.putByte (o - 0x2000) b }
  else if 0x10000 ≤ o ∧ o < 0x10040 then s.setPkg p { q with msixTab := q.msixTab.set (o - 0x10000) b }.unmask
  else s

/-- BAR0_WRITE (R350), after every earlier ordered write of the host to the package (R173, R358); a package without power takes
none (R356). -/
def execBar0Write (tag : Nat) (s : State) : Out :=
  match s.msg? tag with
  | some (.bar0 p off data) =>
    if s.hostWriteWaits tag p false then .fault .notDue
    else .next (if s.dark p then s.dropMsg tag else data.zipIdx.foldl (fun s b => s.bar0Put p (off + b.2) b.1) (s.dropMsg tag))
  | _ => .fault .noSuchStep

/-- A byte of the mailbox as the host reads it (R358). -/
def Mailbox.getByte (m : Mailbox) (o : Nat) : Byte :=
  let word := fun (x : BitVec 32) (i : Nat) => x.extractLsb' (8 * i) 8
  if o < 0x004 then word m.cmd o
  else if o < 0x008 then word m.seq (o - 4)
  else if o < 0x00C then word m.len (o - 8)
  else if o < 0x010 then (if o = 0x00C then BitVec.ofNat 8 m.go.toNat else 0)
  else if o < 0x020 then 0
  else if o < 0x800 then m.req.get (o - 0x020) 0
  else if o < 0x804 then word m.rseq (o - 0x800)
  else if o < 0x808 then word m.status (o - 0x804)
  else if o < 0x80C then word m.rlen (o - 0x808)
  else if o < 0x820 then 0
  else m.rsp.getD (o - 0x820) 0

/-- A byte of BAR0 as the host reads it (R350). (PRESUMED, log 61) -/
def State.bar0Get (s : State) (p o : Nat) : Byte :=
  let q := s.pkg p
  if o < 0x10 then featOffered.extractLsb' (8 * o) 8
  else if o < 0x20 then (q.facc.getD 0).extractLsb' (8 * (o - 0x10)) 8
  else if o = 0x20 then q.st
  else if 0x40 ≤ o ∧ o < 0x50 then q.rcroute.get (o - 0x40) 0
  else if 0x50 ≤ o ∧ o < 0x58 then (q.podgeom.zeroExtend 64).extractLsb' (8 * (o - 0x50)) 8
  else if 0x1000 ≤ o ∧ o < 0x1100 then (q.cxldec.get ((o - 0x1000) / 32) 0).extractLsb' (8 * ((o - 0x1000) % 32)) 8
  else if 0x2000 ≤ o ∧ o < 0x3000 then q.mbox.getByte (o - 0x2000)
  else if 0x10000 ≤ o ∧ o < 0x10040 then q.msixByte (o - 0x10000)
  else if o = 0x18000 then BitVec.ofNat 8 ((List.range 4).foldl (fun n v => if q.msixPend.contains v then n + 2 ^ v else n) 0)
  else 0

/-- The host reads BAR0 (R349, R350): none beyond its 16 MiB. -/
def execBar0Read (tag : Nat) (s : State) : Out :=
  match s.msg? tag with
  | some (.bar0Read p off n) =>
    let r := if off + n ≤ bar0Size then some ((List.range n).map (fun i => s.bar0Get p (off + i))) else none
    .next { s.dropMsg tag with hostAns := s.hostAns ++ [(tag, r)] }
  | _ => .fault .noSuchStep

/-! ## The mailbox (R358) -/

/-- Request payload bytes. -/
def Mailbox.payload (m : Mailbox) : List Byte := (List.range m.len.toNat).map (fun i => m.req.get i 0)

/-- The controller answers the request: RSP, RLEN and STATUS, RSEQ last, and vector 1 (R358).
(PRESUMED, log 61) -/
def State.answerMail (s : State) (p status : Nat) (rsp : List Byte) : State :=
  let q := s.pkg p
  let m := q.mbox
  (s.setPkg p { q with mbox := { m with
    go := false, rsp := rsp, rlen := BitVec.ofNat 32 rsp.length, status := BitVec.ofNat 32 status, rseq := m.seq } }).raise p 1

/-- The status of a request before its command acts (R358): NOTNOW in STATE 0x0F but for TELEM and DUMPINFO, BADCMD,
BADARG. (DEDUCED, log 55) -/
def mailStatus (q : Pkg) : Nat :=
  let m := q.mbox
  let c := m.cmd.toNat
  if q.st = 0x0F ∧ c ≠ 1 ∧ c ≠ 5 then 4
  else if c = 0 ∨ 5 < c then 1
  else if 2016 < m.len.toNat then 2
  else if c = 3 ∧ (m.len ≠ 4 ∨ leNat m.payload < 1000 ∨ 10500 < leNat m.payload) then 2
  else if c = 5 ∧ q.dump.isNone then 4
  else 0

/-- The controller takes a request of one command, from STATE 0x01 on; it may be busy (R358). (DESIGN CHOICE, log 17) -/
def serveMail (p cmd : Nat) (s : State) (go : State → List Byte × State) : Out :=
  let q := s.pkg p
  if !q.mbox.go || q.mbox.cmd.toNat != cmd || s.dark p then .fault .notDue
  else
    let st := mailStatus q
    if st != 0 then .next (s.answerMail p st [])
    else if s.choice 2 = 1 then .next (s.dropChoice.answerMail p 3 [])
    else
      let r := go s.dropChoice
      .next (r.2.answerMail p 0 r.1)

/-- A request whose CMD is not listed gets STATUS 1, or 4 after a fatal error (R358). -/
def State.badMail (s : State) (p : Nat) : State := s.answerMail p (mailStatus (s.pkg p)) []

namespace State

/-- Bit d of a word for each die of a package that meets a condition. -/
def dieMap (s : State) (p : Nat) (on : Die → Bool) : Nat :=
  (List.range 16).foldl (fun n d => if on (s.die (p * 16 + d)) then n + 2 ^ d else n) 0

/-- The telemetry record (R358): readings are free values, the power at most the cap in force (R18).
(DESIGN CHOICE, log 16) -/
def telemetry (s : State) (p : Nat) : List Byte :=
  let r := fun i => (Config.sensor (32 * s.fresh + i)).toNat
  toLe 4 (Nat.min (r 0) (s.pkg p).cap) ++ toLe 4 (s.pkg p).cap ++ toLe 2 (r 1) ++ toLe 2 (r 2) ++ toLe 2 (r 3)
    ++ toLe 2 (s.dieMap p (fun d => d.hot)) ++ (List.range 16).flatMap (fun d => toLe 2 (r (4 + d))) ++ toLe 8 s.time.toNat

/-- An SPDM response message: its bytes and its length are free values (R356). (DESIGN CHOICE, log 16) -/
def spdmReply (s : State) : List Byte :=
  let b := fun i => Config.spdmByte (4096 * s.fresh + i)
  (List.range (((b 0).toNat * 256 + (b 1).toNat) % 2017)).map (fun i => b (2 + i))

/-- The dump summary (R358). -/
def dumpSummary (q : Pkg) : List Byte :=
  match q.dump with
  | none => []
  | some (cause, lostmap, t, sect) =>
    toLe 4 cause ++ toLe 4 lostmap ++ toLe 8 t.toNat
      ++ (List.range 16).flatMap (fun d => let e := sect.getD d (0, 0); toLe 8 e.1 ++ toLe 8 e.2)

end State

/-- TELEM (R358). -/
def execTelem (p : Nat) (s : State) : Out := serveMail p 1 s (fun s => (s.telemetry p, s.useFresh))
/-- GETCAP (R358). -/
def execGetcap (p : Nat) (s : State) : Out := serveMail p 2 s (fun s => (toLe 4 (s.pkg p).cap, s))
/-- SETCAP (R18, R358). -/
def execSetcap (p : Nat) (s : State) : Out :=
  serveMail p 3 s (fun s => ([], s.setPkg p { s.pkg p with cap := leNat (s.pkg p).mbox.payload }))
/-- SPDM (R356, R358). -/
def execSpdm (p : Nat) (s : State) : Out := serveMail p 4 s (fun s => (s.spdmReply, s.useFresh))
/-- DUMPINFO (R358). -/
def execDumpinfo (p : Nat) (s : State) : Out := serveMail p 5 s (fun s => (State.dumpSummary (s.pkg p), s))

/-- PCIE_DOE_SPDM_REQUEST (R356): the response goes to the host; a package without power answers none. -/
def execPcieDoeSpdmRequest (tag : Nat) (s : State) : Out :=
  match s.msg? tag with
  | some (.doe p _) =>
    if s.dark p then .next { s.dropMsg tag with hostAns := s.hostAns ++ [(tag, none)] }
    else .next ({ s.dropMsg tag with hostAns := s.hostAns ++ [(tag, some s.spdmReply)] }.useFresh)
  | _ => .fault .noSuchStep

/-! ## Fatal errors (R20, R449, R451 to R453) -/

/-- The number of a hold entry's state in a dump (R452). -/
def HoldState.number : HoldState → Nat
  | .opened => 0
  | .fired => 1
  | .held => 2
  | .failed => 3

namespace State

/-- Cores of a die. -/
def coresOf (d : Nat) : List Nat := (List.range 144).flatMap (fun n => (List.range 8).map (fun i => sliceCore d n + i))

/-- The 32-byte entry of a Ready firing (R54). (DESIGN CHOICE, log 80) -/
def readyEntry (f : Firing) : BitVec 256 :=
  BitVec.ofNat 56 f.hdr ++ Config.recAddr f.key ++ BitVec.ofNat 48 f.age ++ BitVec.ofNat 32 (f.ticket.getD 0)
    ++ BitVec.ofNat 6 f.ctx ++ BitVec.ofNat 3 f.head.prio ++ BitVec.ofBool f.ticket.isSome ++ BitVec.ofNat 8 f.tries
    ++ BitVec.ofBool f.pin ++ BitVec.ofNat 24 (if f.pin then f.core else 0) ++ (0 : BitVec 21)

/-- A firing has an entry in a ready bank (R54): a Ready one, and a pinned one whose continuation is ordered (R55). -/
def inBank (f : Firing) : Bool := f.stage == .ready || (f.pin && match f.stage with | .ordered _ => true | _ => false)

/-- What a die's section holds (R452): DSTAT and workspace pointer of every core, the ready banks, the hold entries, the
duplicate tables, the trace buffers and the control registers. (DESIGN CHOICE, log 16) -/
def dumpContents (s : State) (d : Nat) : List (List Nat) :=
  let cores := (coresOf d).map (fun c =>
    [c, (s.dstat c).toNat, match s.onCoreFiring c with | some f => f.wp | none => 0])
  let ready := (s.firings.filter (fun e => inBank e.2 && e.2.die == d)).map (fun e =>
    [e.2.bank, (readyEntry e.2).toNat] ++ e.2.args.map (·.toNat))
  let holds := (s.holds.filter (fun e => dieOf e.2.slice == d)).map (fun e =>
    [e.2.slice, e.2.desc, e.2.handle, e.2.ctx, e.2.gen.toNat, e.2.pa, e.2.len, e.2.due, e.2.expc, e.2.state.number]
      ++ e.2.marked)
  let dups := (s.die d).dups.map (fun u => [u.slice, u.core, u.seq.toNat] ++ u.vals.map (fun v => v.2.toNat))
  let bufs := [(s.die d).tbuf.map (fun r => r.toNat)]
  let die : List CtlReg := [.patience, .dspill, .actfc, .grptab, .preemptwin, .spawnq, .trring, .trctl]
  let regs := [die.map (fun r => (s.ctlGet r (d * 2048) 0 0).toNat)]
    ++ [(List.range 64).map (fun i => (s.ctlGet .cxwt (d * 2048) 0 i).toNat)
      ++ (List.range 4096).map (fun i => (s.ctlGet .bktab (d * 2048) 0 i).toNat)]
    ++ (List.range 64).map (fun x => ([.ticketw, .xmapbase, .xmapcnt, .ptroot, .detctl, .rgntab, .rgncnt, .dettab, .detn,
      .detstat, .captab, .capcnt, .syshdr, .fltch, .cxrun] : List CtlReg).map (fun r => (s.ctlGet r (d * 2048) x 0).toNat))
    ++ (coresOf d).map (fun c => [(s.ctlGet .spown c 0 0).toNat]
      ++ (List.range 8).flatMap (fun i => [(s.ctlGet (.evsel i) c 0 0).toNat, (s.ctlGet (.evcnt i) c 0 0).toNat])
      ++ (List.range 16).map (fun i => (s.ctlGet .rctab c 0 i).toNat))
    ++ (List.range 144).map (fun n =>
      let c := sliceCore d n
      [(s.ctlGet .l1co c 0 0).toNat, (s.ctlGet .wsarea c 0 0).toNat]
        ++ (List.range 13).flatMap (fun i => [(s.ctlGet .inbmin c 0 i).toNat, (s.ctlGet .inbcap c 0 i).toNat]))
  cores ++ ready ++ holds ++ dups ++ bufs ++ regs

/-- The bytes of a die's section after its header; the spill area bounds them. -/
def dumpBytes (s : State) (d : Nat) : List Byte :=
  (Config.dumpBody (s.dumpContents d)).take ((s.die d).dspillSize.toNat * 2 ^ 24 - 256)

/-- The header of a section (R453). -/
def dumpHeader (s : State) (d cause lostmap : Nat) (body : List Byte) : List Byte :=
  toLe 4 1 ++ toLe 4 (d % 16) ++ toLe 4 cause ++ toLe 4 lostmap ++ toLe 8 s.time.toNat ++ toLe 8 (256 + body.length)
    ++ sha256 body ++ List.replicate 192 0

/-- The offset on its die of the spill area (R56, R318). -/
def spillBase (s : State) (d : Nat) : Nat := (s.die d).dspillBase.toNat * 2 ^ 24

/-- Write a die's section at the base of its spill area (R452). -/
def writeSection (s : State) (d cause lostmap : Nat) : State :=
  let body := s.dumpBytes d
  s.setCells ((s.dumpHeader d cause lostmap body ++ body).zipIdx.map (fun b => (d * 2 ^ 36 + s.spillBase d + b.2, b.1)))

/-- The cassette whose engines a planned step belongs to. -/
def engineOf (i : Instr) : Option Nat :=
  match i with
  | .engineCommandArrival _ => none
  | .mxldPerform k => some k
  | .mxflipPerform k => some k
  | .mxrunPiece k => some k
  | .copySector k _ => some k
  | .completionRecord k _ => some k
  | .qfenceComplete k => some k
  | .engineRewalk k _ => some k
  | .enginePreempt k _ => some k
  | _ => none

/-- A fatal error (R452): issue and engines stop, STATE is 0x0F, vector 0 is raised and every die that is not lost writes
its section. (PRESUMED, log 61) -/
def fatal (s : State) (p cause : Nat) : State :=
  let q := s.pkg p
  if q.dump.isSome then s
  else
    let ds := (List.range 16).map (fun d => p * 16 + d)
    let lostmap := s.dieMap p (fun d => d.gone)
    let sect := ds.map (fun d =>
      if (s.die d).gone then (0, 0) else (d % 16 * 0xC00000000 + s.spillBase d, 256 + (s.dumpBytes d).length))
    let t := s.time
    let w := ds.foldl (fun w d => if (s.die d).gone then w else w.writeSection d cause lostmap) s
    let s := { s with
      mem := w.mem
      agenda := s.agenda.filter (fun e => match engineOf e.2 with | some k => k / 4096 != p | none => true) }
    (s.setPkg p { q with st := 0x0F, dump := some (cause, lostmap, t, sect) }).raise p 0

end State

/-- FATAL_ERROR (R451, R452). -/
def execFatalError (p cause : Nat) (s : State) : Out :=
  if cause = 0 ∨ 5 < cause then .fault .noSuchStep else .next (s.fatal p cause)

/-- JUNCTION_WARNING (R20): at 95 °C the die's issue cap is lowered; only time changes (R18). The spec does not say when it is
raised again: HOT stays until reset. (DESIGN CHOICE, log 79) -/
def execJunctionWarning (d : Nat) (s : State) : Out := .next (s.setDie d { s.die d with hot := true })

/-- JUNCTION_CRITICAL (R20): at 110 °C the module stops with a fatal error. -/
def execJunctionCritical (d : Nat) (s : State) : Out := .next (s.fatal (d / 16) 0x01)

/-- DIE_LOST (R449): the loss of a die is a fatal error of the module. -/
def execDieLost (d : Nat) (s : State) : Out := .next ((s.setDie d { s.die d with gone := true }).fatal (d / 16) 0x02)

/-! ## Errors of arrays (R444 to R447, R450) -/

/-- The slice of its die that homes a line (R445). -/
def State.sliceOf (s : State) (line : Nat) : Nat := s.bucketEntry (s.homeDie (line * 128)) (bucket (line * 128))

/-- A corrected error of a cassette's SRAM is counted (R445). -/
def State.fixCas (s : State) (k : Nat) : State := s.setCas k { s.cas k with corrected := (s.cas k).corrected + 1 }

/-- An error of a line (R445): a corrected one is counted in its slice or cassette, and the slice's with their time (R447); one
that cannot be corrected stays until the line is replaced; a DRAM that does not answer stays silent.
(DEDUCED, log 60; DESIGN CHOICE, log 87) -/
def execLineError (tag : Nat) (s : State) : Out :=
  match s.msg? tag with
  | some (.lineError l kind) =>
    let s := s.dropMsg tag
    match kind with
    | .uncorrectable => .next (if s.bad.contains l then s else { s with bad := s.bad ++ [l] })
    | .silent => .next (if s.silent.contains l then s else { s with silent := s.silent ++ [l] })
    | .corrected =>
      if sliceBase ≤ l * 128 then .next (s.fixCas (keyCas (l * 128)))
      else
        let d := s.homeDie (l * 128)
        let n := s.sliceOf l
        let x := s.die d
        .next (s.setDie d { x with
          corrected := x.corrected.set n (x.corrected.get n 0 + 1)
          recent := (x.recent.filter (fun e => decide (s.time.toNat < e.2 + 2 ^ 30))) ++ [(n, s.time.toNat)] })
  | _ => .fault .noSuchStep

/-- An error of a line of an L1 (R445): a corrected one is counted in its cassette; one that cannot be corrected stays until the
line is replaced, discarded or written whole. (DEDUCED, log 101) -/
def execL1Error (tag : Nat) (s : State) : Out :=
  match s.msg? tag with
  | some (.l1Error k line fixed) =>
    let s := s.dropMsg tag
    if fixed then .next (s.fixCas k)
    else
      let q := s.cas k
      .next (s.setCas k { q with lines := q.lines.map (fun l => if l.line = line then { l with bad := true } else l) })
  | _ => .fault .noSuchStep

/-- An error of a lane of a vector register of the firing on a core (R445, R446). (DEDUCED, log 60) -/
def execLaneError (tag : Nat) (s : State) : Out :=
  match s.msg? tag with
  | some (.laneError c n fixed) =>
    let s := s.dropMsg tag
    if fixed then .next (s.fixCas (casOf c))
    else
      let k := s.core c
      .next (s.setCore c { k with run := k.run.map (fun f =>
        { f with badVecs := if f.badVecs.contains n then f.badVecs else f.badVecs ++ [n] }) })
  | _ => .fault .noSuchStep

/-- A record of a die's trace buffer is lost to an error of the buffer, and counted in the next LOSS record (R450).
(DEDUCED, log 60) -/
def execBufError (tag : Nat) (s : State) : Out :=
  match s.msg? tag with
  | some (.bufError d) =>
    let s := s.dropMsg tag
    let x := s.die d
    .next (if x.tbuf.isEmpty then s else s.setDie d { x with tbuf := x.tbuf.drop 1, drops := x.drops + 1 })
  | _ => .fault .noSuchStep

/-! ## Reset (R459) -/

/-- The package that holds the byte of a key. -/
def keyPkg (k : Nat) : Nat :=
  if k < cxlBase then k / 2 ^ 40 else if k < sliceBase then (k - cxlBase) / 2 ^ 44 else pkgOf ((k - sliceBase) / 2 ^ 19)

/-- A reset writes zero to the byte: bonded DRAM or SRAM of the package (R459). -/
def resetZeroes (p k : Nat) : Bool := keyPkg k == p && (decide (k < cxlBase) || decide (sliceBase ≤ k))

/-- The cores a message comes from or goes to, as packages: a reset of one of them ends it. -/
def msgIn (s : State) (p : Nat) (m : Msg) : Bool :=
  match m with
  | .lockReq _ h _ _ _ => pkgOf h == p
  | .lockBatch _ q _ _ => q == p
  | .lockRel _ h _ _ _ => pkgOf h == p
  | .chres c _ _ _ => pkgOf c == p
  | .answer _ _ c _ _ _ => pkgOf c == p
  | .spawn a b _ => pkgOf a == p || pkgOf b == p
  | .packet q => pkgOf q.src == p || pkgOf q.dest == p
  | .wback c _ _ _ _ => pkgOf c == p
  | .atom a => pkgOf a.core == p || s.homePkg a.key == p
  | .atomAck of _ _ => match s.msg? of with
    | some (.atom a) => pkgOf a.core == p || s.homePkg a.key == p
    | _ => true
  | .hand c _ _ _ _ _ _ _ => pkgOf c == p
  | .handDone _ _ c _ _ => pkgOf c == p
  | .tlb c _ _ _ _ => pkgOf c == p
  | .ctl a => pkgOf a.core == p || pkgOf a.inst == p
  | .bar c _ _ _ _ => pkgOf c == p
  | .sync _ c _ _ _ _ => pkgOf c == p
  | .swinit c _ _ _ _ => pkgOf c == p
  | .group c _ _ _ _ => pkgOf c == p
  | .gld c _ _ _ _ _ _ => pkgOf c == p
  | .solo c _ _ _ _ _ _ _ => pkgOf c == p
  | .fill _ _ c _ _ _ _ => pkgOf c == p
  | .read c _ _ _ _ => pkgOf c == p
  | .l1Error k _ _ => k / 4096 == p
  | .eng c _ => pkgOf c.core == p
  | .tret c _ _ _ _ => pkgOf c == p
  | .dbg r => pkgOf r.target == p
  | .hostWrite q _ _ _ => q == p
  | .hostRead q _ _ => q == p
  | .facc q _ => q == p
  | .bar0 q _ _ => q == p
  | .bar0Read q _ _ => q == p
  | .cfgWrite q _ _ => q == p
  | .lineError l _ => keyPkg (l * 128) == p
  | .laneError c _ _ => pkgOf c == p
  | .bufError d => d / 16 == p
  | .cfgRead q _ _ => q == p
  | .sizeBar q _ => q == p
  | .hostMem _ _ => false
  | .flit q _ _ _ _ _ _ => q == p
  | .doe q _ => q == p

/-- A package is reachable again (R433): it is no longer lost to any other, and the releases kept for it go out.
(DEDUCED, log 56) -/
def State.reachable (s : State) (p : Nat) : State :=
  let kept := s.dies.flatMap (fun e => (e.2.keptRel.filter (fun k => pkgOf k.1 == p)).map (fun k => (e.1, k)))
  let s := { s with
    pkgs := s.pkgs.map (fun e => (e.1, { e.2 with lost := e.2.lost.filter (· != p) }))
    dies := s.dies.map (fun e => (e.1, { e.2 with keptRel := e.2.keptRel.filter (fun k => pkgOf k.1 != p) })) }
  kept.foldl (fun s k => s.post (.lockRel k.1 k.2.1 k.2.2.1 k.2.2.2.1 k.2.2.2.2) .lockRelease) s

/-- The spoke links of a package are brought up with it (R357), at both ends, and what was on its way over them is gone; a package
without power brings none up. (DEDUCED, log 56) -/
def State.linksUp (s : State) (p : Nat) (ok : Bool) : State :=
  let ends := (List.range 12).map (s.farEnd p)
  let x := if ok then Link.reset else { Link.reset with up := false }
  let s := { s with msgs := s.msgs.filter (fun m => match m.2 with | .flit q l _ _ _ _ _ => !ends.contains (q, l) | _ => true) }
  let s := ends.foldl (fun s e => s.setLink e.1 e.2 x) s
  s.setPkg p { s.pkg p with links := if ok then [] else (List.range 12).map (fun l => (l, x)) }

/-- RESET (R356, R357, R459): the package comes up in STATE 0x02 with its DRAM and SRAM zero, its caches empty, its spoke links up
and every register at its default; lines of the CXL tier that only L2 held are free values. Where the firmware image fails its
verification, STATE stays 0x00 and the package has no power. (DESIGN CHOICE, log 17; DEDUCED, log 48; DEDUCED, log 56) -/
def execReset (p : Nat) (s : State) : Out :=
  let lostLines := s.dirty.filter (fun l => decide (cxlBase ≤ l * 128 ∧ l * 128 < sliceBase) && keyPkg (l * 128) == p)
  let gone := (s.firings.filter (fun e => e.2.die / 16 == p)).map (·.1)
  let changes := s.changes.filter (fun e => e.1 / 4096 != p)
  let cells := lostLines.flatMap (fun l => (List.range 128).map (fun i =>
    (l * 128 + i, Config.cxlByte ((s.fresh + 1) * 2 ^ 80 + l * 128 + i))))
  let s : State := { s with
    changes := changes
    mem := s.mem.filter (fun c => !resetZeroes p c.1)
    bad := s.bad.filter (fun l => !resetZeroes p (l * 128))
    silent := s.silent.filter (fun l => !resetZeroes p (l * 128))
    dirty := s.dirty.filter (fun l => keyPkg (l * 128) != p)
    streamed := s.streamed.filter (fun l => keyPkg (l * 128) != p)
    syncs := s.syncs.filter (fun k => keyPkg k != p)
    cores := s.cores.filter (fun e => pkgOf e.1 != p)
    cass := s.cass.filter (fun e => e.1 / 4096 != p)
    dies := s.dies.filter (fun e => e.1 / 16 != p)
    ctxs := []
    firings := s.firings.filter (fun e => !gone.contains e.1)
    pend := s.pend.filter (fun w => pkgOf w.core != p && keyPkg w.key != p)
    notices := s.notices.filter (fun n => pkgOf n.1 != p)
    pkgs := s.pkgs.map (fun (e : Nat × Pkg) => (e.1, { e.2 with peers := e.2.peers.del p }))
    groups := s.groups.filter (fun e => keyPkg e.1 != p)
    holds := s.holds.filter (fun e => pkgOf e.2.slice != p)
    holdWait := s.holdWait.filter (fun e => pkgOf e.1 != p)
    chans := s.chans.filter (fun e => keyPkg e.1 != p)
    msgs := s.msgs.filter (fun m => !msgIn s p m.2)
    agenda := s.agenda.filter (fun e => match planOf e.2 with | some f => !gone.contains f | none => true) }
  let ok := decide (s.choice 2 = 0)
  let s := s.linksUp p ok
  let s := (s.dropChoice.setPkg p { Pkg.reset with
    st := if ok then 0x02 else 0x00, meas := if ok then bootMeas s.fresh else [], links := (s.pkg p).links }).useFresh
  .next ((s.setCells cells).reachable p)

end Sys2Proof.Machine
end

