-- ==== Sys2Proof/Machine/Links.lean ====
section
/-! DEFINITION. Spoke links (R348), end-to-end delivery and the loss of a package (R433,
R448), slice retirement (R447), and the claims after a restore (R454). -/

namespace Sys2Proof.Machine

/-! ## Spoke flits (R348) -/

/-- CRC-32C of a list of bytes: reflected, started and ended with all ones. (PRESUMED, log 57) -/
def crc32c (bs : List Byte) : BitVec 32 :=
  let bit := fun (r : BitVec 32) => if r.getLsbD 0 then (r >>> 1) ^^^ 0x82F63B78#32 else r >>> 1
  ~~~(bs.foldl (fun r b => bit (bit (bit (bit (bit (bit (bit (bit (r ^^^ b.zeroExtend 32))))))))) 0xFFFFFFFF#32)

/-- The LCRC of a flit: over the 56 data bytes and bits 63:32 of the trailer. (PRESUMED, log 57) -/
def flitCrc (fseq ack : BitVec 12) (cred : BitVec 8) (data : List Byte) : BitVec 32 :=
  crc32c (data ++ toLe 4 (fseq ++ ack ++ cred).toNat)

/-- The flits kept after an acknowledgement of one: those after it. -/
def afterAck (ack : BitVec 12) (l : List (BitVec 12 × BitVec 8 × Flit)) :
    List (BitVec 12 × BitVec 8 × Flit) :=
  if l.any (fun e => e.1 == ack) then (l.dropWhile (fun e => e.1 != ack)).drop 1 else l

/-- The credits a flit returns: a bit for each network and buffer class that it owes some to (R341, R347, R348).
(DESIGN CHOICE, log 58) -/
def credBits (owed : List Nat) : BitVec 8 :=
  owed.zipIdx.foldl (fun v e => if e.1 = 0 then v else v ||| BitVec.ofNat 8 (2 ^ e.2)) 0

/-- The far end sends again from its replay buffer, starting at the first flit not acknowledged, each with
the credits it returned (R348). -/
def State.resendFrom (s : State) (p l : Nat) : State :=
  let f := s.farEnd p l
  let x := s.spoke f.1 f.2
  x.replay.foldl (fun s e =>
    s.hold (.flit p l e.1 (x.expect - 1) e.2.1 e.2.2 (flitCrc e.1 (x.expect - 1) e.2.1 e.2.2.data))) s

namespace State

/-- Flits of a link that wait leave it while the replay buffer has room for them, numbered modulo 4,096, and each returns
one credit of every network and buffer class that the end owes some to (R348); fuel bounds their count. (DESIGN CHOICE, log 58) -/
def pump (s : State) (p l : Nat) : Nat → State
  | 0 => s
  | n + 1 =>
    let x := s.spoke p l
    match x.queue with
    | [] => s
    | f :: t =>
      if !x.up || x.replay.length ≥ 256 then s
      else
        let far := s.farEnd p l
        let cred := credBits x.owed
        let s := s.setLink p l { x with
          queue := t, replay := x.replay ++ [(x.fseq, cred, f)], fseq := x.fseq + 1, owed := x.owed.map (· - 1) }
        (s.hold (.flit far.1 far.2 x.fseq (x.expect - 1) cred f
          (flitCrc x.fseq (x.expect - 1) cred f.data))).pump p l n

end State

/-! ## Packets (R340, R341, R347, R348) -/

/-- A packet as the network sees it (R340). (DESIGN CHOICE, log 58) -/
structure Wire where
  src : Nat
  dest : Nat
  seq : BitVec 16
  ctx : Nat
  vn : Nat
  cls : Nat
  cache : Bool
  /-- The request's tag, which its response carries too (R340). -/
  tag : Nat
  body : List Byte
deriving DecidableEq, Repr

/-- A packet's flits of 64 bytes, at most 16 (R340). -/
def Wire.flits (w : Wire) : Nat := Nat.min 16 ((w.body.length + 63) / 64)

/-- The 16-byte header of a message's packet (R340). (DESIGN CHOICE, log 58) -/
def Wire.header (w : Wire) (kind : Nat) : BitVec 128 :=
  BitVec.ofNat 24 w.dest ++ BitVec.ofNat 24 w.src ++ w.seq ++ BitVec.ofNat 6 w.ctx ++ Config.packetKind kind
    ++ BitVec.ofNat 2 w.vn ++ BitVec.ofNat 4 w.cls ++ BitVec.ofNat 5 w.flits ++ BitVec.ofBool w.cache ++ BitVec.ofNat 10 w.tag
    ++ (0 : BitVec 30)

/-- The bytes of a message's packet: header, then whole flits (R340). -/
def Wire.bytes (w : Wire) (tag : Nat) : List Byte :=
  toLe 16 (w.header tag).toNat ++ (w.body ++ List.replicate 1024 0).take (64 * w.flits)

/-- The pieces of 56 bytes of a packet, the last one filled with zeros (R348); fuel bounds their count.
(DESIGN CHOICE, log 58) -/
def pieces (tag : Nat) (second : Bool) (bs : List Byte) : Nat → List Flit
  | 0 => []
  | n + 1 =>
    if bs.length ≤ 56 then [⟨tag, second, bs ++ List.replicate (56 - bs.length) 0, true⟩]
    else ⟨tag, second, bs.take 56, false⟩ :: pieces tag second (bs.drop 56) n

namespace State

/-- A packet of message tag leaves a package, for a core or slice of another, in the buffer class it has reached
(R347, R348); none leaves where no link is in service. (DESIGN CHOICE, log 58) -/
def sendOn (s : State) (p tag : Nat) (second : Bool) (bs : List Byte) (src dest : Nat) (came : Option Nat) : State :=
  match s.spokeLink p src dest came with
  | none => s
  | some l =>
    let x := s.spoke p l
    let fs := pieces tag (second || wraps (s.extents p) p (l / 2)) bs 32
    (s.setLink p l { x with queue := x.queue ++ fs }).pump p l 256

end State

/-- The source of a packet of the host (R340). -/
def hostSrc : Nat := 0xFFFFFF

/-- The context a core's requests belong to. -/
def State.ctxOf (s : State) (c : Nat) : Nat := (s.core c).run.elim (s.core c).spown.toNat (·.ctx)

/-- The packet of a message (R340, R341), a response under its request's tag: a request goes on network 0 to the cache router of its home slice, or to the unit of a
cassette; an answer on network 1 to its core; a spawn, fork, debug request or route-class packet on network 2 to the compute
router of its core; barrier tokens, what updates a sync word, notices to a dispatcher, and class 15, which control accesses take
(R315), on network 3. A pod's barrier is at package 0. A lock request that an entry router has fanned out is in its package
already (R71). (DESIGN CHOICE, log 58) -/
def wireOf (s : State) (tag : Nat) (m : Msg) : Option Wire :=
  let packet := fun (vn : Nat) (slice : Bool) (src dest x : Nat) =>
    some (Wire.mk src dest 0 x vn 0 slice tag (Config.packetBody tag))
  let reply := fun (req src dest x : Nat) => some (Wire.mk src dest 0 x 1 0 false req (Config.packetBody tag))
  match m with
  | .lockReq f h _ _ _ =>
    (s.fir? f).bind (fun x => packet 0 true (if pkgOf h = x.die / 16 then State.dieCore x.die else h) h x.ctx)
  | .lockBatch f _ els _ =>
    (s.fir? f).bind (fun x => (els.head?).bind (fun e => packet 0 true (State.dieCore x.die) (s.home e.addr) x.ctx))
  | .lockRel d h x _ _ => packet 0 true (State.dieCore d) h x
  | .atom a => some ⟨a.core, s.home a.key, a.seq, a.ctx, 0, 0, true, tag, Config.packetBody tag⟩
  | .read c _ x _ k => packet 0 true c (s.home k) x
  | .wback c x _ l _ => packet 0 true c (s.home (l * 128)) x
  | .gld c x h _ _ _ _ => packet 0 true c (s.home (s.groupKey c h)) x
  | .group c x h _ _ => packet 0 true c (s.home (s.groupKey c h)) x
  | .chres c _ v _ => ((s.core c).run).bind (fun f => match s.devKey c f.ctx v .load with
      | .ok k => packet 0 true c (s.home k) f.ctx
      | .error _ => none)
  | .hand c x va _ _ _ _ _ => (s.findRegion (pkgOf c) x va).bind (fun i => packet 0 true c (s.home (s.rgnKey (pkgOf c) x i)) x)
  | .eng c _ => packet 0 false c.core (c.cas * 8) c.ctx
  | .swinit c _ _ _ b => packet 0 false b c (s.ctxOf b)
  | .answer q a b _ _ _ => reply q a b (s.ctxOf b)
  | .handDone q a b _ _ => reply q a b (s.ctxOf b)
  | .atomAck of _ _ => match s.msg? of with
    | some (.atom a) => reply of (s.home a.key) a.core a.ctx
    | _ => none
  | .fill q a b x _ _ _ => reply q a b x
  | .spawn a b f => (s.fir? f).bind (fun x => packet 2 false a b x.ctx)
  | .dbg r => packet 2 false (State.dieCore (s.homeDie r.chan)) r.target r.ctx
  | .packet q => some ⟨q.src, q.dest, 0, q.ctx, if q.cls = 15 then 3 else 2, q.cls, false, tag, q.payload⟩
  | .bar c x k _ _ => packet 3 false c (if k = barKey .pod 0 then 0 else c) x
  | .sync a b _ _ _ _ => packet 3 false a b (s.ctxOf a)
  | .tret c x fid _ _ => (s.firings.find? (fun e => e.2.id == fid)).bind (fun e => packet 3 false c (State.dieCore e.2.die) x)
  | .ctl a =>
    match ctlOf a.num with
    | some r => if r.kind == .ctx && a.write then none
      else some ⟨a.core, a.inst, 0, a.ctx, 3, 15, false, tag, Config.packetBody tag⟩
    | none => none
  | .hostWrite p off d _ => some ⟨hostSrc, s.home (bar2Key p off), 0, 0, 0, 0, true, tag, d⟩
  | .hostRead p off _ => some ⟨hostSrc, s.home (bar2Key p off), 0, 0, 0, 0, true, tag, []⟩
  | _ => none

/-- The packet of a part of a store (R340, R341). (DESIGN CHOICE, log 58) -/
def storeWire (s : State) (p : PStore) : Wire := ⟨p.core, s.home p.key, 0, p.ctx, 0, 0, true, p.tag, p.data⟩

/-- Source and destination package of a packet (R448); the host's enters its package directly (R349). -/
def Wire.route (w : Wire) : Nat × Nat := if w.src = hostSrc then (pkgOf w.dest, pkgOf w.dest) else (pkgOf w.src, pkgOf w.dest)

/-- Source and destination package of a message (R448). -/
def msgRoute (s : State) (tag : Nat) (m : Msg) : Option (Nat × Nat) := (wireOf s tag m).map Wire.route

/-- A request of package p is outstanding at package q (R448): on its way there, or fanned out in it (R71). -/
def outstandingAt (s : State) (p q tag : Nat) (m : Msg) : Bool :=
  msgRoute s tag m == some (p, q) || (match m with
    | .lockReq f h _ _ _ => pkgOf h == q && (s.fir? f).any (fun x => x.die / 16 == p && p != q)
    | _ => false)

namespace State

/-- End-to-end state of a package toward another. -/
def peer (s : State) (p q : Nat) : Peer := (s.pkg p).peers.get q ⟨0, [], 0⟩

/-- Replace it. -/
def setPeer (s : State) (p q : Nat) (x : Peer) : State := s.setPkg p { s.pkg p with peers := (s.pkg p).peers.set q x }

/-- A packet goes out on a link of its package. -/
def sendWire (s : State) (tag : Nat) (w : Wire) : State := s.sendOn (pkgOf w.src) tag false (w.bytes tag) w.src w.dest none

/-- A core's request to a lost package fails (R448): a core that waits for its answer takes a fault of class 0x21 with the
virtual address of the request, where it has one (R396), at the instruction that sent it, so many bytes before its pc. -/
def failCoreAt (s : State) (c va back : Nat) : State :=
  let pc := match (s.core c).run with | some f => f.pc - back | none => 0
  (s.gotAnswer c).takeFaultAt c { trapAt Cls.unreach va with pc := pc }

/-- The request of an instruction whose pc has gone on. -/
def failCore (s : State) (c va : Nat) : State := s.failCoreAt c va 12

/-- The packet of a message is on its way between packages, or waits there for an earlier one (R448). -/
def inTransit (s : State) (tag : Nat) : Bool := s.pkgs.any (fun e => e.2.peers.any (fun q => q.2.unacked.any (fun u => u.tag == tag)))

/-- A firing's lock requests to so many homes of a lost package fail (R433). -/
def failLocks (s : State) (f n : Nat) : State :=
  match s.fir? f with
  | none => s
  | some x =>
    let s := s.setFir { x with outstanding := x.outstanding - n, tryFailed := true }
    if x.outstanding ≤ n then s.planNow (.tryResult f) else s

/-- The acknowledgement of an applied atomic is on its way between packages. -/
def ackAway (s : State) (tag : Nat) : Bool :=
  s.msgs.any (fun m => match m.2 with | .atomAck of _ _ => of == tag && s.inTransit m.1 | _ => false)

/-- An atomic to or from a lost package fails (R448), and nothing acknowledges it. -/
def failAtom (s : State) (tag : Nat) (a : Atom) : State :=
  let s := { s with msgs := s.msgs.filter (fun m => match m.2 with | .atomAck of _ _ => of != tag | _ => true) }
  s.atomFail tag a Cls.unreach

/-- The request a message carries fails (R433, R448): the core that waits for it faults; what no core waits for is reported, or
ends. A response that goes to a lost package fails the core that waits for it. -/
def failMsg (s : State) (tag : Nat) (m : Msg) : State :=
  match m with
  | .lockReq f _ _ _ _ => (s.dropMsg tag).failLocks f 1
  | .lockBatch f _ els _ => (s.dropMsg tag).failLocks f (s.homesOf els).length
  | .lockRel d h x els mode =>
    let q := s.die d
    (s.dropMsg tag).setDie d { q with keptRel := q.keptRel ++ [(h, x, els, mode)] }
  | .spawn a _ f =>
    match s.fir? f with
    | some x => if x.src == .fork then ((s.dropMsg tag).forget f).notice a a x.ctx Cls.unreach 0 0 0 x.hdr
      else ((s.dropMsg tag).forget f).failCore a 0
    | none => s.dropMsg tag
  | .packet q => if (s.core q.dest).held.contains tag then s else (s.dropMsg tag).failCore q.src 0
  | .atom a => if a.applied && !s.ackAway tag then s else s.failAtom tag a
  | .atomAck of _ _ => match s.msg? of with
    | some (.atom a) => s.failAtom of a
    | _ => s.dropMsg tag
  | .read c waits _ va _ => if waits then (s.dropMsg tag).failCoreAt c va 0 else s.dropMsg tag
  | .wback c x va _ _ => ((s.dropMsg tag).countDrain c).notice c c x Cls.unreach va 0 0 0
  | .ctl a => (s.dropMsg tag).failCore a.core 0
  | .group c _ _ _ _ => (s.dropMsg tag).failCore c 0
  | .chres c _ va _ => (s.dropMsg tag).failCore c va
  | .gld c x _ _ _ _ va => (s.dropMsg tag).notice c c x Cls.unreach va 0 0 0
  | .hand c _ va _ _ _ _ _ => (s.dropMsg tag).failCore c va
  | .eng c _ => (s.dropMsg tag).failCore c.core 0
  | .bar c _ _ _ _ => (s.dropMsg tag).failCore c 0
  | .swinit _ _ _ _ b => (s.dropMsg tag).failCore b 0
  | .sync _ _ _ _ _ back => match back with
    | some c => (s.dropMsg tag).failCore c 0
    | none => s.dropMsg tag
  | .tret c _ _ _ _ => (s.dropMsg tag).failCore c 0
  | .dbg r => (s.dropMsg tag).dbgFree r
  | .answer _ _ c _ _ _ => (s.dropMsg tag).failCore c 0
  | .handDone _ _ c _ _ => (s.dropMsg tag).failCore c 0
  | .fill _ _ c x _ _ _ => (s.dropMsg tag).notice c c x Cls.unreach 0 0 0 0
  | _ => s

/-- A packet that crosses a package boundary gets a sequence number, its source keeps it, and it goes out (R448). -/
def numberWire (s : State) (tag : Nat) (part : Option Nat) (w : Wire) : State :=
  let r := w.route
  if r.1 = r.2 then s
  else
    let x := s.peer r.1 r.2
    (s.setPeer r.1 r.2 { x with
      next := x.next + 1, unacked := x.unacked ++ [⟨x.next, tag, part, 1, s.time.toNat, false⟩] }).sendWire tag w

/-- A packet's destination is declared lost to its source (R448). -/
def toLost (s : State) (w : Wire) : Bool := (s.pkg w.route.1).lost.contains w.route.2

/-- The packet of a message is numbered where it crosses a package boundary; one to a lost package fails at once (R448). -/
def number (s : State) (tag : Nat) (m : Msg) : State :=
  match wireOf s tag m with
  | none => s
  | some w => if s.toLost w then s.failMsg tag m else s.numberWire tag none w

/-- The parts of stores that have left since another state are numbered where they cross a package boundary (R448); one to a
lost package is refused as it would be performed. -/
def numberStores (s was : State) : State :=
  (s.pend.filter (fun p => p.blk.isNone && s.homePkg p.key != pkgOf p.core && !was.pend.contains p)).foldl
    (fun s p => if s.toLost (storeWire s p) then s else s.numberWire p.tag (some p.key) (storeWire s p)) s

/-- The packet a source keeps (R448): of a message, or of a part of a store. -/
def keptWire (s : State) (u : Unacked) : Option Wire :=
  match u.part with
  | none => (s.msg? u.tag).bind (wireOf s u.tag)
  | some k => (s.pend.find? (fun p => p.tag == u.tag && p.key == k)).map (storeWire s)

/-- A packet with a tag has come to its destination package (R448). -/
def arrived (s : State) (dest tag : Nat) : State :=
  { s with pkgs := s.pkgs.map (fun (e : Nat × Pkg) => (e.1, { e.2 with peers := e.2.peers.map (fun (q : Nat × Peer) =>
      if q.1 = dest then
        (q.1, { q.2 with unacked := q.2.unacked.map (fun u => if u.tag = tag then { u with here := true } else u) })
      else q) })) }

/-- A packet that came in at a link is whole at a package: it has come to its destination, or goes on (R347), in the dimension it
came by the way it came. -/
def packetHere (s : State) (p l : Nat) (f : Flit) (bs : List Byte) : State :=
  let h := leNat (bs.take 16)
  let dest := h / 2 ^ 104
  if pkgOf dest = p then s.arrived p f.tag
  else s.sendOn p f.tag f.second (bs.take (16 + 64 * (h / 2 ^ 41 % 32))) (h / 2 ^ 80 % 2 ^ 24) dest
    (some ((l / 2) ^^^ 1))

end State

/-- The place among the credits owed of a packet's network and buffer class (R341, R347, R348). (DESIGN CHOICE, log 58) -/
def creditOf (f : Flit) (bs : List Byte) : Nat := 2 * (leNat (bs.take 16) / 2 ^ 50 % 4) + f.second.toNat

/-- SPOKE_FLIT_RECEIVE (R348): a flit with a bad LCRC is discarded and sent again; a good one in order is taken, acknowledged to
the far end, and its credit is owed; with the last one of a packet the packet is whole. (DESIGN CHOICE, log 58) -/
def execSpokeFlitReceive (tag : Nat) (s : State) : Out :=
  match s.msg? tag with
  | some (.flit p l fseq ack cred f lcrc) =>
    let s := s.dropMsg tag
    let x := s.spoke p l
    if !x.up then .next s
    else if f.data.length != 56 || lcrc != flitCrc fseq ack cred f.data then .next (s.resendFrom p l)
    else
      let x := { x with acked := ack, replay := afterAck ack x.replay }
      if fseq != x.expect then .next (s.setLink p l x)
      else
        let bs := x.received ++ f.data
        let s := s.setLink p l { x with
          cred := cred, expect := x.expect + 1, owed := x.owed.modify (creditOf f bs) (· + 1)
          received := if f.last then [] else bs }
        let far := s.farEnd p l
        let y := s.spoke far.1 far.2
        let s := (s.setLink far.1 far.2 { y with acked := fseq, replay := afterAck fseq y.replay }).pump far.1 far.2 256
        .next (if f.last then s.packetHere p l f bs else s)
  | _ => .fault .noSuchStep

/-- A link that is out of service holds nothing (R448). -/
def Link.out (x : Link) : Link := { x with up := false, queue := [], replay := [], received := [] }

/-- LINK_OUT_OF_SERVICE (R448): neither end of the link carries traffic. -/
def execLinkOutOfService (p l : Nat) (s : State) : Out :=
  if l ≥ 12 then .fault .noSuchStep
  else
    let f := s.farEnd p l
    let s := s.setLink p l (s.spoke p l).out
    .next (s.setLink f.1 f.2 (s.spoke f.1 f.2).out)

/-! ## End to end (R433, R448) -/

/-- END_TO_END_ACK (R448): the destination acknowledges in order, and the source keeps only what follows. -/
def execEndToEndAck (p q seq : Nat) (s : State) : Out :=
  let x := s.peer p q
  if !x.unacked.any (fun u => u.seq == seq) then .fault .notDue
  else
    let s := s.setPeer p q { x with unacked := x.unacked.filter (fun u => decide (seq < u.seq)) }
    .next (s.setPeer q p { s.peer q p with expect := seq + 1 })

/-- What is kept has waited 131,072 ck since it was sent (R448). -/
def Unacked.late (u : Unacked) (now : Nat) : Bool := decide (u.sent + 131072 ≤ now)

/-- END_TO_END_RESEND (R448): what has waited 131,072 ck is sent again, up to 16 sends. (DEDUCED, log 59) -/
def execEndToEndResend (p q : Nat) (s : State) : Out :=
  let x := s.peer p q
  let due := fun (u : Unacked) => u.late s.time.toNat && decide (u.sends < 16)
  if !x.unacked.any due then .fault .notDue
  else
    let s := s.setPeer p q { x with
      unacked := x.unacked.map (fun u => if due u then { u with sends := u.sends + 1, sent := s.time.toNat } else u) }
    .next ((x.unacked.filter due).foldl (fun s u => (s.keptWire u).elim s (s.sendWire u.tag)) s)

/-- PACKAGE_LOST (R433, R448): a package is declared lost to another after 16 sends, and every request outstanding to it
fails; a store to it is refused as it would be performed. (DEDUCED, log 59) -/
def execPackageLost (p q : Nat) (s : State) : Out :=
  let x := s.pkg p
  if p = q || x.lost.contains q || !(s.peer p q).unacked.any (fun u => decide (16 ≤ u.sends)) then .fault .notDue
  else
    let s := (s.setPkg p { x with lost := x.lost ++ [q] }).setPeer p q { s.peer p q with unacked := [] }
    let mine := s.msgs.filter (fun m => outstandingAt s p q m.1 m.2)
    .next (mine.foldl (fun s m => s.failMsg m.1 m.2) s)

/-! ## Slice retirement (R447) -/

/-- Neighbours of a slice in the 12 × 12 grid, in ascending slice number (R447). -/
def gridNear (n : Nat) : List Nat :=
  (if 12 ≤ n then [n - 12] else []) ++ (if n % 12 = 0 then [] else [n - 1]) ++ (if n % 12 = 11 then [] else [n + 1])
    ++ (if n + 12 < 144 then [n + 12] else [])

namespace State

/-- The buckets of a slice, ascending (R93). -/
def bucketsOf (s : State) (d n : Nat) : List Nat := (List.range 4096).filter (fun b => s.bucketEntry d b == n)

/-- ctl.BKTAB with the buckets of a slice given round-robin to its neighbours (R447). -/
def rebucket (s : State) (d n : Nat) (near : List Nat) : State :=
  let x := s.die d
  let t := (s.bucketsOf d n).zipIdx.foldl (fun t b => t.set b.1 (BitVec.ofNat 8 (near.getD (b.2 % near.length) n))) x.bktab
  s.setDie d { x with bktab := t }

/-- Hold entries of a slice (R447): every Open one fires as if its timer had expired, every Held one is released, and so is a
Failed one (R436). -/
def drainHolds (s : State) (slice : Nat) : State :=
  s.holds.foldl (fun s e =>
    if e.2.slice != slice then s
    else match e.2.state with
      | .opened => s.fireHold e.1 e.2 (s.groupAt e.2.desc) 1
      | .held | .failed => s.freeHold e.1 slice
      | _ => s) s

end State

/-- Firmware retires the slice (R447): more than 64 corrected errors within 2^30 ck, or a line that could not be corrected twice
in a row. (DEDUCED, log 60) -/
def State.failsOften (s : State) (d n : Nat) : Bool :=
  let x := s.die d
  decide (64 < (x.recent.filter (fun e => e.1 == n && decide (s.time.toNat < e.2 + 2 ^ 30))).length)
    || x.failing.any (fun l => s.sliceOf l == n && decide (2 ≤ (x.failing.filter (· == l)).length))

/-- SLICE_RETIREMENT (R447). (DEDUCED, log 60) -/
def execSliceRetirement (d n : Nat) (s : State) : Out :=
  let x := s.die d
  if n ≥ 144 || x.retired.contains n || !s.failsOften d n then .fault .notDue
  else if x.retired.length ≥ 16 then .next (s.fatal (d / 16) 0x04)
  else
    let near := (gridNear n).filter (fun m => !x.retired.contains m)
    match near with
    | [] => .next (s.fatal (d / 16) 0x05)
    | m :: _ =>
      let slice := sliceCore d n
      let first := sliceCore d m
      let s := s.drainHolds slice
      let s := s.clean (fun l => s.home (l * 128) == slice)
      let s := { s with
        holdWait := s.holdWait.map (fun (w : Nat × Nat) => if w.1 = slice then (first, w.2) else w) }
      let q := s.die d
      let s := s.setDie d { q with
        dups := q.dups.map (fun (u : Dup) => if u.slice = slice then { u with slice := first } else u)
        retired := q.retired ++ [n]
        corrected := q.corrected.del n, recent := q.recent.filter (fun e => e.1 != n)
        failing := q.failing.filter (fun l => s.sliceOf l != n) }
      let s := s.rebucket d n near
      .next (if s.holdWait.any (fun w => w.1 == first) then s.planNow (.holdAdmit first) else s)

/-! ## Restore (R454) -/

/-- A channel descriptor with slots between CIDX and PIDX. -/
def restored (d : Desc) : Bool :=
  d.ok && d.pidx != d.cidx && decide ((d.pidx - d.cidx).toNat ≤ 2 ^ d.cnt)

/-- Channel descriptors homed on a die, as its memory lists them. (DEDUCED, log 60) -/
def State.descsOf (s : State) (d : Nat) : List Nat :=
  ((s.mem.map (fun c => c.1 / 64 * 64)).eraseDups).filter (fun k =>
    decide (k < sliceBase) && s.homeDie k == d && restored (s.desc k))

/-- RESTORE_CLAIM (R454): the slots between CIDX and PIDX are claimed as new, whatever the drain counts of their senders;
releases kept for lost packages are discarded (R433). (DEDUCED, log 60) -/
def execRestoreClaim (d : Nat) (s : State) : Out :=
  let s := s.setDie d { s.die d with keptRel := [] }
  .next ((s.descsOf d).foldl (fun s k =>
    let q := s.desc k
    ((s.setClm k q.cidx).setChan k { Chan.reset with next := q.cidx, restored := some q.pidx }).planNow (.slotCount k)) s)

end Sys2Proof.Machine
end

