-- ==== Sys2Proof/Machine/Dispatch.lean ====
section
/-! DEFINITION. One arm per constructor of Instr. -/

namespace Sys2Proof.Machine

/-- What an instruction, or a step of the device, does: one direct call of its meaning. -/
def exec (i : Instr) (s : State) : Host.Outcome State Fault Refusal :=
  match i with
  | .add x => Sys2Proof.Machine.execAdd x s
  | .sub x => Sys2Proof.Machine.execSub x s
  | .addc x => Sys2Proof.Machine.execAddc x s
  | .subb x => Sys2Proof.Machine.execSubb x s
  | .mul x => Sys2Proof.Machine.execMul x s
  | .mulh x => Sys2Proof.Machine.execMulh x s
  | .mulhn x => Sys2Proof.Machine.execMulhn x s
  | .madd x => Sys2Proof.Machine.execMadd x s
  | .div x => Sys2Proof.Machine.execDiv x s
  | .divn x => Sys2Proof.Machine.execDivn x s
  | .rem x => Sys2Proof.Machine.execRem x s
  | .remn x => Sys2Proof.Machine.execRemn x s
  | .and x => Sys2Proof.Machine.execAnd x s
  | .or x => Sys2Proof.Machine.execOr x s
  | .xor x => Sys2Proof.Machine.execXor x s
  | .andn x => Sys2Proof.Machine.execAndn x s
  | .orn x => Sys2Proof.Machine.execOrn x s
  | .shl x => Sys2Proof.Machine.execShl x s
  | .shr x => Sys2Proof.Machine.execShr x s
  | .sar x => Sys2Proof.Machine.execSar x s
  | .rol x => Sys2Proof.Machine.execRol x s
  | .min x => Sys2Proof.Machine.execMin x s
  | .max x => Sys2Proof.Machine.execMax x s
  | .minn x => Sys2Proof.Machine.execMinn x s
  | .maxn x => Sys2Proof.Machine.execMaxn x s
  | .abs x => Sys2Proof.Machine.execAbs x s
  | .neg x => Sys2Proof.Machine.execNeg x s
  | .clz x => Sys2Proof.Machine.execClz x s
  | .ctz x => Sys2Proof.Machine.execCtz x s
  | .popc x => Sys2Proof.Machine.execPopc x s
  | .brev x => Sys2Proof.Machine.execBrev x s
  | .bswap x => Sys2Proof.Machine.execBswap x s
  | .sext ts x => Sys2Proof.Machine.execSext ts x s
  | .zext ts x => Sys2Proof.Machine.execZext ts x s
  | .bfx x => Sys2Proof.Machine.execBfx x s
  | .bfi x => Sys2Proof.Machine.execBfi x s
  | .sel x => Sys2Proof.Machine.execSel x s
  | .mov x => Sys2Proof.Machine.execMov x s
  | .li hd d k => Sys2Proof.Machine.execLi hd d k s
  | .lih hd d k => Sys2Proof.Machine.execLih hd d k s
  | .lea x => Sys2Proof.Machine.execLea x s
  | .cmp c x => Sys2Proof.Machine.execCmp c x s
  | .fcmp c x => Sys2Proof.Machine.execFcmp c x s
  | .pand x => Sys2Proof.Machine.execPand x s
  | .por x => Sys2Proof.Machine.execPor x s
  | .pxor x => Sys2Proof.Machine.execPxor x s
  | .pnot x => Sys2Proof.Machine.execPnot x s
  | .pmov x => Sys2Proof.Machine.execPmov x s
  | .fadd x => Sys2Proof.Machine.execFadd x s
  | .fsub x => Sys2Proof.Machine.execFsub x s
  | .fmul x => Sys2Proof.Machine.execFmul x s
  | .ffma x => Sys2Proof.Machine.execFfma x s
  | .ffms x => Sys2Proof.Machine.execFfms x s
  | .fnma x => Sys2Proof.Machine.execFnma x s
  | .fdiv x => Sys2Proof.Machine.execFdiv x s
  | .fsqrt x => Sys2Proof.Machine.execFsqrt x s
  | .fmin nan x => Sys2Proof.Machine.execFmin nan x s
  | .fmax nan x => Sys2Proof.Machine.execFmax nan x s
  | .fabs x => Sys2Proof.Machine.execFabs x s
  | .fneg x => Sys2Proof.Machine.execFneg x s
  | .fsgn x => Sys2Proof.Machine.execFsgn x s
  | .frnd x => Sys2Proof.Machine.execFrnd x s
  | .fcvt ts x => Sys2Proof.Machine.execFcvt ts x s
  | .ficvt ts x => Sys2Proof.Machine.execFicvt ts x s
  | .ifcvt ts x => Sys2Proof.Machine.execIfcvt ts x s
  | .fclass x => Sys2Proof.Machine.execFclass x s
  | .frcp x => Sys2Proof.Machine.execFrcp x s
  | .frsq x => Sys2Proof.Machine.execFrsq x s
  | .fex2 x => Sys2Proof.Machine.execFex2 x s
  | .flg2 x => Sys2Proof.Machine.execFlg2 x s
  | .fsin x => Sys2Proof.Machine.execFsin x s
  | .fcos x => Sys2Proof.Machine.execFcos x s
  | .ftanh x => Sys2Proof.Machine.execFtanh x s
  | .vclaim x => Sys2Proof.Machine.execVclaim x s
  | .vbcast x => Sys2Proof.Machine.execVbcast x s
  | .vperm f x => Sys2Proof.Machine.execVperm f x s
  | .vslide f x => Sys2Proof.Machine.execVslide f x s
  | .vscan f x => Sys2Proof.Machine.execVscan f x s
  | .vred f x => Sys2Proof.Machine.execVred f x s
  | .vcomp x => Sys2Proof.Machine.execVcomp x s
  | .vxpnd x => Sys2Proof.Machine.execVxpnd x s
  | .viota x => Sys2Proof.Machine.execViota x s
  | .vext x => Sys2Proof.Machine.execVext x s
  | .vins x => Sys2Proof.Machine.execVins x s
  | .vany x => Sys2Proof.Machine.execVany x s
  | .vall x => Sys2Proof.Machine.execVall x s
  | .qpack ts x => Sys2Proof.Machine.execQpack ts x s
  | .qunpk ts x => Sys2Proof.Machine.execQunpk ts x s
  | .ld x => Sys2Proof.Machine.execLd x s
  | .st x => Sys2Proof.Machine.execSt x s
  | .ldv x => Sys2Proof.Machine.execLdv x s
  | .stv x => Sys2Proof.Machine.execStv x s
  | .ldg x => Sys2Proof.Machine.execLdg x s
  | .sts x => Sys2Proof.Machine.execSts x s
  | .pref x => Sys2Proof.Machine.execPref x s
  | .fence x => Sys2Proof.Machine.execFence x s
  | .lbf x => Sys2Proof.Machine.execLbf x s
  | .cwb x => Sys2Proof.Machine.execCwb x s
  | .cinv x => Sys2Proof.Machine.execCinv x s
  | .amo f x => Sys2Proof.Machine.execAmo f x s
  | .amon f x => Sys2Proof.Machine.execAmon f x s
  | .cas x => Sys2Proof.Machine.execCas x s
  | .casq x => Sys2Proof.Machine.execCasq x s
  | .amov f x => Sys2Proof.Machine.execAmov f x s
  | .red j x => Sys2Proof.Machine.execRed j x s
  | .br hd off => Sys2Proof.Machine.execBr hd off s
  | .jmp hd off => Sys2Proof.Machine.execJmp hd off s
  | .jmpi hd a => Sys2Proof.Machine.execJmpi hd a s
  | .call hd d off => Sys2Proof.Machine.execCall hd d off s
  | .calli hd d a => Sys2Proof.Machine.execCalli hd d a s
  | .ret hd a => Sys2Proof.Machine.execRet hd a s
  | .loop hd a off => Sys2Proof.Machine.execLoop hd a off s
  | .endFiring hd => Sys2Proof.Machine.execEnd hd s
  | .region hd => Sys2Proof.Machine.execRegion hd s
  | .brk hd code => Sys2Proof.Machine.execBrk hd code s
  | .nop hd => Sys2Proof.Machine.execNop hd s
  | .post k x => Sys2Proof.Machine.execPost k x s
  | .spawn x => Sys2Proof.Machine.execSpawn x s
  | .fork x => Sys2Proof.Machine.execFork x s
  | .send x => Sys2Proof.Machine.execSend x s
  | .reply x => Sys2Proof.Machine.execReply x s
  | .chres x => Sys2Proof.Machine.execChres x s
  | .chpub x => Sys2Proof.Machine.execChpub x s
  | .clmask unmask x => Sys2Proof.Machine.execClmask unmask x s
  | .compose logn x => Sys2Proof.Machine.execCompose logn x s
  | .decomp hd => Sys2Proof.Machine.execDecomp hd s
  | .handover k x => Sys2Proof.Machine.execHandover k x s
  | .capq x => Sys2Proof.Machine.execCapq x s
  | .bara l x => Sys2Proof.Machine.execBara l x s
  | .swinit x => Sys2Proof.Machine.execSwinit x s
  | .swarr x => Sys2Proof.Machine.execSwarr x s
  | .swtest x => Sys2Proof.Machine.execSwtest x s
  | .gjoin x => Sys2Proof.Machine.execGjoin x s
  | .gleave x => Sys2Proof.Machine.execGleave x s
  | .gld x => Sys2Proof.Machine.execGld x s
  | .mxld ty x => Sys2Proof.Machine.execMxld ty x s
  | .mxflip x => Sys2Proof.Machine.execMxflip x s
  | .mxrun acc tr ty x => Sys2Proof.Machine.execMxrun acc tr ty x s
  | .cpy crc rec x => Sys2Proof.Machine.execCpy crc rec x s
  | .cpyf crc rec x => Sys2Proof.Machine.execCpyf crc rec x s
  | .qfence mask x => Sys2Proof.Machine.execQfence mask x s
  | .engq x => Sys2Proof.Machine.execEngq x s
  | .trap hd code => Sys2Proof.Machine.execTrap hd code s
  | .tret x => Sys2Proof.Machine.execTret x s
  | .ctlrd num x => Sys2Proof.Machine.execCtlrd num x s
  | .ctlwr num x => Sys2Proof.Machine.execCtlwr num x s
  | .tlbinv k x => Sys2Proof.Machine.execTlbinv k x s
  | .stop x => Sys2Proof.Machine.execStop x s
  | .firingInsert f => Sys2Proof.Machine.execFiringInsert f s
  | .releaseNotice f => Sys2Proof.Machine.execReleaseNotice f s
  | .pop die => Sys2Proof.Machine.execPop die s
  | .lockRequest tag => Sys2Proof.Machine.execLockRequest tag s
  | .lockRelease tag => Sys2Proof.Machine.execLockRelease tag s
  | .tryResult f => Sys2Proof.Machine.execTryResult f s
  | .reservation f => Sys2Proof.Machine.execReservation f s
  | .reservationRetry f => Sys2Proof.Machine.execReservationRetry f s
  | .displacementNotice f elem => Sys2Proof.Machine.execDisplacementNotice f elem s
  | .ticketedTryRetry f => Sys2Proof.Machine.execTicketedTryRetry f s
  | .roundResolve f => Sys2Proof.Machine.execRoundResolve f s
  | .roundTryRetry f => Sys2Proof.Machine.execRoundTryRetry f s
  | .placement f => Sys2Proof.Machine.execPlacement f s
  | .footprintResident f => Sys2Proof.Machine.execFootprintResident f s
  | .nextFiring core => Sys2Proof.Machine.execNextFiring core s
  | .preciseResume f => Sys2Proof.Machine.execPreciseResume f s
  | .retire core => Sys2Proof.Machine.execRetire core s
  | .slotCount chan => Sys2Proof.Machine.execSlotCount chan s
  | .channelReserve tag => Sys2Proof.Machine.execChannelReserve tag s
  | .p7Result tag => Sys2Proof.Machine.execP7Result tag s
  | .spawnArrival tag => Sys2Proof.Machine.execSpawnArrival tag s
  | .forkArrival tag => Sys2Proof.Machine.execForkArrival tag s
  | .packetArrival tag => Sys2Proof.Machine.execPacketArrival tag s
  | .maskedPacketRelease core => Sys2Proof.Machine.execMaskedPacketRelease core s
  | .loadReturn core => Sys2Proof.Machine.execLoadReturn core s
  | .l1Fill cas line => Sys2Proof.Machine.execL1Fill cas line s
  | .storePerform tag => Sys2Proof.Machine.execStorePerform tag s
  | .lineWriteback tag => Sys2Proof.Machine.execLineWriteback tag s
  | .atomicApply tag => Sys2Proof.Machine.execAtomicApply tag s
  | .atomicAck tag => Sys2Proof.Machine.execAtomicAck tag s
  | .redApply tag => Sys2Proof.Machine.execRedApply tag s
  | .handoverApply tag => Sys2Proof.Machine.execHandoverApply tag s
  | .handoverComplete tag => Sys2Proof.Machine.execHandoverComplete tag s
  | .tlbinvComplete tag => Sys2Proof.Machine.execTlbinvComplete tag s
  | .remoteCtlAccess tag => Sys2Proof.Machine.execRemoteCtlAccess tag s
  | .barrierArrival tag => Sys2Proof.Machine.execBarrierArrival tag s
  | .syncWordUpdate tag => Sys2Proof.Machine.execSyncWordUpdate tag s
  | .swinitApply tag => Sys2Proof.Machine.execSwinitApply tag s
  | .groupMembership tag => Sys2Proof.Machine.execGroupMembership tag s
  | .groupRequest tag => Sys2Proof.Machine.execGroupRequest tag s
  | .holdAdmit slice => Sys2Proof.Machine.execHoldAdmit slice s
  | .holdTimerExpiry hold => Sys2Proof.Machine.execHoldTimerExpiry hold s
  | .holdReadComplete hold => Sys2Proof.Machine.execHoldReadComplete hold s
  | .soloRead tag => Sys2Proof.Machine.execSoloRead tag s
  | .fillLand tag => Sys2Proof.Machine.execFillLand tag s
  | .engineCommandArrival tag => Sys2Proof.Machine.execEngineCommandArrival tag s
  | .mxldPerform cas => Sys2Proof.Machine.execMxldPerform cas s
  | .mxflipPerform cas => Sys2Proof.Machine.execMxflipPerform cas s
  | .mxrunPiece cas => Sys2Proof.Machine.execMxrunPiece cas s
  | .copySector cas q => Sys2Proof.Machine.execCopySector cas q s
  | .completionRecord cas q => Sys2Proof.Machine.execCompletionRecord cas q s
  | .qfenceComplete cas => Sys2Proof.Machine.execQfenceComplete cas s
  | .engineRewalk cas q => Sys2Proof.Machine.execEngineRewalk cas q s
  | .enginePreempt cas q => Sys2Proof.Machine.execEnginePreempt cas q s
  | .tandemStart f => Sys2Proof.Machine.execTandemStart f s
  | .blockToken core => Sys2Proof.Machine.execBlockToken core s
  | .blockCommit core => Sys2Proof.Machine.execBlockCommit core s
  | .tandemFault core => Sys2Proof.Machine.execTandemFault core s
  | .preemptWindowExpiry core => Sys2Proof.Machine.execPreemptWindowExpiry core s
  | .faultStop core => Sys2Proof.Machine.execFaultStop core s
  | .faultRecordWrite f => Sys2Proof.Machine.execFaultRecordWrite f s
  | .tretOrder tag => Sys2Proof.Machine.execTretOrder tag s
  | .l1coTakeEffect cas => Sys2Proof.Machine.execL1coTakeEffect cas s
  | .wsareaTakeEffect cas => Sys2Proof.Machine.execWsareaTakeEffect cas s
  | .spownWrite tag => Sys2Proof.Machine.execSpownWrite tag s
  | .l1coWrite tag => Sys2Proof.Machine.execL1coWrite tag s
  | .wsareaWrite tag => Sys2Proof.Machine.execWsareaWrite tag s
  | .detctlWrite tag => Sys2Proof.Machine.execDetctlWrite tag s
  | .captabWrite tag => Sys2Proof.Machine.execCaptabWrite tag s
  | .detstatClear tag => Sys2Proof.Machine.execDetstatClear tag s
  | .evcntWrite tag => Sys2Proof.Machine.execEvcntWrite tag s
  | .evselWrite tag => Sys2Proof.Machine.execEvselWrite tag s
  | .trctlWrite tag => Sys2Proof.Machine.execTrctlWrite tag s
  | .trringWrite tag => Sys2Proof.Machine.execTrringWrite tag s
  | .fltchWrite tag => Sys2Proof.Machine.execFltchWrite tag s
  | .grptabWrite tag => Sys2Proof.Machine.execGrptabWrite tag s
  | .dspillWrite tag => Sys2Proof.Machine.execDspillWrite tag s
  | .preemptwinWrite tag => Sys2Proof.Machine.execPreemptwinWrite tag s
  | .spawnqWrite tag => Sys2Proof.Machine.execSpawnqWrite tag s
  | .patienceWrite tag => Sys2Proof.Machine.execPatienceWrite tag s
  | .inboxLimitWrite tag => Sys2Proof.Machine.execInboxLimitWrite tag s
  | .ctlRegisterWrite tag => Sys2Proof.Machine.execCtlRegisterWrite tag s
  | .debugForward chan => Sys2Proof.Machine.execDebugForward chan s
  | .halt tag => Sys2Proof.Machine.execHalt tag s
  | .resume tag => Sys2Proof.Machine.execResume tag s
  | .stepi tag => Sys2Proof.Machine.execStepi tag s
  | .stepf tag => Sys2Proof.Machine.execStepf tag s
  | .rdreg tag => Sys2Proof.Machine.execRdreg tag s
  | .wrreg tag => Sys2Proof.Machine.execWrreg tag s
  | .rdws tag => Sys2Proof.Machine.execRdws tag s
  | .wrws tag => Sys2Proof.Machine.execWrws tag s
  | .rdvec tag => Sys2Proof.Machine.execRdvec tag s
  | .rdacct tag => Sys2Proof.Machine.execRdacct tag s
  | .clracct tag => Sys2Proof.Machine.execClracct tag s
  | .debugResponseWrite tag => Sys2Proof.Machine.execDebugResponseWrite tag s
  | .traceRecordTake die => Sys2Proof.Machine.execTraceRecordTake die s
  | .watchPoll f => Sys2Proof.Machine.execWatchPoll f s
  | .spillRefill die bank ctx => Sys2Proof.Machine.execSpillRefill die bank ctx s
  | .footprintFault f => Sys2Proof.Machine.execFootprintFault f s
  | .activityForecast die => Sys2Proof.Machine.execActivityForecast die s
  | .atomicResend tag => Sys2Proof.Machine.execAtomicResend tag s
  | .dramReread tag => Sys2Proof.Machine.execDramReread tag s
  | .capabilityRefetch cas ctx addr => Sys2Proof.Machine.execCapabilityRefetch cas ctx addr s
  | .pageWalk cas ctx addr => Sys2Proof.Machine.execPageWalk cas ctx addr s
  | .engineOperationFault cas q => Sys2Proof.Machine.execEngineOperationFault cas q s
  | .engineResume die ctx => Sys2Proof.Machine.execEngineResume die ctx s
  | .blockSquash core => Sys2Proof.Machine.execBlockSquash core s
  | .eventCount core => Sys2Proof.Machine.execEventCount core s
  | .debugResponseRetry core => Sys2Proof.Machine.execDebugResponseRetry core s
  | .haltTakeEffect core => Sys2Proof.Machine.execHaltTakeEffect core s
  | .breakpointHit core => Sys2Proof.Machine.execBreakpointHit core s
  | .stepComplete core => Sys2Proof.Machine.execStepComplete core s
  | .ridxRead die => Sys2Proof.Machine.execRidxRead die s
  | .tsync die => Sys2Proof.Machine.execTsync die s
  | .stopfTimeout die => Sys2Proof.Machine.execStopfTimeout die s
  | .hostBar2Write tag => Sys2Proof.Machine.execHostBar2Write tag s
  | .hostBar2Read tag => Sys2Proof.Machine.execHostBar2Read tag s
  | .faccWrite tag => Sys2Proof.Machine.execFaccWrite tag s
  | .bar0Write tag => Sys2Proof.Machine.execBar0Write tag s
  | .telem pkg => Sys2Proof.Machine.execTelem pkg s
  | .getcap pkg => Sys2Proof.Machine.execGetcap pkg s
  | .setcap pkg => Sys2Proof.Machine.execSetcap pkg s
  | .spdm pkg => Sys2Proof.Machine.execSpdm pkg s
  | .dumpinfo pkg => Sys2Proof.Machine.execDumpinfo pkg s
  | .reset pkg => Sys2Proof.Machine.execReset pkg s
  | .junctionWarning die => Sys2Proof.Machine.execJunctionWarning die s
  | .junctionCritical die => Sys2Proof.Machine.execJunctionCritical die s
  | .fatalError pkg cause => Sys2Proof.Machine.execFatalError pkg cause s
  | .spokeFlitReceive tag => Sys2Proof.Machine.execSpokeFlitReceive tag s
  | .endToEndAck pkg dest seq => Sys2Proof.Machine.execEndToEndAck pkg dest seq s
  | .endToEndResend pkg dest => Sys2Proof.Machine.execEndToEndResend pkg dest s
  | .linkOutOfService pkg link => Sys2Proof.Machine.execLinkOutOfService pkg link s
  | .packageLost pkg lost => Sys2Proof.Machine.execPackageLost pkg lost s
  | .dieLost die => Sys2Proof.Machine.execDieLost die s
  | .sliceRetirement die slice => Sys2Proof.Machine.execSliceRetirement die slice s
  | .restoreClaim die => Sys2Proof.Machine.execRestoreClaim die s
  | .pcieDoeSpdmRequest tag => Sys2Proof.Machine.execPcieDoeSpdmRequest tag s
  | .traceBurstWrite die => Sys2Proof.Machine.execTraceBurstWrite die s

end Sys2Proof.Machine
end

