-- ==== Sys2Proof/Machine/Turns.lean ====
section
/-! DEFINITION. Turns: which part of the device acts in a step, the issue of a core's next instruction, and what every ck
adds. The order of turns is free where the manual leaves it open: it is given by the schedule in the state, and by a fair
rule where the schedule says nothing. -/

namespace Sys2Proof.Machine

namespace State

/-! ## Issue -/

/-- A core's tandem is inside a block, which it finishes before it stops (R131). -/
def midBlock (s : State) (c : Nat) : Bool := match s.tandemOf c with | some e => e.2.mid | none => false

/-- The core issues no instruction now: it waits for an answer (R253, R277), stops or retires (R34, R399), is stalled by its
trace encoder (R374), has come to the end of its window (R47), waits for a commit (R130), or its
package does not run (R352, R452). (DEDUCED, log 23) -/
def blocked (s : State) (c : Nat) : Bool :=
  let k := s.core c
  k.waits != 0 || k.stopping || k.ending.isSome || s.traceStall c || (s.pkg (pkgOf c)).st != 0x03
    || (match k.preempt with | some d => decide (d ≤ s.time.toNat) && !s.midBlock c | none => false)
    || (match k.run with
        | some f => f.trap.isSome || (match f.tandem with | some t => t.ended | none => false)
        | none => true)

/-- An instruction issued on a core between two states: it did not where the firing stands as it stood (R253). -/
def didIssue (s s' : State) (c : Nat) : Bool :=
  match (s.core c).run, (s'.core c).run with
  | some f, some g => !(g.key == f.key && g.pc == f.pc && g.executed == f.executed && g.trap.isNone)
  | _, _ => true

/-- What the issue of an instruction adds to its effect: its block (R126), the count of instructions issued (R378), the end
of a breakpoint's skip (R363) and of a step (R365), which is over too when the instruction leaves its tandem or, as a marker
that serves a pre-emption does, its core. (DEDUCED, log 35) -/
def afterIssue (s : State) (c : Nat) (i : Instr) (was : Option (Firing × Tandem)) : State :=
  let s := (s.afterBlock c i was).count c 0x02 1
  let k := s.core c
  let on := match s.tandemOf c with | some e => !e.2.ended | none => false
  let s := s.setCore c { k with skipBp := k.skipBp && on }
  if k.step != .instr || k.stopping || k.ending.isSome || (was.isSome && (s.tandemOf c).isSome) then s
  else if k.run.isNone then s.haltNow c 9
  else s.setCore c { s.core c with haltReq := some (k.haltReq.getD 9) }

/-- Run a decoded instruction on the core whose turn it is; the first of a firing starts its accounts (R375), and one that
follows every older one of its tandem's block waits for them and finds their stores gone (R130). On a tandem a fault waits until
its block is the oldest (R437). -/
def issue (s : State) (c : Nat) (i : Instr) : Out :=
  if s.notOldest c i then .next s
  else
  let was := s
  let s := s.oldest c i
  match exec i s with
  | .next s' =>
    if s.faultWaits s' c then .next was
    else if !s.didIssue s' c then .next s'
    else if (match (s.core c).run with | some f => f.fresh | none => false) then
      match exec i (s.firstIssue c) with
      | .next s' => .next (s'.afterIssue c i (s.tandemOf c))
      | o => o
    else .next (s'.afterIssue c i (s.tandemOf c))
  | o => o

/-- Fetch, decode and run the next instruction of a core (R190, R397); a fetch whose home it finds no way to waits (R448). -/
def fetchIssue (s : State) (c : Nat) (f : Firing) : Out :=
  match s.fetchFar c f.ctx f.pc with
  | some e => .next (if s.olderInFlight c then s else s.askFar c true f.ctx e.1 e.2)
  | none =>
    match s.fetch c f.ctx f.pc with
    | .error t => .next (if s.olderInFlight c then s else s.fault t)
    | .ok (i, ts) => (s.noteFetch c f.pc ts).issue c i

/-- The running firing of a core issues its next instruction, or meets a breakpoint before it (R363). -/
def issueTurn (s : State) (c : Nat) : Out :=
  match (s.core c).run with
  | none => .next s
  | some f =>
    if s.blocked c then .next s
    else if (s.breakpoint c).isSome then (if s.atBoundary c then execBreakpointHit c s else .next s)
    else s.fetchIssue c f

/-! ### The blocks of a tandem (R127 to R130) -/

/-- What a step of block j leaves of the younger blocks (R127 to R130): they stay or are squashed, and then a token is sent anew. An
instruction that follows every older one is followed by every younger one, which is squashed. Where a member would hold too many
versions it waits, unless it is the oldest block: then the younger ones go. (DEDUCED, log 36) -/
def keepYounger (s s1 s2 : State) (c j : Nat) (b : Block) (must : Bool) : State :=
  let gone := s2.planNow (.blockToken c)
  if must && s1.didIssue s2 c then gone
  else match s.rejoin s1 s2 c j b with
    | none => if s2.overFull c then s else gone
    | some r => if !r.overFull c then r else if j = 0 then gone else s

/-- The instruction at a core's pc follows every older one of its tandem (R130). -/
def nextMustBeOldest (s : State) (c : Nat) : Bool :=
  match (s.core c).run with
  | none => false
  | some f => match s.fetch c f.ctx f.pc with
    | .ok (i, _) => s.mustBeOldest c i
    | .error _ => false

/-- Issue for the oldest block that has not ended: the younger ones stay or are squashed. (DEDUCED, log 36) -/
def issueOldest (s : State) (c : Nat) (go : State → Out) : Out :=
  match s.tandemOf c with
  | none => go s
  | some (f, t) =>
    match t.behind with
    | none => match go s with
      | .next s' => .next (if s'.overFull c then s else s')
      | o => o
    | some (j, b) =>
      let s1 := s.rewind c f t j b
      if stopAsked s c then .next (s1.planNow (.blockToken c))
      else match go s1 with
        | .next s2 => .next (s.keepYounger s1 s2 c j b (s1.nextMustBeOldest c))
        | o => o

/-- The youngest block does not issue: an older one of its member has not ended (R127), or one has still to make a version of a
word that its next instruction mentions (R128). (DEDUCED, log 36) -/
def youngestWaits (s : State) (c : Nat) (f : Firing) (t : Tandem) : Bool :=
  let open_ := t.flight.filter (fun b => !b.ended)
  open_.any (fun b => blockMember t b.addr == blockMember t t.blockPc)
    || (match s.fetch c f.ctx f.pc with
      | .ok (i, _) => open_.any (fun b => (s.blockRest c f.ctx b.pc (16 - b.slot)).any (fun j => (makes j).any (mentions i).contains))
      | .error _ => false)

/-- Issue for the youngest block: while an older one has not ended, only what a squash can discard.
(DEDUCED, log 36) -/
def issueYoungest (s : State) (c : Nat) (go : State → Out) : Out :=
  match s.tandemOf c with
  | none => go s
  | some (f, t) =>
    if s.youngestWaits c f t then .next s
    else match go s with
      | .next s' => .next (if (t.behind.isSome && !plainStep s s' c) || s'.overFull c then s else s')
      | o => o

/-- A tandem issues for the oldest of its blocks that has not ended, or, as the recorded choice says, for the youngest, or the
member of the first token begins its block (R127). (DESIGN CHOICE, log 17; DEDUCED, log 36) -/
def tandemTurn (s : State) (c : Nat) : Out :=
  let s := s.nextBlock c
  let n := s.choice 3
  let s := s.dropChoice
  if n = 2 then .next (s.runAhead c)
  else if n = 1 then issueYoungest s c (fun s => s.issueTurn c)
  else issueOldest s c (fun s => s.issueTurn c)

/-- A core's turn: a halt that is due, a breakpoint, or its next instruction. While a halt waits for a load, nothing issues
but what ends a tandem's block (R361, R363, R364). -/
def coreTurn (s : State) (c : Nat) : Out :=
  let s := { s with cur := c }
  let k := s.core c
  if k.memberOf.isSome || k.halted then .next s
  else if k.haltReq.isSome && s.atBoundary c then
    (if k.haltReq = some 9 then execStepComplete c s else execHaltTakeEffect c s)
  else if k.haltReq.isSome && !s.midBlock c then .next s
  else if (s.tandem? c).isSome then s.tandemTurn c
  else s.issueTurn c

/-! ## The agenda and the outside world -/

/-- The message, or the store, that an agenda entry receives. -/
def eventMsg (i : Instr) : Option Nat :=
  match i with
  | .lockRequest t | .lockRelease t | .spawnArrival t | .forkArrival t | .packetArrival t | .atomicApply t | .redApply t
  | .lineWriteback t | .remoteCtlAccess t | .groupRequest t | .groupMembership t | .channelReserve t => some t
  | .storePerform t | .engineCommandArrival t | .handoverApply t | .handoverComplete t | .p7Result t | .atomicAck t
  | .fillLand t | .swinitApply t | .barrierArrival t | .syncWordUpdate t | .tretOrder t => some t
  | .halt t | .resume t | .stepi t | .stepf t | .rdreg t | .wrreg t | .rdws t | .wrws t | .rdvec t | .rdacct t | .clracct t
  | .debugResponseWrite t => some t
  | _ => none

/-- An agenda entry waits for a packet on its way between packages (R347, R448). -/
def onItsWay (s : State) (i : Instr) : Bool := match eventMsg i with | some t => s.inTransit t | none => false

/-- The group an agenda entry acts on, and the generation it asks for (R112, R115). -/
def groupOfEvent (s : State) (i : Instr) : Option (Nat × Option (BitVec 32)) :=
  match i with
  | .holdTimerExpiry k | .holdReadComplete k => (s.holds.find k).map (fun h => (h.desc, none))
  | .groupMembership t => match s.msg? t with | some (.group c _ h _ _) => some (s.groupKey c h, none) | _ => none
  | .groupRequest t => match s.msg? t with | some (.gld c _ h g _ _ _) => some (s.groupKey c h, some g) | _ => none
  | _ => none

/-- An agenda entry is a request of a group that has come no later than another entry of that group and goes before it: before
timers, reads, releases and changes of membership, and before what asks for a later generation (R112, R115).
(DESIGN CHOICE, log 8) -/
def goesBefore (s : State) (k : Nat) (gen : Option (BitVec 32)) (due : Nat) (e : Nat × Instr) : Bool :=
  decide (e.1 ≤ due) && !s.onItsWay e.2 && (match s.groupOfEvent e.2 with
    | some (k', some g) => k' == k && (match gen with | some h => g != h && genLe g h | none => true)
    | _ => false)

/-- The agenda entry that happens when an entry's turn comes: itself, or a request that goes before it (R112, R115).
(DESIGN CHOICE, log 8) -/
def eventOf (s : State) (n : Nat) : Nat :=
  match s.agenda[n]? with
  | none => n
  | some e =>
    match s.groupOfEvent e.2 with
    | none => n
    | some (k, gen) => (s.agenda.findIdx? (s.goesBefore k gen e.1)).getD n

/-- An agenda entry whose ck has come happens, unless its packet has not come; one that no longer applies is dropped.
(DESIGN CHOICE, log 8; DESIGN CHOICE, log 62; DESIGN CHOICE, log 65) -/
def eventTurn (s : State) (i : Nat) : Out :=
  let n := s.eventOf i
  match s.agenda[n]? with
  | none => .next s
  | some e =>
    if s.time.toNat < e.1 || s.onItsWay e.2 then .next s
    else
      let s := { s with agenda := s.agenda.eraseIdx n }
      match exec e.2 s with
      | .next s' => .next s'
      | _ => .next s

/-- A step of a host access, a read that has come to its home, a flit, a DOE request or an array's error that waits as a message. (DESIGN CHOICE, log 7) -/
def inputStep (s : State) (tag : Nat) (m : Msg) : Option Out :=
  match m with
  | .hostWrite _ _ _ _ => some (execHostBar2Write tag s)
  | .hostRead _ _ _ => some (execHostBar2Read tag s)
  | .facc _ _ => some (execFaccWrite tag s)
  | .cfgRead _ _ _ => some (execConfigRead tag s)
  | .sizeBar _ _ => some (execSizeBar tag s)
  | .hostMem _ _ => some (execHostMem tag s)
  | .bar0 _ _ _ => some (execBar0Write tag s)
  | .bar0Read _ _ _ => some (execBar0Read tag s)
  | .cfgWrite _ _ _ => some (execConfigWrite tag s)
  | .lineError _ _ => some (execLineError tag s)
  | .laneError _ _ _ => some (execLaneError tag s)
  | .l1Error _ _ _ => some (execL1Error tag s)
  | .read _ _ _ _ _ => if s.inTransit tag then none else some (.next (s.gotWay tag))
  | .bufError _ => some (execBufError tag s)
  | .flit _ _ _ _ _ _ _ => some (execSpokeFlitReceive tag s)
  | .doe _ _ => some (execPcieDoeSpdmRequest tag s)
  | _ => none

/-- The first message from outside the device, taken. (DESIGN CHOICE, log 7) -/
def inputTurn (s : State) : Out :=
  match s.msgs.findSome? (fun m => s.inputStep m.1 m.2) with
  | some (.next s') => .next s'
  | _ => .next s

/-- A message from outside waits. -/
def hasInput (s : State) : Bool := s.msgs.any (fun m => (s.inputStep m.1 m.2).isSome)

/-- The first agenda entry that is due. -/
def dueEvent (s : State) : Option Nat := s.agenda.findIdx? (fun e => decide (e.1 ≤ s.time.toNat) && !s.onItsWay e.2)

/-- A core has something to do. -/
def coreActive (k : Core) : Bool := !k.halted && k.memberOf.isNone && (k.run.isSome || k.haltReq.isSome)

/-- The core that acts next: cores take turns. (DESIGN CHOICE, log 8) -/
def nextCore (s : State) : Option Nat :=
  let all := (s.cores.filter (fun e => coreActive e.2)).map (·.1)
  match all.find? (fun c => decide (s.cur < c)) with
  | some c => some c
  | none => all.head?

/-- What happens where the schedule says nothing: due events, cores and the outside world in turn.
(DESIGN CHOICE, log 8) -/
def fairTurn (s : State) : Out :=
  let ev := s.dueEvent.map s.eventTurn
  let co := s.nextCore.map s.coreTurn
  let inp := if s.hasInput then some s.inputTurn else none
  let l := match s.time.toNat % 3 with
    | 0 => [ev, co, inp]
    | 1 => [co, ev, inp]
    | _ => [inp, ev, co]
  (l.findSome? id).getD (.next s)

/-- One turn: the schedule's next, or the fair one. A step of the device that the schedule names is no instruction.
(DESIGN CHOICE, log 5; DESIGN CHOICE, log 7; DESIGN CHOICE, log 8; DESIGN CHOICE, log 62) -/
def turn (s : State) : Out :=
  match s.sched with
  | [] => s.fairTurn
  | t :: rest =>
    let s := { s with sched := rest }
    match t with
    | .core c => s.coreTurn c
    | .event n => s.eventTurn n
    | .dev i => if (fieldsOf i).isSome then .fault .noSuchStep else exec i s
    | .idle => .next s

/-! ## What every ck adds -/

/-- Dies of the pod. -/
def allDies (s : State) : List Nat := List.range (s.packages 0 * 16)

/-- The state an outcome leaves, or the state before. -/
def orElse (s : State) (o : Out) : State :=
  match o with
  | .next s' => s'
  | _ => s

/-- The counters of every core count the ck; a window does not run while a core is halted or trace-stalled (R374, R379,
R361). -/
def tickCores (s : State) : State :=
  s.cores.foldl (fun s e =>
    let s := s.orElse (execEventCount e.1 s)
    let k := s.core e.1
    let held := k.halted || s.traceStall e.1
    s.setCore e.1 { k with
      evinc := [], counted := false
      preempt := if held then k.preempt.map (· + 1) else k.preempt }) s

/-- The trace concentrator of a die reads RIDX, writes TSYNC and clears STOPF as the time comes (R372, R374, R450). -/
def tickTrace (s : State) (d : Nat) : State :=
  if !(s.die d).trctl.getLsbD 0 then s
  else
    let t := s.time.toNat
    let s := if t % 65536 = 0 ∨ (t % 1024 = 0 ∧ s.ringFree d = 0) then s.orElse (execRidxRead d s) else s
    let s := if t % 2 ^ 27 = 0 then s.orElse (execTsync d s) else s
    s.orElse (execStopfTimeout d s)

/-- The management controller serves the mailbox of a package (R358). -/
def tickMail (s : State) (p : Nat) : State :=
  let m := (s.pkg p).mbox
  if !m.go || s.dark p then s
  else s.orElse (match m.cmd.toNat with
    | 1 => execTelem p s
    | 2 => execGetcap p s
    | 3 => execSetcap p s
    | 4 => execSpdm p s
    | 5 => execDumpinfo p s
    | _ => .next (s.badMail p))

/-- Packets that have arrived are acknowledged in order, and so may be received; those that wait too long are sent again, and
after 16 sends their package is declared lost (R448). -/
def tickAcks (s : State) (p q : Nat) : State :=
  let us := (s.peer p q).unacked
  let s := match (us.takeWhile (fun u => u.here || (s.keptWire u).isNone)).getLast? with
    | some u => s.orElse (execEndToEndAck p q u.seq s)
    | none => s
  let late := us.filter (fun u => u.late s.time.toNat)
  if late.isEmpty then s
  else if late.any (fun u => decide (16 ≤ u.sends)) then s.orElse (execPackageLost p q s)
  else s.orElse (execEndToEndResend p q s)

/-- One ck passes (R29): was is the state before the turn, whose next message tag tells the messages the turn sent.
(DESIGN CHOICE, log 8; DESIGN CHOICE, log 65) -/
def tick (s was : State) : State :=
  let new := s.msgs.filter (fun m => decide (was.nextTag ≤ m.1))
  let s := (new.foldl (fun s m => s.number m.1 m.2) s).numberStores was
  let s := s.pkgs.foldl (fun s e => e.2.peers.foldl (fun s q => s.tickAcks e.1 q.1) s) s
  let s := s.pkgs.foldl (fun s e => s.tickMail e.1) s
  let s := { s.tickCores with time := s.time + 1 }
  let s : State := s.dies.foldl (fun s e => s.tickTrace e.1) s
  if s.time.toNat % 1024 = 0 then s.allDies.foldl (fun s d => s.orElse (execActivityForecast d s)) s else s

end State

end Sys2Proof.Machine
end

