-- ==== Sys2Proof/Machine/Step.lean ====
section
/-! DEFINITION. One step of the pod: one turn, and the ck it takes; and the state in which the next step fetches a given
instruction. -/

namespace Sys2Proof.Machine

/-- One step. (DESIGN CHOICE, log 5) -/
def step (s : State) : Host.Outcome State Fault Refusal :=
  match s.turn with
  | .next s' => .next (s'.tick s)
  | .fault f => .fault f
  | .refused r => .refused r

/-- The core whose turn is next, or core 0. (DEDUCED, log 6) -/
def State.fetchCore (s : State) : Nat :=
  match s.sched with
  | .core c :: _ => c
  | _ => s.nextCore.getD 0

/-- A firing for a core that runs none: of the context that owns the core's slice, with its workspace at the slice's end and
its code at 0x10_0000. (DEDUCED, log 6) -/
def State.newcomer (s : State) (c : Nat) : Firing :=
  { Firing.blank with
    ctx := (s.core c).spown.toNat, core := c, die := dieOf c, wp := s.sliceSize c - 128, placed := true, stage := .running
    begun := true, entry := 0x100000, pc := 0x100000 }

/-- The state in which the next step fetches the instruction whose bits are w: a core with a firing and nothing that keeps it
from issuing, its turn, its package running with every feature, a translation of the page at its pc and the bytes there.
(DEDUCED, log 6) -/
def State.withFetchWord (s : State) (nbits w : Nat) : State :=
  let c := s.fetchCore
  let p := pkgOf c
  let k := s.core c
  let f := { (k.run.getD (s.newcomer c)) with trap := none, tandem := none, fresh := false }
  let base := f.pc / 2 ^ 19 * 2 ^ 19
  let page : Tlb := ⟨f.ctx, base, 19, p * 2 ^ 40, true, true, false⟩
  let key := p * 2 ^ 40 + f.pc % 2 ^ 19
  let s := s.setCore c { k with
    run := some f, waits := 0, stopping := false, ending := none, preempt := none, halted := false, haltReq := none
    skipBp := true, memberOf := none, recs := [] }
  let s := s.setCas (casOf c) { s.cas (casOf c) with tlb := page :: (s.cas (casOf c)).tlb }
  let s := s.setPkg p { s.pkg p with facc := some 0x7F, st := 0x03 }
  { s.setCells ((toLe 12 (w % 2 ^ nbits)).zipIdx.map (fun b => (key + b.2, b.1))) with
    bad := s.bad.filter (fun l => l * 128 + 128 ≤ key || key + 12 ≤ l * 128)
    sched := .core c :: (match s.sched with | .core _ :: t => t | l => l) }

end Sys2Proof.Machine
end

