-- ==== Sys2Proof/Safety.lean ====
section
/-! DEFINITION. What every run keeps (Inv), what a safe run is, and the words the claims are stated in: when an
instruction issues, where it completes, and what it leaves alone. -/

namespace Sys2Proof

/-- The workspace words an operand names. -/
def Opnd.words : Opnd → List Nat
  | .w n => [n.toNat]
  | _ => []

/-- The vector registers an operand names. -/
def Opnd.vecs : Opnd → List Nat
  | .v n => [n.toNat]
  | _ => []

end Sys2Proof

namespace Sys2Proof.Machine

/-- The invariant of the machine: the pod's memory and the host's rings are lists in canonical form, for what an address
that nothing has written reads as. -/
def State.Inv (s : State) : Prop :=
  Memory.wf s.changes s.mem = true ∧ Cells.wf (fun _ => 0) s.host = true

/-- The machine goes on from a state. -/
def State.goesOn (s : State) : Prop := ∃ t, step s = .next t

/-- A safe run of n steps: every step goes on. -/
def safeFor (n : Nat) (s : State) : Prop :=
  match n with
  | 0 => True
  | n + 1 => ∃ t, step s = .next t ∧ safeFor n t

/-! ## When an instruction issues and how it completes -/

/-- The core whose turn it is runs a firing, and an instruction with this head has a true guard there (R195). -/
def State.issues (s : State) (hd : Head) : Prop := s.run?.isSome = true ∧ s.guardHolds hd.g = true

/-- The instruction of state s completes with the effect that leaves state t: the pc moves past its 12 bytes (R190), and
the core and its firing count it (R372, R378). -/
def State.completes (s t : State) : Out := .next (t.advance.tally s.cur)

/-- As completes, for an instruction whose effect t has set the pc itself. -/
def State.completesAt (s t : State) : Out := .next (t.tally s.cur)

/-- Instruction i leaves op A B D in its destination: a scalar one filled to its word (R134), a vector one in each active
element where the lane mask can be read (R198, R215, R216, R446), where a and b are what its scalar sources read. -/
def State.lands (s : State) (i : Instr) (x : Arith) (a b : Nat) (op : Nat → Nat → Nat → Nat) : Prop :=
  (∀ n, x.d = .w n → exec i s = s.completes (s.setWord n.toNat
      (fillWord x.ty (op a b ((s.word n.toNat).toNat % 2 ^ x.ty.width)))))
    ∧ (∀ n, x.d = .v n → s.needMask x.lm = .ok () → exec i s = s.completes (s.putLanes n.toNat x.lm x.ty.width (fun k =>
      op (s.lane x.a a x.ty.width k) (s.lane x.b b x.ty.width k) (elemOf (s.vreg n.toNat) x.ty.width k))))

/-- The parts of a store by the pages it lies on: each page takes its share of the bytes (R253). -/
def segParts (part : Seg → List Byte → PStore) : List Seg → List Byte → List PStore
  | [], _ => []
  | q :: r, d => part q (d.take q.len) :: segParts part r (d.drop q.len)

/-- The parts of one element of a store on its way (R253): where its bytes go, and what they carry. -/
def StoreCtl.parts (k : StoreCtl) (ea : Nat) (l : Loc) (data : List Byte) : List PStore :=
  let part := fun (own : Bool) (va key : Nat) (cls : BitVec 2) (d : List Byte) =>
    (⟨k.tag, k.core, k.ctx, k.num, va, key, d, k.rel, k.clock, own, cls, k.blk⟩ : PStore)
  match l with
  | .slice t off w => [part (decide (t = k.core) && w) ea (sliceKey t off) k.cls data]
  | .phys g => segParts (fun q => part false q.va q.key (q.cls k.cls)) g data

/-- The parts of st on its way (R130, R167, R253). -/
def State.stParts (s : State) (x : Mem) (ea : Nat) (l : Loc) (data : List Byte) : List PStore :=
  let rel := relOf x
  StoreCtl.parts ⟨s.cur, s.cctx, s.nextTag, (s.core s.cur).issued, rel, (s.closeEpoch s.cur rel).carried s.cur rel, x.ccls,
    false, s.cf.tandem.map (·.now)⟩ ea l data

/-- The running firing once a load of some runs is under way: its tandem's block counts it, and its queue holds it (R129). -/
def State.loadsCf (s : State) (acc : List (Bool × Nat × Nat)) : Firing :=
  { s.cf with tandem := s.cf.tandem.map (fun t =>
      { t with loads := t.loads + 1, queue := t.queue ++ acc.map (fun a => ⟨t.bsn, t.slot, a.1, a.2.1, a.2.2⟩) }) }

/-- An issue of core c's firing f in state x leaves what P says of it: a fetch that finds no way to its words asks for them (R448);
one that fails a check is that fault, and words that
decode to no instruction, or that name a feature the package has not enabled, are an illegal instruction, once no older block
is in flight; every other instruction is executed, in the state in which the fetch has left its marks and, where it must follow
every older one of its tandem's block, which it waits for, their stores are gone. A firing's first also starts its accounts; what
did not issue leaves no mark of an issue; and on a tandem a fault waits for the older blocks. -/
def State.runsDecoded (x : State) (c : Nat) (f : Firing) (P : State → Prop) : Prop :=
  let taken := fun (e : Trap) => P (if x.olderInFlight c then x else x.fault e)
  (∀ e, x.fetchFar c f.ctx f.pc = some e → P (if x.olderInFlight c then x else x.askFar c true f.ctx e.1 e.2))
  ∧ (x.fetchFar c f.ctx f.pc = none →
  (∀ e, x.fetchCheck c f.ctx f.pc = .error e → taken e)
  ∧ (∀ ts, x.fetchCheck c f.ctx f.pc = .ok ts →
    let bits := x.fetchBits c f.pc ts
    let y := x.noteFetch c f.pc ts
    (∀ e, decode bits = .error e → taken (trapAt Cls.illegal 0))
    ∧ (∀ i, decode bits = .ok i →
      let off := (namesFp4 bits i && !x.feature (pkgOf c) 2) || (isWide i && !x.feature (pkgOf c) 1)
      let w := y.oldest c i
      let issued := fun (v : State) => v.afterIssue c i (w.tandemOf c)
      (off = true → taken (trapAt Cls.illegal 0))
      ∧ (off = false → y.notOldest c i = true → P y)
      ∧ (off = false → y.notOldest c i = false → ∀ v, exec i w = .next v →
        (w.faultWaits v c = true → P y)
        ∧ (w.faultWaits v c = false → w.didIssue v c = false → P v)
        ∧ (w.faultWaits v c = false → w.didIssue v c = true → (∀ g, (w.core c).run = some g → g.fresh = false) → P (issued v))
        ∧ (∀ g v', w.faultWaits v c = false → w.didIssue v c = true → (w.core c).run = some g → g.fresh = true →
          exec i (w.firstIssue c) = .next v' → P (issued v'))))))

/-! ## What a step sends and plans -/

/-- State t holds a message that a step of state s has sent, and the step that will receive it. -/
def State.sent (s t : State) (m : Msg) (mk : Nat → Instr) : Prop :=
  t.msg? s.nextTag = some m ∧ (s.time.toNat, mk s.nextTag) ∈ t.agenda

/-- State t plans a step of the device, due at the time of state s. -/
def State.planned (s t : State) (i : Instr) : Prop := (s.time.toNat, i) ∈ t.agenda

/-- What a step of state s adds to the agenda is due at its time, and of one kind. -/
def State.gains (s t : State) (kind : Instr → Prop) : Prop :=
  ∃ l, t.agenda = s.agenda ++ l ∧ ∀ e ∈ l, e.1 = s.time.toNat ∧ kind e.2

/-- The step that follows a fault of a core (R399, R437). -/
def faultStep (c : Nat) (i : Instr) : Prop := i = .faultStop c ∨ i = .tandemFault c

/-! ## What an instruction leaves alone -/

/-- The running firing is as f, but for its pc and count of executed instructions, its fault, its vector registers and its
tandem's blocks. -/
def State.keepsFiring (s : State) (f : Firing) : Prop :=
  { f with
    pc := s.cf.pc, executed := s.cf.executed, trap := s.cf.trap, vregs := s.cf.vregs, badVecs := s.cf.badVecs
    vecUsed := s.cf.vecUsed, tandem := s.cf.tandem } = s.cf

/-- The core whose turn it is is as k, but for its firing, the mark of its stop and what its counters count in the ck. -/
def State.keepsCore (s : State) (k : Core) : Prop :=
  { k with
    run := (s.core s.cur).run, stopping := (s.core s.cur).stopping, evinc := (s.core s.cur).evinc } = s.core s.cur

/-- A step of a register instruction changes nothing but its core, memory and the agenda, which gains no more than the step of
a fault; of its core it keeps all but what keepsCore and keepsFiring name. -/
def State.registersOnly (s t : State) : Prop :=
  { t with cores := s.cores, mem := s.mem, agenda := s.agenda } = s ∧ s.gains t (faultStep s.cur)
    ∧ s.keepsCore (t.core s.cur) ∧ s.keepsFiring t.cf

/-- The bytes of word n of the running firing (R26). -/
def State.inWord (s : State) (n k : Nat) : Prop :=
  sliceKey s.cf.core (s.cf.wp + 8 * n) ≤ k ∧ k < sliceKey s.cf.core (s.cf.wp + 8 * n) + 8

/-- Other cores, the special registers, the flags C and K and the lane grant are as they were. -/
def State.keepsSpecial (s t : State) : Prop :=
  (∀ c, c ≠ s.cur → t.core c = s.core c) ∧ (∀ r, t.sreg r = s.sreg r) ∧ t.cf.c = s.cf.c ∧ t.cf.k = s.cf.k
    ∧ t.cf.groups = s.cf.groups

/-- The registers of every die are as they were: only its table cache and its clock may differ (R98, R167). -/
def State.keepsDies (s t : State) : Prop :=
  ∀ d, { t.die d with tables := (s.die d).tables, clock := (s.die d).clock } = s.die d

/-- The cassettes are as they were: of the core's own only the L1 with its fills under way, the TLB and the capability cache may
differ (R89, R90, R98, R177). -/
def State.keepsCass (s t : State) : Prop :=
  ∀ k, { t.cas k with
      lines := (s.cas k).lines, streams := (s.cas k).streams, tlb := (s.cas k).tlb, caps := (s.cas k).caps } = s.cas k
    ∧ (k ≠ casOf s.cur → t.cas k = s.cas k)

/-- Every vector register but those of vs is as it was. -/
def State.keepsVecs (s t : State) (vs : List Nat) : Prop := ∀ v, v < 16 → v ∉ vs → t.vreg v = s.vreg v

/-- Every byte of memory outside the words ws (and w0, where the predicates ps are written) is as it was; so is every
other word, every other predicate, and every bit of pw but 7:1 (R196). -/
def State.keepsWords (s t : State) (ws ps : List Nat) : Prop :=
  (∀ k, (∀ n ∈ ws, ¬s.inWord n k) → (ps ≠ [] → ¬s.inWord 0 k) → t.byte k = s.byte k)
    ∧ (∀ n, n ≠ 0 → n ∉ ws → t.word n = s.word n)
    ∧ (0 ∉ ws → ∀ p, p < 8 → p ∉ ps → t.pred p = s.pred p)
    ∧ (∀ j, ¬(1 ≤ j ∧ j ≤ 7) → (t.rawWord t.cf 0).getLsbD j = (s.rawWord s.cf 0).getLsbD j)

end Sys2Proof.Machine
end

