-- ==== Sys2Proof/Certificates/Slice0/Obligations.lean ====
section
/-! DEFINITION. The statements for the provers. Each docstring names the rules of the manual it speaks of. A premise is
written on the state and the operands alone: that an instruction issues (`State.issues`), that its operands exist and are
readable, that it need not wait, that its address is legal. A conclusion `exec i s = s.completes t` is the completion of
the instruction with the effect that leaves t. -/

open Sys2Proof Sys2Proof.Machine


/-- R195: the guard code selects when the instruction executes; the reserved code is no instruction; and an
instruction whose guard is false has no effect but the advance of the pc by 12 (R190), whichever instruction of the
table it is and whatever its operands hold: but that br, jmp, call and loop give the core's trace encoder the outcome
0 (R372). -/
def Obligations.FalseGuard : Prop :=
  (∀ (s : State) (g : BitVec 4), g ≠ 8 → s.guardHolds (guardOf g)
    = if g = 0 then true else if g.toNat < 8 then s.pred g.toNat else !s.pred (g.toNat - 8))
  ∧ (∀ w : IWord, w.extractLsb' 84 4 = 8 → decode w = .error .guard)
  ∧ (∀ (s : State) (i : Instr) (f : Fields), s.run?.isSome = true → fieldsOf i = some f →
    s.guardHolds (guardOf f.g) = false →
    (if f.op ∈ ([0x80, 0x81, 0x83, 0x86] : List (BitVec 8)) then exec i s = .next (s.branchOutcome s.cur s.cctx false).advance
      else exec i s = .next s.advance))

/-- R195, R396, R399: on a core that runs a firing an instruction always goes on: no operand value and no mode stops
the machine. R398, R399, R400: a fault leaves the firing's flags, words and memory as they were and keeps the time of
the fault for its record; the core stops issuing, and FAULT_STOP, or on a tandem the member's fault, follows; no other
core and no other firing is touched. -/
def Obligations.FaultsAreTaken : Prop :=
  (∀ (s : State) (i : Instr), s.run?.isSome = true → (fieldsOf i).isSome = true → ∃ t, exec i s = .next t)
  ∧ (∀ (s : State) (f : Firing) (e : Trap), s.run? = some f →
    (s.fault e).run? = some { f with trap := some { e with pc := if e.pc = 0 then f.pc else e.pc, time := s.time } }
    ∧ ((s.fault e).core s.cur).stopping = true ∧ (s.fault e).mem = s.mem
    ∧ s.planned (s.fault e) (if f.tandem.isSome then .tandemFault s.cur else .faultStop s.cur)
    ∧ (∀ c, c ≠ s.cur → (s.fault e).core c = s.core c) ∧ (s.fault e).firings = s.firings)

/-- R26, R27, R29, R42, R124, R196, R197, R215: a word written reads back and no other word changes; a write of w0
changes only bits 7:1 of pw; p0 reads 1 and is not written; read as an operand pw has bit 0 set and bits 15:8 clear. A
special register reads as what it names, an immediate sign-extended, as an integer of its type or rounded to it, and a
channel operand as the address of the first slot claimed on its input, which is where its descriptor has that slot. -/
def Obligations.WordsAndPredicates : Prop :=
  ∀ (s : State), s.Inv → s.run?.isSome = true →
    (∀ n v, n ≠ 0 → (s.setWord n v).word n = v)
    ∧ (∀ n m v, m ≠ n → (s.setWord n v).rawWord (s.setWord n v).cf m = s.rawWord s.cf m)
    ∧ (∀ (v : Word) (j : Nat), ((s.setWord 0 v).rawWord (s.setWord 0 v).cf 0).getLsbD j
        = if 1 ≤ j ∧ j ≤ 7 then v.getLsbD j else (s.rawWord s.cf 0).getLsbD j)
    ∧ (∀ p q b, 1 ≤ p → p ≤ 7 → (s.setPred p b).pred q = if q = p then b else s.pred q)
    ∧ s.pred 0 = true ∧ (∀ b, s.setPred 0 b = s)
    ∧ (∀ j, (s.word 0).getLsbD j = if j = 0 then true else if 8 ≤ j ∧ j ≤ 15 then false else (s.rawWord s.cf 0).getLsbD j)
    ∧ (s.cf.tandem = none → ∀ n v k, ¬s.inWord n k → (s.setWord n v).byte k = s.byte k)
    ∧ (∀ f, s.run? = some f →
      (∀ r, s.src64 (.sr r) = .ok (match r with
        | .core => BitVec.ofNat 64 f.core
        | .cas => BitVec.ofNat 64 (f.core / 8 % 256)
        | .die => BitVec.ofNat 64 (f.core / 2048 % 16)
        | .pkg => BitVec.ofNat 64 (f.core / 32768)
        | .ctx => BitVec.ofNat 64 f.ctx
        | .elem => BitVec.ofNat 64 (f.elem.getD 0xFFFFFFFF)
        | .firing => f.id
        | .actor => BitVec.ofNat 64 f.hdr
        | .lanes => BitVec.ofNat 64 (16 * f.groups)
        | .time => s.time
        | .path => f.path
        | .tandem => BitVec.ofNat 64 (match f.tandem with | some t => f.core * 2 ^ 8 + t.members.length | none => 0)))
      ∧ (∀ r t m, s.srcT (.sr r) t m = .ok ((s.sreg r).toNat % 2 ^ t.width))
      ∧ (∀ x : BitVec 15, s.src64 (.imm x) = .ok (BitVec.ofInt 64 x.toInt)
        ∧ ∀ t m, (t.isInt = true → s.srcT (.imm x) t m = .ok (bitsOf t.width x.toInt))
          ∧ (t.isFloat = true → s.srcT (.imm x) t m = .ok (roundTo t m false false (ofInt x.toInt))))
      ∧ (∀ k : BitVec 3, (f.claims.find? (fun q => q.input == k.toNat) = none → s.src64 (.ic k) = .error (trapAt 0x0B 0))
        ∧ ∀ q, f.claims.find? (fun q => q.input == k.toNat) = some q → s.src64 (.ic k) = .ok (BitVec.ofNat 64 q.slot)))
    ∧ (∀ c x ins cl, claimsOf s c x ins = some cl → ∀ q ∈ cl, s.descAt c x q.1.chan = .ok q.2
      ∧ q.1.slot = q.2.base + q.1.first % 2 ^ q.2.cnt * 2 ^ q.2.sz)
    ∧ (s.cf.tandem.isSome = true → ∀ n v, (s.setWord n v).mem = s.mem)

/-- R220: results are reduced to their type by wrapping or by saturation; the quotient and the remainder of any two
integers, of a divisor of zero and of the least value by −1 too; and the corner results of the rule's table. -/
def Obligations.ResultsAndDivision : Prop :=
  (∀ (t : Ty) (x : Int), t.isInt = true →
    (intOf t (intResult t false x) - x) % 2 ^ t.width = 0
    ∧ tmin t ≤ intOf t (intResult t false x) ∧ intOf t (intResult t false x) ≤ tmax t
    ∧ intOf t (intResult t true x) = min (max x (tmin t)) (tmax t))
  ∧ (∀ (t : Ty) (a b : Int), t.isInt = true →
    (b = 0 → quot t a b = (if a < 0 then tmin t else tmax t) ∧ remOf t a b = a)
    ∧ (b ≠ 0 → a = b * quot t a b + remOf t a b ∧ (remOf t a b).natAbs < b.natAbs ∧ 0 ≤ a * remOf t a b))
  ∧ (∀ t : Ty, t.isI = true → quot t (tmin t) (-1) = 2 ^ (t.width - 1) ∧ remOf t (tmin t) (-1) = 0
    ∧ intOf t (intResult t false (quot t (tmin t) (-1))) = tmin t ∧ intOf t (intResult t true (quot t (tmin t) (-1))) = tmax t)
  ∧ fillWord .i8 (intResult .i8 false (100 + 100)) = 0xFFFFFFFFFFFFFFC8 ∧ fillWord .i8 (intResult .i8 true (100 + 100)) = 0x7F
  ∧ fillWord .n8 (intResult .n8 false (200 + 100)) = 0x2C ∧ fillWord .n32 (intResult .n32 true (5 - 9)) = 0
  ∧ fillWord .i32 (intResult .i32 false (quot .i32 (-7) 2)) = 0xFFFFFFFFFFFFFFFD
  ∧ fillWord .i32 (intResult .i32 false (remOf .i32 (-7) 2)) = 0xFFFFFFFFFFFFFFFF
  ∧ fillWord .i32 (intResult .i32 false (quot .i32 5 0)) = 0x7FFFFFFF
  ∧ fillWord .n16 (intResult .n16 false (quot .n16 5 0)) = 0xFFFF
  ∧ fillWord .i16 (shlOf .i16 true 0x4000 1) = 0x7FFF
  ∧ fillWord .n8 (bitsOf 8 (signedOf 8 0x90 / 2 ^ 2)) = 0xE4

/-- R135, R216, R225: the bits of an extracted and of an inserted field, and the elements of a register some of whose
elements are written. -/
def Obligations.FieldsAndElements : Prop :=
  (∀ (t : Ty) (a b d j : Nat), t.isInt = true → a < 2 ^ t.width → d < 2 ^ t.width →
    (let pos := b % 64
     let len := if pos < t.width then min (b / 64 % 128) (t.width - pos) else 0
     (j < t.width → (bfxOf t a b).testBit j
       = if j < len then a.testBit (pos + j) else t.isI && decide (0 < len) && a.testBit (pos + len - 1))
     ∧ (bfiOf t a b d).testBit j = if pos ≤ j ∧ j < pos + len then a.testBit (j - pos) else d.testBit j))
  ∧ (∀ (old : VecBits) (w : Nat) (es : List Nat) (k : Nat), 0 < w → es.length * w ≤ 4608 → (∀ e ∈ es, e < 2 ^ w) →
    (k < es.length → elemOf (withElems old w es) w k = es.getD k 0)
    ∧ (es.length ≤ k → elemOf (withElems old w es) w k = elemOf old w k))

/-- R219, R220: the two-source integer instructions. Every form: scalar and vector destination, wrapped or clamped.
R219, R222, R446: the bitwise instructions, and madd, which adds its destination and so reads it. R219, R225: shifts,
rotations and bit fields, whose B is a 64-bit count; bfi reads its destination. -/
def Obligations.IntegerInstructions : Prop :=
  (∀ (s : State) (x : Arith) (a b : Nat), s.issues x.hd → s.needOpnds [x.d, x.a, x.b] = .ok () →
    s.srcT x.a x.ty x.rnd = .ok a → s.srcT x.b x.ty x.rnd = .ok b →
    ∀ p ∈ ([(.add, fun u v => u + v), (.sub, fun u v => u - v), (.mul, fun u v => u * v),
        (.mulh, fun u v => (u * v) / 2 ^ x.ty.width), (.mulhn, fun u v => (u * v) / 2 ^ x.ty.width),
        (.div, quot x.ty), (.divn, quot x.ty), (.rem, remOf x.ty), (.remn, remOf x.ty),
        (.min, min), (.max, max), (.minn, min), (.maxn, max)] : List ((Arith → Instr) × (Int → Int → Int))),
      s.lands (p.1 x) x a b (fun u v _ => intResult x.ty x.sat (p.2 (intOf x.ty u) (intOf x.ty v))))
  ∧ (∀ (s : State) (x : Arith) (a b : Nat), s.issues x.hd → s.needOpnds [x.d, x.a, x.b] = .ok () →
    s.srcT x.a x.ty x.rnd = .ok a → s.srcT x.b x.ty x.rnd = .ok b →
    (∀ p ∈ ([(.and, fun u v _ => (u &&& v) % 2 ^ x.ty.width), (.or, fun u v _ => (u ||| v) % 2 ^ x.ty.width),
        (.xor, fun u v _ => (u ^^^ v) % 2 ^ x.ty.width),
        (.andn, fun u v _ => (u &&& (2 ^ x.ty.width - 1 - v % 2 ^ x.ty.width)) % 2 ^ x.ty.width),
        (.orn, fun u v _ => (u ||| (2 ^ x.ty.width - 1 - v % 2 ^ x.ty.width)) % 2 ^ x.ty.width)]
        : List ((Arith → Instr) × (Nat → Nat → Nat → Nat))),
      s.lands (p.1 x) x a b p.2)
    ∧ (s.needDest x.d = .ok () →
      s.lands (.madd x) x a b (fun u v d => intResult x.ty x.sat (intOf x.ty u * intOf x.ty v + intOf x.ty d))))
  ∧ (∀ (s : State) (x : Arith) (a : Nat) (b : Word), s.issues x.hd → s.needOpnds [x.d, x.a, x.b] = .ok () →
    s.srcT x.a x.ty x.rnd = .ok a → s.src64 x.b = .ok b →
    (∀ p ∈ ([(.shl, fun u c _ => shlOf x.ty x.sat u c),
        (.shr, fun u c _ => if c ≥ x.ty.width then 0 else u / 2 ^ c),
        (.sar, fun u c _ => bitsOf x.ty.width (signedOf x.ty.width u / 2 ^ (Nat.min c x.ty.width))),
        (.rol, fun u c _ => rolOf x.ty.width u c), (.bfx, fun u c _ => bfxOf x.ty u c)]
        : List ((Arith → Instr) × (Nat → Nat → Nat → Nat))),
      s.lands (p.1 x) x a b.toNat p.2)
    ∧ (s.needDest x.d = .ok () → s.lands (.bfi x) x a b.toNat (fun u c d => bfiOf x.ty u c d)))

/-- R223, R234 to R236, R238: the instructions of one source. R224, R237: conversions read the source type ts and
write the type of the instruction; a vector element above the count of source elements is 0. Where it rests on a
choice of the model: log 15, log 39. -/
def Obligations.OneSourceAndConversions : Prop :=
  (∀ (s : State) (x : Arith) (a : Nat), s.issues x.hd → s.needOpnds [x.d, x.a] = .ok () →
    s.srcT x.a x.ty x.rnd = .ok a →
    (∀ p ∈ ([(.abs, fun u => intResult x.ty x.sat ((intOf x.ty u).natAbs : Int)),
        (.neg, fun u => intResult x.ty x.sat (-(intOf x.ty u))), (.clz, clzOf x.ty.width), (.ctz, ctzOf x.ty.width),
        (.popc, popOf x.ty.width), (.brev, brevOf x.ty.width), (.bswap, bswapOf x.ty.width),
        (.fabs, fun u => u % signBit x.ty), (.fneg, fun u => (u + signBit x.ty) % 2 ^ x.ty.width),
        (.frnd, frndF x.ty x.rnd), (.fsqrt, fun1 .sqrt x.ty x.rnd x.sat x.ftz),
        (.frcp, fun1 .rcp x.ty x.rnd x.sat x.ftz), (.frsq, fun1 .rsq x.ty x.rnd x.sat x.ftz),
        (.fex2, fun1 .ex2 x.ty x.rnd x.sat x.ftz), (.flg2, fun1 .lg2 x.ty x.rnd x.sat x.ftz),
        (.fsin, fun1 .sin x.ty x.rnd x.sat x.ftz), (.fcos, fun1 .cos x.ty x.rnd x.sat x.ftz),
        (.ftanh, fun1 .tanh x.ty x.rnd x.sat x.ftz)] : List ((Arith → Instr) × (Nat → Nat))),
      s.lands (p.1 x) x a 0 (fun u _ _ => p.2 u))
    ∧ (∀ n, x.d = .w n → exec (.fclass x) s = s.completes (s.setWord n.toNat (BitVec.ofNat 64 (classF x.ty a))))
    ∧ (∀ n, x.d = .v n → s.needMask x.lm = .ok () → exec (.fclass x) s = s.completes (s.putLanes n.toNat x.lm x.ty.width (fun k =>
        classF x.ty (s.lane x.a a x.ty.width k)))))
  ∧ (∀ (s : State) (x : Arith) (ts : Ty) (a : Nat), s.issues x.hd → s.needOpnds [x.d, x.a] = .ok () →
    s.srcT x.a ts x.rnd = .ok a →
    ∀ p ∈ ([(.sext ts, fun u => bitsOf x.ty.width (signedOf ts.width u)), (.zext ts, fun u => u % 2 ^ ts.width),
        (.fcvt ts, fun u => roundTo x.ty x.rnd x.sat x.ftz (decodeF ts u)),
        (.ficvt ts, fun u => bitsOf x.ty.width (toIntRange x.rnd (tmin x.ty) (tmax x.ty) (decodeF ts u))),
        (.ifcvt ts, fun u => roundTo x.ty x.rnd x.sat x.ftz (ofInt (intOf ts u)))]
        : List ((Arith → Instr) × (Nat → Nat))),
      (∀ n, x.d = .w n → exec (p.1 x) s = s.completes (s.setWord n.toNat (fillWord x.ty (p.2 a))))
        ∧ (∀ n m, x.d = .v n → x.a = .v m → s.needMask x.lm = .ok () → exec (p.1 x) s = s.completes (s.putLanes n.toNat x.lm x.ty.width (fun k =>
            if k < lanes s.cf.groups ts.width then p.2 (elemOf (s.vreg m.toNat) ts.width k) else 0)))
        ∧ (∀ n, x.d = .v n → x.a.isV = false → s.needMask x.lm = .ok () → exec (p.1 x) s = s.completes (s.putLanes n.toNat x.lm x.ty.width (fun k =>
            if k < lanes s.cf.groups ts.width then p.2 a else 0))))

/-- R221: addc and subb chain the carry and the borrow through p7, which they read and write whatever the guard names;
D is a workspace word, written in the signedness of the type, of 32 or 64 bits; no other field of the word may be set.
-/
def Obligations.CarryChain : Prop :=
  (∀ (w : IWord) (i : Instr), decode w = .ok i → (w.extractLsb' 88 8 = 0x03 ∨ w.extractLsb' 88 8 = 0x04) →
    w.extractLsb' 76 8 = 0 ∧ w.extractLsb' 0 8 = 0 ∧ (tyOf (w.extractLsb' 72 4)).isWide = true
      ∧ ∃ (x : Arith) (n : BitVec 8), x.d = .w n ∧ (i = .addc x ∨ i = .subb x))
  ∧ ∀ (s : State) (x : Arith) (a b : Nat), s.issues x.hd → s.needOpnds [x.d, x.a, x.b] = .ok () →
    s.srcT x.a x.ty x.rnd = .ok a → s.srcT x.b x.ty x.rnd = .ok b →
    exec (.addc x) s = s.completes ((s.setWord (State.wordNo x.d)
        (fillWord x.ty ((a + b + (s.pred 7).toNat) % 2 ^ x.ty.width))).setPred 7
        (decide (a + b + (s.pred 7).toNat ≥ 2 ^ x.ty.width)))
      ∧ exec (.subb x) s = s.completes ((s.setWord (State.wordNo x.d)
        (fillWord x.ty (bitsOf x.ty.width ((a : Int) - b - (s.pred 7).toNat)))).setPred 7
        (decide (a < b + (s.pred 7).toNat)))

/-- R226 to R229: sel by p7 or by the lane mask, mov of any type and of a pair, li, lih and lea, which never faults on
the address; the fields of their words that the rules reserve are zero. -/
def Obligations.SelectAndMoves : Prop :=
  (∀ (w : IWord) (i : Instr), decode w = .ok i → 0x25 ≤ (w.extractLsb' 88 8).toNat → (w.extractLsb' 88 8).toNat ≤ 0x29 →
    w.extractLsb' 76 8 = 0 ∧ w.extractLsb' 0 7 = 0
      ∧ (w.extractLsb' 88 8 = 0x25 → w.extractLsb' 0 8 = 0 ∧ tyOf (w.extractLsb' 72 4) ≠ .q128)
      ∧ (w.extractLsb' 88 8 = 0x26 → w.extractLsb' 18 18 = 0)
      ∧ (0x27 ≤ (w.extractLsb' 88 8).toNat → w.extractLsb' 0 8 = 0 ∧ w.extractLsb' 72 4 = 0 ∧ w.extractLsb' 69 3 = 0)
      ∧ (∀ hd d k, i = .li hd d k → k = w.extractLsb' 18 36) ∧ (∀ hd d k, i = .lih hd d k → k = w.extractLsb' 18 28))
  ∧ (∀ (s : State) (x : Arith) (a b : Nat), s.issues x.hd → s.needOpnds [x.d, x.a, x.b] = .ok () →
    s.srcT x.a x.ty x.rnd = .ok a → s.srcT x.b x.ty x.rnd = .ok b →
    (∀ n, x.d = .w n → exec (.sel x) s =
        s.completes (s.setWord n.toNat (fillWord x.ty (if s.pred 7 then a else b))))
      ∧ (∀ n, x.d = .v n → s.needMask true = .ok () → exec (.sel x) s = s.completes (s.putLanes n.toNat false x.ty.width (fun k =>
        if s.maskBit x.ty.width k then s.lane x.a a x.ty.width k else s.lane x.b b x.ty.width k))))
  ∧ (∀ (s : State) (x : Arith) (a : Nat), s.issues x.hd → x.ty ≠ .q128 → s.needOpnds [x.d, x.a] = .ok () →
    s.srcT x.a x.ty x.rnd = .ok a → s.lands (.mov x) x a 0 (fun u _ _ => u))
  ∧ (∀ (s : State) (x : Arith) (d a : BitVec 8) (lo hi : Word), s.issues x.hd → x.ty = .q128 → x.d = .w d → x.a = .w a →
    (s.needPair d.toNat = .ok () → s.needPair a.toNat = .ok () → s.srcWord a.toNat = .ok lo →
      s.srcWord (a.toNat + 1) = .ok hi →
      exec (.mov x) s = s.completes ((s.setWord d.toNat lo).setWord (d.toNat + 1) hi))
    ∧ ((d.toNat % 2 = 1 ∨ a.toNat % 2 = 1) → exec (.mov x) s = .next (s.fault (trapAt Cls.operand 0))))
  ∧ (∀ (s : State) (hd : Head) (n : BitVec 8) (k : BitVec 36) (k' : BitVec 28), s.issues hd → s.needWord n.toNat = .ok () →
    exec (.li hd (.w n) k) s = s.completes (s.setWord n.toNat (k.signExtend 64))
      ∧ (∀ w, s.srcWord n.toNat = .ok w →
        exec (.lih hd (.w n) k') s = s.completes (s.setWord n.toNat (k' ++ w.extractLsb' 0 36))))
  ∧ (∀ (s : State) (x : Task) (n : BitVec 8) (a b : Word), s.issues x.hd → x.d = .w n →
    s.needOpnds [x.d, x.a, x.b] = .ok () → s.src64 x.a = .ok a → s.src64 x.b = .ok b →
    exec (.lea x) s = s.completes (s.setWord n.toNat (a + b)))

/-- R207, R230: a compare writes its predicate, or all ones or zero in each active element. R231: predicate logic; NEG
inverts a source. -/
def Obligations.ComparesAndPredicates : Prop :=
  (∀ (s : State) (x : Cmp) (a b : Nat), s.issues x.hd → s.needOpnds [x.a, x.b] = .ok () →
    s.srcT x.a x.ty .rne = .ok a → s.srcT x.b x.ty .rne = .ok b →
    ∀ p ∈ ([.eq, .ne, .lt, .le, .gt, .ge, .tz, .tnz] : List Cond).map (fun c => (Instr.cmp c x, condHolds c x.ty))
        ++ ([.eq, .ne, .lt, .le, .gt, .ge, .un, .ord] : List FCond).map (fun c => (Instr.fcmp c x, fcondHolds c x.ty)),
      (∀ n, x.d = .p n → exec p.1 s = s.completes (s.setPred n.toNat (p.2 a b)))
        ∧ (∀ n, x.d = .v n → s.needMask x.lm = .ok () → exec p.1 s = s.completes (s.putLanes n.toNat x.lm x.ty.width (fun k =>
            if p.2 (s.lane x.a a x.ty.width k) (s.lane x.b b x.ty.width k) then 2 ^ x.ty.width - 1 else 0))))
  ∧ (∀ (s : State) (x : PredOp), s.issues x.hd →
    ∀ p ∈ ([(.pand, fun u v => u && v), (.por, fun u v => u || v), (.pxor, fun u v => u != v), (.pnot, fun u _ => !u),
        (.pmov, fun u _ => u)] : List ((PredOp → Instr) × (Bool → Bool → Bool))),
      exec (p.1 x) s = s.completes (s.setPred x.d.toNat
        (p.2 (s.pred x.a.p.toNat != x.a.neg) (s.pred x.b.p.toNat != x.b.neg))))

/-- R233, R235: the two-source floating instructions, each rounded once; ffma, ffms and fnma read their destination.
Where it rests on a choice of the model: log 37. -/
def Obligations.FloatTwoSource : Prop :=
  ∀ (s : State) (x : Arith) (a b : Nat), s.issues x.hd → s.needOpnds [x.d, x.a, x.b] = .ok () →
    s.srcT x.a x.ty x.rnd = .ok a → s.srcT x.b x.ty x.rnd = .ok b →
    (∀ p ∈ ([(.fadd, fun u v _ => u.add x.rnd v), (.fsub, fun u v _ => u.add x.rnd v.negate),
        (.fmul, fun u v _ => u.mul v), (.fdiv, fun u v _ => u.div v)]
        : List ((Arith → Instr) × (FVal → FVal → FVal → FVal))),
      s.lands (p.1 x) x a b (fun u v d =>
        roundTo x.ty x.rnd x.sat x.ftz (p.2 (decodeF x.ty u) (decodeF x.ty v) (decodeF x.ty d))))
    ∧ (s.needDest x.d = .ok () → ∀ p ∈ ([(.ffma, fun u v d => (u.mul v).add x.rnd d),
        (.ffms, fun u v d => (u.mul v).add x.rnd d.negate), (.fnma, fun u v d => d.add x.rnd (u.mul v).negate)]
        : List ((Arith → Instr) × (FVal → FVal → FVal → FVal))),
      s.lands (p.1 x) x a b (fun u v d =>
        roundTo x.ty x.rnd x.sat x.ftz (p.2 (decodeF x.ty u) (decodeF x.ty v) (decodeF x.ty d))))
    ∧ (∀ nan, s.lands (.fmin nan x) x a b (fun u v _ => minMaxF x.ty false nan u v)
        ∧ s.lands (.fmax nan x) x a b (fun u v _ => minMaxF x.ty true nan u v))
    ∧ s.lands (.fsgn x) x a b (fun u v _ => u % signBit x.ty + v / signBit x.ty % 2 * signBit x.ty)

/-- R241 to R246, R250: the lane moves. The element each form puts at k, from what the registers held before; the
first list has the forms that read no scalar B, the second those that do. Every register read can be corrected (R446).
R151, R244, R248, R249: vcomp writes every element of its register, vscan the running values of its elements, and
qpack the codes and the scales of its blocks with zero above them, up to the grant. Where it rests on a choice of the
model: log 98. -/
def Obligations.LaneMoves : Prop :=
  ((∀ (s : State) (x : Arith) (n : BitVec 4) (a : Nat), s.issues x.hd → x.d = .v n →
    s.needOpnds [x.a] = .ok () → s.srcT x.a x.ty x.rnd = .ok a → s.needLanes [x.a, x.b] = .ok () →
    s.needMask x.lm = .ok () →
    (x.a.isV = false → exec (.vbcast x) s = s.completes (s.putLanes n.toNat x.lm x.ty.width (fun _ => a)))
    ∧ ∀ p ∈ ([
        (.viota x, fun k => (a + ((List.range k).filter (fun i => s.active x.lm x.ty.width i)).length) % 2 ^ x.ty.width),
        (.vxpnd x, fun k => s.elem x.a x.ty.width ((List.range k).filter (fun i => s.active x.lm x.ty.width i)).length),
        (.vperm .idx x, fun k => s.elem x.a x.ty.width (s.elem x.b x.ty.width k % s.n x.ty)),
        (.vperm .rev x, fun k => s.elem x.a x.ty.width (s.n x.ty - 1 - k)),
        (.vperm .zipl x, fun k => if k % 2 = 0 then s.elem x.a x.ty.width (k / 2) else s.elem x.b x.ty.width ((k - 1) / 2)),
        (.vperm .ziph x, fun k => if k % 2 = 0 then s.elem x.a x.ty.width (s.n x.ty / 2 + k / 2)
          else s.elem x.b x.ty.width (s.n x.ty / 2 + (k - 1) / 2)),
        (.vperm .unzl x, fun k => if k < s.n x.ty / 2 then s.elem x.a x.ty.width (2 * k)
          else s.elem x.b x.ty.width (2 * k - s.n x.ty)),
        (.vperm .unzh x, fun k => if k < s.n x.ty / 2 then s.elem x.a x.ty.width (2 * k + 1)
          else s.elem x.b x.ty.width (2 * k - s.n x.ty + 1))] : List (Instr × (Nat → Nat))),
      exec p.1 s = s.completes (s.putLanes n.toNat x.lm x.ty.width p.2))
  ∧ (∀ (s : State) (x : Arith) (n : BitVec 4) (a : Nat) (b : Word), s.issues x.hd → x.d = .v n →
    s.needOpnds [x.a, x.b] = .ok () → s.srcT x.a x.ty x.rnd = .ok a → s.src64 x.b = .ok b →
    s.needLanes [x.a, x.b] = .ok () → s.needMask x.lm = .ok () →
    (x.a.isV = true → exec (.vbcast x) s = s.completes (s.putLanes n.toNat x.lm x.ty.width
      (fun _ => s.elem x.a x.ty.width (b.toNat % s.n x.ty))))
    ∧ (∀ ts, exec (.qunpk ts x) s = s.completes (s.putLanes n.toNat x.lm x.ty.width (fun k =>
        roundTo x.ty x.rnd x.sat x.ftz (((decodeF .e2m1 (s.elem x.a 4 k)).mul
          (scaleVal (s.elem x.a 8 (s.n x.ty / 2 + k / 8)))).mul (decodeF .bf16 (b.toNat % 65536))))))
    ∧ ∀ p ∈ ([
        (.vins x, fun k => if k = b.toNat % s.n x.ty then a else elemOf (s.vreg n.toNat) x.ty.width k),
        (.vslide .up x, fun k => if k ≥ b.toNat then s.elem x.a x.ty.width (k - b.toNat) else 0),
        (.vslide .down x, fun k => if k + b.toNat < s.n x.ty then s.elem x.a x.ty.width (k + b.toNat) else 0),
        (.vslide .rotu x, fun k => s.elem x.a x.ty.width ((k + s.n x.ty - b.toNat % s.n x.ty) % s.n x.ty)),
        (.vslide .rotd x, fun k => s.elem x.a x.ty.width ((k + b.toNat) % s.n x.ty))] : List (Instr × (Nat → Nat))),
      exec p.1 s = s.completes (s.putLanes n.toNat x.lm x.ty.width p.2)))
  ∧ (∀ (s : State) (x : Arith) (n : BitVec 4), s.issues x.hd → x.d = .v n →
    (∀ a, s.needOpnds [x.a] = .ok () → s.srcT x.a x.ty x.rnd = .ok a → s.needLanes [x.a, x.b] = .ok () →
      s.needMask x.lm = .ok () → exec (.vcomp x) s = s.completes (s.putLanes n.toNat false x.ty.width (fun k =>
        match ((List.range (s.n x.ty)).filter (fun i => s.active x.lm x.ty.width i))[k]? with
        | some i => s.elem x.a x.ty.width i
        | none => 0)))
    ∧ (s.needLanes [x.a] = .ok () → s.needMask x.lm = .ok () → ∀ f, exec (.vscan f x) s = s.completes ((s.setVreg n.toNat (withElems (s.vreg n.toNat) x.ty.width
        (scanFrom (redStep f x) (redIdentity f x.ty) none ((List.range (s.n x.ty)).map (fun k =>
          if s.active x.lm x.ty.width k then some (s.elem x.a x.ty.width k) else none))))).useVec))
    ∧ (∀ ts b, s.needOpnds [x.b] = .ok () → s.src64 x.b = .ok b → s.needLanes [x.a] = .ok () →
      exec (.qpack ts x) s = s.completes ((s.setVreg n.toNat (BitVec.ofNat 4608
        (qpackImage (s.n ts) ((List.range (s.n ts)).map (fun k => decodeF ts (s.elem x.a ts.width k)))
          (decodeF .bf16 (b.toNat % 65536)) x.rnd
        + (s.vreg n.toNat).toNat / 2 ^ (512 * s.cf.groups) * 2 ^ (512 * s.cf.groups)))).useVec)))

/-- R239: vclaim asks for groups of 16 lanes; a request above what the firing holds is given the shared groups that
are free; the grant is written, and every vector register becomes undefined (a free value of the model each). After a
vector instruction it is illegal. R150, R246 to R248: the instructions that take a vector to a scalar: vext, vany,
vall and the tree of vred, where the registers they read can be corrected (R446). Where it rests on a choice of the
model: log 9, log 37. -/
def Obligations.LaneClaimAndReductions : Prop :=
  (∀ (s : State) (x : Task), s.issues x.hd →
    (∀ (n : BitVec 8) (a : Word), s.cf.vecUsed = false → x.d = .w n → s.needOpnds [x.d, x.a] = .ok () → s.src64 x.a = .ok a →
      let want := (Nat.min (Nat.max a.toNat 1) 256 + 15) / 16
      let g := if want ≤ s.cf.groups then want
        else s.cf.groups + Nat.min (want - s.cf.groups) (s.freeGroups (casOf s.cf.core))
      exec (.vclaim x) s = s.completes (((s.setCf { s.cf with groups := g }).undefVecs).setWord n.toNat
        (BitVec.ofNat 64 (16 * g))))
    ∧ (s.cf.vecUsed = true → exec (.vclaim x) s = .next (s.fault (trapAt 0x01 0))))
  ∧ (∀ (s : State) (x : Arith) (n : BitVec 8), s.issues x.hd → x.d = .w n → s.needWord n.toNat = .ok () →
    s.needLanes [x.a] = .ok () →
    (∀ b, s.needOpnds [x.b] = .ok () → s.src64 x.b = .ok b →
      exec (.vext x) s = s.completes (s.setWord n.toNat (fillWord x.ty (s.elem x.a x.ty.width (b.toNat % s.n x.ty)))))
    ∧ (s.needMask x.lm = .ok () → exec (.vany x) s = s.completes (s.setWord n.toNat (if (List.range (s.n x.ty)).any (fun k =>
        s.active x.lm x.ty.width k && s.elem x.a x.ty.width k != 0) then 1 else 0)))
    ∧ (s.needMask x.lm = .ok () → exec (.vall x) s = s.completes (s.setWord n.toNat (if (List.range (s.n x.ty)).all (fun k =>
        !s.active x.lm x.ty.width k || s.elem x.a x.ty.width k != 0) then 1 else 0)))
    ∧ (s.needMask x.lm = .ok () → ∀ f, exec (.vred f x) s = s.completes (s.setWord n.toNat (fillWord x.ty ((redTree (redStep f x)
        (fun k => if k < s.n x.ty && s.active x.lm x.ty.width k then some (s.elem x.a x.ty.width k) else none)
        (ceilLog2 (s.n x.ty)) 0).getD (redIdentity f x.ty))))))

/-- R195, R196, R198, R216, R253: the frame of the instructions that write registers only. Whether such an instruction
has its effect, is passed or faults, it changes no word but its destination, no vector register but its destination,
no byte of memory but those of its destination word, or pair, no predicate but the one it is defined to write, no
special register, no flag C or K, no other core and no other part of the machine, and the agenda gains no more than
the step of its fault; vclaim may change %lanes and every vector register too. -/
def Obligations.RegisterFrame : Prop :=
  ∀ (s t : State) (i : Instr), s.Inv → exec i s = .next t →
    (∀ x : Arith, (i ∈ ([.add x, .sub x, .mul x, .mulh x, .mulhn x, .madd x, .div x, .divn x, .rem x, .remn x, .and x,
        .or x, .xor x, .andn x, .orn x, .shl x, .shr x, .sar x, .rol x, .min x, .max x, .minn x, .maxn x, .abs x, .neg x,
        .clz x, .ctz x, .popc x, .brev x, .bswap x, .bfx x, .bfi x, .sel x, .fadd x, .fsub x, .fmul x, .ffma x, .ffms x,
        .fnma x, .fdiv x, .fsqrt x, .fabs x, .fneg x, .fsgn x, .frnd x, .fclass x, .frcp x, .frsq x, .fex2 x, .flg2 x,
        .fsin x, .fcos x, .ftanh x] : List Instr)
      ∨ (∃ nan, i = .fmin nan x ∨ i = .fmax nan x)
      ∨ (∃ ts, i = .sext ts x ∨ i = .zext ts x ∨ i = .fcvt ts x ∨ i = .ficvt ts x ∨ i = .ifcvt ts x)
      ∨ (i = .mov x ∧ x.ty ≠ .q128)) → (x.d.isW = true ∨ x.d.isV = true) →
      s.registersOnly t ∧ s.keepsSpecial t ∧ s.keepsVecs t x.d.vecs
        ∧ s.keepsWords t x.d.words [])
    ∧ (∀ (x : Arith) (n : BitVec 4), x.d = .v n → (i ∈ ([.vbcast x, .vcomp x, .vxpnd x, .viota x, .vins x] : List Instr)
      ∨ (∃ f, i = .vperm f x) ∨ (∃ f, i = .vslide f x) ∨ (∃ f, i = .vscan f x) ∨ (∃ ts, i = .qpack ts x ∨ i = .qunpk ts x)) →
      s.registersOnly t ∧ s.keepsSpecial t ∧ s.keepsVecs t [n.toNat]
        ∧ s.keepsWords t [] [])
    ∧ (∀ (x : Arith) (n : BitVec 8), x.d = .w n → (i ∈ ([.vext x, .vany x, .vall x] : List Instr) ∨ ∃ f, i = .vred f x) →
      s.registersOnly t ∧ s.keepsSpecial t ∧ s.keepsVecs t []
        ∧ s.keepsWords t [n.toNat] [])
    ∧ (∀ (x : Arith) (n : BitVec 8), x.d = .w n → x.ty = .q128 → i = .mov x →
      s.registersOnly t ∧ s.keepsSpecial t ∧ s.keepsVecs t [] ∧ s.keepsWords t [n.toNat, n.toNat + 1] [])
    ∧ (∀ (x : Task) (n : BitVec 8), x.d = .w n → i = .vclaim x →
      { t with cores := s.cores, mem := s.mem, agenda := s.agenda, fresh := s.fresh } = s ∧ s.gains t (faultStep s.cur)
        ∧ s.keepsCore (t.core s.cur) ∧ s.keepsFiring { t.cf with groups := s.cf.groups }
        ∧ (∀ c, c ≠ s.cur → t.core c = s.core c) ∧ (∀ r, r ≠ .lanes → t.sreg r = s.sreg r) ∧ s.keepsWords t [n.toNat] [])
    ∧ (∀ (x : Arith) (n : BitVec 8), x.d = .w n → (i = .addc x ∨ i = .subb x) →
      s.registersOnly t ∧ s.keepsSpecial t ∧ s.keepsVecs t []
        ∧ s.keepsWords t [n.toNat] [7])
    ∧ (∀ (hd : Head) (n : BitVec 8), ((∃ k, i = .li hd (.w n) k) ∨ (∃ k, i = .lih hd (.w n) k)
        ∨ (∃ x : Task, x.d = .w n ∧ i = .lea x)) →
      s.registersOnly t ∧ s.keepsSpecial t ∧ s.keepsVecs t []
        ∧ s.keepsWords t [n.toNat] [])
    ∧ (∀ (x : Cmp), ((∃ c, i = .cmp c x) ∨ (∃ c, i = .fcmp c x)) →
      s.registersOnly t ∧ s.keepsSpecial t
        ∧ (∀ n, x.d = .p n → s.keepsVecs t [] ∧ s.keepsWords t [] [n.toNat])
        ∧ (∀ n, x.d = .v n → s.keepsVecs t [n.toNat] ∧ s.keepsWords t [] []))
    ∧ (∀ (x : PredOp), i ∈ ([.pand x, .por x, .pxor x, .pnot x, .pmov x] : List Instr) →
      s.registersOnly t ∧ s.keepsSpecial t ∧ s.keepsVecs t []
        ∧ s.keepsWords t [] [x.d.toNat])

/-- R85, R98, R100, R167, R253, R256: the frame of ld and st. A load changes no memory but the word it writes. A store
changes no vector or special register, no word of a tandem, and no byte of memory but, through the private alias, the
bytes at the address it names and the bytes of a sync word they touch; every other store changes no memory as it
issues. Of a die's registers either may change only the table cache and the clock, of another core's and another
cassette's nothing, and of its own cassette's only the L1 with the fills under way to it, the TLB and the capability
cache. To the agenda a load adds the return of its value and fills of its L1, a store its performance, and either the
step of its fault; a load that finds no way to its home sends one message, which asks for it. Of its own core a load
changes the loads and answers under way, a store the two counts of stores, and either what its window has seen and the
halt of a watch; a store adds to the stores on their way. Where it rests on a choice of the model: log 12, log 13. -/
def Obligations.LoadAndStoreFrame : Prop :=
  ∀ (s t : State) (x : Mem) (n : BitVec 8), s.Inv → x.d = .w n →
    (exec (.ld x) s = .next t →
      { t with
          cores := s.cores, mem := s.mem, agenda := s.agenda, cass := s.cass, dies := s.dies, fresh := s.fresh, msgs := s.msgs
          nextTag := s.nextTag } = s
        ∧ (t.msgs = s.msgs ∨ ∃ va k, t.msgs = s.msgs.set s.nextTag (.read s.cur true s.cctx va k))
        ∧ s.gains t (fun i => faultStep s.cur i ∨ i = .loadReturn s.cur ∨ ∃ l, i = .l1Fill (casOf s.cur) l)
        ∧ { t.core s.cur with
          run := (s.core s.cur).run, stopping := (s.core s.cur).stopping, evinc := (s.core s.cur).evinc
          loads := (s.core s.cur).loads, waits := (s.core s.cur).waits, windows := (s.core s.cur).windows
          haltReq := (s.core s.cur).haltReq } = s.core s.cur
        ∧ s.keepsFiring t.cf ∧ s.keepsCass t ∧ s.keepsDies t ∧ s.keepsSpecial t ∧ s.keepsVecs t []
        ∧ s.keepsWords t (if x.ty = .q128 then [n.toNat, n.toNat + 1] else [n.toNat]) [])
    ∧ (exec (.st x) s = .next t →
      { t with cores := s.cores, mem := s.mem, agenda := s.agenda, cass := s.cass, dies := s.dies, fresh := s.fresh
               pend := s.pend, nextTag := s.nextTag } = s
        ∧ s.gains t (fun i => faultStep s.cur i ∨ i = .storePerform s.nextTag)
        ∧ (∃ l, t.pend = s.pend ++ l ∧ ∀ p ∈ l, p.core = s.cur ∧ p.tag = s.nextTag)
        ∧ { t.core s.cur with
          run := (s.core s.cur).run, stopping := (s.core s.cur).stopping, evinc := (s.core s.cur).evinc
          issued := (s.core s.cur).issued, drained := (s.core s.cur).drained, windows := (s.core s.cur).windows
          haltReq := (s.core s.cur).haltReq } = s.core s.cur
        ∧ s.keepsFiring t.cf ∧ s.keepsCass t ∧ s.keepsDies t ∧ s.keepsSpecial t ∧ s.keepsVecs t []
        ∧ (s.cf.tandem.isSome = true → ∀ n, t.rawWord t.cf n = s.rawWord s.cf n)
        ∧ (∀ k, (∀ ea off, s.addr x.a x.b = .ok ea → s.whereAt s.cur s.cctx ea (accBytes x.ty) .store
              = .ok (.slice s.cur off false) → ¬(sliceKey s.cur off ≤ k ∧ k < sliceKey s.cur off + accBytes x.ty)
            ∧ ∀ w ∈ s.syncs, w < sliceKey s.cur off + accBytes x.ty ∧ sliceKey s.cur off < w + 16 → ¬(w ≤ k ∧ k < w + 16)) →
          t.byte k = s.byte k))

/-- R129, R253, R255, R256, R448: where its home can be reached, ld writes what its bytes give, as a load of its core
and cassette sees them, and a load is under way until its value has returned; on a tandem its block counts it and its
banks hold it. Where it rests on a choice of the model: log 5, log 13, log 26. -/
def Obligations.ScalarLoad : Prop :=
  ∀ (s : State) (x : Mem) (d : BitVec 8) (a b : Word) (l : Loc), s.issues x.hd → x.d = .w d →
    s.needOpnds [x.a, x.b] = .ok () → (if x.ty = .q128 then s.needPair d.toNat else s.needWord d.toNat) = .ok () →
    s.src64 x.a = .ok a → s.src64 x.b = .ok b → (x.ord ≠ .rlx → (a + b).toNat % accBytes x.ty = 0) →
    s.whereAt s.cur s.cctx (a + b).toNat (accBytes x.ty) .load = .ok l →
    s.readable s.cur (a + b).toNat l (accBytes x.ty) x.ccls = .ok () → loadWaits x .load s = false → ldFar x s = none →
    ∃ u, exec (.ld x) s = s.completes u ∧
      (let q := (if x.ord = .acq then s.acquire s.cur x.scope else s).seeWindow s.cur
         (l.windowRuns s.cur (accBytes x.ty))
       let v := leNat (q.locBytes s.cur x.ccls l (accBytes x.ty))
       ∃ r : State, r.mem = s.mem ∧ r.cf = s.loadsCf (l.entries (accBytes x.ty)) ∧ (r.core s.cur).loads = (s.core s.cur).loads + 1 ∧
        u = (if x.ty = .q128 then (r.setWord d.toNat (BitVec.ofNat 64 v)).setWord (d.toNat + 1) (BitVec.ofNat 64 (v / 2 ^ 64))
          else r.setWord d.toNat (fillWord x.ty v)))

/-- R85, R253, R256: outside a tandem a store through the private alias, to no line that cannot be corrected, is
performed at once: its bytes are its operand's, and no other byte changes but those of a sync word it touches, which
become unspecified (R100); the core counts it as issued. R130, R253, R256, R446: any other store, one into a line that
cannot be corrected and every store of a tandem leaves the core with nothing written yet: the bytes of each page it
lies on are on their way, with what a release carries, and the core counts it as issued and not drained. Where it
rests on a choice of the model: log 5, log 12, log 13. -/
def Obligations.ScalarStores : Prop :=
  (∀ (s : State) (x : Mem) (d : BitVec 8) (a b : Word) (off : Nat) (data : List Byte), s.Inv → s.issues x.hd → x.d = .w d →
    s.needOpnds [x.a, x.b] = .ok () → (if x.ty = .q128 then s.needPair d.toNat else s.needWord d.toNat) = .ok () →
    s.src64 x.a = .ok a → s.src64 x.b = .ok b → (x.ord ≠ .rlx → (a + b).toNat % accBytes x.ty = 0) →
    s.whereAt s.cur s.cctx (a + b).toNat (accBytes x.ty) .store = .ok (.slice s.cur off false) →
    storeData s x = .ok data → storeWaits x s = false → s.cf.tandem = none →
    s.badRun (sliceKey s.cur off) data.length = false →
    ∃ t, exec (.st x) s = s.completes t ∧
      ((∀ w ∈ s.syncs, ¬(w < sliceKey s.cur off + data.length ∧ sliceKey s.cur off < w + 16)) →
        t.bytes (sliceKey s.cur off) data.length = data)
      ∧ (∀ k, ¬(sliceKey s.cur off ≤ k ∧ k < sliceKey s.cur off + data.length) →
        (∀ w ∈ s.syncs, w < sliceKey s.cur off + data.length ∧ sliceKey s.cur off < w + 16 → ¬(w ≤ k ∧ k < w + 16)) →
        t.byte k = s.byte k)
      ∧ (t.core s.cur).issued = (s.core s.cur).issued + 1 ∧ t.pend = s.pend ∧ t.cf = s.cf)
  ∧ (∀ (s : State) (x : Mem) (d : BitVec 8) (a b : Word) (l : Loc) (data : List Byte), s.issues x.hd → x.d = .w d →
    s.needOpnds [x.a, x.b] = .ok () → (if x.ty = .q128 then s.needPair d.toNat else s.needWord d.toNat) = .ok () →
    s.src64 x.a = .ok a → s.src64 x.b = .ok b → (x.ord ≠ .rlx → (a + b).toNat % accBytes x.ty = 0) →
    s.whereAt s.cur s.cctx (a + b).toNat (accBytes x.ty) .store = .ok l →
    storeData s x = .ok data → storeWaits x s = false →
    (l.ownAlias s.cur = true → s.cf.tandem.isSome = true ∨ s.badRun ((l.keys 1).headD 0) data.length = true) →
    ∃ t, exec (.st x) s = s.completes t ∧ t.mem = s.mem ∧ t.cf = s.cf
      ∧ t.pend = s.pend ++ s.stParts x (a + b).toNat l data
      ∧ (t.core s.cur).issued = (s.core s.cur).issued + 1
      ∧ (s.stParts x (a + b).toNat l data ≠ [] → (t.core s.cur).drained = (s.core s.cur).drained))

/-- R257, R258, R448: where their homes can be reached, ldv and ldg write the elements they load and keep the others;
no memory changes. R253, R257, R258: stv and sts store the elements of their register in ascending index, as one
instruction that is counted once. Where it rests on a choice of the model: log 12, log 13, log 26, log 98. -/
def Obligations.VectorLoadsAndStores : Prop :=
  (∀ (s : State) (x : Mem) (n : BitVec 4) (els : List (Nat × Nat × Loc)), s.issues x.hd → x.d = .v n →
    (∀ e ∈ els, s.readable s.cur e.2.1 e.2.2 (elBytes x.ty) x.ccls = .ok ()) → s.needMask x.lm = .ok () →
    ∀ i, ((i = Instr.ldv x ∧ ldvElems x .load s = .ok els ∧ elemWaits (ldvElems x .load) (elBytes x.ty) s = false
          ∧ elemFar x (ldvElems x .load) s = none)
        ∨ (i = Instr.ldg x ∧ ldgElems x .load s = .ok els ∧ elemWaits (ldgElems x .load) (elBytes x.ty) s = false
          ∧ elemFar x (ldgElems x .load) s = none)) →
    ∃ t, exec i s = s.completes t ∧ t.mem = s.mem ∧ (t.core s.cur).loads = (s.core s.cur).loads + 1 ∧
      t.vreg n.toNat = withElems (s.vreg n.toNat) (moveWidth x.ty)
        ((List.range (lanes s.cf.groups (moveWidth x.ty))).map (fun k =>
          match els.find? (fun e => e.1 == k) with
          | some e => leNat (((if x.ord = .acq then s.acquire s.cur x.scope else s).seeWindow s.cur
              (els.flatMap (fun e => e.2.2.windowRuns s.cur (elBytes x.ty)))).locBytes s.cur x.ccls e.2.2 (elBytes x.ty))
          | none => elemOf (s.vreg n.toNat) (moveWidth x.ty) k)))
  ∧ (∀ (s : State) (x : Mem) (n : BitVec 4) (els : List (Nat × Nat × Loc)), s.issues x.hd → x.d = .v n →
    s.needLanes [x.d] = .ok () → s.needMask x.lm = .ok () →
    ∀ i, ((i = Instr.stv x ∧ ldvElems x .store s = .ok els ∧ elemStoreWaits x (ldvElems x .store) s = false)
        ∨ (i = Instr.sts x ∧ ldgElems x .store s = .ok els ∧ elemStoreWaits x (ldgElems x .store) s = false)) →
    ∃ t, exec i s = s.completes t ∧ t.cf.vregs = s.cf.vregs ∧ t.cf.vecUsed = true ∧
      ((t.core s.cur).issued = (s.core s.cur).issued + 1) ∧
      t = ((((els.foldl (fun r e => r.noteLoc (casOf s.cur) e.2.2) s).storeAll
        (els.map (fun e => (e.2.1, e.2.2, toLe (elBytes x.ty) (elemOf (s.vreg n.toNat) (moveWidth x.ty) e.1)))) (relOf x)
          x.ccls).watch
          s.cur s.cctx (els.map (fun e => (e.2.1, elBytes x.ty))) false true).useVec))

/-- R167, R259 to R263: a fence that need not wait acquires; lbf brings the core's window up to its alias stores; cwb
sends the line's write-back, cinv discards the cassette's copy and any fill under way, and pref asks for a line that
an L1 may hold and this one does not; cinv and pref of a faulting address, and all three of an alias or window
address, do nothing. Where it rests on a choice of the model: log 38. -/
def Obligations.CacheControl : Prop :=
  (∀ (s : State) (x : Mem), s.issues x.hd → fenceWaits x s = false →
    exec (.fence x) s = s.completes (if x.ord = .rel then s else s.acquire s.cur x.scope))
  ∧ (∀ (s : State) (x : Mem), s.issues x.hd → lbfWaits s = false →
    exec (.lbf x) s = s.completes (s.setCore s.cur { s.core s.cur with windows := [] }))
  ∧ (∀ (s : State) (x : Mem) (a b : Word), s.issues x.hd → s.needOpnds [x.a, x.b] = .ok () → s.src64 x.a = .ok a →
    s.src64 x.b = .ok b →
    (∀ q r, s.whereAt s.cur s.cctx (a + b).toNat 1 .load = .ok (.phys (q :: r)) →
      ((a + b).toNat / 2 ^ 55 ≠ 1 → exec (.cwb x) s = s.completes (((s.noteLoc (casOf s.cur) (.phys [q])).countIssue s.cur).post
          (.wback s.cur s.cctx (a + b).toNat (q.key / 128) (s.core s.cur).issued) .lineWriteback))
      ∧ (∃ t, exec (.cinv x) s = s.completes t ∧ t.mem = s.mem
          ∧ (t.cas (casOf s.cur)).lines = (s.cas (casOf s.cur)).lines.filter (fun l => l.line != q.key / 128)
          ∧ t.agenda = s.agenda.filter (fun e => e.2 != .l1Fill (casOf s.cur) (q.key / 128)))
      ∧ (let n := s.noteLoc (casOf s.cur) (.phys [q])
        exec (.pref x) s = s.completes (
          if q.cached ∧ x.ccls.toNat ≤ 1 ∧ (n.cas (casOf s.cur)).l1co ≠ 0 ∧ n.l1Line s.cur q.key = none
          then n.askFill (casOf s.cur) (q.key / 128) x.ccls
          else n)))
    ∧ (∀ e, s.whereAt s.cur s.cctx (a + b).toNat 1 .load = .error e →
      exec (.cinv x) s = s.completes s ∧ exec (.pref x) s = s.completes s)
    ∧ ((a + b).toNat / 2 ^ 55 = 1 → exec (.cwb x) s = s.completes s)
    ∧ (∀ c off w, s.whereAt s.cur s.cctx (a + b).toNat 1 .load = .ok (.slice c off w) →
      exec (.cinv x) s = s.completes s ∧ exec (.pref x) s = s.completes s ∧ exec (.cwb x) s = s.completes s))

/-- R253, R264 to R266: amo, cas and casq send their operation to its home and the core waits for the answer; amon
does not wait, and is a commit point at once. Memory is as before. R177, R253, R267, R268: amov sends its elements,
those of one line in one message, and red its contribution, checked against the cached region entry that permits it or
else the home's; neither waits, and each is a commit point when it has left the core. -/
def Obligations.AtomicIssue : Prop :=
  (∀ (s : State) (x : Mem) (a : Word) (l : Loc) (key : Nat), s.issues x.hd → relBlocks x s = false →
    s.src64 x.a = .ok a →
    let r := (s.noteLoc (casOf s.cur) l).atomIssued x
    let seq := (s.core s.cur).seq.get (s.home key) 0
    (∀ fn b, s.needOpnds [x.d, x.a, x.b] = .ok () → atomLoc s a.toNat (atomWidth fn x.ty / 8) = .ok (l, key) →
      atomOpnd s fn x = .ok b → ∃ t, exec (.amo fn x) s = s.completes t ∧ t.mem = s.mem
        ∧ (t.core s.cur).waits = (s.core s.cur).waits + 1 ∧ (t.core s.cur).issued = (s.core s.cur).issued + 1
        ∧ s.sent t (.atom { atomMsg r x .amo fn l a.toNat [b] 0 with seq := seq, made := s.home key }) .atomicApply)
    ∧ (∀ fn b, s.needOpnds [x.a, x.b] = .ok () → atomLoc s a.toNat (atomWidth fn x.ty / 8) = .ok (l, key) →
      atomOpnd s fn x = .ok b → ∃ t, exec (.amon fn x) s = s.completes t ∧ t.mem = s.mem
        ∧ (t.core s.cur).waits = (s.core s.cur).waits ∧ (t.core s.cur).issued = (s.core s.cur).issued + 1
        ∧ t.cf.c = true ∧ t.cf.k = true
        ∧ s.sent t (.atom { atomMsg r x .amon fn l a.toNat [b] 0 with seq := seq, made := s.home key }) .atomicApply)
    ∧ (∀ e b, s.needOpnds [x.d, x.a, x.b] = .ok () → atomLoc s a.toNat (x.ty.width / 8) = .ok (l, key) →
      s.srcT x.d x.ty .rne = .ok e → s.srcT x.b x.ty .rne = .ok b → ∃ t, exec (.cas x) s = s.completes t ∧ t.mem = s.mem
        ∧ (t.core s.cur).waits = (s.core s.cur).waits + 1 ∧ (t.core s.cur).issued = (s.core s.cur).issued + 1
        ∧ s.sent t (.atom { atomMsg r x .cas .swap l a.toNat [b] e with seq := seq, made := s.home key }) .atomicApply)
    ∧ (∀ e b, s.needOpnds [x.a] = .ok () → s.needPair (State.wordNo x.d) = .ok () → s.needPair (State.wordNo x.b) = .ok () →
      atomLoc s a.toNat 16 = .ok (l, key) → s.pair (State.wordNo x.d) = .ok e → s.pair (State.wordNo x.b) = .ok b →
      ∃ t, exec (.casq x) s = s.completes t ∧ t.mem = s.mem
        ∧ (t.core s.cur).waits = (s.core s.cur).waits + 1 ∧ (t.core s.cur).issued = (s.core s.cur).issued + 1
        ∧ s.sent t (.atom { atomMsg r x .casq .swap l a.toNat [b] e with seq := seq, made := s.home key }) .atomicApply))
  ∧ ((∀ (s : State) (x : Mem) (fn : AtomFn) (a : Word) (locs : Nat → Loc), s.issues x.hd → relBlocks x s = false →
    s.needOpnds [x.a] = .ok () → s.src64 x.a = .ok a → a.toNat % (atomWidth fn x.ty / 8) = 0 →
    let va := fun k => (a.toNat + k * (atomWidth fn x.ty / 8)) % 2 ^ 64
    let ks := List.range (lanes s.cf.groups (atomWidth fn x.ty))
    (∀ k ∈ ks, s.whereAt s.cur s.cctx (va k) (atomWidth fn x.ty / 8) .atomic = .ok (locs k)) → s.needLanes [x.b] = .ok () →
    ∃ t, exec (.amov fn x) s = s.completes t ∧ t.mem = s.mem ∧ t.cf.c = true ∧ t.cf.k = true ∧ t.cf.vecUsed = true
      ∧ (t.core s.cur).issued = (s.core s.cur).issued + 1 ∧ (t.core s.cur).waits = (s.core s.cur).waits
      ∧ ∀ j e rest, (lineRuns (ks.map (fun k => (k, ((locs k).keys 1).headD 0, locs k, va k))))[j]? = some (e :: rest) →
        (s.time.toNat, Instr.atomicApply (s.nextTag + j)) ∈ t.agenda
        ∧ ∃ seq, t.msg? (s.nextTag + j) = some (.atom
            { atomMsg ((ks.foldl (fun r k => r.noteLoc (casOf s.cur) (locs k)) s).atomIssued x) x .amov fn e.2.2.1 e.2.2.2
                ((e :: rest).map (fun q => elemOf (s.vreg (State.vecNo x.b)) (atomWidth fn x.ty) q.1)) 0 with
              seq := seq, group := s.nextTag, made := s.home e.2.1 }))
  ∧ (∀ (s : State) (x : Mem) (j : BitVec 5) (a lo : Word) (v : Nat) (g : List Seg) (e : BitVec 256), s.issues x.hd → relBlocks x s = false →
    s.needOpnds [x.d, x.a, x.b] = .ok () → s.src64 x.a = .ok a → a.toNat % (x.ty.width / 8) = 0 →
    s.sliceSize s.cur < a.toNat + x.ty.width / 8 → 0x80000 ≤ a.toNat → a.toNat + x.ty.width / 8 ≤ 2 ^ 55 → a.toNat < 2 ^ 55 →
    s.segs s.cur s.cctx a.toNat (x.ty.width / 8) .atomic 3 = .ok g → s.srcWord (State.wordNo x.d) = .ok lo →
    s.srcT x.b x.ty .rne = .ok v → s.det s.cctx = true →
    (let cached := s.redCached x.ty a.toNat j.toNat (lo.toNat % 2 ^ 32)
     cached.or ((s.findRegion (pkgOf s.cur) s.cctx a.toNat).map (fun i => s.region (pkgOf s.cur) s.cctx i)) = some e
      ∧ redPermits e x.ty j.toNat (lo.toNat % 2 ^ 32) = true) →
    ∃ t, exec (.red j x) s = s.completes t ∧ t.mem = s.mem ∧ t.cf.c = true ∧ t.cf.k = true
      ∧ (t.core s.cur).issued = (s.core s.cur).issued + 1 ∧ (t.core s.cur).waits = (s.core s.cur).waits
      ∧ (let key := ((Loc.phys g).keys 1).headD 0
       let noted := if (s.redCached x.ty a.toNat j.toNat (lo.toNat % 2 ^ 32)).isSome then s.notePages (casOf s.cur) (.phys g)
         else s.noteLoc (casOf s.cur) (.phys g)
       s.sent t (.atom { atomMsg (noted.atomIssued x) x .red .swap (.phys g) a.toNat [v] (lo.toNat % 2 ^ 32) with
          dword := j.toNat, seq := (s.core s.cur).seq.get (s.home key) 0, made := s.home key }) .redApply)))

/-- R264 to R267, R343, R443, R444: the elements of an atomic on one line at its home, of its core's package or of
another that has no entry of it yet, once it may be applied there and its unit can read the line: each location takes
the new value in one step, no other byte changes but those of a sync word it touches (R100), a comparison that fails
writes nothing, the line leaves the L1 of its cassette, and the value before goes back with the acknowledgement. R154,
R170, R253, R264: an acknowledgement takes the line of an atomic, or of a red, from the cassette's L1. That of amo,
cas and casq ends the core's wait, acquires, writes the words and the predicate and completes the commit point; that
of any other leaves the core's firing alone. Where it rests on a choice of the model: log 25, log 87. -/
def Obligations.AtomicAtHome : Prop :=
  (∀ (s : State) (tag : Nat) (a : Atom), s.Inv → s.msg? tag = some (.atom a) → a.kind ≠ .red →
    (a.kind = .amov ∨ a.ops.length = 1) → (s.homePkg a.key ≠ pkgOf a.core → s.dupOf a = none ∧ s.dupFull a = false) →
    a.applied = false → s.lostHome (pkgOf a.core) a.key = false → atomReady s tag a = true → s.unitFails a = none →
    let n := a.bytes
    let old := fun (i : Nat) => s.num (a.key + i * n) n
    let cmp := a.kind = .cas ∨ a.kind = .casq
    let fails := cmp ∧ old 0 ≠ a.expected
    let untouched := a.key < sliceBase ∨ ∀ w ∈ s.syncs, ¬(w < a.key + a.span ∧ a.key < w + 16)
    ∃ t, exec (.atomicApply tag) s = .next t
      ∧ s.sent t (.atomAck tag (State.atomResult a (old 0)).2 (State.atomResult a (old 0)).1) .atomicAck
      ∧ (fails → t.mem = s.mem)
      ∧ (¬fails → untouched → ∀ i b, a.ops[i]? = some b →
        t.num (a.key + i * n) n = (if cmp then b else atomNew a.fn a.ty (old i) b) % 256 ^ n)
      ∧ (∀ k, ¬(a.key ≤ k ∧ k < a.key + a.span) →
        (sliceBase ≤ a.key → ∀ w ∈ s.syncs, w < a.key + a.span ∧ a.key < w + 16 → ¬(w ≤ k ∧ k < w + 16)) → t.byte k = s.byte k)
      ∧ (∀ l ∈ (t.cas (casOf a.core)).lines, l.line ≠ a.key / 128))
  ∧ (∀ (s : State) (tag of : Nat) (p7 : Option Bool) (ws : List (Nat × Word)) (a : Atom),
    s.msg? tag = some (.atomAck of p7 ws) → (s.dropMsg tag).msg? of = some (.atom a) →
    ∃ u : State, (u.core a.core).run = (s.core a.core).run ∧ u.mem = s.mem ∧ u.msg? of = none
      ∧ (∀ l ∈ (u.cas (casOf a.core)).lines, l.line ≠ a.key / 128)
      ∧ (State.atomReturns a = false → exec (.atomicAck tag) s = .next u ∧ (u.core a.core).waits = (s.core a.core).waits)
      ∧ (State.atomReturns a = true → (u.core a.core).waits = (s.core a.core).waits - 1
        ∧ exec (.atomicAck tag) s = .next ((match a.acq with | some sc => u.acquire a.core sc | none => u).onCore a.core (fun r =>
          ((match p7 with | some b => (r.setWords ws).setPred 7 b | none => r.setWords ws).commit).watch a.core a.ctx
            [(a.va, a.bytes)] true true))))

/-- R184, R185, R187, R268, R444: a contribution at its home, once it may be applied there and its unit can read what
it needs: outside a reduce region, or covering an index already covered, it is dropped and DETSTAT.ROVL is set; one
that is stored writes its staging image, and the one that covers the last index of its element writes the value of the
tree there, which may complete the region. Where it rests on a choice of the model: log 30. -/
def Obligations.ReductionAtHome : Prop :=
  ∀ (s : State) (tag : Nat) (a : Atom), s.Inv → s.msg? tag = some (.atom a) → a.kind = .red →
    s.homePkg a.key = pkgOf a.core → a.applied = false → s.lostHome (pkgOf a.core) a.key = false →
    atomReady s tag a = true → s.unitFails a = none →
    (s.findRegion (pkgOf a.core) a.ctx a.va = none →
      ∃ t, exec (.redApply tag) s = .next t ∧ t.mem = s.mem ∧ (t.ctx a.ctx).detstat = (s.ctx a.ctx).detstat ||| 2
        ∧ s.sent t (.atomAck tag none []) .atomicAck)
    ∧ (∀ i, s.findRegion (pkgOf a.core) a.ctx a.va = some i →
      let p := pkgOf a.core
      let e := s.region p a.ctx i
      let w := (rgnTy e).width / 8
      let again := (s.coverOf a.ctx a.va).any (fun q => overlaps q.2.1 (2 ^ q.2.2) a.expected (2 ^ a.dword))
      let stage := State.stageKey p e a.va a.expected
      let got := (s.coverOf a.ctx a.va ++ [(a.va, a.expected, a.dword)]).foldl
        (fun k q => k + State.coverCount (rgnSlots e) q) 0
      let s1 := (s.setNum stage w (a.ops.headD 0)).setCtx a.ctx { s.ctx a.ctx with
        cover := (s.ctx a.ctx).cover ++ [(a.va, a.expected, a.dword)] }
      (rgnState e ≠ 3 ∨ again = true →
        ∃ t, exec (.redApply tag) s = .next t ∧ t.mem = s.mem ∧ (t.ctx a.ctx).detstat = (s.ctx a.ctx).detstat ||| 2
          ∧ s.sent t (.atomAck tag none []) .atomicAck)
      ∧ (rgnState e = 3 → again = false → got < rgnSlots e →
        ∃ t, exec (.redApply tag) s = .next t
          ∧ t.num stage w = a.ops.headD 0 % 256 ^ w
          ∧ (∀ k, ¬(stage ≤ k ∧ k < stage + w) → t.byte k = s.byte k)
          ∧ (t.ctx a.ctx).cover = (s.ctx a.ctx).cover ++ [(a.va, a.expected, a.dword)]
          ∧ s.sent t (.atomAck tag none []) .atomicAck)
      ∧ (∀ v, rgnState e = 3 → again = false → rgnSlots e ≤ got → s1.redNode p a.ctx a.va e 16 0 = some v →
        ∃ t, exec (.redApply tag) s = .next t
          ∧ t.mem = (((s1.setNum a.key w v).soil a.key a.cls).reduceDone p a.ctx i e).mem))

/-- R178, R297: handover by the owner, once its earlier writes are acknowledged, sends the new entry to its home and
the core waits; the home writes the entry and drops every cached copy; the answer completes the commit point. Where it
rests on a choice of the model: log 31. -/
def Obligations.Handover : Prop :=
  (∀ (s : State) (x : Task) (kind : HandKind) (a b img stage : Word) (g : Seg) (i : Nat), s.issues x.hd →
    handWaits s = false → s.needOpnds [x.a, x.b] = .ok () →
    (if kind = .rd then s.needPair (State.wordNo x.d) else s.needWord (State.wordNo x.d)) = .ok () →
    s.src64 x.a = .ok a → s.src64 x.b = .ok b → s.srcWord (State.wordNo x.d) = .ok img →
    (if kind = .rd then s.srcWord (State.wordNo x.d + 1) else .ok 0) = .ok stage →
    a.toNat < 2 ^ 55 → s.sliceSize s.cur ≤ a.toNat → 0x80000 ≤ a.toNat → s.seg s.cur s.cctx a.toNat 1 .load = .ok g →
    s.det s.cctx = true → s.findRegion (pkgOf s.cur) s.cctx a.toNat = some i →
    (let e := s.region (pkgOf s.cur) s.cctx i
     rgnBad e = false ∧ rgnOwner e = s.cur ∧ rgnState e ≠ 3) →
    s.isCore (pkgOf s.cur) (b.toNat % 2 ^ 24) = true → handOk kind img stage = true →
    ∃ t, exec (.handover kind x) s = s.completes t ∧ t.mem = s.mem
      ∧ (t.core s.cur).waits = (s.core s.cur).waits + 1
      ∧ s.sent t (.hand s.cur s.cctx a.toNat kind (b.toNat % 2 ^ 24) img stage s.cf.pc) .handoverApply)
  ∧ (∀ (s : State) (tag c x va t i : Nat) (kind : HandKind) (img stage : Word) (pc : Nat),
    s.msg? tag = some (.hand c x va kind t img stage pc) → s.findRegion (pkgOf c) x va = some i →
    s.lostHome (pkgOf c) (s.rgnKey (pkgOf c) x i) = false →
    rgnOwner (s.region (pkgOf c) x i) = c → rgnState (s.region (pkgOf c) x i) ≠ 3 →
    ∃ r, exec (.handoverApply tag) s = .next r
      ∧ r.mem = (s.setRegion (pkgOf c) x i (handEntry (s.region (pkgOf c) x i) kind t img stage)).mem
      ∧ (∀ k, ∀ e ∈ (r.cas k).caps, ¬(e.1 = x ∧ e.2.1 = i))
      ∧ s.sent r (.handDone tag (s.home (s.rgnKey (pkgOf c) x i)) c none (if img.getLsbD 14 then some (t, img.toNat % 2 ^ 14 * 16) else none)) .handoverComplete)
  ∧ (∀ (s : State) (tag q h c : Nat) (sw : Option (Nat × Nat)) (f : Firing), s.msg? tag = some (.handDone q h c none sw) →
    (s.core c).run = some f →
    ∃ r g, exec (.handoverComplete tag) s = .next r ∧ (r.core c).waits = (s.core c).waits - 1
      ∧ (r.core c).run = some g ∧ g.c = true ∧ g.k = true
      ∧ (∀ t off, sw = some (t, off) → s.sent r (.sync c t off 1 0 none) .syncWordUpdate))

/-- R98, R177, R298, R443, R444: capq reads every field of the entry of a region; the caches of translations and
capabilities fill; an unanswered atomic toward another package is sent again; a line the atomic unit could not read is
read again, after 4,096 ck where its DRAM does not answer. Where it rests on a choice of the model: log 26, log 63,
log 87. -/
def Obligations.CapabilityAndRetries : Prop :=
  (∀ (s : State) (x : Task) (n : BitVec 8) (a : Word), s.issues x.hd → x.d = .w n → s.needOpnds [x.d, x.a] = .ok () →
    s.src64 x.a = .ok a → a.toNat < 2 ^ 56 →
    ((s.det s.cctx = false ∨ 2 ^ 55 ≤ a.toNat ∨ a.toNat < 0x80000
        ∨ s.findRegion (pkgOf s.cur) s.cctx a.toNat = none) →
      exec (.capq x) s = s.completes ((s.loadIssued s.cur).setWord n.toNat 0))
    ∧ (∀ i, s.det s.cctx = true → a.toNat < 2 ^ 55 → 0x80000 ≤ a.toNat →
      s.findRegion (pkgOf s.cur) s.cctx a.toNat = some i →
      let e := s.region (pkgOf s.cur) s.cctx i
      ∃ v : Nat, exec (.capq x) s = s.completes ((s.loadIssued s.cur).setWord n.toNat (BitVec.ofNat 64 v))
        ∧ v % 2 ^ 24 = rgnOwner e ∧ v / 2 ^ 29 % 2 = (rgnOwner e == s.cur).toNat ∧ v / 2 ^ 30 % 4 = rgnState e
        ∧ v / 2 ^ 32 % 16 = (e.extractLsb' 12 4).toNat ∧ v / 2 ^ 36 % 16 = rgnOp e
        ∧ (v / 2 ^ 47 = if rgnState e = 3 then rgnSlots e % 2 ^ 17 else 0) ∧ v / 2 ^ 24 % 32 = 0 ∧ v / 2 ^ 40 % 128 = 0))
  ∧ (∀ (s : State) (k x va i : Nat), s.findRegion (k / 4096) x va = some i →
    ∃ t, exec (.capabilityRefetch k x va) s = .next t ∧ (x, i, s.region (k / 4096) x i) ∈ (t.cas k).caps ∧ t.mem = s.mem)
  ∧ (∀ (s : State) (k x va : Nat) (e : Tlb), s.walkFrom (k / 256) x va 4 (s.ctx x).ptroot.toNat = .ok e →
    ∃ t, exec (.pageWalk k x va) s = .next t ∧ e ∈ (t.cas k).tlb ∧ t.mem = s.mem)
  ∧ (∀ (s : State) (tag : Nat) (a : Atom), s.msg? tag = some (.atom a) → s.homePkg a.key ≠ pkgOf a.core →
    ∃ t, exec (.atomicResend tag) s = .next t
      ∧ s.planned t (if a.kind = .red then .redApply tag else .atomicApply tag))
  ∧ (∀ (s : State) (tag : Nat) (a : Atom), s.msg? tag = some (.atom a) → a.applied = false →
    let again : Instr := if a.kind = .red then .redApply tag else .atomicApply tag
    ∀ k, s.unitFails a = some k → a.reads < 4 → (∀ e ∈ s.agenda, e.2 = again → e.1 ≤ s.time.toNat) →
    ∃ t, exec (.dramReread tag) s = .next t ∧ t.mem = s.mem ∧ t.msg? tag = some (.atom { a with reads := a.reads + 1 })
      ∧ (s.time.toNat + (if k = .silent then 4096 else 0), again) ∈ t.agenda
      ∧ ∀ e ∈ t.agenda, e.2 = again → e.1 = s.time.toNat + (if k = .silent then 4096 else 0))

/-- R281: br, jmp, call and loop go to PC + 12·offset; an illegal target is the misaligned fetch. call writes the
address after it; loop counts its word down, goes on at its target while it is not 0, and at the next instruction when
it is. R281: jmpi, ret and calli go to the address their operand holds, which is read before calli writes its link; an
illegal target is the misaligned fetch. R45, R47, R282 to R284: end waits to retire; region enters a region at the
next instruction, and stops a firing that is asked to give way, to be started again there; nop does nothing; and brk
halts the core or traps as the core's debug register says. -/
def Obligations.ControlTransfers : Prop :=
  (∀ (s : State) (hd : Head) (off : Int), s.issues hd →
    let t : Int := (s.cf.pc : Int) + 12 * off
    let legal : Prop := t % 4 = 0 ∧ 0 ≤ t ∧ t < 2 ^ 50
    (∀ i : Instr, (∃ o, i = .br hd o ∧ off = o.toInt) ∨ (∃ o, i = .jmp hd o ∧ off = o.toInt) →
      (legal → ∃ r, exec i s = s.completesAt r ∧ (r.cf.pc : Int) = t ∧ r.mem = s.mem)
        ∧ (¬legal → exec i s = .next (s.fault (trapAt 0x05 (bitsOf 64 t)))))
    ∧ (∀ o n, off = BitVec.toInt o → s.needWord n.toNat = .ok () →
      (legal → ∃ r, exec (.call hd (.w n) o) s = s.completesAt r ∧ (r.cf.pc : Int) = t
          ∧ r.mem = (s.setWord n.toNat (BitVec.ofNat 64 (s.cf.pc + 12))).mem
          ∧ r.cf.tandem = (s.setWord n.toNat (BitVec.ofNat 64 (s.cf.pc + 12))).cf.tandem)
        ∧ (¬legal → exec (.call hd (.w n) o) s = .next (s.fault (trapAt 0x05 (bitsOf 64 t)))))
    ∧ (∀ o n a, off = BitVec.toInt o → s.needWord n.toNat = .ok () → s.src64 (.w n) = .ok a →
      (a ≠ 1 → legal → ∃ r, exec (.loop hd (.w n) o) s = s.completesAt r ∧ (r.cf.pc : Int) = t
          ∧ r.mem = (s.setWord n.toNat (a - 1)).mem ∧ r.cf.tandem = (s.setWord n.toNat (a - 1)).cf.tandem)
        ∧ (a ≠ 1 → ¬legal → exec (.loop hd (.w n) o) s = .next (s.fault (trapAt 0x05 (bitsOf 64 t))))
        ∧ (a = 1 → s.cf.pc % 4 = 0 → s.cf.pc + 12 < 2 ^ 50 → ∃ r, exec (.loop hd (.w n) o) s = s.completesAt r
          ∧ r.cf.pc = s.cf.pc + 12 ∧ r.mem = (s.setWord n.toNat 0).mem
          ∧ r.cf.tandem = (s.setWord n.toNat 0).cf.tandem)))
  ∧ (∀ (s : State) (hd : Head) (a : Opnd) (v : Word), s.issues hd → s.needOpnds [a] = .ok () → s.src64 a = .ok v →
    (v.toNat % 4 = 0 → v.toNat < 2 ^ 50 →
      (∃ r, exec (.jmpi hd a) s = s.completesAt r ∧ r.cf.pc = v.toNat ∧ r.mem = s.mem)
      ∧ (∃ r, exec (.ret hd a) s = s.completesAt r ∧ r.cf.pc = v.toNat ∧ r.mem = s.mem)
      ∧ (∀ n, s.needWord n.toNat = .ok () → ∃ r, exec (.calli hd (.w n) a) s = s.completesAt r ∧ r.cf.pc = v.toNat
          ∧ r.mem = (s.setWord n.toNat (BitVec.ofNat 64 (s.cf.pc + 12))).mem
          ∧ r.cf.tandem = (s.setWord n.toNat (BitVec.ofNat 64 (s.cf.pc + 12))).cf.tandem))
    ∧ (v.toNat % 4 ≠ 0 ∨ 2 ^ 50 ≤ v.toNat → ∀ n, ∀ i ∈ [Instr.jmpi hd a, Instr.ret hd a, Instr.calli hd (.w n) a],
      exec i s = .next (s.fault (trapAt 0x05 v.toNat))))
  ∧ (∀ (s : State) (hd : Head), s.issues hd →
    exec (.nop hd) s = s.completes s
    ∧ exec (.endFiring hd) s = s.completesAt
        ((s.setCore s.cur { s.core s.cur with ending := some 0 }).planNow (.retire s.cur))
    ∧ ((s.core s.cur).preempt = none → s.Inv → ∃ r, exec (.region hd) s = s.completesAt r
        ∧ r.cf.pc = s.cf.pc + 12 ∧ r.cf.c = false ∧ r.cf.k = s.cf.k ∧ r.cf.vecUsed = false
        ∧ r.rawWord r.cf 0 = BitVec.ofNat 64 ((s.cf.pc + 12) / 4 * 2 ^ 16 + (s.rawWord s.cf 0).toNat % 2 ^ 16))
    ∧ (∀ f, (s.core s.cur).preempt.isSome = true → (s.core s.cur).loads = 0 → s.run? = some f → f.doomed = false →
        ∃ r, exec (.region hd) s = s.completesAt r ∧ (r.core s.cur).run = none ∧ s.planned r (.nextFiring f.core)
          ∧ ∃ g, r.fir? f.key = some g ∧ g.stage = .ordered .restart ∧ g.pc = f.pc + 12 ∧ g.c = false ∧ g.pin = true)
    ∧ (∀ code, ((s.core s.cur).dctl.getLsbD 0 = true ∧ ((s.core s.cur).dctl.extractLsb' 8 6).toNat = s.cctx →
          exec (.brk hd code) s = s.completesAt
            (s.setCore s.cur { s.core s.cur with haltReq := some ((s.core s.cur).haltReq.getD 8) }).advance)
        ∧ (¬((s.core s.cur).dctl.getLsbD 0 = true ∧ ((s.core s.cur).dctl.extractLsb' 8 6).toNat = s.cctx) →
          exec (.brk hd code) s = .next (s.fault ⟨0x11, code.toNat, 0, 0, s.cf.pc + 12, 0⟩))))

/-- R286: post makes a firing of the header it names, with its eight arguments and its guard, on its way to a
dispatcher; a commit point. Where it rests on a choice of the model: log 25, log 34, log 72. -/
def Obligations.PostMakesFiring : Prop :=
  ∀ (s : State) (x : Task) (k : PostGuard) (args : List Word) (h : Word) (segs : List Seg) (l : Loc) (g : GuardRec)
    (hdr : Hdr), s.issues x.hd → postWaits s = false → s.needOpnds [x.a] = .ok () → postOperand s k x.b = .ok () →
    s.needArgs (State.wordNo x.d) = .ok () → s.argWords (State.wordNo x.d) = .ok args → s.src64 x.a = .ok h →
    (s.privHdr s.cctx h.toNat = true → s.privileged s.cf = true) → guardAlign s k x.b = .ok () →
    postGuard s k x.b = .ok g → s.whereAt s.cur s.cctx h.toNat 1 .load = .ok (.phys segs) → h.toNat % 256 = 0 →
    s.whereAt s.cur s.cctx h.toNat 256 .load = .ok l → s.readable s.cur h.toNat l 256 3 = .ok () →
    s.hdrOf s.cur s.cctx h.toNat = .ok (hdr, true) → hdr.hasInput = false →
    ∃ t f, exec (.post k x) s = s.completes t ∧ t.fir? s.nextTag = some f ∧ f.src = .post ∧ f.args = args
      ∧ f.hdr = h.toNat ∧ f.head = hdr ∧ f.guard = g ∧ f.ctx = s.cctx ∧ f.sender = s.cur
      ∧ s.planned t (.firingInsert s.nextTag) ∧ t.cf.c = true ∧ t.cf.k = true ∧ t.mem = s.mem

/-- R174, R181, R287, R288: spawn and fork send a child with another entry and eight arguments to a core; the spawner
waits for the answer, the forker does not; in a deterministic context the core comes from the placement table. R289,
R290: send and reply read their payload and send it as a packet whose answer the core waits for; a commit point; the
reply goes to the sender of the first slot claimed on input 0, where a core sent it. Where it rests on a choice of the
model: log 25, log 34, log 72, log 95. -/
def Obligations.SpawnForkSendReply : Prop :=
  (∀ (s : State) (x : Task) (args : List Word) (target entry : Nat), s.issues x.hd → spawnWaits x s = false →
    ((s.det s.cctx = false ∨ s.cf.head.det = false) → spawnOperands s x false = .ok (args, target, entry) →
      ∃ t f, exec (.spawn x) s = s.completes t ∧ t.fir? s.nextTag = some f ∧ f.src = .spawn ∧ f.args = args
        ∧ f.entry = entry ∧ f.hdr = s.cf.hdr ∧ f.ctx = s.cctx ∧ t.mem = s.mem
        ∧ t.msg? (s.nextTag + 1) = some (.spawn s.cur target s.nextTag)
        ∧ s.planned t (.spawnArrival (s.nextTag + 1)) ∧ t.cf.c = true ∧ t.cf.k = true
        ∧ (t.core s.cur).waits = (s.core s.cur).waits + 1)
    ∧ (∀ tgt, spawnOperands s x (s.det s.cctx) = .ok (args, target, entry) →
      (if s.det s.cctx then placedCore s s.childPath.1 else .ok target) = .ok tgt →
      (∃ t f, exec (.fork x) s = s.completes t ∧ t.fir? s.nextTag = some f ∧ f.src = .fork ∧ f.args = args
        ∧ f.entry = entry ∧ f.hdr = s.cf.hdr ∧ f.ctx = s.cctx ∧ t.mem = s.mem
        ∧ t.msg? (s.nextTag + 1) = some (.spawn s.cur tgt s.nextTag)
        ∧ s.planned t (.forkArrival (s.nextTag + 1)) ∧ t.cf.c = true ∧ t.cf.k = true
        ∧ (t.core s.cur).waits = (s.core s.cur).waits)
      ∧ (s.det s.cctx = true → s.cf.head.det = true → ∃ t u, exec (.spawn x) s = s.completes t ∧ t = u.setPred 7 false
        ∧ u.msg? (s.nextTag + 1) = some (.spawn s.cur tgt s.nextTag) ∧ s.planned u (.forkArrival (s.nextTag + 1)))))
  ∧ (∀ (s : State) (x : Task) (a route n : Word), s.issues x.hd → sendWaits s = false → s.needOpnds [x.d, x.a, x.b] = .ok () →
    s.src64 x.a = .ok route → s.src64 x.b = .ok n → s.srcWord (State.wordNo x.d) = .ok a →
    route.toNat / 2 ^ 24 % 16 ≠ 0 → (route.toNat / 2 ^ 24 % 16 = 15 → s.privileged s.cf = true) →
    route.toNat / 2 ^ 28 % 4096 < 0xF00 → n.toNat ≤ 1024 → a.toNat % 8 = 0 → a.toNat + n.toNat ≤ s.sliceSize s.cur →
    s.readable s.cur a.toNat (.slice s.cur a.toNat false) n.toNat 3 = .ok () →
    ∀ i dest kind, ((i = Instr.send x ∧ dest = route.toNat % 2 ^ 24 ∧ kind = false)
        ∨ (i = Instr.reply x ∧ kind = true ∧ ∃ q key, s.cf.claims.find? (fun q => q.input == 0) = some q
            ∧ s.devKey s.cur s.cctx q.slot .load = .ok key
            ∧ dest = (s.slotHdr key).sender ∧ dest ≠ 0xFFFFFF)) → s.isCore (pkgOf s.cur) dest = true →
    ∃ t, exec i s = s.completes t ∧ t.mem = s.mem ∧ t.cf.c = true ∧ t.cf.k = true
      ∧ (t.core s.cur).waits = (s.core s.cur).waits + 1
      ∧ s.sent t (.packet ⟨s.cur, dest, s.cctx, route.toNat / 2 ^ 24 % 16, route.toNat / 2 ^ 28 % 4096,
          s.time.extractLsb' 0 32, s.bytes (sliceKey s.cur a.toNat) n.toNat, kind⟩) .packetArrival)

/-- R38, R39, R291, R292, R294: chres asks the descriptor's home for a slot; chpub of a reserved slot whose page
translates writes the slot's header with the core's store-issue count as STAMP, in memory and in the line that its
cassette's L1 holds of it; clmask sets or clears mask bits and returns the mask as it was. Where it rests on a choice
of the model: log 24, log 69, log 70. -/
def Obligations.ChannelInstructions : Prop :=
  (∀ (s : State) (x : Task) (k : Nat) (e : ChanEnt) (d : Desc), s.issues x.hd → s.needPair (State.wordNo x.a) = .ok () →
    outEntry s x.d = (k, e) → e.count ≠ 0 → outDesc s e = .ok d →
    (s.cf.resv.filter (fun r => r.out == k)).length < e.count →
    ∃ t, exec (.chres x) s = s.completes t ∧ t.mem = s.mem ∧ (t.core s.cur).waits = (s.core s.cur).waits + 1
      ∧ t.cf.c = true ∧ t.cf.k = true ∧ s.sent t (.chres s.cur k e.chan (State.wordNo x.a)) .channelReserve)
  ∧ (∀ (s : State) (x : Task) (k key : Nat) (e : ChanEnt) (d : Desc) (wa wi b : Word), s.issues x.hd → chpubWaits x s = false →
    s.needPair (State.wordNo x.a) = .ok () → s.needOpnds [x.b] = .ok () → outEntry s x.d = (k, e) → e.count ≠ 0 →
    outDesc s e = .ok d → s.srcWord (State.wordNo x.a) = .ok wa → s.srcWord (State.wordNo x.a + 1) = .ok wi →
    s.src64 x.b = .ok b →
    (let i := BitVec.ofNat 32 wi.toNat
     let mine := fun (r : Resv) => r.out == k && r.idx == i.toNat && !r.done
     let len := b.toNat % 2 ^ 16
     let opc := b.toNat / 2 ^ 16 % 4096
     wa.toNat = d.slot i.toNat → s.cf.resv.any mine = true → len + 16 ≤ 2 ^ d.sz → opc < 0xF00 →
     s.devKey s.cur s.cctx (d.slot i.toNat) .load = .ok key →
     let h := slotHeader len opc 0 (s.time.extractLsb' 0 32) (d.mark i) s.cur (s.core s.cur).issued
     ∃ t, exec (.chpub x) s = s.completes t ∧ t.mem = ((s.setNum key 8 h.1).setNum (key + 8) 8 h.2).mem
      ∧ t.cass = (s.updateLines s.cur key (toLe 8 h.1 ++ toLe 8 h.2)).cass
      ∧ s.planned t (.slotCount d.key) ∧ t.cf.c = true ∧ t.cf.k = true
      ∧ t.cf.resv = s.cf.resv.map (fun r => if mine r then { r with done := true } else r)))
  ∧ (∀ (s : State) (x : Task) (n : BitVec 8) (a : Word) (unmask : Bool), s.issues x.hd → x.d = .w n →
    s.needOpnds [x.d, x.a] = .ok () → s.src64 x.a = .ok a →
    let sel : BitVec 16 := a.extractLsb' 0 16 &&& (if s.privileged s.cf then 0xFFFE#16 else 0x7FFE#16)
    let m := (s.core s.cur).mask
    ∃ u, exec (.clmask unmask x) s = s.completes (State.setWord u n.toNat (m.zeroExtend 64))
      ∧ (u.core s.cur).mask = (if unmask then m &&& ~~~sel else m ||| sel) ∧ u.mem = s.mem ∧ u.cf = s.cf)

/-- R121, R131, R295, R296: compose, once its loads have returned, ends its firing and makes a tandem firing of 2^LOGN
cores from it; decomp ends the tandem and, where no pre-emption is asked for, goes on in a new region with one lane
group; outside a tandem decomp is a task fault. -/
def Obligations.ComposeAndDecomp : Prop :=
  (∀ (s : State) (x : Task) (logn : BitVec 3) (a b : Word), s.issues x.hd → (s.core s.cur).loads = 0 →
    s.needOpnds [x.a, x.b] = .ok () → s.src64 x.a = .ok a → s.src64 x.b = .ok b → s.cf.tandem = none →
    a.toNat % 4 = 0 → a.toNat < 2 ^ 50 →
    (b.toNat % 256 = 0 ∨ (9 ≤ b.toNat % 256 ∧ b.toNat % 256 ≤ b.toNat / 256 % 256 ∧ b.toNat / 256 % 256 ≤ s.wsn)) →
    ∃ t key f, exec (.compose logn x) s = s.completesAt t ∧ (t.core s.cur).run = none ∧ t.fir? key = some f
      ∧ f.src = .compose ∧ f.entry = a.toNat ∧ f.width = 2 ^ logn.toNat ∧ f.live = (b.toNat % 256, b.toNat / 256 % 256)
      ∧ f.args = s.cf.args ∧ f.claims = s.cf.claims ∧ f.core = s.cur ∧ s.planned t (.firingInsert key))
  ∧ (∀ (s : State) (hd : Head) (tn : Tandem), s.issues hd → s.cf.tandem = some tn → markerWaits s = false →
    ∃ t, exec (.decomp hd) s = s.completesAt t ∧ ((s.core s.cur).preempt = none → t.cf.tandem = none ∧ t.cf.width = 0 ∧ t.cf.groups = 1
      ∧ t.cf.pc = s.cf.pc + 12 ∧ t.cf.c = false ∧ t.cf.k = true))
  ∧ (∀ (s : State) (hd : Head), s.issues hd → s.cf.tandem = none → markerWaits s = false →
    exec (.decomp hd) s = .next (s.fault (trapAt 0x0B 0)))

/-- R277, R287, R288: the answer of the party that accepted or refused a request; a core accepts a spawn or returns
it; a fork is queued, or discarded where the core has another owner. R289: a destination refuses a packet for another
context, holds one of a masked class if its inbox admits it, and otherwise takes it if the class's channel can, after
the held packets of its class; it answers the sender. A held packet whose class is unmasked is taken, or discarded
with a record. A packet taken is a slot of the channel: its payload, PIDX advanced, and a header with the packet's
fields and STAMP 0. Where it rests on a choice of the model: log 34. -/
def Obligations.ArrivalsAndPackets : Prop :=
  ((∀ (s : State) (tag req src c : Nat) (p7 : Option Bool) (ws : List (Nat × Word)) (mark : Option (Nat × Nat)),
    s.msg? tag = some (.answer req src c p7 ws mark) →
    ∃ u : State, exec (.p7Result tag) s = .next (u.onCore c (fun r =>
        let q := match p7 with | some b => (r.setWords ws).setPred 7 b | none => r.setWords ws
        match mark with | some (ty, pay) => q.traceCore c ty q.cctx (pay + (p7 == some true).toNat) | none => q))
      ∧ (u.core c).waits = (s.core c).waits - 1 ∧ (u.core c).run = (s.core c).run ∧ u.mem = s.mem ∧ u.msg? tag = none)
  ∧ (∀ (s : State) (tag src target key : Nat) (f : Firing), s.msg? tag = some (.spawn src target key) →
    s.fir? key = some f → f.key = key → spawnReady s tag src target = true →
    ((s.dropMsg tag).refusesSpawn target f.ctx = false →
      ∃ t, exec (.spawnArrival tag) s = .next t ∧ (t.core target).spawnq = (s.core target).spawnq ++ [key]
        ∧ s.planned t (.nextFiring target) ∧ s.sent t (.answer tag target src (some false) [] (State.sendMark target 0 0 3)) .p7Result)
    ∧ ((s.dropMsg tag).refusesSpawn target f.ctx = true →
      ∃ t, exec (.spawnArrival tag) s = .next t ∧ t.fir? key = none
        ∧ s.sent t (.answer tag target src (some true) [] (State.sendMark target 0 0 3)) .p7Result)
    ∧ ((s.core target).spown.toNat = f.ctx →
      ∃ t, exec (.forkArrival tag) s = .next t ∧ (t.core target).spawnq = (s.core target).spawnq ++ [key]
        ∧ s.planned t (.nextFiring target))
    ∧ ((s.core target).spown.toNat ≠ f.ctx →
      ∃ t, exec (.forkArrival tag) s = .next t ∧ t.fir? key = none ∧ ((s.ctx f.ctx).fltch = 0 → t.mem = s.mem))))
  ∧ ((∀ (s : State) (tag : Nat) (p : Packet), s.msg? tag = some (.packet p) →
    releaseReady s tag p.src (spanScope p.src p.dest) = true →
    let k := s.core p.dest
    let mark := State.sendMark p.dest p.opc p.cls (if p.answered then 1 else 0)
    (k.spown.toNat ≠ p.ctx →
      ∃ t, exec (.packetArrival tag) s = .next t ∧ s.sent t (.answer tag p.dest p.src (some true) [] mark) .p7Result ∧ t.mem = s.mem)
    ∧ (k.spown.toNat = p.ctx → k.mask.getLsbD p.cls = true →
      (s.admits (casOf p.dest) (packetBlocks p) [p.dest % 8] = true →
        ∃ t, exec (.packetArrival tag) s = .next t ∧ (t.core p.dest).held = k.held ++ [tag]
          ∧ s.sent t (.answer tag p.dest p.src (some false) [] mark) .p7Result ∧ t.mem = s.mem)
      ∧ (s.admits (casOf p.dest) (packetBlocks p) [p.dest % 8] = false →
        ∃ t, exec (.packetArrival tag) s = .next t ∧ s.sent t (.answer tag p.dest p.src (some true) [] mark) .p7Result ∧ t.mem = s.mem))
    ∧ (k.spown.toNat = p.ctx → k.mask.getLsbD p.cls = false →
      let q := releaseAll (s.dropMsg tag) p.dest k.held.length
      (∀ u, deliver q p = .ok u → exec (.packetArrival tag) s = .next (u.reply tag p.dest p.src false [] mark))
      ∧ (deliver q p = .bad ∨ deliver q p = .full → exec (.packetArrival tag) s = .next (q.reply tag p.dest p.src true [] mark))))
  ∧ (∀ (s : State) (c tag : Nat) (p : Packet),
    (releasable s c).find? (fun e => match deliver s e.2 with | .full => false | _ => true) = some (tag, p) →
    let q := (s.setCore c { s.core c with held := (s.core c).held.erase tag }).dropMsg tag
    (∀ u, deliver q p = .ok u →
      exec (.maskedPacketRelease c) s = .next (u.planNow (.maskedPacketRelease c)))
    ∧ (deliver q p = .bad ∨ deliver q p = .full → exec (.maskedPacketRelease c) s
      = .next ((q.notice c p.src p.ctx 0x0B 0 (routeWord p) 0 0).planNow (.maskedPacketRelease c))))
  ∧ (∀ (s : State) (p : Packet) (d : Desc) (key : Nat),
    let va := ((s.core p.dest).rctab.get p.cls 0).toNat
    (s.core p.dest).spown.toNat = p.ctx → va ≠ 0 → s.descAt p.dest p.ctx va = .ok d → d.ok = true → d.ctx = p.ctx →
    p.payload.length + 16 ≤ 2 ^ d.sz → d.full = false → s.devKey p.dest p.ctx (d.slot d.pidx.toNat) .load = .ok key →
    ∃ q : State, q.mem = ((s.setPidx d.key (d.pidx + 1)).setBytes (key + 16) p.payload).mem
      ∧ deliver s p = .ok (q.publish p.dest p.ctx d d.pidx
        (slotHeader p.payload.length p.opc p.cls p.time (d.mark d.pidx) p.src 0))))

/-- R89, R172, R192, R253, R262: a store that may be performed is, at its destination, with the parts of its
instruction in the same 64 bytes of a slice, and it has drained when its last part is; a write-back cleans its line; a
load's value returns; a fill brings the line, merged with the cassette's stores under way, into the L1, beside the
line its home holds, which fetches see. R36, R40, R291, R425, R429, R454: the home reserves the slot at PIDX or
refuses a full channel; a slot at the next index whose header has a wrong mark waits for its next write; one that is
published and whose sender's writes have drained, or whose channel a restore read in, is counted, and dropped with its
cause in ERR when a check fails. Where it rests on a choice of the model: log 12, log 22, log 68, log 73, log 74, log
75, log 76, log 83, log 91. -/
def Obligations.MemoryAndChannelEvents : Prop :=
  ((∀ (s : State) (tag : Nat) (p : PStore), s.pend.find? (fun q => q.tag == tag) = some p → storeReady s p = true →
    let parts := s.together p
    (∀ q ∈ parts, writeReady s q.tag q.core q.key q.data.length q.rel = true ∧ s.lostHome (pkgOf q.core) q.key = false
      ∧ s.isBad q.key = false ∧ s.isBad (q.key + q.data.length - 1) = false
      ∧ (q.key < sliceBase ∨ ∀ w ∈ s.syncs, ¬(w < q.key + q.data.length ∧ q.key < w + 16))) →
    ∃ t, exec (.storePerform tag) s = .next t ∧ t.mem = (parts.foldl (fun r q => r.setBytes q.key q.data) s).mem
      ∧ t.pend = parts.foldl List.erase s.pend
      ∧ (t.core p.core).drained =
        (s.core p.core).drained + (if (parts.foldl List.erase s.pend).any (fun q => q.tag == tag) then 0 else 1))
  ∧ (∀ (s : State) (tag c x va line : Nat) (num : BitVec 32), s.msg? tag = some (.wback c x va line num) →
    (∀ p ∈ s.pend, p.core = c → p.tag < tag → overlaps p.key p.data.length (line * 128) 128 = false) →
    (∀ g a, (g, Msg.atom a) ∈ s.msgs → a.core = c → g < tag → a.applied = false →
      overlaps a.key a.span (line * 128) 128 = false) →
    ∃ t, exec (.lineWriteback tag) s = .next t ∧ t.dirty = s.dirty.filter (· != line) ∧ t.mem = s.mem
      ∧ (t.core c).drained = (s.core c).drained + 1 ∧ t.msg? tag = none)
  ∧ (∀ (s : State) (c : Nat), (s.core c).loads ≠ 0 →
    exec (.loadReturn c) s = .next (s.setCore c { s.core c with loads := (s.core c).loads - 1 }))
  ∧ (∀ (s : State) (k line : Nat), (s.cas k).l1co ≠ 0 → line ∉ s.bad → s.lostHome (k / 4096) (line * 128) = false →
    let new : L1Line := ⟨line, s.lineNow k line, s.lineHome line, [], (s.cas k).streams.contains line, false⟩
    ∃ t, exec (.l1Fill k line) s = .next t ∧ t.mem = s.mem ∧ new ∈ (t.cas k).lines
      ∧ ∀ l ∈ (t.cas k).lines, l.line = line → l = new))
  ∧ ((∀ (s : State) (tag c k va dword : Nat) (f : Firing) (d : Desc), s.msg? tag = some (.chres c k va dword) →
    (s.core c).run = some f → (s.dropMsg tag).descAt c f.ctx va = .ok d →
    (d.full = true → ∃ t, exec (.channelReserve tag) s = .next t ∧ t.mem = s.mem
        ∧ s.sent t (.answer tag (s.home d.key) c (some true) [] none) .p7Result)
    ∧ (d.full = false → ∃ t g, exec (.channelReserve tag) s = .next t ∧ t.mem = (s.setPidx d.key (d.pidx + 1)).mem
        ∧ (t.core c).run = some g ∧ g.resv = f.resv ++ [⟨k, va, d.pidx.toNat, false⟩]
        ∧ s.sent t (.answer tag (s.home d.key) c (some false) [(dword, BitVec.ofNat 64 (d.slot d.pidx.toNat)),
            (dword + 1, d.pidx.zeroExtend 64)] none) .p7Result))
  ∧ (∀ (s : State) (k h : Nat),
    let d := s.desc k
    let p := s.homeDie k / 16
    let x := s.chan k
    d.ok = true → x.next ≠ d.pidx → s.devKey (State.dieCore (s.homeDie k)) d.ctx (d.slot x.next.toNat) .load = .ok h →
    let counted : Chan := { x with
      next := x.next + 1, counted := x.counted ++ [(x.next, s.time)], await := none
      restored := if x.restored = some (x.next + 1) then none else x.restored }
    ((s.slotHdr h).mark ≠ d.mark x.next → exec (.slotCount k) s = .next (s.setChan k { x with await := some h }))
    ∧ ((s.slotHdr h).mark = d.mark x.next → x.restored = none → drained s p (s.slotHdr h) = false →
      exec (.slotCount k) s = .next (s.plan (s.time.toNat + 1) (.slotCount k)))
    ∧ ((s.slotHdr h).mark = d.mark x.next → (x.restored.isSome = true ∨ drained s p (s.slotHdr h) = true) →
      (slotCause s p d (s.slotHdr h) = 0 → (s.slotHdr h).opc ≠ 0xFFF → d.cons = 1 →
        ∃ t, exec (.slotCount k) s = .next t ∧ (t.chan k).next = x.next + 1
          ∧ (t.chan k).counted = x.counted ++ [(x.next, s.time)] ∧ s.planned t (.debugForward k) ∧ t.mem = s.mem)
      ∧ (slotCause s p d (s.slotHdr h) ≠ 0 → exec (.slotCount k) s = .next (((
          (s.setChan k counted).dropErr k x.next
            (slotCause s p d (s.slotHdr h))).freeSlots k [x.next]).planNow (.slotCount k)))
      ∧ (slotCause s p d (s.slotHdr h) = 0 → (s.slotHdr h).opc = 0xFFF → exec (.slotCount k) s = .next (((
          s.setChan k counted).freeSlots k
            [x.next]).planNow (.slotCount k)))
      ∧ (slotCause s p d (s.slotHdr h) = 0 → (s.slotHdr h).opc ≠ 0xFFF → d.cons ≠ 1 →
        exec (.slotCount k) s = .next ((claimChannel
          (s.setChan k counted)
          (State.dieCore (s.homeDie k)) d).planNow (.slotCount k))))))

/-- R100, R103, R269 to R272: barriers and sync words at their core. A query of a barrier writes GEN; an arrival, and
the writes and arrivals of a sync word, go to its unit; swtest writes GEN and whether it is reached. R111 to R113,
R273 to R275: gjoin, gleave and gld check the handle and the range and send their request to the group's home; the
core waits for the answer of a membership change, not of gld. Where it rests on a choice of the model: log 21, log 24,
log 93. -/
def Obligations.SyncAndGroupInstructions : Prop :=
  ((∀ (s : State) (x : Task) (l : Level) (n : BitVec 8) (a : Word), s.issues x.hd → x.d = .w n → baraWaits l x s = false →
    s.needOpnds [x.d, x.a] = .ok () → s.src64 x.a = .ok a →
    (a.toNat % 2 ^ 32 = 0 → exec (.bara l x) s =
      s.completes (s.setWord n.toNat ((s.barrier s.cctx (barKey l s.cur)).gen.zeroExtend 64)))
    ∧ (a.toNat % 2 ^ 32 ≠ 0 → ∃ t, exec (.bara l x) s = s.completes t ∧ t.mem = s.mem ∧ t.cf.c = true ∧ t.cf.k = true
        ∧ (t.core s.cur).waits = (s.core s.cur).waits + 1
        ∧ s.sent t (.bar s.cur s.cctx (barKey l s.cur) (a.toNat % 2 ^ 32) n.toNat) .barrierArrival))
  ∧ (∀ (s : State) (x : Task) (a b w0 w1 : Word) (c off : Nat), s.issues x.hd → s.needOpnds [x.a, x.b] = .ok () →
    s.src64 x.a = .ok a → s.src64 x.b = .ok b → syncLoc s (a + b).toNat .store = .ok (c, off) →
    (s.needPair (State.wordNo x.d) = .ok () → s.srcWord (State.wordNo x.d) = .ok w0 →
      s.srcWord (State.wordNo x.d + 1) = .ok w1 → ∃ t, exec (.swinit x) s = s.completes t ∧ t.mem = s.mem
        ∧ (t.core s.cur).waits = (s.core s.cur).waits + 1 ∧ s.sent t (.swinit c off w0 w1 s.cur) .swinitApply)
    ∧ (swarrWaits x s = false → ∃ t, exec (.swarr x) s = s.completes t ∧ t.mem = s.mem ∧ t.cf.c = true ∧ t.cf.k = true
        ∧ (t.core s.cur).waits = (s.core s.cur).waits + 1 ∧ s.sent t (.sync s.cur c off 1 0 (some s.cur)) .syncWordUpdate))
  ∧ (∀ (s : State) (x : Task) (n : BitVec 8) (a b : Word) (c off : Nat), s.issues x.hd → x.d = .w n →
    s.needOpnds [x.d, x.a, x.b] = .ok () → s.src64 x.a = .ok a → s.src64 x.b = .ok b →
    syncLoc s a.toNat .load = .ok (c, off) → swtestFar x s = none →
    s.readable s.cur a.toNat (.slice c off false) 16 3 = .ok () →
    let gen := s.syncGen c off
    let ok := decide ((gen - BitVec.ofNat 32 b.toNat).toNat < 2 ^ 31)
    exec (.swtest x) s = s.completes (((if ok then s.acquire s.cur .pod else s).setWord n.toNat
      (gen.zeroExtend 64)).setPred 7 ok)))
  ∧ ((∀ (s : State) (x : Task) (a : Word) (n : BitVec 8), s.issues x.hd → x.d = .w n → s.needOpnds [x.d, x.a] = .ok () →
    s.src64 x.a = .ok a → ∀ i join, ((i = Instr.gjoin x ∧ join = true) ∨ (i = Instr.gleave x ∧ join = false)) →
    (s.groupOf s.cur s.cctx (a.toNat % 2 ^ 32) ≠ none → ∃ t, exec i s = s.completes t ∧ t.mem = s.mem ∧ t.cf.c = true
      ∧ t.cf.k = true ∧ (t.core s.cur).waits = (s.core s.cur).waits + 1
      ∧ s.sent t (.group s.cur s.cctx (a.toNat % 2 ^ 32) n.toNat join) .groupMembership)
    ∧ (s.groupOf s.cur s.cctx (a.toNat % 2 ^ 32) = none → exec i s = .next (s.fault (trapAt 0x0C 0))))
  ∧ (∀ (s : State) (x : Task) (a d b : Word) (q : Seg) (g : GroupDesc), s.issues x.hd → gldWaits s = false →
    s.needOpnds [x.d, x.a, x.b] = .ok () → s.src64 x.a = .ok a → s.srcWord (State.wordNo x.d) = .ok d →
    s.src64 x.b = .ok b → a.toNat % 128 = 0 →
    (let len := d.toNat / 2 ^ 32 % 2 ^ 17
     len ≠ 0 → len % 128 = 0 → len ≤ g.len →
     (∃ l, s.whereAt s.cur s.cctx a.toNat 1 .load = .ok l) →
     s.whereAt s.cur s.cctx a.toNat (Nat.max len 1) .load = .ok (.phys [q]) →
     s.groupOf s.cur s.cctx (d.toNat % 2 ^ 32) = some g →
     ∃ t, exec (.gld x) s = s.completes t ∧ t.mem = s.mem ∧ t.cf.c = true ∧ t.cf.k = true
      ∧ (t.core s.cur).waits = (s.core s.cur).waits
      ∧ s.sent t (.gld s.cur s.cctx (d.toNat % 2 ^ 32) (BitVec.ofNat 32 b.toNat) q.pa len a.toNat) .groupRequest)))

/-- R101, R269, R270: what an arrival does to a barrier, and what an update does to a sync word: the counts, the
generation when the phase is complete, and the memory that changes. R109, R112 to R118, R434, R435, R460: the home of
a group. A membership change takes effect at HIGH + 1, changes nothing where the core's membership is already so, and
is discarded where the group does not serve its context. A request of a core that is no member is a private read; the
first of a generation opens a hold where the slice has room and no request waits before it; a later one marks the
hold. The first request that waits at a slice is served in its place. A hold whose timer ends fires; its read sends
the fills; and bytes land. Where it rests on a choice of the model: log 24, log 33, log 86, log 93. -/
def Obligations.SyncAndGroupEvents : Prop :=
  ((∀ (s : State) (tag c x key e dword : Nat), s.msg? tag = some (.bar c x key e dword) →
    releaseReady s tag c (keyScope key) = true →
    let b := s.barrier x key
    let quorum := if b.count = 0 then e else b.e
    ∃ t u, exec (.barrierArrival tag) s = .next t
      ∧ t = (State.onCore u c (fun r => r.setWord dword ((b.gen + 1).zeroExtend 64))).releaseAll
      ∧ u.barrier x key = (if b.count + 1 = quorum then ⟨b.gen + 1, 0, quorum⟩ else ⟨b.gen, b.count + 1, quorum⟩)
      ∧ (u.core c).waits = (s.core c).waits - 1 ∧ u.mem = s.mem)
  ∧ (∀ (s : State) (tag src c off a b : Nat) (back : Option Nat), s.Inv → s.msg? tag = some (.sync src c off a b back) →
    (∀ f, back = some f → releaseReady s tag f (spanScope f c) = true) →
    let w := s.syncAt c off
    ∃ t, exec (.syncWordUpdate tag) s = .next t ∧ t.syncAt c off = w.update a b
      ∧ (∀ k, ¬(sliceKey c off ≤ k ∧ k < sliceKey c off + 16) → t.byte k = s.byte k)
      ∧ (∀ f, back = some f → (t.core f).waits = (s.core f).waits - 1))
  ∧ (∀ (s : State) (tag c off : Nat) (w0 w1 : Word) (back : Nat), s.Inv → s.msg? tag = some (.swinit c off w0 w1 back) →
    writeReady s tag back (sliceKey c off) 16 none = true →
    ∃ t, exec (.swinitApply tag) s = .next t
      ∧ t.syncAt c off = ⟨0, w0.toNat / 2 ^ 32 % 2 ^ 16, w0.extractLsb' 0 32, 0, w1.toNat % 2 ^ 32⟩
      ∧ (∀ k, ¬(sliceKey c off ≤ k ∧ k < sliceKey c off + 16) → t.byte k = s.byte k)
      ∧ sliceKey c off ∈ t.syncs ∧ (t.core back).waits = (s.core back).waits - 1))
  ∧ ((∀ (s : State) (tag c x h dword : Nat) (join : Bool), s.msg? tag = some (.group c x h dword join) →
    let k := s.groupKey c h
    let g := s.groupAt k
    let q := s.groupState k g
    let is := State.isMember q c (q.high + 1)
    (g.serves x = true → ∃ u : State,
      exec (.groupMembership tag) s = .next (u.onCore c (fun r => r.setWord dword ((q.high + 1).zeroExtend 64)))
      ∧ (u.core c).waits = (s.core c).waits - 1
      ∧ (is = join → u.groups = s.groups ∧ u.mem = s.mem)
      ∧ (is = false → join = true → u.groups.find k = some { q with members := q.members ++ [(c, q.high + 1, none)] }
        ∧ u.mem = (s.setMapBit g c true).mem)
      ∧ (is = true → join = false → u.groups.find k = some { q with
            members := q.members.map (fun m => if m.1 = c && m.2.2.isNone then (m.1, m.2.1, some (q.high + 1)) else m) }
        ∧ u.mem = (s.setMapBit g c false).mem))
    ∧ (g.serves x = false → ∃ u : State,
      exec (.groupMembership tag) s = .next (u.onCore c (fun r => r.setWord dword (-1)))
      ∧ (u.core c).waits = (s.core c).waits - 1 ∧ u.groups = s.groups))
  ∧ (∀ (s : State) (tag c x h pa len va : Nat) (gen : BitVec 32), s.msg? tag = some (.gld c x h gen pa len va) →
    let k := s.groupKey c h
    let g := s.groupAt k
    let q := s.groupState k g
    let q' := { q with high := if State.genLe gen q.high then q.high else gen }
    let held := s.holds.find? (fun e => e.2.desc == k && e.2.gen == gen)
    g.serves x = true →
    (State.isMember q' c gen = false → ∃ t, exec (.groupRequest tag) s = .next t ∧ t.mem = s.mem
      ∧ t.groups.find k = some q' ∧ s.sent t (.solo c x pa len (g.buffer gen) g.swoff h gen) .soloRead)
    ∧ (∀ key hold, State.isMember q' c gen = true → held = some (key, hold) → hold.state = .opened → hold.pa = pa →
      hold.len = len → hold.marked.contains c = false → hold.marked.length + 1 ≠ hold.expc →
      ∃ t, exec (.groupRequest tag) s = .next t ∧ t.mem = s.mem
        ∧ t.holds.find key = some { hold with marked := hold.marked ++ [c], asks := hold.asks.set c tag })
    ∧ (let high := if q.high == gen && s.genWaits k gen then gen - 1 else q.high
       let slice := s.home k
       State.isMember q' c gen = true → held = none → q.past.find? (fun e => e.1 == gen) = none →
       State.genLe gen (high - BitVec.ofNat 32 g.bufs + 1) = false → s.behindOthers slice tag = false →
       (s.holds.filter (fun e => e.2.slice == slice)).length < 64 →
       s.holdBytes slice + len + g.mapBytes ≤ 3 * 2 ^ 20 → 1 < State.memberCount q' gen →
       ∃ t, exec (.groupRequest tag) s = .next t ∧ t.mem = s.mem ∧ t.groups.find k = some q'
        ∧ (s.time.toNat + g.window, Instr.holdTimerExpiry s.nextTag) ∈ t.agenda
        ∧ t.holds = s.holds ++ [(s.nextTag, ⟨slice, k, h, x, gen, pa, len, s.time.toNat + g.window,
            State.memberCount q' gen, [c], .opened, [], false, false, [(c, tag)]⟩)]))
  ∧ (∀ (s : State) (slice w tag c x h pa len va : Nat) (gen : BitVec 32),
    s.holdWait.find? (fun e => e.1 == slice) = some (w, tag) → s.msg? tag = some (.gld c x h gen pa len va) →
    let r := s.serveGroup tag c x h gen pa len
    ((r.msg? tag).isSome = true → exec (.holdAdmit slice) s = .next r)
    ∧ ((r.msg? tag).isSome = false → ∃ t, exec (.holdAdmit slice) s = .next t ∧ t.holdWait = r.holdWait.erase (w, tag)
      ∧ t.mem = r.mem ∧ ((r.holdWait.erase (w, tag)).any (fun e => e.1 == slice) = true → r.planned t (.holdAdmit slice))))
  ∧ (∀ (s : State) (key : Nat) (h : Hold), s.holds.find key = some h → h.state = .opened → h.due ≤ s.time.toNat →
    exec (.holdTimerExpiry key) s = .next (s.fireHold key h (s.groupAt h.desc) 1)
      ∧ s.planned (s.fireHold key h (s.groupAt h.desc) 1) (.holdReadComplete key))
  ∧ (∀ (s : State) (key : Nat) (h : Hold), s.holds.find key = some h → h.state = .fired → h.read = false →
    (List.range h.len).find? (fun i => s.isBad (physKey (pkgOf h.slice) h.pa + i)) = none →
    ∃ t, exec (.holdReadComplete key) s = .next t ∧ t.mem = s.mem ∧
      (h.marked.length < h.expc → h.surpassed = false → t.holds.find key =
        some { h with read := true, data := s.bytes (physKey (pkgOf h.slice) h.pa) h.len, state := .held })
      ∧ ∀ c ∈ h.marked, ∃ tag, (s.time.toNat, Instr.fillLand tag) ∈ t.agenda)
  ∧ (∀ (s : State) (tag req src c x dest sw : Nat) (data : List Byte), s.msg? tag = some (.fill req src c x dest sw data) →
    ((s.core c).spown.toNat = x → ∃ t, exec (.fillLand tag) s = .next t
        ∧ t.mem = (s.setBytes (sliceKey c dest) data).mem ∧ s.sent t (.sync c c sw 0 data.length none) .syncWordUpdate)
    ∧ ((s.core c).spown.toNat ≠ x → exec (.fillLand tag) s = .next (s.dropMsg tag)))
  ∧ (∀ (s : State) (tag c x pa len dest sw handle : Nat) (gen : BitVec 32),
    s.msg? tag = some (.solo c x pa len dest sw handle gen) → (s.core c).spown.toNat = x →
    (List.range len).find? (fun i => s.isBad (physKey (pkgOf c) pa + i)) = none →
    ∃ t, exec (.soloRead tag) s = .next t
      ∧ t.mem = (s.setBytes (sliceKey c dest) (s.bytes (physKey (pkgOf c) pa) len)).mem
      ∧ s.sent t (.sync c c sw 0 len none) .syncWordUpdate))

/-- R29, R33, R43, R52, R103, R123, R425: a firing reaches its dispatcher, takes an identifier, and is Ready when its
guard holds and Pending otherwise; a tandem firing waits for its cores, and a channel firing with a defective header
stops. A notice or a reading of its generation releases a Pending firing. Where it rests on a choice of the model: log
17, log 71, log 72, log 76, log 81, log 106. -/
def Obligations.InsertionAndRelease : Prop :=
  (∀ (s : State) (key : Nat) (f : Firing), s.fir? key = some f → f.stage = .made → f.key = key →
    (f.src = .post → writeReady s key f.sender 0 0 (some .die) = true) →
    let id := BitVec.ofNat 64 (f.die / 16 * 2 ^ 55 + f.die % 16 * 2 ^ 51 + (s.die f.die).inserted % 2 ^ 51)
    let bad := f.src = .chan ∧ ∃ h, s.hdrOf (State.dieCore f.die) f.ctx f.hdr = .ok (h, false)
    (0 < f.width → ∃ t g, exec (.firingInsert key) s = .next t ∧ t.fir? key = some g ∧ g.stage = .composed ∧ g.id = id
      ∧ s.planned t (.tandemStart key))
    ∧ (f.width = 0 → bad → ∃ t g e, exec (.firingInsert key) s = .next t ∧ t.fir? key = some g ∧ g.stage = .stopping
      ∧ g.id = id ∧ g.trap = some e ∧ e.cls = 0x0B ∧ s.planned t (.faultRecordWrite key))
    ∧ (f.width = 0 → ¬bad → s.guardRec f.ctx f.guard = true → ∃ t g, exec (.firingInsert key) s = .next t ∧ t.fir? key = some g ∧ g.stage = .ready
      ∧ g.id = id ∧ g.arrived = s.time ∧ g.bank < 32 ∧ s.planned t (.pop f.die)
      ∧ (t.die f.die).inserted = (s.die f.die).inserted + 1)
    ∧ (f.width = 0 → ¬bad → s.guardRec f.ctx f.guard = false → ∃ t g, exec (.firingInsert key) s = .next t ∧ t.fir? key = some g
      ∧ g.stage = .pending ∧ g.id = id))
  ∧ (∀ (s : State) (key : Nat) (f : Firing), s.fir? key = some f → f.key = key → f.stage = .pending →
    s.guardRec f.ctx f.guard = true →
    ∃ t g, (exec (.releaseNotice key) s = .next t ∧ (f.watched = false → exec (.watchPoll key) s = .next t))
      ∧ t.fir? key = some g ∧ g.arrived = s.time ∧ g.watched = false
      ∧ g.stage = (if s.det f.ctx && f.head.det && f.head.bound then .between else .ready))

/-- R55 to R61, R71, R75, R183, R431: a pop of a die with nothing to take does nothing; one that takes an unbound
firing sends it to placement; one that takes a bound firing starts its try, or, from the patience of the die or with a
ticket, its reservation, and stops it where its map is defective; the pop of a bound DET firing of a deterministic
context is recorded. Each refills the bank it took from, and pops on while it can. Where it rests on a choice of the
model: log 17, log 27, log 82, log 88. -/
def Obligations.PopAndRefill : Prop :=
  (∀ (s : State) (d : Nat), s.chooseCtx d = none → exec (.pop d) s = .next s)
  ∧ (∀ (s u : State) (d x : Nat), s.chooseCtx d = some x → s.choosePop d x = (none, u) → exec (.pop d) s = .next u)
  ∧ (∀ (s u : State) (d x : Nat) (f : Firing), s.chooseCtx d = some x → s.choosePop d x = (some f, u) →
    f.head.bound = false →
    let g := { f with firstPop := if f.firstPop = 0 then u.time else f.firstPop, spilled := false, set := [], elem := none }
    let v := ((u.countPop d x f).acquired g).refillBank d f.bank
    exec (.pop d) s = .next (if (v.chooseCtx d).isSome then v.planNow (.pop d) else v))
  ∧ (∀ (s u : State) (d x : Nat) (f : Firing), s.chooseCtx d = some x →
    s.choosePop d x = (some f, u) → f.head.bound = true →
    let g := { f with firstPop := if f.firstPop = 0 then u.time else f.firstPop, spilled := false }
    let w := u.countPop d x f
    let go := fun (r : State) =>
      let v := r.refillBank d f.bank
      Host.Outcome.next (if (v.chooseCtx d).isSome then v.planNow (.pop d) else v)
    (∀ set, w.exclSet (State.dieCore d) g = .ok set →
      let w' := if w.det x && f.head.det then w.setCtx x { w.ctx x with detstat := (w.ctx x).detstat ||| 1 } else w
      exec (.pop d) s = go (if f.tries ≥ (u.die d).patience || f.ticket.isSome then w'.startReservation g set
        else w'.startTry g set))
    ∧ (∀ e, w.exclSet (State.dieCore d) g = .error e → exec (.pop d) s = go (w.mapStop g e)))
  ∧ (∀ (s : State) (d b x : Nat), exec (.spillRefill d b x) s = .next (s.refill d b x 896))

/-- R68, R71, R72, R78, R79, R343: in the order a dispatcher sent them, a slice applies every lock request of a try or
none, and a package's entry router fans a batch out to its slices; a release takes a holder, or the reservation of its
ticket, from the record it names, and after a failed ticketed try the reservation stands again. Where it rests on a
choice of the model: log 78, log 85, log 100, log 102. -/
def Obligations.LockRecords : Prop :=
  (∀ (s : State) (tag key h : Nat) (f : Firing) (els : List LockEl) (tk : Option Nat) (reads : Nat),
    s.msg? tag = some (.lockReq key h els tk reads) → s.fir? key = some f → f.key = key →
    lockBehind s tag f.die h = false → s.locksFail els = none →
    (∀ u, (s.dropMsg tag).applyLocks els tk = some u → ∃ t g, exec (.lockRequest tag) s = .next t ∧ t.mem = u.mem
      ∧ t.fir? key = some g ∧ g.got = f.got ++ els ∧ g.outstanding = f.outstanding - 1 ∧ g.tryFailed = f.tryFailed)
    ∧ ((s.dropMsg tag).applyLocks els tk = none → ∃ t g, exec (.lockRequest tag) s = .next t ∧ t.mem = s.mem
      ∧ t.fir? key = some g ∧ g.got = f.got ∧ g.outstanding = f.outstanding - 1 ∧ g.tryFailed = true))
  ∧ (∀ (s : State) (tag key q : Nat) (els : List LockEl) (tk : Option Nat), s.msg? tag = some (.lockBatch key q els tk) →
    exec (.lockRequest tag) s = .next ((s.dropMsg tag).askHomes key els tk (s.homesOf els)))
  ∧ (∀ (s : State) (tag d h x : Nat) (e : LockEl) (mode : RelMode), s.Inv → s.msg? tag = some (.lockRel d h x [e] mode) →
    lockBehind s tag d h = false → s.lineFails e.addr = none →
    let r := releaseRec (s.num e.addr 8) e.exc mode
    ∃ t, exec (.lockRelease tag) s = .next t
      ∧ (∀ k, ¬(e.addr ≤ k ∧ k < e.addr + 8) → t.byte k = s.byte k)
      ∧ ((∀ tk, mode ≠ .again tk) → t.num e.addr 8 = r % 256 ^ 8)
      ∧ (∀ tk, mode = .again tk → lockRsv r = false →
        s.firings.find? (fun g => g.2.ticket == some tk && g.2.order.contains e && !g.2.placed) ≠ none →
        t.num e.addr 8 = (tk * 2 ^ 32 + r % 2 ^ 32 / 2 ^ 31 * 2 ^ 31 + 2 ^ 30 + r % 2 ^ 30) % 256 ^ 8))
  ∧ (∀ r t : Nat, (lockRsv r = false → lockExc r = false → lockShr r = 0 → applyLock r true (some t) = some (r + 2 ^ 31))
    ∧ (lockExc r = true → applyLock r true (some t) = none ∧ applyLock r false (some t) = none)
    ∧ (lockRsv r = true → lockTicket r ≠ t → applyLock r true (some t) = none ∧ applyLock r false (some t) = none)
    ∧ (lockRsv r = false → lockExc r = false → lockShr r < 65535 → applyLock r false none = some (r + 1)))

/-- R71, R75 to R78, R182: the result of a try over live homes: placement when every request succeeded; otherwise what
the firing holds is released, and it goes back, draws a ticket and reserves, reserves on, or tries again after 64 ck.
A reservation is placed in a record that holds none or a younger one, and is repeated after 64 ck where an older one
stands; a displaced one is repeated. A pass of a round grants in order. Where it rests on a choice of the model: log
19, log 20, log 85, log 100. -/
def Obligations.TriesAndReservations : Prop :=
  (∀ (s : State) (key : Nat) (f : Firing), s.fir? key = some f → f.key = key → f.stage = .acquiring → f.outstanding = 0 →
    f.doomed = false → f.set.any (fun e => (s.pkg (f.die / 16)).lost.contains (s.homePkg e.addr)) = false →
    (∀ e ∈ f.set, s.lineFails e.addr = none) → s.lineFails (s.ticketKey f.die f.ctx) = none →
    (f.tryFailed = false → ∃ t g, exec (.tryResult key) s = .next t ∧ t.fir? key = some g ∧ g.stage = .placing
      ∧ g.got = f.set ∧ g.elem = some (State.elemNo f) ∧ s.planned t (.placement key))
    ∧ (f.tryFailed = true → f.ticket = none → f.granted = false → f.tries + 1 < (s.die f.die).patienceNow → f.tries < 255 →
      ∃ t g, exec (.tryResult key) s = .next t ∧ t.fir? key = some g ∧ g.stage = .ready ∧ g.got = []
        ∧ g.tries = f.tries + 1 ∧ g.age = f.age ∧ s.planned t (.pop f.die))
    ∧ (f.tryFailed = true → f.ticket = none → (s.die f.die).patienceNow ≤ Nat.min (f.tries + 1) 255 →
      ∃ t g n, exec (.tryResult key) s = .next t ∧ t.fir? key = some g ∧ g.stage = .reserving ∧ g.ticket = some n
        ∧ g.got = [] ∧ g.rsvd = 0 ∧ s.planned t (.reservation key))
    ∧ (f.tryFailed = true → f.ticket = none → f.granted = true → Nat.min (f.tries + 1) 255 < (s.die f.die).patienceNow →
      ∃ t g, exec (.tryResult key) s = .next t ∧ t.fir? key = some g ∧ g.stage = .between ∧ g.got = []
        ∧ (s.time.toNat + 64, Instr.roundTryRetry key) ∈ t.agenda)
    ∧ (f.tryFailed = true → ∀ n, f.ticket = some n → f.rsvd < f.order.length →
      ∃ t g, exec (.tryResult key) s = .next t ∧ t.fir? key = some g ∧ g.stage = .reserving ∧ g.got = []
        ∧ s.planned t (.reservation key))
    ∧ (f.tryFailed = true → ∀ n, f.ticket = some n → f.order.length ≤ f.rsvd →
      ∃ t g, exec (.tryResult key) s = .next t ∧ t.fir? key = some g ∧ g.stage = .between ∧ g.got = []
        ∧ (s.time.toNat + 64, Instr.ticketedTryRetry key) ∈ t.agenda))
  ∧ (∀ (s : State) (key tk : Nat) (f : Firing) (e : LockEl), s.fir? key = some f → f.key = key → f.stage = .reserving →
    f.ticket = some tk → f.order[f.rsvd]? = some e → f.rsvd + 1 < f.order.length →
    (s.pkg (f.die / 16)).lost.contains (s.homePkg e.addr) = false → s.lineFails e.addr = none →
    lockBehind s s.nextTag f.die (s.home e.addr) = false →
    ∀ i ∈ [Instr.reservation key, Instr.reservationRetry key],
    (lockRsv (s.num e.addr 8) = false ∨ (lockTicket (s.num e.addr 8) ≠ tk
        ∧ olderTicket tk (lockTicket (s.num e.addr 8)) = true) → ∃ t g, exec i s = .next t ∧ t.fir? key = some g ∧ g.rsvd = f.rsvd + 1
      ∧ t.mem = (s.setNum e.addr 8 (tk * 2 ^ 32 + s.num e.addr 8 % 2 ^ 32 / 2 ^ 31 * 2 ^ 31 + 2 ^ 30
          + s.num e.addr 8 % 2 ^ 30)).mem ∧ s.planned t (.reservation key))
    ∧ (lockRsv (s.num e.addr 8) = true → lockTicket (s.num e.addr 8) ≠ tk →
      olderTicket tk (lockTicket (s.num e.addr 8)) = false →
      exec i s = .next (s.plan (s.time.toNat + 64) (.reservationRetry key))))
  ∧ (∀ (s : State) (key elem : Nat) (f : Firing), s.fir? key = some f → f.key = key → f.stage = .between →
    ∃ t g, exec (.displacementNotice key elem) s = .next t ∧ t.fir? key = some g ∧ g.stage = .reserving
      ∧ g.rsvd ≤ f.order.findIdx (fun e => e.elem == elem) ∧ s.planned t (.reservation key) ∧ t.mem = s.mem)
  ∧ (∀ (s : State) (key : Nat) (f : Firing) (set : List LockEl), s.fir? key = some f → f.stage = .between →
    s.exclSet (State.dieCore f.die) f = .ok set →
    (f.ticket.isSome = true → exec (.ticketedTryRetry key) s = .next (s.startTry f set))
    ∧ (f.granted = true → exec (.roundTryRetry key) s = .next (s.startTry f set)))
  ∧ (∀ (s : State) (key : Nat) (f : Firing), s.fir? key = some f → f.stage = .between → f.granted = false →
    (let mine := (s.firings.map (·.2)).filter (fun g =>
       State.sameRound f g && g.head.det && g.head.bound && (g.inRound || g.stage == .pending))
     mine.any (fun g => g.granted) = false → (∀ g ∈ mine, g.stage ≠ .pending) →
     s.cores.any (fun e => match e.2.run with
       | some g => g.granted && State.sameRound f g
       | none => false) = false →
     exec (.roundResolve key) s = .next (grantPass s (((s.firings.map (·.2)).filter (fun g => State.sameRound f g
       && g.head.det && g.head.bound && g.inRound && g.stage == .between && !g.granted)).foldr insertRound []) [])))

/-- R28, R34, R41, R62 to R65, R80, R293, R402, R439: placement takes the run slot or a stage slot of the core it
chooses; a footprint arrives, or what precedes its fault does; a firing starts at ENTRY with C and K clear; one
stopped precisely continues with what its save block holds, which is what was saved; retirement empties the run slot,
leaves the workspace and the lane groups to others, publishes a void slot for each reservation left, frees the claimed
slots, and asks for the release of the set; CIDX passes over the slots that are free at it; a forecast raises its
sequence number. Where it rests on a choice of the model: log 17, log 23, log 28, log 77, log 84, log 89, log 90, log
92. -/
def Obligations.PlacementStartRetire : Prop :=
  (∀ (s : State) (key c w : Nat) (direct : Bool) (f : Firing), s.fir? key = some f → f.key = key → f.stage = .placing →
    s.chooseCore f = some (c, w, direct) → ∃ t g, exec (.placement key) s = .next t ∧ t.fir? key = some g ∧ g.stage = .fetching
      ∧ g.core = c ∧ g.wp = w ∧ g.placed = true ∧ (if direct then (t.core c).slot else (t.core c).stage) = some key
      ∧ s.planned t (.footprintResident key) ∧ t.mem = s.mem)
  ∧ (∀ (s u : State) (key : Nat) (f : Firing) (e : Trap), s.fir? key = some f → f.key = key → f.stage = .fetching →
    s.footFar f = none →
    (s.fetchFootprint f = (u, none) → exec (.footprintResident key) s =
      .next ((u.setFir { f with stage := .resident }).planNow (.nextFiring f.core)))
    ∧ (s.fetchFootprint f = (u, some e) → exec (.footprintFault key) s = .next (u.footprintStop f e)
      ∧ exec (.footprintResident key) s = .next (u.footprintStop f e)))
  ∧ (∀ (s : State) (c : Nat) (f : Firing), (s.pkg (pkgOf c)).st = 0x03 → (s.core c).run = none → (s.core c).halted = false →
    (s.core c).memberOf = none → s.nextOf c = some f → f.stage = .resident →
    exec (.nextFiring c) s = .next (s.startFresh c f)
      ∧ ∃ g, ((s.startFresh c f).core c).run = some g ∧ g.pc = f.entry ∧ g.c = false ∧ g.k = false ∧ g.stage = .running)
  ∧ (∀ (s : State) (key : Nat) (f : Firing), s.fir? key = some f → f.stage = .ordered .precise → f.saved = true →
    f.width = 0 → (s.core f.core).run = none → (s.core f.core).halted = false → (s.core f.core).memberOf = none →
    s.canGrant f.core f .precise = true → ∃ t g, exec (.preciseResume key) s = .next t ∧ (t.core f.core).run = some g
      ∧ (let b := s.loadBlock f
         g.pc = b.pc ∧ g.c = b.c ∧ g.k = b.k ∧ g.vregs = b.vregs ∧ g.groups = b.groups))
  ∧ (∀ (s : State) (f : Firing), s.Inv → f.groups ≤ 9 → f.pc < 2 ^ 64 →
    let b := (s.saveBlock f).1.loadBlock (s.saveBlock f).2
    b.pc = f.pc ∧ b.c = f.c ∧ b.k = f.k ∧ b.groups = f.groups
      ∧ ∀ i < 16, (f.vregs.getD i 0).toNat < 256 ^ (64 * f.groups) → b.vregs.getD i 0 = f.vregs.getD i 0)
  ∧ (∀ (s : State) (c how : Nat) (f : Firing), (s.core c).run = some f → (s.core c).ending = some how →
    (s.core c).loads = 0 → (s.core c).waits = 0 →
    let q := ((((s.leaveStores c).traceEnd c f how).accountRun f).gather
      { f with last := (((s.leaveStores c).traceEnd c f how).accountRun f |>.core c).issued })
    let near := if f.placed then f.core else State.dieCore f.die
    ∃ u : State, exec (.retire c) s = .next (if (s.core c).step == .instr then u.haltNow c 9 else u)
      ∧ (u.core c).run = none ∧ (u.core c).ending = none ∧ (∀ k, k ≠ c → (u.core k).run = (s.core k).run)
      ∧ u.firings = s.firings
      ∧ u.areas c = ((s.firings.map (·.2)).filter (fun g => g.placed && g.core == c)).map (fun g => (g.wp, 8 * (g.head.wsn + 1)))
      ∧ (let v := f.resv.foldl (fun r o => r.voidSlot near f.ctx o q.2.last) q.1
         u.mem = (v.freeClaims near f.ctx f.claims).mem ∧ u.chans = (v.freeClaims near f.ctx f.claims).chans)
      ∧ ∀ e ∈ f.got, (s.pkg (f.die / 16)).lost.contains (pkgOf (s.home e.addr)) = false →
        ∃ tag els, u.msg? tag = some (.lockRel f.die (s.home e.addr) f.ctx els .free) ∧ e ∈ els
          ∧ s.planned u (.lockRelease tag))
  ∧ (∀ (s : State) (c x key : Nat) (r : Resv) (d : Desc) (stamp : BitVec 32), r.done = false →
    s.descAt c x r.chan = .ok d → s.devKey c x (d.slot (BitVec.ofNat 32 r.idx).toNat) .load = .ok key →
    let h := slotHeader 0 0xFFF 0 (s.time.extractLsb' 0 32) (d.mark (BitVec.ofNat 32 r.idx)) c stamp
    (s.voidSlot c x r stamp).mem = ((s.setNum key 8 h.1).setNum (key + 8) 8 h.2).mem
      ∧ s.planned (s.voidSlot c x r stamp) (.slotCount d.key))
  ∧ (∀ (s : State) (k : Nat) (is : List (BitVec 32)), s.Inv → s.notices = [] →
    (∀ i ∈ is, ∀ e ∈ ((s.freeSlots k is).chan k).counted, e.1 ≠ i)
    ∧ ((s.desc k).cidx ∈ is → (s.desc k).cidx + 1 ∉ is → (s.desc k).cidx + 1 ∉ (s.chan k).freed →
      ((s.freeSlots k is).desc k).cidx = (s.desc k).cidx + 1)
    ∧ ((s.desc k).cidx ∉ is → (s.desc k).cidx ∉ (s.chan k).freed → ((s.freeSlots k is).desc k).cidx = (s.desc k).cidx))
  ∧ (∀ (s : State) (d : Nat), ∃ t v, exec (.activityForecast d) s = .next t ∧ (t.die d).actfc = BitVec.ofNat 64 v
    ∧ v / 2 ^ 48 = ((s.die d).actfc.toNat / 2 ^ 48 + 1) % 65536 ∧ t.mem = s.mem)

/-- R314, R396 to R407: a fault stop, once loads and answers are in, empties the run slot, keeps C and K and whether
it was precise, and stops the firing where it goes on; its record is written as soon as the fault channel has room,
with the disposition and the retries so far, and a class below 0x20 waits for its task, or is abandoned where there is
no fault channel, while a higher one is retried by K and C until its allowance is spent, and then abandoned; tret's
order restarts, resumes, replays or abandons, one at weight 0 waiting for the weight, and its status goes to the word
that asked. Where it rests on a choice of the model: log 25, log 32, log 80. -/
def Obligations.StopsAndOrders : Prop :=
  (∀ (s : State) (c : Nat) (f : Firing) (t : Trap), (s.core c).run = some f → f.trap = some t → (s.core c).stopping = true →
    (s.core c).loads = 0 → (s.core c).waits = 0 →
    ∃ r g, exec (.faultStop c) s = .next r ∧ (r.core c).run = none ∧ (r.core c).stopping = false
      ∧ r.fir? f.key = some g ∧ g.stage = .stopping ∧ g.c = f.c ∧ g.k = f.k ∧ g.trap = some t
      ∧ g.pc = (if t.cls = 0x10 ∨ t.cls = 0x11 then t.pc else f.pc)
      ∧ g.saved = (f.c || t.cls == 0x10 || t.cls == 0x11) ∧ s.planned r (.faultRecordWrite f.key))
  ∧ (∀ (s : State) (key : Nat) (f : Firing) (t : Trap), s.fir? key = some f → f.key = key → f.trap = some t →
    f.stage = .stopping → f.doomed = false →
    let c := if f.placed then f.core else State.dieCore f.die
    (t.cls < 0x20 → (s.ctx f.ctx).fltch ≠ 0 →
      let w := s.writeRecord c (f.faultCore.getD c) f.ctx (State.recordWords (f.faultCore.getD c) f.ctx f.retries 0 f.saved f.k
        f.c t f.id (s.regionOf f) f.hdr)
      (∀ u, w = some u →
        exec (.faultRecordWrite key) s = .next (u.setFir { f with recorded := true, stage := .waiting }))
      ∧ (w = none → exec (.faultRecordWrite key) s = .next (s.plan (s.time.toNat + 1) (.faultRecordWrite key))))
    ∧ (∀ disp, (0x20 ≤ t.cls → f.retries < State.allowance f.head → disp = if !f.k then 1 else if !f.c then 2 else 3) →
      (((t.cls < 0x20 ∧ (s.ctx f.ctx).fltch = 0) ∨ (0x20 ≤ t.cls ∧ State.allowance f.head ≤ f.retries)) → disp = 4) →
      (t.cls < 0x20 → (s.ctx f.ctx).fltch = 0) →
      let n := if disp = 4 then f.retries else f.retries + 1
      let w := if (s.ctx f.ctx).fltch = 0 then some s
        else s.writeRecord c (f.faultCore.getD c) f.ctx (State.recordWords (f.faultCore.getD c) f.ctx n disp f.saved f.k f.c t f.id
          (s.regionOf f) f.hdr)
      (w = none → exec (.faultRecordWrite key) s = .next (s.plan (s.time.toNat + 1) (.faultRecordWrite key)))
      ∧ (∀ u, w = some u → 0x20 ≤ t.cls → f.retries < State.allowance f.head →
        (f.placed = true → ∃ r g, exec (.faultRecordWrite key) s = .next r ∧ r.mem = u.mem ∧ r.fir? key = some g
          ∧ g.retries = f.retries + 1 ∧ g.recorded = true ∧ g.pin = true
          ∧ g.stage = .ordered (if !f.k then .replay else if !f.c then .restart else .precise)
          ∧ s.planned r (.nextFiring f.core))
        ∧ (f.placed = false → f.k = false → ∃ r g, exec (.faultRecordWrite key) s = .next r ∧ r.mem = u.mem
          ∧ r.fir? key = some g ∧ g.retries = f.retries + 1 ∧ g.stage = (if f.granted then .between else .ready)))
      ∧ (∀ u, w = some u → disp = 4 → exec (.faultRecordWrite key) s = .next (u.abandon { f with recorded := true })
        ∧ (u.abandon { f with recorded := true }).fir? key = none)))
  ∧ (∀ (s : State) (tag c x act dword k : Nat) (fid : Word) (f : Firing), s.msg? tag = some (.tret c x fid act dword) →
    s.firings.find? (fun e => e.2.id == fid && e.2.ctx == x && e.2.stage == .waiting) = some (k, f) → f.placed = true →
    let answers := fun (u : State) (status : Word) =>
      exec (.tretOrder tag) s = .next (u.onCore c (fun r => r.setWord dword status)) ∧ (u.core c).waits = (s.core c).waits - 1
    let weight := ((s.die f.die).cxwt.get f.ctx 16).toNat
    (weight ≠ 0 → (act = 0 ∨ (act = 1 ∧ f.saved = true)) → ∃ u : State, answers u 0
        ∧ u.fir? f.key = some { f with stage := .ordered (if act = 0 then .restart else .precise), pin := true, trap := none })
    ∧ (act = 1 → f.saved = false → ∃ u : State, answers u 2 ∧ u.fir? f.key = s.fir? f.key ∧ u.mem = s.mem)
    ∧ (weight ≠ 0 → act = 2 → ∃ u : State, answers u 0
        ∧ u.fir? f.key = some { f with stage := .ordered .replay, resv := [], pin := true, trap := none })
    ∧ (weight = 0 → (act = 1 → f.saved = true) →
        ∀ o ∈ [(0, Cont.restart), (1, .precise), (2, .replay), (3, .abandon)], act = o.1 → ∃ u : State, answers u 0
          ∧ u.fir? f.key = some { f with stage := .ordered o.2 } ∧ u.mem = s.mem)
    ∧ (weight ≠ 0 → act = 3 → ∃ u : State,
        exec (.tretOrder tag) s = .next (u.onCore c (fun r => r.setWord dword 0)) ∧ u.fir? f.key = none))
  ∧ (∀ (s : State) (tag c x act dword : Nat) (fid : Word), s.msg? tag = some (.tret c x fid act dword) →
    s.firings.find? (fun e => e.2.id == fid && e.2.ctx == x && e.2.stage == .waiting) = none →
    ∃ u : State, exec (.tretOrder tag) s = .next (u.onCore c (fun r => r.setWord dword (if act ≤ 3 then 1 else 3)))
      ∧ u.mem = s.mem)

/-- R47, R131: at the end of the window a firing stops where it stands, a tandem at the beginning of a block, once
loads and answers are in: precisely when C is set, otherwise to restart its region; it is pinned, kept, and resumed by
the device. Where it rests on a choice of the model: log 28. -/
def Obligations.Preemption : Prop :=
  ∀ (s : State) (c d : Nat) (f : Firing), (s.core c).preempt = some d → (s.core c).run = some f →
    (s.time.toNat < d → exec (.preemptWindowExpiry c) s = .next (s.plan d (.preemptWindowExpiry c)))
    ∧ (d ≤ s.time.toNat → (s.core c).halted = false → f.trap = none → (s.core c).ending = none →
      (∀ tn, f.tandem = some tn → tn.mid = false) →
      ((s.core c).loads = 0 → (s.core c).waits = 0 → f.doomed = false →
        ∃ t g, exec (.preemptWindowExpiry c) s = .next t ∧ (t.core c).run = none ∧ t.fir? f.key = some g
          ∧ g.stage = .ordered (if f.c then .precise else .restart) ∧ g.pin = true ∧ g.saved = f.c ∧ g.pc = f.pc
          ∧ s.planned t (.nextFiring f.core))
      ∧ ((s.core c).loads ≠ 0 ∨ (s.core c).waits ≠ 0 → exec (.preemptWindowExpiry c) s =
          .next ((s.setCore c { s.core c with stopping := true }).plan (s.time.toNat + 1) (.preemptWindowExpiry c))))
    ∧ (∀ tn, d ≤ s.time.toNat → (s.core c).halted = false → f.trap = none → (s.core c).ending = none → f.tandem = some tn →
      tn.mid = true → exec (.preemptWindowExpiry c) s = .next (s.plan (s.time.toNat + 1) (.preemptWindowExpiry c)))

/-- R121 to R130, R437: a tandem takes its free set of cores; a token goes to the member of the address predicted
after the youngest block in flight, while that member holds fewer than 8; the oldest block in flight, once it has
ended and its loads have returned, commits its versions, and where it is the youngest too the next one begins; a wrong
prediction discards every younger block with its versions, its loads and its stores, which are no longer counted as
issued, and is corrected; a fault stops the firing and names the member. Where it rests on a choice of the model: log
36, log 97, log 99. -/
def Obligations.TandemBlocks : Prop :=
  (∀ (s : State) (key : Nat) (f : Firing), s.fir? key = some f → f.width ≠ 0 → f.stage = .composed → s.setFree f = true →
    ∃ t g tn, exec (.tandemStart key) s = .next t ∧ (t.core f.core).run = some g ∧ g.tandem = some tn ∧ g.pc = f.entry
      ∧ tn.members = State.tandemSet f.core f.width ∧ tn.blockPc = f.entry ∧ g.c = false ∧ g.k = false
      ∧ s.planned t (.blockToken f.core))
  ∧ (∀ (s : State) (c : Nat) (f : Firing) (tn : Tandem), (s.core c).run = some f → f.tandem = some tn →
    (∀ a b, (a, b) = (tn.tokens.getLast?.map (fun k => (k.addr, k.bsn))).getD (tn.blockPc, tn.bsn) →
      let new : Token := ⟨blockMember tn (a + 192), (a + 192) % 2 ^ 50, (b + 1) % 2 ^ 32⟩
      (tn.tokens.filter (fun k => k.member == new.member)).length < 8 →
      exec (.blockToken c) s = .next (s.setTandem c f { tn with tokens := tn.tokens ++ [new] }))
    ∧ (∀ k rest, tn.ended = true → tn.tokens = k :: rest → k.addr ≠ f.pc →
      let after := fun (p : Nat) => tagAfter p (16 * tn.bsn + 15)
      ∃ t q, exec (.blockSquash c) s = .next t ∧ (t.core c).run = some { f with tandem := some q } ∧ t.mem = s.mem
        ∧ q = { tn with
          versions := tn.versions.filter (fun v => !after (16 * v.bsn + v.slot))
          queue := tn.queue.filter (fun e => !after (16 * e.bsn + e.slot))
          reads := tn.reads.filter (fun e => !after e.2)
          tokens := [⟨blockMember tn f.pc, f.pc % 2 ^ 50, (tn.bsn + 1) % 2 ^ 32⟩] }
        ∧ t.pend = s.pend.filter (fun p => !(p.core == c && p.blk.any after))
        ∧ (t.core c).issued = (s.core c).issued - BitVec.ofNat 32
          ((s.pend.filter (fun p => p.core == c && p.blk.any after)).map (·.tag)).eraseDups.length)
    ∧ (∀ b rest, tn.flight = b :: rest → b.ended = true →
      (s.core c).loads ≤ rest.foldl (fun n q => n + q.loads) tn.loads →
      ∃ t q, exec (.blockCommit c) s = .next t ∧ (t.core c).run = some { f with tandem := some q } ∧ q.flight = rest
        ∧ q.bsn = tn.bsn ∧ q.versions = tn.versions.filter (fun v => v.bsn != b.bsn)
        ∧ q.words = settled tn.words (tn.versions.filter (fun v => v.bsn == b.bsn))
        ∧ q.queue = tn.queue.filter (fun e => e.bsn != b.bsn) ∧ q.reads = tn.reads.filter (fun e => e.2 / 16 != b.bsn))
    ∧ (tn.flight = [] → tn.ended = true → f.trap = none → (s.core c).stopping = false → (s.core c).loads = 0 → (s.core c).waits = 0 → ∃ t g q, exec (.blockCommit c) s = .next t
        ∧ (t.core c).run = some g ∧ g.tandem = some q ∧ q.versions = [] ∧ q.slot = 0 ∧ q.blockPc = f.pc
        ∧ q.ended = false ∧ q.bsn = (tn.bsn + 1) % 2 ^ 32 ∧ q.words = tn.settle
        ∧ (∀ k rest, tn.tokens = k :: rest → q.tokens = if k.addr = f.pc then rest else [])
        ∧ (q.tokens = [] → s.planned t (.blockToken c)))
    ∧ (∀ tr, f.trap = some tr → (s.core c).stopping = true → (s.core c).loads = 0 → (s.core c).waits = 0 → tn.flight = [] →
        ∃ t g, exec (.tandemFault c) s = .next t ∧ (t.core c).run = none ∧ t.fir? f.key = some g
        ∧ g.stage = .stopping ∧ g.tandem = none ∧ g.faultCore = some (blockMember tn tn.blockPc)
        ∧ g.pc = (if tr.cls = 0x10 ∨ tr.cls = 0x11 then tr.pc else f.pc)
        ∧ s.planned t (.faultRecordWrite f.key)))

/-- R300 to R304, R310, R311: an engine instruction builds its command from its image words, checks the grant, every
address and the target, and sends it to the target's cassette in a message of eight words, each address in the
global-window form of the core; the core waits for its answer; a commit point. A command without a grant is an engine
capability fault, and one for a cassette that is absent an engine command fault. Where it rests on a choice of the
model: log 41, log 42, log 94. -/
def Obligations.EngineIssue : Prop :=
  (∀ (s : State) (x : Task) (i : Instr) (eop flg n : Nat) (ty : BitVec 4) (copy : Bool) (ws : List Word) (a b : Word),
    ((i = .mxflip x ∧ eop = 0xB1 ∧ flg = 0 ∧ ty = 0 ∧ n = 1 ∧ copy = false)
      ∨ (∃ t, i = .mxld t x ∧ eop = 0xB0 ∧ flg = 0 ∧ ty = tyCode t ∧ n = 4 ∧ copy = false)
      ∨ (∃ acc tr t, i = .mxrun acc tr t x ∧ eop = 0xB2 ∧ flg = acc.toNat + 2 * tr.toNat ∧ ty = tyCode t ∧ n = 6 ∧ copy = false)
      ∨ (∃ crc rec, i = .cpy crc rec x ∧ eop = 0xB3 ∧ flg = crc.toNat + 2 * rec.toNat ∧ ty = 0 ∧ n = 5 ∧ copy = true)
      ∨ (∃ crc rec, i = .cpyf crc rec x ∧ eop = 0xB4 ∧ flg = crc.toNat + 2 * rec.toNat ∧ ty = 0 ∧ n = 6 ∧ copy = true)
      ∨ (∃ mask, i = .qfence mask x ∧ eop = 0xB5 ∧ flg = mask.toNat ∧ ty = 0 ∧ n = 1 ∧ copy = false)) →
    s.issues x.hd → State.engWaits x s = false → s.needWord (State.wordNo x.d + n - 1) = .ok () →
    s.needOpnds [x.a, x.b] = .ok () → (List.range n).mapM (fun j => s.srcWord (State.wordNo x.d + j)) = .ok ws →
    s.src64 x.a = .ok a → s.src64 x.b = .ok b →
    (let que := if copy then a.toNat / 2 ^ 24 % 4 + 1 else 0
     let target := a.toNat % 2 ^ 24 / 8 * 8
     let img := fun j => (ws.getD j 0).toNat
     let cap := s.grants s.cur s.cctx (b.toNat % 2 ^ 32) target (cmdQueues eop flg que)
     (cap = false → (∀ r ∈ s.cmdChecks eop flg (casOf target) (tyOf ty) img, State.addrFault r = none) →
       exec i s = .next (s.fault (trapAt 0x0E 0)))
     ∧ (cap = true → s.cmdLimits eop flg (casOf target) (tyOf ty) img = .ok () → s.isCore (pkgOf s.cur) target = false →
       exec i s = .next (s.fault (trapAt 0x0D 0)))
     ∧ (cap = true → s.isCore (pkgOf s.cur) target = true →
     s.cmdLimits eop flg (casOf target) (tyOf ty) img = .ok () →
     ∃ t cmd, exec i s = s.completes t ∧ t.mem = s.mem ∧ t.cf.c = true ∧ t.cf.k = true
      ∧ (t.core s.cur).waits = (s.core s.cur).waits + 1
      ∧ s.sent t (.eng cmd (if eop = 0xB5 then flg else 2 ^ que)) .engineCommandArrival
      ∧ cmd.core = s.cur ∧ cmd.ctx = s.cctx ∧ cmd.cas = casOf target ∧ cmd.queue = que ∧ cmd.prog = 0 ∧ cmd.held = false
      ∧ cmd.words.head? = some (BitVec.ofNat 64 (b.toNat % 2 ^ 32 * 2 ^ 32 + (eop * 2 ^ 24 + flg * 2 ^ 16 + ty.toNat * 2 ^ 12
          + que * 2 ^ 9) + s.cctx))
      ∧ cmd.words.length = 8 ∧ cmd.words[1]? = some (BitVec.ofNat 64 ((s.time.toNat % 2 ^ 32) * 2 ^ 32 + s.cur))
      ∧ (∀ j < 5, cmd.words[j + 3]? = some (BitVec.ofNat 64 (if j + 1 ∈ State.addrWords eop flg (tyOf ty)
          then State.toWindow s.cur (img (j + 1)) else img (j + 1))))
      ∧ cmd.sync = (if img 0 = 0 then 0 else State.toWindow s.cur (img 0) % 2 ^ 64))))
  ∧ (∀ (s : State) (x : Task) (va a b : Word), s.issues x.hd → State.engWaits x s = false →
    s.needOpnds [x.d, x.a, x.b] = .ok () → s.srcWord (State.wordNo x.d) = .ok va → s.src64 x.a = .ok a →
    s.src64 x.b = .ok b → va.toNat % 64 = 0 → va.toNat + 64 ≤ s.sliceSize s.cur →
    s.readable s.cur va.toNat (.slice s.cur va.toNat false) 64 3 = .ok () →
    (let w := fun j => s.num (sliceKey s.cur (va.toNat + 8 * j)) 8
     let eop := w 0 / 2 ^ 24 % 256
     let flg := w 0 / 2 ^ 16 % 256
     let ty := w 0 / 2 ^ 12 % 16
     let que := w 0 / 2 ^ 9 % 8
     let target := a.toNat % 2 ^ 24 / 8 * 8
     cmdLegal eop flg ty que = true → (ty = 14 → s.feature (pkgOf s.cur) 2 = true) →
     s.grants s.cur s.cctx (b.toNat % 2 ^ 32) target (cmdQueues eop flg que) = true → s.isCore (pkgOf s.cur) target = true →
     s.cmdLimits eop flg (casOf target) (tyOf (BitVec.ofNat 4 ty)) (fun j => w (j + 2)) = .ok () →
     ∃ t cmd, exec (.engq x) s = s.completes t ∧ t.mem = s.mem ∧ t.cf.c = true ∧ t.cf.k = true
      ∧ (t.core s.cur).waits = (s.core s.cur).waits + 1
      ∧ s.sent t (.eng cmd (if eop = 0xB5 then flg else 2 ^ que)) .engineCommandArrival
      ∧ cmd.core = s.cur ∧ cmd.ctx = s.cctx ∧ cmd.cas = casOf target ∧ cmd.queue = que))

/-- R164, R304, R310, R345, R452: a command enters its queue, or is refused when the inbox has no room; a package that
does not run takes none; a fence is done when it stands at the head of each queue it names, and leaves them. R440,
R442: a command whose operand cannot be reached is held and tried again every 65,536 ck until it can; a stop of a
context with no weight saves its commands of a queue with their progress, and they leave the saved ones when the
context has a weight again. Where it rests on a choice of the model: log 44. -/
def Obligations.EngineQueuesAndHolds : Prop :=
  ((∀ (s : State) (tag mask : Nat) (c : EngCmd), s.msg? tag = some (.eng c mask) → (s.pkg (c.cas / 4096)).st ≠ 0x03 →
    exec (.engineCommandArrival tag) s = .next s)
  ∧ (∀ (s : State) (tag q : Nat) (c : EngCmd), s.msg? tag = some (.eng c (2 ^ q)) → q < 5 →
    (s.pkg (c.cas / 4096)).st = 0x03 →
    releaseReady s tag c.core (spanScope c.core (c.cas * 8)) = true →
    (s.dropMsg tag).admits c.cas 1 [q + 8] = true →
    (s.die (c.cas / 256)).savedCmds.any (fun p => p.cas == c.cas && p.queue == q && p.ctx == c.ctx) = false →
    ∃ t, exec (.engineCommandArrival tag) s = .next t ∧ t.queue c.cas q = s.queue c.cas q ++ [{ c with queue := q }]
      ∧ t.mem = s.mem
      ∧ s.sent t (.answer tag (c.cas * 8) c.core (some false) [] (some (7, c.eop * 2 ^ 56 + c.queue * 2 ^ 53 + (c.cas * 8) * 2 ^ 29))) .p7Result)
  ∧ (∀ (s : State) (tag mask : Nat) (c : EngCmd), s.msg? tag = some (.eng c mask) →
    (s.pkg (c.cas / 4096)).st = 0x03 → releaseReady s tag c.core (spanScope c.core (c.cas * 8)) = true →
    (s.dropMsg tag).admits c.cas 1 ((maskQueues mask).map (· + 8)) = false →
    ∃ t, exec (.engineCommandArrival tag) s = .next t ∧ t.mem = s.mem ∧ t.cass = s.cass
      ∧ s.sent t (.answer tag (c.cas * 8) c.core (some true) [] (some (7, c.eop * 2 ^ 56 + c.queue * 2 ^ 53 + (c.cas * 8) * 2 ^ 29))) .p7Result)
  ∧ (∀ (s : State) (k : Nat) (c : EngCmd), s.readyFence k = some c → ∃ t, exec (.qfenceComplete k) s = .next t
    ∧ (∀ q < 5, ∀ e, s.headCmd k q = some e → e.id = c.id → t.queue k q = (s.queue k q).drop 1)
    ∧ (c.sync ≠ 0 → s.sent t (.sync (c.cas * 8) (c.sync / 2 ^ 31 % 2 ^ 24) (c.sync % 2 ^ 19) 1 0 none) .syncWordUpdate) ∧ t.mem = s.mem))
  ∧ ((∀ (s : State) (k q : Nat) (c : EngCmd), s.headCmd k q = some c →
    (c.held = false → ∀ a, s.engTrouble k c = some a → ∃ t, exec (.engineOperationFault k q) s = .next t
      ∧ t.headCmd k q = some { c with held := true } ∧ (s.time.toNat + 65536, Instr.engineRewalk k q) ∈ t.agenda)
    ∧ (c.held = true → ∀ a, s.engTrouble k c = some a → ∃ t, exec (.engineRewalk k q) s = .next t
      ∧ t.headCmd k q = some c ∧ (s.time.toNat + 65536, Instr.engineRewalk k q) ∈ t.agenda ∧ t.mem = s.mem)
    ∧ (c.held = true → s.engTrouble k c = none → ∃ t, exec (.engineRewalk k q) s = .next t
      ∧ t.headCmd k q = some { c with held := false } ∧ t.mem = s.mem))
  ∧ (∀ (s : State) (k q x : Nat), ((s.cas k).stops.filter (fun e => e.1 == q)).map (·.2) = [x] → s.weight (k / 256) x = 0 →
    ∃ t, exec (.enginePreempt k q) s = .next t ∧ t.queue k q = (s.queue k q).filter (fun c => c.ctx != x)
      ∧ (t.die (k / 256)).savedCmds = (s.die (k / 256)).savedCmds
          ++ ((s.queue k q).filter (fun c => c.ctx == x)).map (fun c => { c with held := false, act := [], queue := q }) ∧ t.mem = s.mem)
  ∧ (∀ (s : State) (d x : Nat), s.weight d x ≠ 0 → (s.die d).savedCmds.any (fun c => c.ctx == x) = true →
    ∃ t, exec (.engineResume d x) s = .next t ∧ (t.die d).savedCmds = (s.die d).savedCmds.filter (fun c => c.ctx != x)
      ∧ t.mem = s.mem))

/-- R147, R148, R172, R305 to R307: the matrix engine: a tile enters the shadow plane, at the head of the queue or
behind mxruns alone whose results it does not overlap; the planes are exchanged; and a piece of a run reads its
activations in blocks of 64 bytes, then writes its result rows, after the stores of its cassette on their way there,
and counts their bytes. Where it rests on a choice of the model: log 42, log 45. -/
def Obligations.MatrixEngine : Prop :=
  (∀ (s : State) (k i : Nat) (c : EngCmd), (s.pkg (k / 4096)).st = 0x03 → (s.queue k 0)[i]? = some c → c.eop = 0xB0 →
    (∀ e ∈ s.queue k 0, e.held = false) →
    (∀ r ∈ (s.queue k 0).take i, r.eop = 0xB2 ∧ overlaps (c.img 1) 8192 (r.img 4) (256 * (r.img 5 % 8192)) = false
      ∧ (c.ty = .e2m1 → overlaps (c.img 2) 2048 (r.img 4) (256 * (r.img 5 % 8192)) = false)) →
    ∀ w sc, s.engRead k c (c.img 1) (c.img 1) 8192 = .ok w →
      (if c.ty = .e2m1 then s.engRead k c (c.img 2) (c.img 2) 2048 else .ok []) = .ok sc →
      ∃ t, exec (.mxldPerform k) s = .next t
        ∧ (t.cas k).shadow = ⟨true, c.ctx, c.ty, w, sc, BitVec.ofNat 16 (c.img 3)⟩ ∧ (t.cas k).active = (s.cas k).active
        ∧ t.queue k 0 = (s.queue k 0).eraseIdx i ∧ t.mem = s.mem
        ∧ (c.sync ≠ 0 → s.sent t (.sync (c.cas * 8) (c.sync / 2 ^ 31 % 2 ^ 24) (c.sync % 2 ^ 19) 1 0 none) .syncWordUpdate))
  ∧ ∀ (s : State) (k : Nat) (c : EngCmd), s.headCmd k 0 = some c → c.held = false →
    (c.eop = 0xB1 → ∃ t, exec (.mxflipPerform k) s = .next t ∧ (t.cas k).shadow = (s.cas k).active
        ∧ (t.cas k).active = (s.cas k).shadow ∧ t.queue k 0 = (s.queue k 0).drop 1 ∧ t.mem = s.mem
        ∧ (c.sync ≠ 0 → s.sent t (.sync (c.cas * 8) (c.sync / 2 ^ 31 % 2 ^ 24) (c.sync % 2 ^ 19) 1 0 none) .syncWordUpdate))
    ∧ (c.eop = 0xB2 →
      (∀ b, mxReady c = false → s.engRead k c (c.img 1) (mxBlock c) 64 = .ok b →
        ∃ t, exec (.mxrunPiece k) s = .next t ∧ t.headCmd k 0 = some { c with act := c.act ++ b } ∧ t.mem = s.mem)
      ∧ (∀ sc bands old ks, mxReady c = true → s.mxRest k c = .ok (sc, bands, old, ks) →
        (c.ty = .e2m1 → s.engFar k c (c.img 3) (c.img 3 + 2 * (c.prog / 64)) 2 .load = none) →
        s.engBehind k ks = false →
        let n := Nat.min 16 (c.img 5 % 8192 - c.prog)
        ∃ t, exec (.mxrunPiece k) s = .next t
          ∧ t.mem = (s.putKeys k ks ((mxRows c (s.cas k).active c.act sc bands old n).flatMap (toLe 4))).mem
          ∧ (c.prog + n < c.img 5 % 8192 → t.headCmd k 0 = some { c with prog := c.prog + n, act := [] })
          ∧ (c.img 5 % 8192 ≤ c.prog + n → t.queue k 0 = (s.queue k 0).drop 1)
          ∧ (c.sync ≠ 0 → s.sent t (.sync (c.cas * 8) (c.sync / 2 ^ 31 % 2 ^ 24) (c.sync % 2 ^ 19) 0 (256 * n) none) .syncWordUpdate)))

/-- R104, R105, R308, R309: a copy moves 128 destination bytes a step, after the stores of its cassette on their way
there, those that lie outside its source as they are, with their checksum where it was asked for; then it writes its
record where it was asked for, and adds its last byte update. Where it rests on a choice of the model: log 14, log 43.
-/
def Obligations.CopyEngine : Prop :=
  ∀ (s : State) (k q : Nat) (c : EngCmd), s.headCmd k q = some c → c.held = false → (c.eop = 0xB3 ∨ c.eop = 0xB4) →
    let g := copyOf c.eop c.img
    (∀ bytes ks, c.prog < g.total → s.sector k c g (Nat.min 128 (g.total - c.prog)) = .ok (bytes, ks) →
      (∀ r ∈ copyRuns g c.prog (Nat.min 128 (g.total - c.prog)) 128,
        s.engFar k c g.src r.1 r.2.2 .load = none ∧ s.engFar k c g.dst r.2.1 r.2.2 .store = none) →
      (∀ p ∈ ks, ∀ r ∈ s.sourceRuns k c g, ¬(r.1 ≤ p ∧ p < r.1 + r.2)) → bytes.length = ks.length → s.engBehind k ks = false →
      ∃ t, exec (.copySector k q) s = .next t ∧ t.mem = (s.putKeys k ks bytes).mem
        ∧ t.headCmd k q = some { c with
            prog := c.prog + Nat.min 128 (g.total - c.prog)
            crc := if c.hasCrc then crc64 c.crc bytes else 0 })
    ∧ (g.total ≤ c.prog → (∀ ks, c.hasRec = true → s.engWritable k c g.recAddr g.recAddr 16 = .ok ks →
        s.engBehind k ks = false → s.engFar k c g.recAddr g.recAddr 16 .store = none →
        ∃ t, exec (.completionRecord k q) s = .next t
          ∧ t.mem = (s.putKeys k ks (toLe 8 g.total ++ toLe 8 c.crc.toNat)).mem ∧ t.queue k q = (s.queue k q).drop 1
          ∧ (g.total ≠ 0 → c.sync ≠ 0 → s.sent t (.sync (c.cas * 8) (c.sync / 2 ^ 31 % 2 ^ 24) (c.sync % 2 ^ 19) 0
              (if g.total % 128 = 0 then 128 else g.total % 128) none) .syncWordUpdate))
      ∧ (c.hasRec = false → ∃ t, exec (.completionRecord k q) s = .next t ∧ t.mem = s.mem
          ∧ t.queue k q = (s.queue k q).drop 1
          ∧ (g.total ≠ 0 → c.sync ≠ 0 → s.sent t (.sync (c.cas * 8) (c.sync / 2 ^ 31 % 2 ^ 24) (c.sync % 2 ^ 19) 0
              (if g.total % 128 = 0 then 128 else g.total % 128) none) .syncWordUpdate)))

/-- R278, R313 to R315, R319, R320: the system instructions. trap stops its firing after itself with its code as INFO;
the others raise the privilege fault in a firing that is not privileged, before they read an operand, and complete in
one that is. tret, a ctlwr, a tlbinv and a ctlrd of another core's register send their request and wait for its
answer; a ctlrd of the own core's instance writes wD at once. An unknown number, a write of a read-only register, an
index beyond the last, a remote access outside context 0 or to no core, and a write of another context's register
outside context 0 are control register faults. stop with B of 0 requests a pre-emption of every core of the die that
runs the context and writes their number; with B of 1 it marks the running firings as well (the case with no halted
core and no other firing of the context on the die). Where it rests on a choice of the model: log 18, log 47, log 49,
log 96. -/
def Obligations.SystemInstructions : Prop :=
  (∀ (s : State) (hd : Head) (code : BitVec 8), s.issues hd →
    exec (.trap hd code) s = .next (s.fault ⟨Cls.trap, code.toNat, 0, 0, s.cf.pc + 12, 0⟩))
  ∧ (∀ (s : State) (x : Task) (num : BitVec 12) (k : TlbKind), s.issues x.hd → s.privileged s.cf = false →
    s.needOpnds [x.d, x.a, x.b] = .ok () →
    exec (.tret x) s = .next (s.fault (trapAt Cls.privilege 0))
    ∧ exec (.stop x) s = .next (s.fault (trapAt Cls.privilege 0))
    ∧ (ctlWaits s = false → s.needOpnds [x.d, x.b] = .ok () →
      exec (.ctlrd num x) s = .next (s.fault (trapAt Cls.privilege 0))
      ∧ exec (.ctlwr num x) s = .next (s.fault (trapAt Cls.privilege 0)))
    ∧ (tlbWaits s = false → s.needOpnds [x.d, x.a] = .ok () →
      exec (.tlbinv k x) s = .next (s.fault (trapAt Cls.privilege 0))))
  ∧ (∀ (s : State) (x : Task) (fid act : Word), s.issues x.hd → s.needOpnds [x.d, x.a, x.b] = .ok () →
    s.src64 x.a = .ok fid → s.src64 x.b = .ok act →
    (s.privileged s.cf = true → ∃ t, exec (.tret x) s = s.completes t ∧ t.mem = s.mem
      ∧ (t.core s.cur).waits = (s.core s.cur).waits + 1
      ∧ s.sent t (.tret s.cur s.cctx fid act.toNat (State.wordNo x.d)) .tretOrder))
  ∧ (∀ (s : State) (x : Task) (num : BitVec 12), s.issues x.hd → ctlWaits s = false → s.needOpnds [x.d, x.b] = .ok () →
    s.privileged s.cf = true →
    (ctlOf num.toNat = none → exec (.ctlrd num x) s = .next (s.fault (ctlBad num.toNat)))
    ∧ ((∀ r, ctlOf num.toNat = some r → r.readOnly = true) → exec (.ctlwr num x) s = .next (s.fault (ctlBad num.toNat))))
  ∧ (∀ (s : State) (x : Task) (num : BitVec 12) (r : CtlReg) (b v : Word), s.issues x.hd → ctlWaits s = false →
    s.privileged s.cf = true → s.needOpnds [x.d, x.b] = .ok () → s.src64 x.b = .ok b → s.srcWord (State.wordNo x.d) = .ok v → ctlOf num.toNat = some r →
    (let idx := b.toNat / 2 ^ 8 % 1024
     let cid := b.toNat / 2 ^ 24 % 2 ^ 24
     let y := b.toNat % 64
     let here := b.toNat / 2 ^ 63 = 0
     let bad := .next (s.fault (ctlBad num.toNat))
     ((¬here ∧ (s.cctx ≠ 0 ∨ s.isCore (pkgOf s.cur) cid = false)) ∨ (r.words ≠ 0 ∧ r.words ≤ idx) →
       exec (.ctlrd num x) s = bad ∧ exec (.ctlwr num x) s = bad)
     ∧ (s.cctx ≠ 0 → (r.kind ≠ .ctx ∨ y ≠ s.cctx) → exec (.ctlwr num x) s = bad)
     ∧ ((r.words = 0 ∨ idx < r.words) →
       (here → exec (.ctlrd num x) s = s.completes (s.setWord (State.wordNo x.d) (s.ctlGet r s.cur y idx)))
       ∧ (here → r.readOnly = false → (s.cctx = 0 ∨ (r.kind = .ctx ∧ y = s.cctx)) →
         ∃ t, exec (.ctlwr num x) s = s.completes t ∧ t.mem = s.mem ∧ (t.core s.cur).waits = (s.core s.cur).waits + 1
          ∧ s.sent t (.ctl ⟨s.cur, y, num.toNat, if r.kind = .ctx then y else s.cur, idx, true, v, 0⟩) r.step)
       ∧ (¬here → s.cctx = 0 → s.isCore (pkgOf s.cur) cid = true →
         (∃ t, exec (.ctlrd num x) s = s.completes t ∧ t.mem = s.mem ∧ (t.core s.cur).waits = (s.core s.cur).waits + 1
          ∧ s.sent t (.ctl ⟨s.cur, y, num.toNat, cid, idx, false, 0, State.wordNo x.d⟩) .remoteCtlAccess)
         ∧ (r.readOnly = false → ∃ t, exec (.ctlwr num x) s = s.completes t ∧ t.mem = s.mem
          ∧ (t.core s.cur).waits = (s.core s.cur).waits + 1
          ∧ s.sent t (.ctl ⟨s.cur, y, num.toNat, if r.kind = .ctx then y else cid, idx, true, v, 0⟩) .remoteCtlAccess)))))
  ∧ (∀ (s : State) (x : Task) (k : TlbKind) (va : Word), s.issues x.hd → tlbWaits s = false →
    s.needOpnds [x.d, x.a] = .ok () → s.src64 x.a = .ok va →
    (s.privileged s.cf = true → k = .all → s.cctx ≠ 0 → exec (.tlbinv k x) s = .next (s.fault (trapAt Cls.privilege 0)))
    ∧ (s.privileged s.cf = true → k = .page → 2 ^ 56 ≤ va.toNat →
      exec (.tlbinv k x) s = .next (s.fault (trapAt Cls.noncanon va.toNat)))
    ∧ (s.privileged s.cf = true → (k = .all → s.cctx = 0) → (k = .page → va.toNat < 2 ^ 56) →
      ∃ t, exec (.tlbinv k x) s = s.completes t ∧ t.mem = s.mem ∧ (t.core s.cur).waits = (s.core s.cur).waits + 1
        ∧ s.sent t (.tlb s.cur s.cctx (if k = .page then va.toNat else 0) (State.wordNo x.d) k) .tlbinvComplete))
  ∧ (∀ (s : State) (x : Task) (a b : Word), s.issues x.hd → s.needOpnds [x.d, x.a, x.b] = .ok () →
    s.src64 x.a = .ok a → s.src64 x.b = .ok b →
    (let y := a.toNat % 64
     let rs := s.runners (dieOf s.cur) y
     (s.privileged s.cf = true → y ≠ s.cctx → s.cctx ≠ 0 → exec (.stop x) s = .next (s.fault (trapAt Cls.privilege 0)))
     ∧ (s.privileged s.cf = true → (y = s.cctx ∨ s.cctx = 0) →
       (1 < b.toNat → exec (.stop x) s = .next (s.fault (ctlBad 0)))
       ∧
         (b = 0 → ∃ t, exec (.stop x) s = s.completes t ∧ t.mem = (s.setWord (State.wordNo x.d) (BitVec.ofNat 64 rs.length)).mem
         ∧ ∀ c ∈ rs, (s.core c).run.isSome = true → (t.core c).preempt.isSome = true)
       ∧ (b = 1 → s.holders (dieOf s.cur) y = [] → (∀ c ∈ rs, (s.core c).halted = false) →
         ∃ t, exec (.stop x) s = s.completes t ∧ t.mem = (s.setWord (State.wordNo x.d) (BitVec.ofNat 64 rs.length)).mem
          ∧ ∀ c ∈ rs, ∀ f, (s.core c).run = some f → (t.core c).preempt.isSome = true
            ∧ ∃ g, (t.core c).run = some g ∧ g.doomed = true))))

/-- R315, R82, R318, R319: a write of a control register reaches its instance and answers, or ends in the fault of the
instruction that waits for it; a read answers with the register's value; a change of ctl.L1CO or ctl.WSAREA waits for
a quiet cassette and then takes effect, the first with an empty L1; tlbinv removes every translation it names from
every TLB of the package and no other translation, and then writes 0 to wD. Where it rests on a choice of the model:
log 47, log 48, log 107. -/
def Obligations.ControlRegisterEvents : Prop :=
  (∀ (s : State) (tag : Nat) (a : CtlAcc) (r : CtlReg), s.msg? tag = some (.ctl a) → ctlOf a.num = some r →
    (a.write = true → ∀ i : Instr, (i = .remoteCtlAccess tag
      ∨ (i, r) ∈ ([(.spownWrite tag, .spown), (.l1coWrite tag, .l1co), (.wsareaWrite tag, .wsarea),
          (.inboxLimitWrite tag, .inbmin), (.inboxLimitWrite tag, .inbcap), (.patienceWrite tag, .patience),
          (.dspillWrite tag, .dspill), (.grptabWrite tag, .grptab), (.preemptwinWrite tag, .preemptwin),
          (.spawnqWrite tag, .spawnq), (.trringWrite tag, .trring), (.trctlWrite tag, .trctl), (.detctlWrite tag, .detctl),
          (.detstatClear tag, .detstat), (.captabWrite tag, .captab), (.captabWrite tag, .capcnt), (.fltchWrite tag, .fltch)]
          : List (Instr × CtlReg))
      ∨ (∃ k, r = .evsel k ∧ i = .evselWrite tag) ∨ (∃ k, r = .evcnt k ∧ i = .evcntWrite tag)
      ∨ (i = .ctlRegisterWrite tag ∧ r ∈ ([.rctab, .cxwt, .ticketw, .xmapbase, .xmapcnt, .ptroot, .rgntab, .rgncnt, .dettab,
          .detn, .syshdr] : List CtlReg))) →
      (∀ u, s.ctlPut a r = .ok u → exec i s = .next ((u.dropMsg tag).gotAnswer a.core))
      ∧ (∀ e f, s.ctlPut a r = .error e → (s.core a.core).run = some f → exec i s =
          .next (((s.dropMsg tag).gotAnswer a.core).takeFaultAt a.core { e with pc := f.pc - 12 })))
    ∧ (a.write = false → exec (.remoteCtlAccess tag) s = .next (((s.dropMsg tag).gotAnswer a.core).onCore a.core
        (fun u => u.setWord a.dword (s.ctlGet r a.inst a.ctx a.index)))))
  ∧ (∀ (s : State) (k : Nat), s.casQuiet k = true →
    (∀ v, (s.cas k).l1coNext = some v → ∃ t, exec (.l1coTakeEffect k) s = .next t ∧ (t.cas k).l1co = v
      ∧ (t.cas k).l1coNext = none ∧ (t.cas k).lines = [] ∧ t.host = s.host)
    ∧ (∀ v, (s.cas k).wsareaNext = some v → ∃ t, exec (.wsareaTakeEffect k) s = .next t ∧ (t.cas k).wsarea = v
      ∧ (t.cas k).wsareaNext = none ∧ t.mem = s.mem))
  ∧ (∀ (s : State) (k : Nat), s.casQuiet k = false →
    (∀ v, (s.cas k).l1coNext = some v → exec (.l1coTakeEffect k) s = .next (s.plan (s.time.toNat + 1) (.l1coTakeEffect k)))
    ∧ (∀ v, (s.cas k).wsareaNext = some v →
      exec (.wsareaTakeEffect k) s = .next (s.plan (s.time.toNat + 1) (.wsareaTakeEffect k))))
  ∧ (∀ (s : State) (tag c x va dword : Nat) (k : TlbKind), s.msg? tag = some (.tlb c x va dword k) →
    ∃ t : State, exec (.tlbinvComplete tag) s = .next (t.onCore c (fun u => u.setWord dword 0)) ∧ t.mem = s.mem
      ∧ (t.core c).waits = (s.core c).waits - 1
      ∧ (∀ j e, j / 4096 = pkgOf c →
          (e ∈ (t.cas j).tlb ↔ e ∈ (s.cas j).tlb ∧ tlbHit k x va e.ctx e.va e.log = false))
      ∧ (∀ j, j / 4096 ≠ pkgOf c → t.cas j = s.cas j))

/-- R315 to R318, R75, R81, R84, R106, R189, R302: an accepted write reads back, but for ctl.EVCNTk and for
ctl.DETSTAT, where ones clear; the ranges of ctl.PATIENCE, ctl.PREEMPTWIN, ctl.SPAWNQ, ctl.RGNCNT, ctl.DETN,
ctl.CAPCNT, ctl.L1CO, ctl.WSAREA, ctl.PTROOT and ctl.SYSHDR; the read-only registers take no write; ctl.SPOWN takes a
context number of a quiet core, whose mask and debug registers it clears. Where it rests on a choice of the model: log
46. -/
def Obligations.ControlRegisterWrites : Prop :=
  (∀ (s t : State) (a : CtlAcc) (r : CtlReg), s.ctlPut a r = .ok t → r ≠ .detstat → (∀ k, r ≠ .evcnt k) →
    (r.kind = .ctx → a.ctx = a.inst) → t.ctlGet r a.inst a.ctx a.index = a.data)
  ∧ (∀ (s t : State) (a : CtlAcc), s.ctlPut a .detstat = .ok t → a.ctx = a.inst →
    t.ctlGet .detstat a.inst a.ctx a.index = s.ctlGet .detstat a.inst a.ctx a.index &&& ~~~a.data)
  ∧ (∀ (s : State) (a : CtlAcc),
    ((∃ t, s.ctlPut a .patience = .ok t) ↔ 1 ≤ a.data.toNat ∧ a.data.toNat ≤ 255)
    ∧ ((∃ t, s.ctlPut a .preemptwin = .ok t) ↔ 256 ≤ a.data.toNat ∧ a.data.toNat ≤ 16777216)
    ∧ ((∃ t, s.ctlPut a .spawnq = .ok t) ↔ 4 ≤ a.data.toNat ∧ a.data.toNat ≤ 64)
    ∧ ((∃ t, s.ctlPut a .rgncnt = .ok t) ↔ 1 ≤ a.data.toNat ∧ a.data.toNat ≤ 65536)
    ∧ ((∃ t, s.ctlPut a .detn = .ok t) ↔ 1 ≤ a.data.toNat ∧ a.data.toNat ≤ 18432)
    ∧ ((∃ t, s.ctlPut a .capcnt = .ok t) ↔ a.data.toNat ≤ 256)
    ∧ ((∃ t, s.ctlPut a .l1co = .ok t) ↔ a.data.toNat ≤ 3)
    ∧ ((∃ t, s.ctlPut a .wsarea = .ok t) ↔ 1 ≤ a.data.toNat ∧ a.data.toNat ≤ 16)
    ∧ ((∃ t, s.ctlPut a .ptroot = .ok t) ↔ a.data.toNat < 2 ^ 52 ∧ a.data.toNat % 32768 = 0)
    ∧ ((∃ t, s.ctlPut a .syshdr = .ok t) ↔ a.data.toNat < 2 ^ 56 ∧ a.data.toNat % 65536 = 0)
    ∧ ((∃ t, s.ctlPut a .spown = .ok t) ↔ a.data.toNat < 64 ∧ s.coreQuiet a.inst = true)
    ∧ (∀ t, s.ctlPut a .spown = .ok t → (t.core a.inst).mask = 0 ∧ (t.core a.inst).dctl = 0 ∧ (t.core a.inst).ibp = []
      ∧ (t.core a.inst).dwa = [] ∧ (t.core a.inst).dwc = [] ∧ (t.core a.inst).halted = false)
    ∧ (∀ r ∈ [CtlReg.actfc, .bktab, .cxrun], s.ctlPut a r = .error (ctlBad a.num)))

/-- R359 to R371: debug requests. The next counted slot of a debug channel reaches the module of its target, and one
whose operation is not listed is answered with status 5; a request that fails a check is answered with its status and
has no effect; one that passes has its effect and its answer, with DSTAT as it then stands, which for a halt still to
come, and for a step of one instruction, follows the halt. For a member of a tandem its leader's module serves and
answers. A response is written once its channel has room, and tried again every 1,024 ck; a request whose RESP can
hold none gets none. A core halts at its boundary, for what asked first, with the firing it runs and memory as they
were. Where it rests on a choice of the model: log 50. -/
def Obligations.DebugOperations : Prop :=
  (∀ (s : State) (tag : Nat) (r : DbgReq), s.msg? tag = some (.dbg r) → r.status = 256 →
    (let c := s.served r.target
     let r0 : DbgReq := { r with target := c }
     let q : DbgReq := { r0 with status := 257 }
     let k := s.core c
     let answers := fun (t : State) (v : Word) =>
       t.msg? tag = some (.dbg { q with status := 0, value := v, dstat := t.dstat c }) ∧ s.planned t (.debugResponseWrite tag)
     (∀ st, s.dbgStatus r0 = st → st ≠ 0 →
       ∀ p ∈ ([(1, .halt tag), (2, .resume tag), (3, .stepi tag), (4, .stepf tag), (5, .rdreg tag), (6, .wrreg tag),
         (7, .rdws tag), (8, .wrws tag), (9, .rdvec tag), (10, .rdacct tag), (11, .clracct tag)] : List (Nat × Instr)),
       r.op = p.1 → ∃ t, exec p.2 s = .next t ∧ t.msg? tag = some (.dbg { r0 with status := st, value := 0, dstat := s.dstat c })
         ∧ s.planned t (.debugResponseWrite tag) ∧ t.mem = s.mem)
     ∧ (s.dbgStatus r0 = 0 →
       (r.op = 1 → ∃ t, exec (.halt tag) s = .next t ∧ t.mem = s.mem
         ∧ (k.halted = true → answers t 0)
         ∧ (k.halted = false → k.run = none → (s.msgs.map (·.1)).Nodup → (t.core c).halted = true ∧ (t.core c).reason = 1
           ∧ t.msg? tag = some (.dbg { q with status := 0, dstat := t.dstat c }) ∧ s.planned t (.debugResponseWrite tag))
         ∧ (k.halted = false → k.run ≠ none → t.msg? tag = some (.dbg q)
           ∧ (t.core c).haltReq = (if k.stopping || k.run.any (fun f => f.trap.isSome) then some 1 else some (k.haltReq.getD 1))))
       ∧ (r.op = 2 → ∃ t, exec (.resume tag) s = .next t ∧ (t.core c).halted = false ∧ (t.core c).step = .none
         ∧ (t.core c).skipBp = true ∧ s.planned t (.nextFiring c) ∧ answers t 0 ∧ t.mem = s.mem)
       ∧ (r.op = 3 → ∃ t, exec (.stepi tag) s = .next t ∧ (t.core c).halted = false ∧ (t.core c).step = .instr
         ∧ (t.core c).skipBp = true ∧ s.planned t (.nextFiring c) ∧ t.msg? tag = some (.dbg q) ∧ t.mem = s.mem)
       ∧ (r.op = 4 → ∃ t, exec (.stepf tag) s = .next t ∧ (t.core c).halted = false ∧ (t.core c).step = .firing
         ∧ (t.core c).stepCtx = r.ctx ∧ answers t 0 ∧ t.mem = s.mem)
       ∧ (r.op = 5 → ∃ t, exec (.rdreg tag) s = .next t ∧ answers t (s.dbgGet c r.arg0.toNat) ∧ t.mem = s.mem)
       ∧ (r.op = 6 → ∃ t, exec (.wrreg tag) s = .next t ∧ answers t 0 ∧ t.mem = s.mem
         ∧ (∀ lo, (lo = 8 ∧ r.arg0 = 1) ∨ (lo = 55 ∧ (r.arg0 = 9 ∨ r.arg0 = 11))
             ∨ (lo = 57 ∧ (r.arg0 = 4 ∨ r.arg0 = 5 ∨ r.arg0 = 6 ∨ r.arg0 = 7)) →
           t.dbgGet c r.arg0.toNat = (r.arg1 &&& ~~~(63#64 <<< lo)) ||| (BitVec.ofNat 64 r.ctx <<< lo))
         ∧ ((r.arg0 = 8 ∨ r.arg0 = 10) → t.dbgGet c r.arg0.toNat = r.arg1))
       ∧ (r.op = 7 → ∀ f, s.onCoreFiring c = some f → ∃ t, exec (.rdws tag) s = .next t ∧ t.mem = s.mem
         ∧ answers t (if r.arg0 = 0 then pwRead (s.rawWord f 0) else s.rawWord f r.arg0.toNat))
       ∧ (r.op = 8 → k.run ≠ none → ∃ t, exec (.wrws tag) s = .next t ∧ answers t 0
         ∧ t.mem = (s.onCore c (fun u => u.setWord r.arg0.toNat r.arg1)).mem)
       ∧ (r.op = 8 → k.run = none → ∀ f, s.onCoreFiring c = some f → ∃ t, exec (.wrws tag) s = .next t ∧ answers t 0
         ∧ (r.arg0 ≠ 0 → t.mem = (s.setNum (sliceKey f.core (f.wp + 8 * r.arg0.toNat)) 8 r.arg1.toNat).mem))
       ∧ (r.op = 9 → ∀ f, s.onCoreFiring c = some f → ∃ t, exec (.rdvec tag) s = .next t ∧ t.mem = s.mem
         ∧ answers t (BitVec.ofNat 64 (elemOf (f.vregs.getD r.arg0.toNat 0) 32 r.arg1.toNat)))
       ∧ (r.op = 10 → ∃ t, exec (.rdacct tag) s = .next t ∧ t.mem = s.mem
         ∧ answers t (((s.cas (casOf c)).acct.get r.arg0.toNat [0, 0, 0, 0]).getD (r.arg1.toNat % 4) 0))
       ∧ (r.op = 11 → ∃ t, exec (.clracct tag) s = .next t ∧ answers t 0 ∧ (t.cas (casOf c)).acct = [] ∧ t.mem = s.mem))))
  ∧ (∀ (s : State) (chan k : Nat), (let d := s.desc chan
     (s.chan chan).busy = false → d.cons = 1 → d.ok = true → d.clm ≠ (s.chan chan).next →
     s.devKey (State.dieCore (s.homeDie chan)) d.ctx (d.slot d.clm.toNat) .load = .ok k →
     (let w := fun i => s.num (k + 16 + 8 * i) 8
      let r : DbgReq := ⟨chan, chan, d.ctx, d.clm, BitVec.ofNat 32 (w 0 / 2 ^ 32), w 0 % 256, w 1 % 2 ^ 24, BitVec.ofNat 64 (w 2),
        BitVec.ofNat 64 (w 3), w 4 % 2 ^ 56, 256, 0, 0⟩
      ((r.op = 0 ∨ 11 < r.op) → ∃ t, exec (.debugForward chan) s = .next t ∧ (t.chan chan).busy = true
        ∧ s.sent t (.dbg { r with target := s.served r.target, status := 5, dstat := s.dstat (s.served r.target) }) .debugResponseWrite)
      ∧ ∀ p ∈ ([(1, .halt), (2, .resume), (3, .stepi), (4, .stepf), (5, .rdreg), (6, .wrreg), (7, .rdws), (8, .wrws),
        (9, .rdvec), (10, .rdacct), (11, .clracct)] : List (Nat × (Nat → Instr))), r.op = p.1 →
      ∃ t, exec (.debugForward chan) s = .next t ∧ (t.chan chan).busy = true ∧ s.sent t (.dbg r) p.2)))
  ∧ (∀ (s : State) (tag : Nat) (r : DbgReq), s.msg? tag = some (.dbg r) → r.status < 256 →
    (s.respOk r.target r.ctx r.resp = false → exec (.debugResponseWrite tag) s = .next ((s.dropMsg tag).dbgFree r))
    ∧ (s.respOk r.target r.ctx r.resp = true → ∀ d, s.descAt r.target r.ctx r.resp = .ok d →
      ((d.full = true ∨ ∃ e, s.devKey r.target r.ctx (d.slot d.pidx.toNat) .load = .error e) → exec (.debugResponseWrite tag) s = .next (s.plan (s.time.toNat + 1024) (.debugResponseWrite tag)))
      ∧ (∀ k, d.full = false → s.devKey r.target r.ctx (d.slot d.pidx.toNat) .load = .ok k →
        exec (.debugResponseWrite tag) s = .next (((((s.setPidx d.key (d.pidx + 1)).writeHome (k + 16)
          (toLe 8 (r.tag.toNat * 2 ^ 32 + r.status) ++ toLe 8 r.value.toNat ++ toLe 8 r.dstat.toNat)).publish
          r.target r.ctx d d.pidx (slotHeader 24 0xFDB 0 (s.time.extractLsb' 0 32) (d.mark d.pidx) r.target 0)).dropMsg
          tag).dbgFree r))))
  ∧ (∀ (s : State) (c tag : Nat) (r : DbgReq), s.msgs.find? (fun m => match m.2 with
      | .dbg q => q.target == c && decide (q.status < 256) | _ => false) = some (tag, .dbg r) →
    (s.writeResp r = none → exec (.debugResponseRetry c) s = .next s)
    ∧ (∀ u, s.writeResp r = some u → ∃ t, exec (.debugResponseRetry c) s = .next t
      ∧ t.mem = ((u.dropMsg tag).dbgFree r).mem))
  ∧ (∀ (s : State) (c : Nat), s.atBoundary c = true → (s.core c).halted = false →
    (let halts := fun (i : Instr) (v : BitVec 4) => ∃ t, exec i s = .next t ∧ (t.core c).halted = true
       ∧ (t.core c).reason = v ∧ (t.core c).step = .none ∧ (t.core c).haltReq = none ∧ (t.core c).run = (s.core c).run
       ∧ t.mem = s.mem
     (∀ v, (s.core c).haltReq = some v → halts (.haltTakeEffect c) v)
     ∧ ((s.core c).haltReq = some 9 → halts (.stepComplete c) 9)
     ∧ (∀ n, s.breakpoint c = some n → halts (.breakpointHit c) (BitVec.ofNat 4 (2 + n)))))

/-- R372 to R374, R377 to R379, R450: an enabled event counter counts a ck once, in the context it selects, and notes
its overflow (the ck of a trace stall apart, which a record of this step can begin); the concentrator takes one record
of an encoder, writes a burst of up to 8 records and WIDX to the host's ring, reads RIDX, writes a TSYNC record, or
counts it as dropped where buffer and ring are full, and stops stalling cores once the ring has been full for 2^30 ck.
Where it rests on a choice of the model: log 28, log 35. -/
def Obligations.TraceAndCounters : Prop :=
  (∀ (s : State) (c : Nat), ((s.core c).counted = true → exec (.eventCount c) s = .next s)
    ∧ ((s.core c).counted = false → ∃ t, exec (.eventCount c) s = .next t ∧ (t.core c).counted = true ∧ t.mem = s.mem
      ∧ ∀ k < 8, (let sel := (s.core c).evsel.get k 0
          let v := (s.core c).evcnt.get k 0
          let code := (sel.extractLsb' 0 8).toNat
          let sum := (v.extractLsb' 0 48).toNat + (s.core c).evinc.get code 0 + s.ckEvent c code
          let on := sel.getLsbD 15 = true ∧ code ≠ 0 ∧ (sel.getLsbD 14 = true → (sel.extractLsb' 8 6).toNat = s.eventCtx c)
          (code = 0x0C → (s.die (dieOf c)).trctl.getLsbD 24 = false) →
          (on → (t.core c).evcnt.get k 0 = BitVec.ofBool (v.getLsbD 48 || decide (2 ^ 48 ≤ sum)) ++ BitVec.ofNat 48 sum)
          ∧ (¬on → (t.core c).evcnt.get k 0 = v))))
  ∧ (∀ (s : State) (d : Nat),
    (∀ c r l, s.nextEncoder d = some c → (s.core c).recs = r :: l → (s.die d).tbuf.length < 7 →
      ∃ t, exec (.traceRecordTake d) s = .next t ∧ (t.die d).tbuf = (s.die d).tbuf ++ [r] ∧ (t.core c).recs = l
        ∧ t.host = s.host ∧ t.mem = s.mem)
    ∧ (s.Inv → s.burstReady d = true → (s.die d).drops = 0 →
      (let n := min 8 (min (s.die d).tbuf.length (s.ringFree d))
       ∃ t, exec (.traceBurstWrite d) s = .next t ∧ (t.die d).tbuf = (s.die d).tbuf.drop n
        ∧ (t.die d).widx = ((s.die d).widx + n) % 2 ^ 64
        ∧ t.hostNum (s.ringBlock d + 0x10) 8 = (t.die d).widx ∧ t.mem = s.mem
        ∧ (∀ r, (s.die d).tbuf = [r] →
          (let a := s.hostNum (s.ringBlock d) 8 + 16 * ((s.die d).widx % 2 ^ s.ringLog d)
           (a + 16 ≤ s.ringBlock d + 0x10 ∨ s.ringBlock d + 0x18 ≤ a) → t.hostNum a 16 = r.toNat))))
    ∧ (∃ t, exec (.ridxRead d) s = .next t ∧ (t.die d).ridx = s.hostNum (s.ringBlock d + 0x18) 8 ∧ t.host = s.host
        ∧ t.mem = s.mem)
    ∧ ((s.die d).trctl.getLsbD 0 = true → 4096 ≤ (s.die d).tbuf.length → s.ringFree d = 0 →
        exec (.tsync d) s = .next (s.setDie d { s.die d with drops := (s.die d).drops + 1 }))
    ∧ ((s.die d).trctl.getLsbD 0 = true → ((s.die d).tbuf.length < 4096 ∨ s.ringFree d ≠ 0) → ∃ t, exec (.tsync d) s = .next t
        ∧ (t.die d).tbuf = (s.die d).tbuf ++ [s.mkRec 14 0 (d * 2048) s.time.toNat])
    ∧ (∀ u, (s.die d).fullSince = some u → (s.die d).trctl.getLsbD 24 = true → u + 2 ^ 30 ≤ s.time.toNat →
        ∃ t, exec (.stopfTimeout d) s = .next t ∧ (t.die d).trctl = (s.die d).trctl &&& ~~~(1#64 <<< 24) ∧ t.mem = s.mem))

/-- R5, R173, R350 to R353, R355, R356, R446: the host's reads and writes of BAR2 as it is sized, with an unsupported
request beyond it, of the package's memory, the reads in their order whichever package they are of; its writes of
BAR0, where the reserved bits of a CXL decoder, of RCROUTE and of PODGEOM read as zero, the geometry and routes are
fixed once the features are accepted, and the decoders while the package is live; and the one negotiation of features.
A package whose firmware image failed takes no write and answers no read. Where it rests on a choice of the model: log
52, log 53, log 54, log 61. -/
def Obligations.HostAccesses : Prop :=
  (∀ (s : State) (tag p off : Nat) (data : List Byte) (rx : Bool), s.Inv → s.msg? tag = some (.hostWrite p off data rx) →
    s.hostWriteWaits tag p rx = false →
    (s.dark p = true → exec (.hostBar2Write tag) s = .next (s.dropMsg tag))
    ∧ (s.dark p = false → off + data.length ≤ s.bar2Reach p → (∀ i < data.length, s.isBad (bar2Key p (off + i)) = false) →
    ∃ t, exec (.hostBar2Write tag) s = .next t ∧ (∀ i < data.length, t.byte (bar2Key p (off + i)) = data.getD i 0)
      ∧ (∀ k, (∀ i < data.length, k ≠ bar2Key p (off + i)) → t.byte k = s.byte k)
      ∧ (∀ i < data.length, bar2Key p (off + i) % 64 = 16 → s.planned t (.slotCount (bar2Key p (off + i) - 16)))
      ∧ t.msg? tag = none))
  ∧ (∀ (s : State) (tag p off n : Nat), s.msg? tag = some (.hostRead p off n) → s.hostReadWaits tag = false →
    ∃ t, exec (.hostBar2Read tag) s = .next t ∧ t.mem = s.mem ∧ t.msg? tag = none
      ∧ (s.dark p = false → off + n ≤ s.bar2Reach p → (∀ i < n, s.isBad (bar2Key p (off + i)) = false) →
        t.hostAns = s.hostAns ++ [(tag, some ((List.range n).map (fun i => s.byte (bar2Key p (off + i)))))])
      ∧ ((s.dark p = true ∨ s.bar2Reach p < off + n ∨ ∃ i < n, s.isBad (bar2Key p (off + i)) = true) → t.hostAns = s.hostAns ++ [(tag, none)]))
  ∧ (∀ (s : State) (tag p : Nat) (v : BitVec 128), s.msg? tag = some (.facc p v) → s.hostWriteWaits tag p false = false →
    ((s.pkg p).st = 0x02 → (s.pkg p).facc = none → ∃ t, exec (.faccWrite tag) s = .next t
      ∧ (t.pkg p).facc = some (v &&& 0x7F#128) ∧ (t.pkg p).st = (if v.getLsbD 0 then 0x03 else 0x0F) ∧ t.mem = s.mem)
    ∧ (((s.pkg p).st ≠ 0x02 ∨ (s.pkg p).facc ≠ none) → exec (.faccWrite tag) s = .next (s.dropMsg tag)))
  ∧ (∀ (s : State) (tag p off : Nat) (b : Byte), s.msg? tag = some (.bar0 p off [b]) → s.hostWriteWaits tag p false = false →
    (s.dark p = true → exec (.bar0Write tag) s = .next (s.dropMsg tag))
    ∧ (s.dark p = false → ∃ t, exec (.bar0Write tag) s = .next t ∧ t.mem = s.mem
      ∧ (0x40 ≤ off → off < 0x50 → (s.pkg p).facc = none → t.bar0Get p off = b &&& 1)
      ∧ (0x50 ≤ off → off < 0x58 → (s.pkg p).facc = none →
        t.bar0Get p off = b &&& (0x3FFFF#64).extractLsb' (8 * (off - 0x50)) 8)
      ∧ (0x40 ≤ off → off < 0x58 → (s.pkg p).facc ≠ none → t.bar0Get p off = s.bar0Get p off)
      ∧ (0x1000 ≤ off → off < 0x1100 → s.liveIn p = false →
        t.bar0Get p off = b &&& cxldecMask.extractLsb' (8 * ((off - 0x1000) % 32)) 8)
      ∧ (0x1000 ≤ off → off < 0x1100 → s.liveIn p = true → t.bar0Get p off = s.bar0Get p off)
      ∧ (0x2000 ≤ off → off < 0x200C → t.bar0Get p off = b) ∧ (0x2020 ≤ off → off < 0x2800 → t.bar0Get p off = b)
      ∧ (off = 0x200C → (t.pkg p).mbox.go = ((s.pkg p).mbox.go || b == 1))
      ∧ (0x10000 ≤ off → off < 0x10040 → t.bar0Get p off = b)
      ∧ (¬(0x40 ≤ off ∧ off < 0x58) → ¬(0x1000 ≤ off ∧ off < 0x1100) → ¬(0x2000 ≤ off ∧ off < 0x3000)
        → ¬(0x10000 ≤ off ∧ off < 0x10040) → t.pkg p = s.pkg p)))

/-- R18, R20, R356, R358, R449, R451, R452: the management mailbox answers a request with its status, or as busy, and
the power it reports is at most the cap; a DOE request is answered, but by a package without power; a hot die is
marked; a critical junction, a lost die and a fatal error of each cause put the package into STATE 0x0F, raise vector
0, note the cause and the ck for the dump, and leave no step of its engines to come. Where it rests on a choice of the
model: log 16, log 17, log 55, log 79. -/
def Obligations.ManagementAndFatalErrors : Prop :=
  (∀ (s : State) (p cmd : Nat) (i : Instr), (s.pkg p).mbox.go = true → (s.pkg p).mbox.cmd.toNat = cmd → s.dark p = false →
    ((cmd = 1 ∧ i = .telem p) ∨ (cmd = 2 ∧ i = .getcap p) ∨ (cmd = 3 ∧ i = .setcap p) ∨ (cmd = 4 ∧ i = .spdm p)
      ∨ (cmd = 5 ∧ i = .dumpinfo p)) →
    (let m := (s.pkg p).mbox
     ∃ t, exec i s = .next t ∧ t.mem = s.mem ∧ (t.pkg p).mbox.go = false ∧ (t.pkg p).mbox.rseq = m.seq
      ∧ (t.pkg p).mbox.rlen = BitVec.ofNat 32 (t.pkg p).mbox.rsp.length ∧ (t.pkg p).msix = (s.pkg p).msix ++ [1]
      ∧ (mailStatus (s.pkg p) ≠ 0 → (t.pkg p).mbox.status = BitVec.ofNat 32 (mailStatus (s.pkg p)) ∧ (t.pkg p).mbox.rsp = [])
      ∧ (mailStatus (s.pkg p) = 0 → s.choice 2 = 1 → (t.pkg p).mbox.status = 3)
      ∧ (mailStatus (s.pkg p) = 0 → s.choice 2 ≠ 1 → (t.pkg p).mbox.status = 0
        ∧ (cmd = 1 → (t.pkg p).mbox.rsp.length = 56 ∧ leNat ((t.pkg p).mbox.rsp.take 4) ≤ (s.pkg p).cap)
        ∧ (cmd = 2 → (t.pkg p).mbox.rsp = toLe 4 (s.pkg p).cap)
        ∧ (cmd = 3 → (t.pkg p).cap = leNat m.payload ∧ 1000 ≤ (t.pkg p).cap ∧ (t.pkg p).cap ≤ 10500)
        ∧ (cmd = 4 → (t.pkg p).mbox.rsp.length ≤ 2016)
        ∧ (cmd = 5 → (t.pkg p).mbox.rsp.length = 272))))
  ∧ (∀ (s : State) (tag p : Nat) (v : List Byte), s.msg? tag = some (.doe p v) →
    (s.dark p = false → ∃ t l, exec (.pcieDoeSpdmRequest tag) s = .next t ∧ t.hostAns = s.hostAns ++ [(tag, some l)] ∧ t.mem = s.mem)
    ∧ (s.dark p = true → exec (.pcieDoeSpdmRequest tag) s = .next { s.dropMsg tag with hostAns := s.hostAns ++ [(tag, none)] }))
  ∧ (∀ (s : State) (d : Nat), exec (.junctionWarning d) s = .next (s.setDie d { s.die d with hot := true }))
  ∧ (∀ (s : State) (d : Nat), (s.pkg (d / 16)).dump = none →
    (let stops := fun (i : Instr) (cause : Nat) => ∃ t m l, exec i s = .next t ∧ (t.pkg (d / 16)).st = 0x0F
       ∧ (∀ e ∈ t.agenda, ∀ k, State.engineOf e.2 = some k → k / 4096 ≠ d / 16)
       ∧ (t.pkg (d / 16)).dump = some (cause, m, s.time, l) ∧ (t.pkg (d / 16)).msix = (s.pkg (d / 16)).msix ++ [0]
     stops (.junctionCritical d) 1 ∧ stops (.dieLost d) 2
     ∧ ∀ cause, 1 ≤ cause → cause ≤ 5 → stops (.fatalError (d / 16) cause) cause))

/-- R347, R348, R433, R445, R447, R448, R454: a flit that comes in order is taken and acknowledged, and with the last
one of its packet the packet has come to its destination package; one out of order changes nothing that was received;
one that fails its check has every flit not acknowledged sent again, with the credits it returned, and one taken adds
its credit to those owed. An end-to-end acknowledgement ends what is kept up to it; what waits 131,072 ck is sent
again, 16 times at most, and then the package is lost and every request outstanding to it fails, as one sent later
does: a core that waits for a read takes the fault 0x21 with its address. A link out of service carries nothing. A
slice that fails often is retired and gives its buckets to its neighbours, and the seventeenth of a die is fatal.
After a restore the slots between CIDX and PIDX are claimed as new, and the releases kept are discarded. Where it
rests on a choice of the model: log 57, log 58, log 59, log 60, log 61. -/
def Obligations.LinksAndRecovery : Prop :=
  (∀ (s : State) (tag p l : Nat) (fseq ack : BitVec 12) (cred : BitVec 8) (f : Flit) (crc : BitVec 32),
    s.msg? tag = some (.flit p l fseq ack cred f crc) →
    ((s.spoke p l).up = false → exec (.spokeFlitReceive tag) s = .next (s.dropMsg tag))
    ∧ ((s.spoke p l).up = true → f.data.length = 56 → crc = flitCrc fseq ack cred f.data →
      ∃ t, exec (.spokeFlitReceive tag) s = .next t ∧ t.mem = s.mem
        ∧ ((f.last = false ∨ fseq ≠ (s.spoke p l).expect) → (t.spoke p l).replay = afterAck ack (s.spoke p l).replay)
        ∧ (fseq = (s.spoke p l).expect → (t.spoke p l).expect = (s.spoke p l).expect + 1
          ∧ (t.spoke p l).received = (if f.last then [] else (s.spoke p l).received ++ f.data)
          ∧ (f.last = false → (t.spoke p l).owed
            = (s.spoke p l).owed.modify (creditOf f ((s.spoke p l).received ++ f.data)) (· + 1))
          ∧ (f.last = true → pkgOf (leNat (((s.spoke p l).received ++ f.data).take 16) / 2 ^ 104) = p →
            ∀ a u, u ∈ (t.peer a p).unacked → u.tag = f.tag → u.here = true))
        ∧ (fseq ≠ (s.spoke p l).expect → (t.spoke p l).received = (s.spoke p l).received
          ∧ (t.spoke p l).expect = (s.spoke p l).expect))
    ∧ ((s.spoke p l).up = true → (f.data.length ≠ 56 ∨ crc ≠ flitCrc fseq ack cred f.data) →
      ∃ t, exec (.spokeFlitReceive tag) s = .next t ∧ t.pkgs = s.pkgs ∧ t.mem = s.mem
        ∧ (let e := s.farEnd p l
           let x := s.spoke e.1 e.2
           ∀ r ∈ x.replay, ∃ n, t.msg? n = some (.flit p l r.1 (x.expect - 1) r.2.1 r.2.2
             (flitCrc r.1 (x.expect - 1) r.2.1 r.2.2.data)))))
  ∧ (∀ (s : State) (p q seq : Nat), (s.peer p q).unacked.any (fun u => u.seq == seq) = true →
    ∃ t, exec (.endToEndAck p q seq) s = .next t
      ∧ (t.peer p q).unacked = (s.peer p q).unacked.filter (fun u => decide (seq < u.seq)) ∧ (t.peer q p).expect = seq + 1)
  ∧ (∀ (s : State) (p q : Nat), (s.peer p q).unacked.any (fun u => decide (u.sent + 131072 ≤ s.time.toNat ∧ u.sends < 16)) = true →
    ∃ t, exec (.endToEndResend p q) s = .next t
      ∧ (t.peer p q).unacked = (s.peer p q).unacked.map (fun u =>
        if u.sent + 131072 ≤ s.time.toNat ∧ u.sends < 16 then { u with sends := u.sends + 1, sent := s.time.toNat } else u))
  ∧ (∀ (s : State) (p l : Nat), l < 12 → ∃ t, exec (.linkOutOfService p l) s = .next t ∧ (t.spoke p l).up = false
      ∧ (t.spoke (s.farEnd p l).1 (s.farEnd p l).2).up = false ∧ t.mem = s.mem)
  ∧ (∀ (s : State) (p q : Nat), p ≠ q → (s.pkg p).lost.contains q = false →
    (s.peer p q).unacked.any (fun u => decide (16 ≤ u.sends)) = true →
    ∃ u : State, (u.pkg p).lost = (s.pkg p).lost ++ [q] ∧ (u.peer p q).unacked = [] ∧ u.msgs = s.msgs ∧ u.mem = s.mem
      ∧ exec (.packageLost p q) s = .next ((s.msgs.filter (fun m => outstandingAt u p q m.1 m.2)).foldl
          (fun s m => s.failMsg m.1 m.2) u))
  ∧ (∀ (s : State) (tag : Nat) (m : Msg) (w : Wire), wireOf s tag m = some w → s.toLost w = true →
    s.number tag m = s.failMsg tag m)
  ∧ (∀ (s : State) (tag c x va key : Nat) (f : Firing), (s.core c).run = some f →
    ∃ g e, ((s.failMsg tag (.read c true x va key)).core c).run = some g ∧ g.trap = some e ∧ e.cls = 0x21 ∧ e.addr = va
      ∧ e.time = s.time ∧ g.pc = f.pc ∧ ((s.failMsg tag (.read c true x va key)).core c).waits = (s.core c).waits - 1)
  ∧ (∀ (s : State) (d n : Nat), n < 144 → (s.die d).retired.contains n = false → s.failsOften d n = true →
    (16 ≤ (s.die d).retired.length → exec (.sliceRetirement d n) s = .next (s.fatal (d / 16) 4))
    ∧ ((s.die d).retired.length < 16 →
      (let u := s.drainHolds (sliceCore d n)
       let near := (gridNear n).filter (fun m => !(s.die d).retired.contains m)
       near ≠ [] → ∃ t, exec (.sliceRetirement d n) s = .next t ∧ (t.die d).retired = (u.die d).retired ++ [n] ∧ t.mem = u.mem
        ∧ ∀ b < 4096, (u.bucketEntry d b = n → t.bucketEntry d b ∈ near)
          ∧ (u.bucketEntry d b ≠ n → t.bucketEntry d b = u.bucketEntry d b))))
  ∧ (∀ (s : State) (d : Nat), s.Inv → ∃ t, exec (.restoreClaim d) s = .next t ∧ (t.die d).keptRel = []
      ∧ ∀ k ∈ s.descsOf d, s.planned t (.slotCount k) ∧ t.chan k = { Chan.reset with next := (s.desc k).cidx, restored := some (s.desc k).pidx })

/-- R356, R459: after a reset every byte of the package's bonded DRAM and SRAM is zero, with valid check bits, so that
every sync word, ring and table there reads as zero; L1 and L2 hold no lines, the TLBs, table caches and capability
caches hold no entries, every control register holds what it holds in State.reset (the defaults of ResetValues;
ctl.ACTFC and ctl.GRPTAB at the model's own choice, log 4); the CXL tier is not written; the package's spoke links are
up with nothing on them (log 56). The package then stands in STATE 0x02, or, where its firmware image fails its
verification, in 0x00 (which of the two is free, log 17). Where it rests on a choice of the model: log 17, log 48, log
56. -/
def Obligations.ResetOfAPackage : Prop :=
  ∀ (s : State) (p : Nat), s.Inv →
    ∃ t, exec (.reset p) s = .next t ∧ (t.pkg p).st = (if s.choice 2 = 0 then 0x02 else 0x00)
      ∧ (∀ k, resetZeroes p k = true → t.byte k = 0 ∧ t.isBad k = false)
      ∧ (∀ k, cxlBase ≤ k → k < sliceBase → k / 128 ∉ s.dirty → t.byte k = s.byte k)
      ∧ (∀ k, k / 4096 = p → (t.cas k).lines = [] ∧ (t.cas k).tlb = [] ∧ (t.cas k).caps = [] ∧ (t.cas k).grants = [])
      ∧ (∀ l < 12, (t.spoke p l).up = decide (s.choice 2 = 0) ∧ (t.spoke p l).queue = [] ∧ (t.spoke p l).replay = []
        ∧ (t.spoke p l).fseq = 0 ∧ (t.spoke p l).expect = 0)
      ∧ (∀ d, d / 16 = p → (t.die d).tables = []) ∧ (∀ l ∈ t.dirty, keyPkg (l * 128) ≠ p)
      ∧ (∀ (r : CtlReg) (c x i : Nat), pkgOf c = p → t.ctlGet r c x i = State.reset.ctlGet r c x i)

/-- R81, R82, R106, R179, R189, R316 to R318, R344, R377: the state after reset: memory outside the CXL tier reads
zero, and the control registers with a stated default hold it. Where it rests on a choice of the model: log 4. -/
def Obligations.ResetValues : Prop :=
  (∀ p, (State.reset.pkg p).st = 0x02 ∧ (State.reset.pkg p).facc = none ∧ (State.reset.pkg p).cap = 10500)
    ∧ (∀ k, k < cxlBase ∨ sliceBase ≤ k → State.reset.byte k = 0)
    ∧ ∀ c x i, (∀ n < 8, State.reset.ctlGet (.evsel n) c x i = 0 ∧ State.reset.ctlGet (.evcnt n) c x i = 0)
      ∧ State.reset.ctlGet .l1co c x i = 2 ∧ State.reset.ctlGet .wsarea c x i = 4 ∧ State.reset.ctlGet .inbmin c x i = 32
      ∧ State.reset.ctlGet .inbcap c x i = 512 ∧ State.reset.ctlGet .patience c x i = 8
      ∧ State.reset.ctlGet .cxwt c x i = 0x1010101010101010 ∧ State.reset.ctlGet .dspill c x i = 0xBFC000004
      ∧ State.reset.ctlGet .preemptwin c x i = 65536 ∧ State.reset.ctlGet .spawnq c x i = 16
      ∧ ∀ r ∈ [CtlReg.spown, .rctab, .trring, .trctl, .ticketw, .xmapbase, .xmapcnt, .ptroot, .detctl, .rgntab, .rgncnt,
          .dettab, .detn, .detstat, .captab, .capcnt, .syshdr, .fltch, .cxrun], State.reset.ctlGet r c x i = 0

/-- R126 to R130, R190, R192, R375, R397, R408, R437: a core that may issue runs the instruction that the three words
at its pc decode to (State.runsDecoded): the step is exec of it, with what an issue adds and the ck that passes. A
tandem issues so for its one block that has not ended; where younger blocks have begun ahead of one that has not
ended, it issues for that block, from the state without the younger, which are kept or squashed, or for the youngest
what a squash can discard, unless an older block of its member, or one that has yet to make a word its instruction
mentions, has not ended; what would give a member more versions than it holds does not issue. Where it rests on a
choice of the model: log 8, log 17, log 29, log 36, log 51, log 59. -/
def Obligations.StepRunsTheDecodedInstruction : Prop :=
  ∀ (s : State) (c : Nat) (rest : List Turn), s.sched = .core c :: rest →
    let u : State := { s with sched := rest, cur := c }
    let x := (u.nextBlock c).dropChoice
    let n := (u.nextBlock c).choice 3
    let ready := fun (y : State) (f : Firing) => (y.core c).run = some f ∧ y.blocked c = false ∧ y.breakpoint c = none
    (u.core c).memberOf = none → (u.core c).halted = false → (u.core c).haltReq = none →
    (∀ f, ready u f → f.tandem = none → u.runsDecoded c f (fun o => step s = .next (o.tick s)))
    ∧ ((u.tandem? c).isSome = true → n = 2 → step s = .next ((x.runAhead c).tick s))
    ∧ (∀ f t, (u.tandem? c).isSome = true → (x.core c).run = some f → f.tandem = some t →
      (n = 1 →
        (x.youngestWaits c f t = true → step s = .next (x.tick s))
        ∧ (x.youngestWaits c f t = false → ready x f → x.runsDecoded c f (fun o =>
          step s = .next ((if (t.behind.isSome && !plainStep x o c) || o.overFull c then x else o).tick s))))
      ∧ (n = 0 →
        (t.behind = none → ready x f →
          x.runsDecoded c f (fun o => step s = .next ((if o.overFull c then x else o).tick s)))
        ∧ (∀ j b, t.behind = some (j, b) →
          let z := x.rewind c f t j b
          (stopAsked x c = true → step s = .next ((z.planNow (.blockToken c)).tick s))
          ∧ (stopAsked x c = false → ∀ g, ready z g → z.runsDecoded c g (fun o =>
            step s = .next ((x.keepYounger z o c j b (z.nextMustBeOldest c)).tick s))))))

/-- R193, R203, R204, R281, R307, R408: the words that the manual writes out decode to what it says they are (the
worked words of files 09, 11, 12 and 21). Where it rests on a choice of the model: log 1. -/
def Obligations.WordsDecode : Prop :=
  decode (wordOf 0x000C0000 0x03000048 0x38300A00)
      = .ok (.fadd ⟨⟨⟨false, 3⟩, 0⟩, .f32, .w 12, .w 4, .imm 3, false, .rne, false, false⟩)
  ∧ decode (wordOf 0x00000038 0x02400030 0x69300700)
      = .ok (.st ⟨⟨⟨false, 3⟩, 0⟩, .n64, .w 9, .w 3, .w 0, false, .pkg, .rel, 0⟩)
  ∧ decode (wordOf 0x00000030 0x02400038 0x69300700) = .error .notLegal
  ∧ decode (wordOf 0x00000000 0x01C00038 0x68000F00)
      = .ok (.ld ⟨⟨⟨false, 0⟩, 0⟩, .q128, .w 7, .w 3, .imm 0, false, .core, .rlx, 0⟩)
  ∧ decode (wordOf 0x0024002C 0x01400020 0x78018900)
      = .ok (.amo .pfadd ⟨⟨⟨false, 0⟩, 0⟩, .bf16, .w 5, .w 2, .w 9, false, .die, .acqrel, 0⟩)
  ∧ decode (wordOf 0xFFEC0000 0x003FFFFF 0x80200000) = .ok (.br ⟨⟨false, 2⟩, 0⟩ 0xFFFFFFFFB)
  ∧ decode (wordOf 0x00A00000 0x06680000 0xB2000900)
      = .ok (.mxrun false false .bf16 ⟨⟨⟨false, 0⟩, 0⟩, .w 25, .sr .core, .w 40⟩)
  ∧ decode (wordOf 0x00A00000 0x06680000 0xB2001900)
      = .ok (.mxrun true false .bf16 ⟨⟨⟨false, 0⟩, 0⟩, .w 25, .sr .core, .w 40⟩)

/-- R194, R408: decode is the inverse of encode. The word of every well-formed instruction, with every operand at
every value its encoding admits, decodes to that instruction; and a word decodes to no instruction but the well-formed
one whose word it is. Where it rests on a choice of the model: log 109. -/
def Obligations.DecodeInvertsEncode : Prop :=
  (∀ (i : Instr) (w : IWord), i.wf = true → encode i = some w → decode w = .ok i)
  ∧ (∀ (w : IWord) (i : Instr), decode w = .ok i → i.wf = true ∧ encode i = some w)

/-- Every step keeps the invariant: the pod's memory and the host's rings stay lists in canonical form (the model's
own invariant of its memory, which its statements about bytes rest on). -/
def Obligations.StepKeepsInv : Prop :=
  ∀ s t : State, s.Inv → step s = .next t → t.Inv

/-- The state after reset has the invariant that every step keeps. Where it rests on a choice of the model: log 4. -/
def Obligations.ResetHasInv : Prop :=
  State.reset.Inv
end

