-- ==== Sys2Proof/Laws/State.lean ====
section
/-! SUPPORT. The small lemmas of the state: each field after each update, and the maps and accessors that read one. -/

namespace Sys2Proof.Machine

/-! ## Maps -/

theorem KMap.get_set_self {α : Type} (m : KMap α) (k : Nat) (v d : α) : (m.set k v).get k d = v := by
  induction m with
  | nil => simp [KMap.set, KMap.get]
  | cons e t ih =>
    obtain ⟨k', v'⟩ := e
    by_cases h : k = k' <;> simp [KMap.set, KMap.get, h, ih]

theorem KMap.get_set_other {α : Type} (m : KMap α) (k j : Nat) (v d : α) (h : j ≠ k) :
    (m.set k v).get j d = m.get j d := by
  induction m with
  | nil => simp [KMap.set, KMap.get, h]
  | cons e t ih =>
    obtain ⟨k', v'⟩ := e
    by_cases hk : k = k'
    · subst hk; simp [KMap.set, KMap.get, h]
    · by_cases hj : j = k' <;> simp [KMap.set, KMap.get, hk, hj, ih]

theorem KMap.find_set_self {α : Type} (m : KMap α) (k : Nat) (v : α) : (m.set k v).find k = some v := by
  induction m with
  | nil => simp [KMap.set, KMap.find]
  | cons e t ih =>
    obtain ⟨k', v'⟩ := e
    by_cases h : k = k' <;> simp [KMap.set, KMap.find, h, ih]

theorem KMap.find_set_other {α : Type} (m : KMap α) (k j : Nat) (v : α) (h : j ≠ k) :
    (m.set k v).find j = m.find j := by
  induction m with
  | nil => simp [KMap.set, KMap.find, h]
  | cons e t ih =>
    obtain ⟨k', v'⟩ := e
    by_cases hk : k = k'
    · subst hk; simp [KMap.set, KMap.find, h]
    · by_cases hj : j = k' <;> simp [KMap.set, KMap.find, hk, hj, ih]

theorem KMap.find_del_self {α : Type} (m : KMap α) (k : Nat) : (m.del k).find k = none := by
  induction m with
  | nil => rfl
  | cons e t ih =>
    obtain ⟨k', v'⟩ := e
    unfold KMap.del at ih ⊢
    by_cases h : k' = k
    · simpa [List.filter, h] using ih
    · have h' : ¬ k = k' := fun e => h e.symm
      simpa [List.filter, KMap.find, h, h'] using ih

theorem KMap.find_del_other {α : Type} (m : KMap α) (k j : Nat) (h : j ≠ k) : (m.del k).find j = m.find j := by
  induction m with
  | nil => rfl
  | cons e t ih =>
    obtain ⟨k', v'⟩ := e
    unfold KMap.del at ih ⊢
    by_cases hk : k' = k
    · subst hk; simpa [List.filter, KMap.find, h] using ih
    · by_cases hj : j = k'
      · simp [List.filter, KMap.find, hk, hj]
      · simpa [List.filter, KMap.find, hk, hj] using ih

/-! ## Fields after updates -/

/-! ### setCore -/

@[simp] theorem State.setCore_time (s : State) (c : Nat) (x : Core) : (s.setCore c x).time = s.time := rfl
@[simp] theorem State.setCore_mem (s : State) (c : Nat) (x : Core) : (s.setCore c x).mem = s.mem := rfl
@[simp] theorem State.setCore_changes (s : State) (c : Nat) (x : Core) : (s.setCore c x).changes = s.changes := rfl
@[simp] theorem State.setCore_bad (s : State) (c : Nat) (x : Core) : (s.setCore c x).bad = s.bad := rfl
@[simp] theorem State.setCore_silent (s : State) (c : Nat) (x : Core) : (s.setCore c x).silent = s.silent := rfl
@[simp] theorem State.setCore_dirty (s : State) (c : Nat) (x : Core) : (s.setCore c x).dirty = s.dirty := rfl
@[simp] theorem State.setCore_streamed (s : State) (c : Nat) (x : Core) : (s.setCore c x).streamed = s.streamed := rfl
@[simp] theorem State.setCore_syncs (s : State) (c : Nat) (x : Core) : (s.setCore c x).syncs = s.syncs := rfl
@[simp] theorem State.setCore_cores (s : State) (c : Nat) (x : Core) : (s.setCore c x).cores = s.cores.set c x := rfl
@[simp] theorem State.setCore_cass (s : State) (c : Nat) (x : Core) : (s.setCore c x).cass = s.cass := rfl
@[simp] theorem State.setCore_dies (s : State) (c : Nat) (x : Core) : (s.setCore c x).dies = s.dies := rfl
@[simp] theorem State.setCore_pkgs (s : State) (c : Nat) (x : Core) : (s.setCore c x).pkgs = s.pkgs := rfl
@[simp] theorem State.setCore_ctxs (s : State) (c : Nat) (x : Core) : (s.setCore c x).ctxs = s.ctxs := rfl
@[simp] theorem State.setCore_firings (s : State) (c : Nat) (x : Core) : (s.setCore c x).firings = s.firings := rfl
@[simp] theorem State.setCore_pend (s : State) (c : Nat) (x : Core) : (s.setCore c x).pend = s.pend := rfl
@[simp] theorem State.setCore_groups (s : State) (c : Nat) (x : Core) : (s.setCore c x).groups = s.groups := rfl
@[simp] theorem State.setCore_holds (s : State) (c : Nat) (x : Core) : (s.setCore c x).holds = s.holds := rfl
@[simp] theorem State.setCore_holdWait (s : State) (c : Nat) (x : Core) : (s.setCore c x).holdWait = s.holdWait := rfl
@[simp] theorem State.setCore_chans (s : State) (c : Nat) (x : Core) : (s.setCore c x).chans = s.chans := rfl
@[simp] theorem State.setCore_notices (s : State) (c : Nat) (x : Core) : (s.setCore c x).notices = s.notices := rfl
@[simp] theorem State.setCore_msgs (s : State) (c : Nat) (x : Core) : (s.setCore c x).msgs = s.msgs := rfl
@[simp] theorem State.setCore_agenda (s : State) (c : Nat) (x : Core) : (s.setCore c x).agenda = s.agenda := rfl
@[simp] theorem State.setCore_sched (s : State) (c : Nat) (x : Core) : (s.setCore c x).sched = s.sched := rfl
@[simp] theorem State.setCore_choices (s : State) (c : Nat) (x : Core) : (s.setCore c x).choices = s.choices := rfl
@[simp] theorem State.setCore_fresh (s : State) (c : Nat) (x : Core) : (s.setCore c x).fresh = s.fresh := rfl
@[simp] theorem State.setCore_nextTag (s : State) (c : Nat) (x : Core) : (s.setCore c x).nextTag = s.nextTag := rfl
@[simp] theorem State.setCore_host (s : State) (c : Nat) (x : Core) : (s.setCore c x).host = s.host := rfl
@[simp] theorem State.setCore_hostAns (s : State) (c : Nat) (x : Core) : (s.setCore c x).hostAns = s.hostAns := rfl
@[simp] theorem State.setCore_cur (s : State) (c : Nat) (x : Core) : (s.setCore c x).cur = s.cur := rfl

/-! ### setCas -/

@[simp] theorem State.setCas_time (s : State) (k : Nat) (x : Cas) : (s.setCas k x).time = s.time := rfl
@[simp] theorem State.setCas_mem (s : State) (k : Nat) (x : Cas) : (s.setCas k x).mem = s.mem := rfl
@[simp] theorem State.setCas_changes (s : State) (k : Nat) (x : Cas) : (s.setCas k x).changes = s.changes := rfl
@[simp] theorem State.setCas_bad (s : State) (k : Nat) (x : Cas) : (s.setCas k x).bad = s.bad := rfl
@[simp] theorem State.setCas_silent (s : State) (k : Nat) (x : Cas) : (s.setCas k x).silent = s.silent := rfl
@[simp] theorem State.setCas_dirty (s : State) (k : Nat) (x : Cas) : (s.setCas k x).dirty = s.dirty := rfl
@[simp] theorem State.setCas_streamed (s : State) (k : Nat) (x : Cas) : (s.setCas k x).streamed = s.streamed := rfl
@[simp] theorem State.setCas_syncs (s : State) (k : Nat) (x : Cas) : (s.setCas k x).syncs = s.syncs := rfl
@[simp] theorem State.setCas_cores (s : State) (k : Nat) (x : Cas) : (s.setCas k x).cores = s.cores := rfl
@[simp] theorem State.setCas_cass (s : State) (k : Nat) (x : Cas) : (s.setCas k x).cass = s.cass.set k x := rfl
@[simp] theorem State.setCas_dies (s : State) (k : Nat) (x : Cas) : (s.setCas k x).dies = s.dies := rfl
@[simp] theorem State.setCas_pkgs (s : State) (k : Nat) (x : Cas) : (s.setCas k x).pkgs = s.pkgs := rfl
@[simp] theorem State.setCas_ctxs (s : State) (k : Nat) (x : Cas) : (s.setCas k x).ctxs = s.ctxs := rfl
@[simp] theorem State.setCas_firings (s : State) (k : Nat) (x : Cas) : (s.setCas k x).firings = s.firings := rfl
@[simp] theorem State.setCas_pend (s : State) (k : Nat) (x : Cas) : (s.setCas k x).pend = s.pend := rfl
@[simp] theorem State.setCas_groups (s : State) (k : Nat) (x : Cas) : (s.setCas k x).groups = s.groups := rfl
@[simp] theorem State.setCas_holds (s : State) (k : Nat) (x : Cas) : (s.setCas k x).holds = s.holds := rfl
@[simp] theorem State.setCas_holdWait (s : State) (k : Nat) (x : Cas) : (s.setCas k x).holdWait = s.holdWait := rfl
@[simp] theorem State.setCas_chans (s : State) (k : Nat) (x : Cas) : (s.setCas k x).chans = s.chans := rfl
@[simp] theorem State.setCas_notices (s : State) (k : Nat) (x : Cas) : (s.setCas k x).notices = s.notices := rfl
@[simp] theorem State.setCas_msgs (s : State) (k : Nat) (x : Cas) : (s.setCas k x).msgs = s.msgs := rfl
@[simp] theorem State.setCas_agenda (s : State) (k : Nat) (x : Cas) : (s.setCas k x).agenda = s.agenda := rfl
@[simp] theorem State.setCas_sched (s : State) (k : Nat) (x : Cas) : (s.setCas k x).sched = s.sched := rfl
@[simp] theorem State.setCas_choices (s : State) (k : Nat) (x : Cas) : (s.setCas k x).choices = s.choices := rfl
@[simp] theorem State.setCas_fresh (s : State) (k : Nat) (x : Cas) : (s.setCas k x).fresh = s.fresh := rfl
@[simp] theorem State.setCas_nextTag (s : State) (k : Nat) (x : Cas) : (s.setCas k x).nextTag = s.nextTag := rfl
@[simp] theorem State.setCas_host (s : State) (k : Nat) (x : Cas) : (s.setCas k x).host = s.host := rfl
@[simp] theorem State.setCas_hostAns (s : State) (k : Nat) (x : Cas) : (s.setCas k x).hostAns = s.hostAns := rfl
@[simp] theorem State.setCas_cur (s : State) (k : Nat) (x : Cas) : (s.setCas k x).cur = s.cur := rfl

/-! ### setDie -/

@[simp] theorem State.setDie_time (s : State) (k : Nat) (x : Die) : (s.setDie k x).time = s.time := rfl
@[simp] theorem State.setDie_mem (s : State) (k : Nat) (x : Die) : (s.setDie k x).mem = s.mem := rfl
@[simp] theorem State.setDie_changes (s : State) (k : Nat) (x : Die) : (s.setDie k x).changes = s.changes := rfl
@[simp] theorem State.setDie_bad (s : State) (k : Nat) (x : Die) : (s.setDie k x).bad = s.bad := rfl
@[simp] theorem State.setDie_silent (s : State) (k : Nat) (x : Die) : (s.setDie k x).silent = s.silent := rfl
@[simp] theorem State.setDie_dirty (s : State) (k : Nat) (x : Die) : (s.setDie k x).dirty = s.dirty := rfl
@[simp] theorem State.setDie_streamed (s : State) (k : Nat) (x : Die) : (s.setDie k x).streamed = s.streamed := rfl
@[simp] theorem State.setDie_syncs (s : State) (k : Nat) (x : Die) : (s.setDie k x).syncs = s.syncs := rfl
@[simp] theorem State.setDie_cores (s : State) (k : Nat) (x : Die) : (s.setDie k x).cores = s.cores := rfl
@[simp] theorem State.setDie_cass (s : State) (k : Nat) (x : Die) : (s.setDie k x).cass = s.cass := rfl
@[simp] theorem State.setDie_dies (s : State) (k : Nat) (x : Die) : (s.setDie k x).dies = s.dies.set k x := rfl
@[simp] theorem State.setDie_pkgs (s : State) (k : Nat) (x : Die) : (s.setDie k x).pkgs = s.pkgs := rfl
@[simp] theorem State.setDie_ctxs (s : State) (k : Nat) (x : Die) : (s.setDie k x).ctxs = s.ctxs := rfl
@[simp] theorem State.setDie_firings (s : State) (k : Nat) (x : Die) : (s.setDie k x).firings = s.firings := rfl
@[simp] theorem State.setDie_pend (s : State) (k : Nat) (x : Die) : (s.setDie k x).pend = s.pend := rfl
@[simp] theorem State.setDie_groups (s : State) (k : Nat) (x : Die) : (s.setDie k x).groups = s.groups := rfl
@[simp] theorem State.setDie_holds (s : State) (k : Nat) (x : Die) : (s.setDie k x).holds = s.holds := rfl
@[simp] theorem State.setDie_holdWait (s : State) (k : Nat) (x : Die) : (s.setDie k x).holdWait = s.holdWait := rfl
@[simp] theorem State.setDie_chans (s : State) (k : Nat) (x : Die) : (s.setDie k x).chans = s.chans := rfl
@[simp] theorem State.setDie_notices (s : State) (k : Nat) (x : Die) : (s.setDie k x).notices = s.notices := rfl
@[simp] theorem State.setDie_msgs (s : State) (k : Nat) (x : Die) : (s.setDie k x).msgs = s.msgs := rfl
@[simp] theorem State.setDie_agenda (s : State) (k : Nat) (x : Die) : (s.setDie k x).agenda = s.agenda := rfl
@[simp] theorem State.setDie_sched (s : State) (k : Nat) (x : Die) : (s.setDie k x).sched = s.sched := rfl
@[simp] theorem State.setDie_choices (s : State) (k : Nat) (x : Die) : (s.setDie k x).choices = s.choices := rfl
@[simp] theorem State.setDie_fresh (s : State) (k : Nat) (x : Die) : (s.setDie k x).fresh = s.fresh := rfl
@[simp] theorem State.setDie_nextTag (s : State) (k : Nat) (x : Die) : (s.setDie k x).nextTag = s.nextTag := rfl
@[simp] theorem State.setDie_host (s : State) (k : Nat) (x : Die) : (s.setDie k x).host = s.host := rfl
@[simp] theorem State.setDie_hostAns (s : State) (k : Nat) (x : Die) : (s.setDie k x).hostAns = s.hostAns := rfl
@[simp] theorem State.setDie_cur (s : State) (k : Nat) (x : Die) : (s.setDie k x).cur = s.cur := rfl

/-! ### setPkg -/

@[simp] theorem State.setPkg_time (s : State) (k : Nat) (x : Pkg) : (s.setPkg k x).time = s.time := rfl
@[simp] theorem State.setPkg_mem (s : State) (k : Nat) (x : Pkg) : (s.setPkg k x).mem = s.mem := rfl
@[simp] theorem State.setPkg_changes (s : State) (k : Nat) (x : Pkg) : (s.setPkg k x).changes = s.changes := rfl
@[simp] theorem State.setPkg_bad (s : State) (k : Nat) (x : Pkg) : (s.setPkg k x).bad = s.bad := rfl
@[simp] theorem State.setPkg_silent (s : State) (k : Nat) (x : Pkg) : (s.setPkg k x).silent = s.silent := rfl
@[simp] theorem State.setPkg_dirty (s : State) (k : Nat) (x : Pkg) : (s.setPkg k x).dirty = s.dirty := rfl
@[simp] theorem State.setPkg_streamed (s : State) (k : Nat) (x : Pkg) : (s.setPkg k x).streamed = s.streamed := rfl
@[simp] theorem State.setPkg_syncs (s : State) (k : Nat) (x : Pkg) : (s.setPkg k x).syncs = s.syncs := rfl
@[simp] theorem State.setPkg_cores (s : State) (k : Nat) (x : Pkg) : (s.setPkg k x).cores = s.cores := rfl
@[simp] theorem State.setPkg_cass (s : State) (k : Nat) (x : Pkg) : (s.setPkg k x).cass = s.cass := rfl
@[simp] theorem State.setPkg_dies (s : State) (k : Nat) (x : Pkg) : (s.setPkg k x).dies = s.dies := rfl
@[simp] theorem State.setPkg_pkgs (s : State) (k : Nat) (x : Pkg) : (s.setPkg k x).pkgs = s.pkgs.set k x := rfl
@[simp] theorem State.setPkg_ctxs (s : State) (k : Nat) (x : Pkg) : (s.setPkg k x).ctxs = s.ctxs := rfl
@[simp] theorem State.setPkg_firings (s : State) (k : Nat) (x : Pkg) : (s.setPkg k x).firings = s.firings := rfl
@[simp] theorem State.setPkg_pend (s : State) (k : Nat) (x : Pkg) : (s.setPkg k x).pend = s.pend := rfl
@[simp] theorem State.setPkg_groups (s : State) (k : Nat) (x : Pkg) : (s.setPkg k x).groups = s.groups := rfl
@[simp] theorem State.setPkg_holds (s : State) (k : Nat) (x : Pkg) : (s.setPkg k x).holds = s.holds := rfl
@[simp] theorem State.setPkg_holdWait (s : State) (k : Nat) (x : Pkg) : (s.setPkg k x).holdWait = s.holdWait := rfl
@[simp] theorem State.setPkg_chans (s : State) (k : Nat) (x : Pkg) : (s.setPkg k x).chans = s.chans := rfl
@[simp] theorem State.setPkg_notices (s : State) (k : Nat) (x : Pkg) : (s.setPkg k x).notices = s.notices := rfl
@[simp] theorem State.setPkg_msgs (s : State) (k : Nat) (x : Pkg) : (s.setPkg k x).msgs = s.msgs := rfl
@[simp] theorem State.setPkg_agenda (s : State) (k : Nat) (x : Pkg) : (s.setPkg k x).agenda = s.agenda := rfl
@[simp] theorem State.setPkg_sched (s : State) (k : Nat) (x : Pkg) : (s.setPkg k x).sched = s.sched := rfl
@[simp] theorem State.setPkg_choices (s : State) (k : Nat) (x : Pkg) : (s.setPkg k x).choices = s.choices := rfl
@[simp] theorem State.setPkg_fresh (s : State) (k : Nat) (x : Pkg) : (s.setPkg k x).fresh = s.fresh := rfl
@[simp] theorem State.setPkg_nextTag (s : State) (k : Nat) (x : Pkg) : (s.setPkg k x).nextTag = s.nextTag := rfl
@[simp] theorem State.setPkg_host (s : State) (k : Nat) (x : Pkg) : (s.setPkg k x).host = s.host := rfl
@[simp] theorem State.setPkg_hostAns (s : State) (k : Nat) (x : Pkg) : (s.setPkg k x).hostAns = s.hostAns := rfl
@[simp] theorem State.setPkg_cur (s : State) (k : Nat) (x : Pkg) : (s.setPkg k x).cur = s.cur := rfl

/-! ### setCtx -/

@[simp] theorem State.setCtx_time (s : State) (k : Nat) (x : Ctx) : (s.setCtx k x).time = s.time := rfl
@[simp] theorem State.setCtx_mem (s : State) (k : Nat) (x : Ctx) : (s.setCtx k x).mem = s.mem := rfl
@[simp] theorem State.setCtx_changes (s : State) (k : Nat) (x : Ctx) : (s.setCtx k x).changes = s.changes := rfl
@[simp] theorem State.setCtx_bad (s : State) (k : Nat) (x : Ctx) : (s.setCtx k x).bad = s.bad := rfl
@[simp] theorem State.setCtx_silent (s : State) (k : Nat) (x : Ctx) : (s.setCtx k x).silent = s.silent := rfl
@[simp] theorem State.setCtx_dirty (s : State) (k : Nat) (x : Ctx) : (s.setCtx k x).dirty = s.dirty := rfl
@[simp] theorem State.setCtx_streamed (s : State) (k : Nat) (x : Ctx) : (s.setCtx k x).streamed = s.streamed := rfl
@[simp] theorem State.setCtx_syncs (s : State) (k : Nat) (x : Ctx) : (s.setCtx k x).syncs = s.syncs := rfl
@[simp] theorem State.setCtx_cores (s : State) (k : Nat) (x : Ctx) : (s.setCtx k x).cores = s.cores := rfl
@[simp] theorem State.setCtx_cass (s : State) (k : Nat) (x : Ctx) : (s.setCtx k x).cass = s.cass := rfl
@[simp] theorem State.setCtx_dies (s : State) (k : Nat) (x : Ctx) : (s.setCtx k x).dies = s.dies := rfl
@[simp] theorem State.setCtx_pkgs (s : State) (k : Nat) (x : Ctx) : (s.setCtx k x).pkgs = s.pkgs := rfl
@[simp] theorem State.setCtx_ctxs (s : State) (k : Nat) (x : Ctx) : (s.setCtx k x).ctxs = s.ctxs.set k x := rfl
@[simp] theorem State.setCtx_firings (s : State) (k : Nat) (x : Ctx) : (s.setCtx k x).firings = s.firings := rfl
@[simp] theorem State.setCtx_pend (s : State) (k : Nat) (x : Ctx) : (s.setCtx k x).pend = s.pend := rfl
@[simp] theorem State.setCtx_groups (s : State) (k : Nat) (x : Ctx) : (s.setCtx k x).groups = s.groups := rfl
@[simp] theorem State.setCtx_holds (s : State) (k : Nat) (x : Ctx) : (s.setCtx k x).holds = s.holds := rfl
@[simp] theorem State.setCtx_holdWait (s : State) (k : Nat) (x : Ctx) : (s.setCtx k x).holdWait = s.holdWait := rfl
@[simp] theorem State.setCtx_chans (s : State) (k : Nat) (x : Ctx) : (s.setCtx k x).chans = s.chans := rfl
@[simp] theorem State.setCtx_notices (s : State) (k : Nat) (x : Ctx) : (s.setCtx k x).notices = s.notices := rfl
@[simp] theorem State.setCtx_msgs (s : State) (k : Nat) (x : Ctx) : (s.setCtx k x).msgs = s.msgs := rfl
@[simp] theorem State.setCtx_agenda (s : State) (k : Nat) (x : Ctx) : (s.setCtx k x).agenda = s.agenda := rfl
@[simp] theorem State.setCtx_sched (s : State) (k : Nat) (x : Ctx) : (s.setCtx k x).sched = s.sched := rfl
@[simp] theorem State.setCtx_choices (s : State) (k : Nat) (x : Ctx) : (s.setCtx k x).choices = s.choices := rfl
@[simp] theorem State.setCtx_fresh (s : State) (k : Nat) (x : Ctx) : (s.setCtx k x).fresh = s.fresh := rfl
@[simp] theorem State.setCtx_nextTag (s : State) (k : Nat) (x : Ctx) : (s.setCtx k x).nextTag = s.nextTag := rfl
@[simp] theorem State.setCtx_host (s : State) (k : Nat) (x : Ctx) : (s.setCtx k x).host = s.host := rfl
@[simp] theorem State.setCtx_hostAns (s : State) (k : Nat) (x : Ctx) : (s.setCtx k x).hostAns = s.hostAns := rfl
@[simp] theorem State.setCtx_cur (s : State) (k : Nat) (x : Ctx) : (s.setCtx k x).cur = s.cur := rfl

/-! ### setFir -/

@[simp] theorem State.setFir_time (s : State) (f : Firing) : (s.setFir f).time = s.time := rfl
@[simp] theorem State.setFir_mem (s : State) (f : Firing) : (s.setFir f).mem = s.mem := rfl
@[simp] theorem State.setFir_changes (s : State) (f : Firing) : (s.setFir f).changes = s.changes := rfl
@[simp] theorem State.setFir_bad (s : State) (f : Firing) : (s.setFir f).bad = s.bad := rfl
@[simp] theorem State.setFir_silent (s : State) (f : Firing) : (s.setFir f).silent = s.silent := rfl
@[simp] theorem State.setFir_dirty (s : State) (f : Firing) : (s.setFir f).dirty = s.dirty := rfl
@[simp] theorem State.setFir_streamed (s : State) (f : Firing) : (s.setFir f).streamed = s.streamed := rfl
@[simp] theorem State.setFir_syncs (s : State) (f : Firing) : (s.setFir f).syncs = s.syncs := rfl
@[simp] theorem State.setFir_cores (s : State) (f : Firing) : (s.setFir f).cores = s.cores := rfl
@[simp] theorem State.setFir_cass (s : State) (f : Firing) : (s.setFir f).cass = s.cass := rfl
@[simp] theorem State.setFir_dies (s : State) (f : Firing) : (s.setFir f).dies = s.dies := rfl
@[simp] theorem State.setFir_pkgs (s : State) (f : Firing) : (s.setFir f).pkgs = s.pkgs := rfl
@[simp] theorem State.setFir_ctxs (s : State) (f : Firing) : (s.setFir f).ctxs = s.ctxs := rfl
@[simp] theorem State.setFir_firings (s : State) (f : Firing) : (s.setFir f).firings = s.firings.set f.key f := rfl
@[simp] theorem State.setFir_pend (s : State) (f : Firing) : (s.setFir f).pend = s.pend := rfl
@[simp] theorem State.setFir_groups (s : State) (f : Firing) : (s.setFir f).groups = s.groups := rfl
@[simp] theorem State.setFir_holds (s : State) (f : Firing) : (s.setFir f).holds = s.holds := rfl
@[simp] theorem State.setFir_holdWait (s : State) (f : Firing) : (s.setFir f).holdWait = s.holdWait := rfl
@[simp] theorem State.setFir_chans (s : State) (f : Firing) : (s.setFir f).chans = s.chans := rfl
@[simp] theorem State.setFir_notices (s : State) (f : Firing) : (s.setFir f).notices = s.notices := rfl
@[simp] theorem State.setFir_msgs (s : State) (f : Firing) : (s.setFir f).msgs = s.msgs := rfl
@[simp] theorem State.setFir_agenda (s : State) (f : Firing) : (s.setFir f).agenda = s.agenda := rfl
@[simp] theorem State.setFir_sched (s : State) (f : Firing) : (s.setFir f).sched = s.sched := rfl
@[simp] theorem State.setFir_choices (s : State) (f : Firing) : (s.setFir f).choices = s.choices := rfl
@[simp] theorem State.setFir_fresh (s : State) (f : Firing) : (s.setFir f).fresh = s.fresh := rfl
@[simp] theorem State.setFir_nextTag (s : State) (f : Firing) : (s.setFir f).nextTag = s.nextTag := rfl
@[simp] theorem State.setFir_host (s : State) (f : Firing) : (s.setFir f).host = s.host := rfl
@[simp] theorem State.setFir_hostAns (s : State) (f : Firing) : (s.setFir f).hostAns = s.hostAns := rfl
@[simp] theorem State.setFir_cur (s : State) (f : Firing) : (s.setFir f).cur = s.cur := rfl

/-! ### setMsg -/

@[simp] theorem State.setMsg_time (s : State) (t : Nat) (m : Msg) : (s.setMsg t m).time = s.time := rfl
@[simp] theorem State.setMsg_mem (s : State) (t : Nat) (m : Msg) : (s.setMsg t m).mem = s.mem := rfl
@[simp] theorem State.setMsg_changes (s : State) (t : Nat) (m : Msg) : (s.setMsg t m).changes = s.changes := rfl
@[simp] theorem State.setMsg_bad (s : State) (t : Nat) (m : Msg) : (s.setMsg t m).bad = s.bad := rfl
@[simp] theorem State.setMsg_silent (s : State) (t : Nat) (m : Msg) : (s.setMsg t m).silent = s.silent := rfl
@[simp] theorem State.setMsg_dirty (s : State) (t : Nat) (m : Msg) : (s.setMsg t m).dirty = s.dirty := rfl
@[simp] theorem State.setMsg_streamed (s : State) (t : Nat) (m : Msg) : (s.setMsg t m).streamed = s.streamed := rfl
@[simp] theorem State.setMsg_syncs (s : State) (t : Nat) (m : Msg) : (s.setMsg t m).syncs = s.syncs := rfl
@[simp] theorem State.setMsg_cores (s : State) (t : Nat) (m : Msg) : (s.setMsg t m).cores = s.cores := rfl
@[simp] theorem State.setMsg_cass (s : State) (t : Nat) (m : Msg) : (s.setMsg t m).cass = s.cass := rfl
@[simp] theorem State.setMsg_dies (s : State) (t : Nat) (m : Msg) : (s.setMsg t m).dies = s.dies := rfl
@[simp] theorem State.setMsg_pkgs (s : State) (t : Nat) (m : Msg) : (s.setMsg t m).pkgs = s.pkgs := rfl
@[simp] theorem State.setMsg_ctxs (s : State) (t : Nat) (m : Msg) : (s.setMsg t m).ctxs = s.ctxs := rfl
@[simp] theorem State.setMsg_firings (s : State) (t : Nat) (m : Msg) : (s.setMsg t m).firings = s.firings := rfl
@[simp] theorem State.setMsg_pend (s : State) (t : Nat) (m : Msg) : (s.setMsg t m).pend = s.pend := rfl
@[simp] theorem State.setMsg_groups (s : State) (t : Nat) (m : Msg) : (s.setMsg t m).groups = s.groups := rfl
@[simp] theorem State.setMsg_holds (s : State) (t : Nat) (m : Msg) : (s.setMsg t m).holds = s.holds := rfl
@[simp] theorem State.setMsg_holdWait (s : State) (t : Nat) (m : Msg) : (s.setMsg t m).holdWait = s.holdWait := rfl
@[simp] theorem State.setMsg_chans (s : State) (t : Nat) (m : Msg) : (s.setMsg t m).chans = s.chans := rfl
@[simp] theorem State.setMsg_notices (s : State) (t : Nat) (m : Msg) : (s.setMsg t m).notices = s.notices := rfl
@[simp] theorem State.setMsg_msgs (s : State) (t : Nat) (m : Msg) : (s.setMsg t m).msgs = s.msgs.set t m := rfl
@[simp] theorem State.setMsg_agenda (s : State) (t : Nat) (m : Msg) : (s.setMsg t m).agenda = s.agenda := rfl
@[simp] theorem State.setMsg_sched (s : State) (t : Nat) (m : Msg) : (s.setMsg t m).sched = s.sched := rfl
@[simp] theorem State.setMsg_choices (s : State) (t : Nat) (m : Msg) : (s.setMsg t m).choices = s.choices := rfl
@[simp] theorem State.setMsg_fresh (s : State) (t : Nat) (m : Msg) : (s.setMsg t m).fresh = s.fresh := rfl
@[simp] theorem State.setMsg_nextTag (s : State) (t : Nat) (m : Msg) : (s.setMsg t m).nextTag = s.nextTag := rfl
@[simp] theorem State.setMsg_host (s : State) (t : Nat) (m : Msg) : (s.setMsg t m).host = s.host := rfl
@[simp] theorem State.setMsg_hostAns (s : State) (t : Nat) (m : Msg) : (s.setMsg t m).hostAns = s.hostAns := rfl
@[simp] theorem State.setMsg_cur (s : State) (t : Nat) (m : Msg) : (s.setMsg t m).cur = s.cur := rfl

/-! ### dropMsg -/

@[simp] theorem State.dropMsg_time (s : State) (t : Nat) : (s.dropMsg t).time = s.time := rfl
@[simp] theorem State.dropMsg_mem (s : State) (t : Nat) : (s.dropMsg t).mem = s.mem := rfl
@[simp] theorem State.dropMsg_changes (s : State) (t : Nat) : (s.dropMsg t).changes = s.changes := rfl
@[simp] theorem State.dropMsg_bad (s : State) (t : Nat) : (s.dropMsg t).bad = s.bad := rfl
@[simp] theorem State.dropMsg_silent (s : State) (t : Nat) : (s.dropMsg t).silent = s.silent := rfl
@[simp] theorem State.dropMsg_dirty (s : State) (t : Nat) : (s.dropMsg t).dirty = s.dirty := rfl
@[simp] theorem State.dropMsg_streamed (s : State) (t : Nat) : (s.dropMsg t).streamed = s.streamed := rfl
@[simp] theorem State.dropMsg_syncs (s : State) (t : Nat) : (s.dropMsg t).syncs = s.syncs := rfl
@[simp] theorem State.dropMsg_cores (s : State) (t : Nat) : (s.dropMsg t).cores = s.cores := rfl
@[simp] theorem State.dropMsg_cass (s : State) (t : Nat) : (s.dropMsg t).cass = s.cass := rfl
@[simp] theorem State.dropMsg_dies (s : State) (t : Nat) : (s.dropMsg t).dies = s.dies := rfl
@[simp] theorem State.dropMsg_pkgs (s : State) (t : Nat) : (s.dropMsg t).pkgs = s.pkgs := rfl
@[simp] theorem State.dropMsg_ctxs (s : State) (t : Nat) : (s.dropMsg t).ctxs = s.ctxs := rfl
@[simp] theorem State.dropMsg_firings (s : State) (t : Nat) : (s.dropMsg t).firings = s.firings := rfl
@[simp] theorem State.dropMsg_pend (s : State) (t : Nat) : (s.dropMsg t).pend = s.pend := rfl
@[simp] theorem State.dropMsg_groups (s : State) (t : Nat) : (s.dropMsg t).groups = s.groups := rfl
@[simp] theorem State.dropMsg_holds (s : State) (t : Nat) : (s.dropMsg t).holds = s.holds := rfl
@[simp] theorem State.dropMsg_holdWait (s : State) (t : Nat) : (s.dropMsg t).holdWait = s.holdWait := rfl
@[simp] theorem State.dropMsg_chans (s : State) (t : Nat) : (s.dropMsg t).chans = s.chans := rfl
@[simp] theorem State.dropMsg_notices (s : State) (t : Nat) : (s.dropMsg t).notices = s.notices := rfl
@[simp] theorem State.dropMsg_msgs (s : State) (t : Nat) : (s.dropMsg t).msgs = s.msgs.del t := rfl
@[simp] theorem State.dropMsg_agenda (s : State) (t : Nat) : (s.dropMsg t).agenda = s.agenda := rfl
@[simp] theorem State.dropMsg_sched (s : State) (t : Nat) : (s.dropMsg t).sched = s.sched := rfl
@[simp] theorem State.dropMsg_choices (s : State) (t : Nat) : (s.dropMsg t).choices = s.choices := rfl
@[simp] theorem State.dropMsg_fresh (s : State) (t : Nat) : (s.dropMsg t).fresh = s.fresh := rfl
@[simp] theorem State.dropMsg_nextTag (s : State) (t : Nat) : (s.dropMsg t).nextTag = s.nextTag := rfl
@[simp] theorem State.dropMsg_host (s : State) (t : Nat) : (s.dropMsg t).host = s.host := rfl
@[simp] theorem State.dropMsg_hostAns (s : State) (t : Nat) : (s.dropMsg t).hostAns = s.hostAns := rfl
@[simp] theorem State.dropMsg_cur (s : State) (t : Nat) : (s.dropMsg t).cur = s.cur := rfl

/-! ### plan -/

@[simp] theorem State.plan_time (s : State) (d : Nat) (i : Instr) : (s.plan d i).time = s.time := rfl
@[simp] theorem State.plan_mem (s : State) (d : Nat) (i : Instr) : (s.plan d i).mem = s.mem := rfl
@[simp] theorem State.plan_changes (s : State) (d : Nat) (i : Instr) : (s.plan d i).changes = s.changes := rfl
@[simp] theorem State.plan_bad (s : State) (d : Nat) (i : Instr) : (s.plan d i).bad = s.bad := rfl
@[simp] theorem State.plan_silent (s : State) (d : Nat) (i : Instr) : (s.plan d i).silent = s.silent := rfl
@[simp] theorem State.plan_dirty (s : State) (d : Nat) (i : Instr) : (s.plan d i).dirty = s.dirty := rfl
@[simp] theorem State.plan_streamed (s : State) (d : Nat) (i : Instr) : (s.plan d i).streamed = s.streamed := rfl
@[simp] theorem State.plan_syncs (s : State) (d : Nat) (i : Instr) : (s.plan d i).syncs = s.syncs := rfl
@[simp] theorem State.plan_cores (s : State) (d : Nat) (i : Instr) : (s.plan d i).cores = s.cores := rfl
@[simp] theorem State.plan_cass (s : State) (d : Nat) (i : Instr) : (s.plan d i).cass = s.cass := rfl
@[simp] theorem State.plan_dies (s : State) (d : Nat) (i : Instr) : (s.plan d i).dies = s.dies := rfl
@[simp] theorem State.plan_pkgs (s : State) (d : Nat) (i : Instr) : (s.plan d i).pkgs = s.pkgs := rfl
@[simp] theorem State.plan_ctxs (s : State) (d : Nat) (i : Instr) : (s.plan d i).ctxs = s.ctxs := rfl
@[simp] theorem State.plan_firings (s : State) (d : Nat) (i : Instr) : (s.plan d i).firings = s.firings := rfl
@[simp] theorem State.plan_pend (s : State) (d : Nat) (i : Instr) : (s.plan d i).pend = s.pend := rfl
@[simp] theorem State.plan_groups (s : State) (d : Nat) (i : Instr) : (s.plan d i).groups = s.groups := rfl
@[simp] theorem State.plan_holds (s : State) (d : Nat) (i : Instr) : (s.plan d i).holds = s.holds := rfl
@[simp] theorem State.plan_holdWait (s : State) (d : Nat) (i : Instr) : (s.plan d i).holdWait = s.holdWait := rfl
@[simp] theorem State.plan_chans (s : State) (d : Nat) (i : Instr) : (s.plan d i).chans = s.chans := rfl
@[simp] theorem State.plan_notices (s : State) (d : Nat) (i : Instr) : (s.plan d i).notices = s.notices := rfl
@[simp] theorem State.plan_msgs (s : State) (d : Nat) (i : Instr) : (s.plan d i).msgs = s.msgs := rfl
@[simp] theorem State.plan_agenda (s : State) (d : Nat) (i : Instr) : (s.plan d i).agenda = s.agenda ++ [(d, i)] := rfl
@[simp] theorem State.plan_sched (s : State) (d : Nat) (i : Instr) : (s.plan d i).sched = s.sched := rfl
@[simp] theorem State.plan_choices (s : State) (d : Nat) (i : Instr) : (s.plan d i).choices = s.choices := rfl
@[simp] theorem State.plan_fresh (s : State) (d : Nat) (i : Instr) : (s.plan d i).fresh = s.fresh := rfl
@[simp] theorem State.plan_nextTag (s : State) (d : Nat) (i : Instr) : (s.plan d i).nextTag = s.nextTag := rfl
@[simp] theorem State.plan_host (s : State) (d : Nat) (i : Instr) : (s.plan d i).host = s.host := rfl
@[simp] theorem State.plan_hostAns (s : State) (d : Nat) (i : Instr) : (s.plan d i).hostAns = s.hostAns := rfl
@[simp] theorem State.plan_cur (s : State) (d : Nat) (i : Instr) : (s.plan d i).cur = s.cur := rfl

/-! ### planNow -/

@[simp] theorem State.planNow_time (s : State) (i : Instr) : (s.planNow i).time = s.time := rfl
@[simp] theorem State.planNow_mem (s : State) (i : Instr) : (s.planNow i).mem = s.mem := rfl
@[simp] theorem State.planNow_changes (s : State) (i : Instr) : (s.planNow i).changes = s.changes := rfl
@[simp] theorem State.planNow_bad (s : State) (i : Instr) : (s.planNow i).bad = s.bad := rfl
@[simp] theorem State.planNow_silent (s : State) (i : Instr) : (s.planNow i).silent = s.silent := rfl
@[simp] theorem State.planNow_dirty (s : State) (i : Instr) : (s.planNow i).dirty = s.dirty := rfl
@[simp] theorem State.planNow_streamed (s : State) (i : Instr) : (s.planNow i).streamed = s.streamed := rfl
@[simp] theorem State.planNow_syncs (s : State) (i : Instr) : (s.planNow i).syncs = s.syncs := rfl
@[simp] theorem State.planNow_cores (s : State) (i : Instr) : (s.planNow i).cores = s.cores := rfl
@[simp] theorem State.planNow_cass (s : State) (i : Instr) : (s.planNow i).cass = s.cass := rfl
@[simp] theorem State.planNow_dies (s : State) (i : Instr) : (s.planNow i).dies = s.dies := rfl
@[simp] theorem State.planNow_pkgs (s : State) (i : Instr) : (s.planNow i).pkgs = s.pkgs := rfl
@[simp] theorem State.planNow_ctxs (s : State) (i : Instr) : (s.planNow i).ctxs = s.ctxs := rfl
@[simp] theorem State.planNow_firings (s : State) (i : Instr) : (s.planNow i).firings = s.firings := rfl
@[simp] theorem State.planNow_pend (s : State) (i : Instr) : (s.planNow i).pend = s.pend := rfl
@[simp] theorem State.planNow_groups (s : State) (i : Instr) : (s.planNow i).groups = s.groups := rfl
@[simp] theorem State.planNow_holds (s : State) (i : Instr) : (s.planNow i).holds = s.holds := rfl
@[simp] theorem State.planNow_holdWait (s : State) (i : Instr) : (s.planNow i).holdWait = s.holdWait := rfl
@[simp] theorem State.planNow_chans (s : State) (i : Instr) : (s.planNow i).chans = s.chans := rfl
@[simp] theorem State.planNow_notices (s : State) (i : Instr) : (s.planNow i).notices = s.notices := rfl
@[simp] theorem State.planNow_msgs (s : State) (i : Instr) : (s.planNow i).msgs = s.msgs := rfl
@[simp] theorem State.planNow_agenda (s : State) (i : Instr) : (s.planNow i).agenda = s.agenda ++ [(s.time.toNat, i)] := rfl
@[simp] theorem State.planNow_sched (s : State) (i : Instr) : (s.planNow i).sched = s.sched := rfl
@[simp] theorem State.planNow_choices (s : State) (i : Instr) : (s.planNow i).choices = s.choices := rfl
@[simp] theorem State.planNow_fresh (s : State) (i : Instr) : (s.planNow i).fresh = s.fresh := rfl
@[simp] theorem State.planNow_nextTag (s : State) (i : Instr) : (s.planNow i).nextTag = s.nextTag := rfl
@[simp] theorem State.planNow_host (s : State) (i : Instr) : (s.planNow i).host = s.host := rfl
@[simp] theorem State.planNow_hostAns (s : State) (i : Instr) : (s.planNow i).hostAns = s.hostAns := rfl
@[simp] theorem State.planNow_cur (s : State) (i : Instr) : (s.planNow i).cur = s.cur := rfl

/-! ### post -/

@[simp] theorem State.post_time (s : State) (m : Msg) (mk : Nat → Instr) : (s.post m mk).time = s.time := rfl
@[simp] theorem State.post_mem (s : State) (m : Msg) (mk : Nat → Instr) : (s.post m mk).mem = s.mem := rfl
@[simp] theorem State.post_changes (s : State) (m : Msg) (mk : Nat → Instr) : (s.post m mk).changes = s.changes := rfl
@[simp] theorem State.post_bad (s : State) (m : Msg) (mk : Nat → Instr) : (s.post m mk).bad = s.bad := rfl
@[simp] theorem State.post_silent (s : State) (m : Msg) (mk : Nat → Instr) : (s.post m mk).silent = s.silent := rfl
@[simp] theorem State.post_dirty (s : State) (m : Msg) (mk : Nat → Instr) : (s.post m mk).dirty = s.dirty := rfl
@[simp] theorem State.post_streamed (s : State) (m : Msg) (mk : Nat → Instr) : (s.post m mk).streamed = s.streamed := rfl
@[simp] theorem State.post_syncs (s : State) (m : Msg) (mk : Nat → Instr) : (s.post m mk).syncs = s.syncs := rfl
@[simp] theorem State.post_cores (s : State) (m : Msg) (mk : Nat → Instr) : (s.post m mk).cores = s.cores := rfl
@[simp] theorem State.post_cass (s : State) (m : Msg) (mk : Nat → Instr) : (s.post m mk).cass = s.cass := rfl
@[simp] theorem State.post_dies (s : State) (m : Msg) (mk : Nat → Instr) : (s.post m mk).dies = s.dies := rfl
@[simp] theorem State.post_pkgs (s : State) (m : Msg) (mk : Nat → Instr) : (s.post m mk).pkgs = s.pkgs := rfl
@[simp] theorem State.post_ctxs (s : State) (m : Msg) (mk : Nat → Instr) : (s.post m mk).ctxs = s.ctxs := rfl
@[simp] theorem State.post_firings (s : State) (m : Msg) (mk : Nat → Instr) : (s.post m mk).firings = s.firings := rfl
@[simp] theorem State.post_pend (s : State) (m : Msg) (mk : Nat → Instr) : (s.post m mk).pend = s.pend := rfl
@[simp] theorem State.post_groups (s : State) (m : Msg) (mk : Nat → Instr) : (s.post m mk).groups = s.groups := rfl
@[simp] theorem State.post_holds (s : State) (m : Msg) (mk : Nat → Instr) : (s.post m mk).holds = s.holds := rfl
@[simp] theorem State.post_holdWait (s : State) (m : Msg) (mk : Nat → Instr) : (s.post m mk).holdWait = s.holdWait := rfl
@[simp] theorem State.post_chans (s : State) (m : Msg) (mk : Nat → Instr) : (s.post m mk).chans = s.chans := rfl
@[simp] theorem State.post_notices (s : State) (m : Msg) (mk : Nat → Instr) : (s.post m mk).notices = s.notices := rfl
@[simp] theorem State.post_msgs (s : State) (m : Msg) (mk : Nat → Instr) : (s.post m mk).msgs = s.msgs.set s.nextTag m := rfl
@[simp] theorem State.post_agenda (s : State) (m : Msg) (mk : Nat → Instr) : (s.post m mk).agenda = s.agenda ++ [(s.time.toNat, mk s.nextTag)] := rfl
@[simp] theorem State.post_sched (s : State) (m : Msg) (mk : Nat → Instr) : (s.post m mk).sched = s.sched := rfl
@[simp] theorem State.post_choices (s : State) (m : Msg) (mk : Nat → Instr) : (s.post m mk).choices = s.choices := rfl
@[simp] theorem State.post_fresh (s : State) (m : Msg) (mk : Nat → Instr) : (s.post m mk).fresh = s.fresh := rfl
@[simp] theorem State.post_nextTag (s : State) (m : Msg) (mk : Nat → Instr) : (s.post m mk).nextTag = s.nextTag + 1 := rfl
@[simp] theorem State.post_host (s : State) (m : Msg) (mk : Nat → Instr) : (s.post m mk).host = s.host := rfl
@[simp] theorem State.post_hostAns (s : State) (m : Msg) (mk : Nat → Instr) : (s.post m mk).hostAns = s.hostAns := rfl
@[simp] theorem State.post_cur (s : State) (m : Msg) (mk : Nat → Instr) : (s.post m mk).cur = s.cur := rfl

/-! ### useFresh -/

@[simp] theorem State.useFresh_time (s : State) : (s.useFresh).time = s.time := rfl
@[simp] theorem State.useFresh_mem (s : State) : (s.useFresh).mem = s.mem := rfl
@[simp] theorem State.useFresh_changes (s : State) : (s.useFresh).changes = s.changes := rfl
@[simp] theorem State.useFresh_bad (s : State) : (s.useFresh).bad = s.bad := rfl
@[simp] theorem State.useFresh_silent (s : State) : (s.useFresh).silent = s.silent := rfl
@[simp] theorem State.useFresh_dirty (s : State) : (s.useFresh).dirty = s.dirty := rfl
@[simp] theorem State.useFresh_streamed (s : State) : (s.useFresh).streamed = s.streamed := rfl
@[simp] theorem State.useFresh_syncs (s : State) : (s.useFresh).syncs = s.syncs := rfl
@[simp] theorem State.useFresh_cores (s : State) : (s.useFresh).cores = s.cores := rfl
@[simp] theorem State.useFresh_cass (s : State) : (s.useFresh).cass = s.cass := rfl
@[simp] theorem State.useFresh_dies (s : State) : (s.useFresh).dies = s.dies := rfl
@[simp] theorem State.useFresh_pkgs (s : State) : (s.useFresh).pkgs = s.pkgs := rfl
@[simp] theorem State.useFresh_ctxs (s : State) : (s.useFresh).ctxs = s.ctxs := rfl
@[simp] theorem State.useFresh_firings (s : State) : (s.useFresh).firings = s.firings := rfl
@[simp] theorem State.useFresh_pend (s : State) : (s.useFresh).pend = s.pend := rfl
@[simp] theorem State.useFresh_groups (s : State) : (s.useFresh).groups = s.groups := rfl
@[simp] theorem State.useFresh_holds (s : State) : (s.useFresh).holds = s.holds := rfl
@[simp] theorem State.useFresh_holdWait (s : State) : (s.useFresh).holdWait = s.holdWait := rfl
@[simp] theorem State.useFresh_chans (s : State) : (s.useFresh).chans = s.chans := rfl
@[simp] theorem State.useFresh_notices (s : State) : (s.useFresh).notices = s.notices := rfl
@[simp] theorem State.useFresh_msgs (s : State) : (s.useFresh).msgs = s.msgs := rfl
@[simp] theorem State.useFresh_agenda (s : State) : (s.useFresh).agenda = s.agenda := rfl
@[simp] theorem State.useFresh_sched (s : State) : (s.useFresh).sched = s.sched := rfl
@[simp] theorem State.useFresh_choices (s : State) : (s.useFresh).choices = s.choices := rfl
@[simp] theorem State.useFresh_fresh (s : State) : (s.useFresh).fresh = s.fresh + 1 := rfl
@[simp] theorem State.useFresh_nextTag (s : State) : (s.useFresh).nextTag = s.nextTag := rfl
@[simp] theorem State.useFresh_host (s : State) : (s.useFresh).host = s.host := rfl
@[simp] theorem State.useFresh_hostAns (s : State) : (s.useFresh).hostAns = s.hostAns := rfl
@[simp] theorem State.useFresh_cur (s : State) : (s.useFresh).cur = s.cur := rfl

/-! ### dropChoice -/

@[simp] theorem State.dropChoice_time (s : State) : (s.dropChoice).time = s.time := rfl
@[simp] theorem State.dropChoice_mem (s : State) : (s.dropChoice).mem = s.mem := rfl
@[simp] theorem State.dropChoice_changes (s : State) : (s.dropChoice).changes = s.changes := rfl
@[simp] theorem State.dropChoice_bad (s : State) : (s.dropChoice).bad = s.bad := rfl
@[simp] theorem State.dropChoice_silent (s : State) : (s.dropChoice).silent = s.silent := rfl
@[simp] theorem State.dropChoice_dirty (s : State) : (s.dropChoice).dirty = s.dirty := rfl
@[simp] theorem State.dropChoice_streamed (s : State) : (s.dropChoice).streamed = s.streamed := rfl
@[simp] theorem State.dropChoice_syncs (s : State) : (s.dropChoice).syncs = s.syncs := rfl
@[simp] theorem State.dropChoice_cores (s : State) : (s.dropChoice).cores = s.cores := rfl
@[simp] theorem State.dropChoice_cass (s : State) : (s.dropChoice).cass = s.cass := rfl
@[simp] theorem State.dropChoice_dies (s : State) : (s.dropChoice).dies = s.dies := rfl
@[simp] theorem State.dropChoice_pkgs (s : State) : (s.dropChoice).pkgs = s.pkgs := rfl
@[simp] theorem State.dropChoice_ctxs (s : State) : (s.dropChoice).ctxs = s.ctxs := rfl
@[simp] theorem State.dropChoice_firings (s : State) : (s.dropChoice).firings = s.firings := rfl
@[simp] theorem State.dropChoice_pend (s : State) : (s.dropChoice).pend = s.pend := rfl
@[simp] theorem State.dropChoice_groups (s : State) : (s.dropChoice).groups = s.groups := rfl
@[simp] theorem State.dropChoice_holds (s : State) : (s.dropChoice).holds = s.holds := rfl
@[simp] theorem State.dropChoice_holdWait (s : State) : (s.dropChoice).holdWait = s.holdWait := rfl
@[simp] theorem State.dropChoice_chans (s : State) : (s.dropChoice).chans = s.chans := rfl
@[simp] theorem State.dropChoice_notices (s : State) : (s.dropChoice).notices = s.notices := rfl
@[simp] theorem State.dropChoice_msgs (s : State) : (s.dropChoice).msgs = s.msgs := rfl
@[simp] theorem State.dropChoice_agenda (s : State) : (s.dropChoice).agenda = s.agenda := rfl
@[simp] theorem State.dropChoice_sched (s : State) : (s.dropChoice).sched = s.sched := rfl
@[simp] theorem State.dropChoice_choices (s : State) : (s.dropChoice).choices = s.choices.drop 1 := rfl
@[simp] theorem State.dropChoice_fresh (s : State) : (s.dropChoice).fresh = s.fresh := rfl
@[simp] theorem State.dropChoice_nextTag (s : State) : (s.dropChoice).nextTag = s.nextTag := rfl
@[simp] theorem State.dropChoice_host (s : State) : (s.dropChoice).host = s.host := rfl
@[simp] theorem State.dropChoice_hostAns (s : State) : (s.dropChoice).hostAns = s.hostAns := rfl
@[simp] theorem State.dropChoice_cur (s : State) : (s.dropChoice).cur = s.cur := rfl

/-! ### setByte -/

@[simp] theorem State.setByte_time (s : State) (k : Nat) (v : Byte) : (s.setByte k v).time = s.time := rfl
@[simp] theorem State.setByte_mem (s : State) (k : Nat) (v : Byte) : (s.setByte k v).mem = Memory.write s.changes s.mem k v := rfl
@[simp] theorem State.setByte_changes (s : State) (k : Nat) (v : Byte) : (s.setByte k v).changes = s.changes := rfl
@[simp] theorem State.setByte_bad (s : State) (k : Nat) (v : Byte) : (s.setByte k v).bad = s.bad := rfl
@[simp] theorem State.setByte_silent (s : State) (k : Nat) (v : Byte) : (s.setByte k v).silent = s.silent := rfl
@[simp] theorem State.setByte_dirty (s : State) (k : Nat) (v : Byte) : (s.setByte k v).dirty = s.dirty := rfl
@[simp] theorem State.setByte_streamed (s : State) (k : Nat) (v : Byte) : (s.setByte k v).streamed = s.streamed := rfl
@[simp] theorem State.setByte_syncs (s : State) (k : Nat) (v : Byte) : (s.setByte k v).syncs = s.syncs := rfl
@[simp] theorem State.setByte_cores (s : State) (k : Nat) (v : Byte) : (s.setByte k v).cores = s.cores := rfl
@[simp] theorem State.setByte_cass (s : State) (k : Nat) (v : Byte) : (s.setByte k v).cass = s.cass := rfl
@[simp] theorem State.setByte_dies (s : State) (k : Nat) (v : Byte) : (s.setByte k v).dies = s.dies := rfl
@[simp] theorem State.setByte_pkgs (s : State) (k : Nat) (v : Byte) : (s.setByte k v).pkgs = s.pkgs := rfl
@[simp] theorem State.setByte_ctxs (s : State) (k : Nat) (v : Byte) : (s.setByte k v).ctxs = s.ctxs := rfl
@[simp] theorem State.setByte_firings (s : State) (k : Nat) (v : Byte) : (s.setByte k v).firings = s.firings := rfl
@[simp] theorem State.setByte_pend (s : State) (k : Nat) (v : Byte) : (s.setByte k v).pend = s.pend := rfl
@[simp] theorem State.setByte_groups (s : State) (k : Nat) (v : Byte) : (s.setByte k v).groups = s.groups := rfl
@[simp] theorem State.setByte_holds (s : State) (k : Nat) (v : Byte) : (s.setByte k v).holds = s.holds := rfl
@[simp] theorem State.setByte_holdWait (s : State) (k : Nat) (v : Byte) : (s.setByte k v).holdWait = s.holdWait := rfl
@[simp] theorem State.setByte_chans (s : State) (k : Nat) (v : Byte) : (s.setByte k v).chans = s.chans := rfl
@[simp] theorem State.setByte_notices (s : State) (k : Nat) (v : Byte) : (s.setByte k v).notices = s.notices := rfl
@[simp] theorem State.setByte_msgs (s : State) (k : Nat) (v : Byte) : (s.setByte k v).msgs = s.msgs := rfl
@[simp] theorem State.setByte_agenda (s : State) (k : Nat) (v : Byte) : (s.setByte k v).agenda = s.agenda := rfl
@[simp] theorem State.setByte_sched (s : State) (k : Nat) (v : Byte) : (s.setByte k v).sched = s.sched := rfl
@[simp] theorem State.setByte_choices (s : State) (k : Nat) (v : Byte) : (s.setByte k v).choices = s.choices := rfl
@[simp] theorem State.setByte_fresh (s : State) (k : Nat) (v : Byte) : (s.setByte k v).fresh = s.fresh := rfl
@[simp] theorem State.setByte_nextTag (s : State) (k : Nat) (v : Byte) : (s.setByte k v).nextTag = s.nextTag := rfl
@[simp] theorem State.setByte_host (s : State) (k : Nat) (v : Byte) : (s.setByte k v).host = s.host := rfl
@[simp] theorem State.setByte_hostAns (s : State) (k : Nat) (v : Byte) : (s.setByte k v).hostAns = s.hostAns := rfl
@[simp] theorem State.setByte_cur (s : State) (k : Nat) (v : Byte) : (s.setByte k v).cur = s.cur := rfl

/-! ### setHost -/

@[simp] theorem State.setHost_time (s : State) (a : Nat) (v : List Byte) : (s.setHost a v).time = s.time := rfl
@[simp] theorem State.setHost_mem (s : State) (a : Nat) (v : List Byte) : (s.setHost a v).mem = s.mem := rfl
@[simp] theorem State.setHost_changes (s : State) (a : Nat) (v : List Byte) : (s.setHost a v).changes = s.changes := rfl
@[simp] theorem State.setHost_bad (s : State) (a : Nat) (v : List Byte) : (s.setHost a v).bad = s.bad := rfl
@[simp] theorem State.setHost_silent (s : State) (a : Nat) (v : List Byte) : (s.setHost a v).silent = s.silent := rfl
@[simp] theorem State.setHost_dirty (s : State) (a : Nat) (v : List Byte) : (s.setHost a v).dirty = s.dirty := rfl
@[simp] theorem State.setHost_streamed (s : State) (a : Nat) (v : List Byte) : (s.setHost a v).streamed = s.streamed := rfl
@[simp] theorem State.setHost_syncs (s : State) (a : Nat) (v : List Byte) : (s.setHost a v).syncs = s.syncs := rfl
@[simp] theorem State.setHost_cores (s : State) (a : Nat) (v : List Byte) : (s.setHost a v).cores = s.cores := rfl
@[simp] theorem State.setHost_cass (s : State) (a : Nat) (v : List Byte) : (s.setHost a v).cass = s.cass := rfl
@[simp] theorem State.setHost_dies (s : State) (a : Nat) (v : List Byte) : (s.setHost a v).dies = s.dies := rfl
@[simp] theorem State.setHost_pkgs (s : State) (a : Nat) (v : List Byte) : (s.setHost a v).pkgs = s.pkgs := rfl
@[simp] theorem State.setHost_ctxs (s : State) (a : Nat) (v : List Byte) : (s.setHost a v).ctxs = s.ctxs := rfl
@[simp] theorem State.setHost_firings (s : State) (a : Nat) (v : List Byte) : (s.setHost a v).firings = s.firings := rfl
@[simp] theorem State.setHost_pend (s : State) (a : Nat) (v : List Byte) : (s.setHost a v).pend = s.pend := rfl
@[simp] theorem State.setHost_groups (s : State) (a : Nat) (v : List Byte) : (s.setHost a v).groups = s.groups := rfl
@[simp] theorem State.setHost_holds (s : State) (a : Nat) (v : List Byte) : (s.setHost a v).holds = s.holds := rfl
@[simp] theorem State.setHost_holdWait (s : State) (a : Nat) (v : List Byte) : (s.setHost a v).holdWait = s.holdWait := rfl
@[simp] theorem State.setHost_chans (s : State) (a : Nat) (v : List Byte) : (s.setHost a v).chans = s.chans := rfl
@[simp] theorem State.setHost_notices (s : State) (a : Nat) (v : List Byte) : (s.setHost a v).notices = s.notices := rfl
@[simp] theorem State.setHost_msgs (s : State) (a : Nat) (v : List Byte) : (s.setHost a v).msgs = s.msgs := rfl
@[simp] theorem State.setHost_agenda (s : State) (a : Nat) (v : List Byte) : (s.setHost a v).agenda = s.agenda := rfl
@[simp] theorem State.setHost_sched (s : State) (a : Nat) (v : List Byte) : (s.setHost a v).sched = s.sched := rfl
@[simp] theorem State.setHost_choices (s : State) (a : Nat) (v : List Byte) : (s.setHost a v).choices = s.choices := rfl
@[simp] theorem State.setHost_fresh (s : State) (a : Nat) (v : List Byte) : (s.setHost a v).fresh = s.fresh := rfl
@[simp] theorem State.setHost_nextTag (s : State) (a : Nat) (v : List Byte) : (s.setHost a v).nextTag = s.nextTag := rfl
@[simp] theorem State.setHost_host (s : State) (a : Nat) (v : List Byte) : (s.setHost a v).host = v.zipIdx.foldl (fun m b => Cells.write (fun _ => 0) m (a + b.2) b.1) s.host := rfl
@[simp] theorem State.setHost_hostAns (s : State) (a : Nat) (v : List Byte) : (s.setHost a v).hostAns = s.hostAns := rfl
@[simp] theorem State.setHost_cur (s : State) (a : Nat) (v : List Byte) : (s.setHost a v).cur = s.cur := rfl

/-! ### setCf -/

@[simp] theorem State.setCf_time (s : State) (f : Firing) : (s.setCf f).time = s.time := rfl
@[simp] theorem State.setCf_mem (s : State) (f : Firing) : (s.setCf f).mem = s.mem := rfl
@[simp] theorem State.setCf_changes (s : State) (f : Firing) : (s.setCf f).changes = s.changes := rfl
@[simp] theorem State.setCf_bad (s : State) (f : Firing) : (s.setCf f).bad = s.bad := rfl
@[simp] theorem State.setCf_silent (s : State) (f : Firing) : (s.setCf f).silent = s.silent := rfl
@[simp] theorem State.setCf_dirty (s : State) (f : Firing) : (s.setCf f).dirty = s.dirty := rfl
@[simp] theorem State.setCf_streamed (s : State) (f : Firing) : (s.setCf f).streamed = s.streamed := rfl
@[simp] theorem State.setCf_syncs (s : State) (f : Firing) : (s.setCf f).syncs = s.syncs := rfl
@[simp] theorem State.setCf_cores (s : State) (f : Firing) : (s.setCf f).cores = s.cores.set s.cur { s.core s.cur with run := some f } := rfl
@[simp] theorem State.setCf_cass (s : State) (f : Firing) : (s.setCf f).cass = s.cass := rfl
@[simp] theorem State.setCf_dies (s : State) (f : Firing) : (s.setCf f).dies = s.dies := rfl
@[simp] theorem State.setCf_pkgs (s : State) (f : Firing) : (s.setCf f).pkgs = s.pkgs := rfl
@[simp] theorem State.setCf_ctxs (s : State) (f : Firing) : (s.setCf f).ctxs = s.ctxs := rfl
@[simp] theorem State.setCf_firings (s : State) (f : Firing) : (s.setCf f).firings = s.firings := rfl
@[simp] theorem State.setCf_pend (s : State) (f : Firing) : (s.setCf f).pend = s.pend := rfl
@[simp] theorem State.setCf_groups (s : State) (f : Firing) : (s.setCf f).groups = s.groups := rfl
@[simp] theorem State.setCf_holds (s : State) (f : Firing) : (s.setCf f).holds = s.holds := rfl
@[simp] theorem State.setCf_holdWait (s : State) (f : Firing) : (s.setCf f).holdWait = s.holdWait := rfl
@[simp] theorem State.setCf_chans (s : State) (f : Firing) : (s.setCf f).chans = s.chans := rfl
@[simp] theorem State.setCf_notices (s : State) (f : Firing) : (s.setCf f).notices = s.notices := rfl
@[simp] theorem State.setCf_msgs (s : State) (f : Firing) : (s.setCf f).msgs = s.msgs := rfl
@[simp] theorem State.setCf_agenda (s : State) (f : Firing) : (s.setCf f).agenda = s.agenda := rfl
@[simp] theorem State.setCf_sched (s : State) (f : Firing) : (s.setCf f).sched = s.sched := rfl
@[simp] theorem State.setCf_choices (s : State) (f : Firing) : (s.setCf f).choices = s.choices := rfl
@[simp] theorem State.setCf_fresh (s : State) (f : Firing) : (s.setCf f).fresh = s.fresh := rfl
@[simp] theorem State.setCf_nextTag (s : State) (f : Firing) : (s.setCf f).nextTag = s.nextTag := rfl
@[simp] theorem State.setCf_host (s : State) (f : Firing) : (s.setCf f).host = s.host := rfl
@[simp] theorem State.setCf_hostAns (s : State) (f : Firing) : (s.setCf f).hostAns = s.hostAns := rfl
@[simp] theorem State.setCf_cur (s : State) (f : Firing) : (s.setCf f).cur = s.cur := rfl

/-! ### jump -/

@[simp] theorem State.jump_time (s : State) (pc : Nat) : (s.jump pc).time = s.time := rfl
@[simp] theorem State.jump_mem (s : State) (pc : Nat) : (s.jump pc).mem = s.mem := rfl
@[simp] theorem State.jump_changes (s : State) (pc : Nat) : (s.jump pc).changes = s.changes := rfl
@[simp] theorem State.jump_bad (s : State) (pc : Nat) : (s.jump pc).bad = s.bad := rfl
@[simp] theorem State.jump_silent (s : State) (pc : Nat) : (s.jump pc).silent = s.silent := rfl
@[simp] theorem State.jump_dirty (s : State) (pc : Nat) : (s.jump pc).dirty = s.dirty := rfl
@[simp] theorem State.jump_streamed (s : State) (pc : Nat) : (s.jump pc).streamed = s.streamed := rfl
@[simp] theorem State.jump_syncs (s : State) (pc : Nat) : (s.jump pc).syncs = s.syncs := rfl
@[simp] theorem State.jump_cores (s : State) (pc : Nat) : (s.jump pc).cores = s.cores.set s.cur { s.core s.cur with run := some { s.cf with pc := pc } } := rfl
@[simp] theorem State.jump_cass (s : State) (pc : Nat) : (s.jump pc).cass = s.cass := rfl
@[simp] theorem State.jump_dies (s : State) (pc : Nat) : (s.jump pc).dies = s.dies := rfl
@[simp] theorem State.jump_pkgs (s : State) (pc : Nat) : (s.jump pc).pkgs = s.pkgs := rfl
@[simp] theorem State.jump_ctxs (s : State) (pc : Nat) : (s.jump pc).ctxs = s.ctxs := rfl
@[simp] theorem State.jump_firings (s : State) (pc : Nat) : (s.jump pc).firings = s.firings := rfl
@[simp] theorem State.jump_pend (s : State) (pc : Nat) : (s.jump pc).pend = s.pend := rfl
@[simp] theorem State.jump_groups (s : State) (pc : Nat) : (s.jump pc).groups = s.groups := rfl
@[simp] theorem State.jump_holds (s : State) (pc : Nat) : (s.jump pc).holds = s.holds := rfl
@[simp] theorem State.jump_holdWait (s : State) (pc : Nat) : (s.jump pc).holdWait = s.holdWait := rfl
@[simp] theorem State.jump_chans (s : State) (pc : Nat) : (s.jump pc).chans = s.chans := rfl
@[simp] theorem State.jump_notices (s : State) (pc : Nat) : (s.jump pc).notices = s.notices := rfl
@[simp] theorem State.jump_msgs (s : State) (pc : Nat) : (s.jump pc).msgs = s.msgs := rfl
@[simp] theorem State.jump_agenda (s : State) (pc : Nat) : (s.jump pc).agenda = s.agenda := rfl
@[simp] theorem State.jump_sched (s : State) (pc : Nat) : (s.jump pc).sched = s.sched := rfl
@[simp] theorem State.jump_choices (s : State) (pc : Nat) : (s.jump pc).choices = s.choices := rfl
@[simp] theorem State.jump_fresh (s : State) (pc : Nat) : (s.jump pc).fresh = s.fresh := rfl
@[simp] theorem State.jump_nextTag (s : State) (pc : Nat) : (s.jump pc).nextTag = s.nextTag := rfl
@[simp] theorem State.jump_host (s : State) (pc : Nat) : (s.jump pc).host = s.host := rfl
@[simp] theorem State.jump_hostAns (s : State) (pc : Nat) : (s.jump pc).hostAns = s.hostAns := rfl
@[simp] theorem State.jump_cur (s : State) (pc : Nat) : (s.jump pc).cur = s.cur := rfl

/-! ### count -/

@[simp] theorem State.count_time (s : State) (c code n : Nat) : (s.count c code n).time = s.time := rfl
@[simp] theorem State.count_mem (s : State) (c code n : Nat) : (s.count c code n).mem = s.mem := rfl
@[simp] theorem State.count_changes (s : State) (c code n : Nat) : (s.count c code n).changes = s.changes := rfl
@[simp] theorem State.count_bad (s : State) (c code n : Nat) : (s.count c code n).bad = s.bad := rfl
@[simp] theorem State.count_silent (s : State) (c code n : Nat) : (s.count c code n).silent = s.silent := rfl
@[simp] theorem State.count_dirty (s : State) (c code n : Nat) : (s.count c code n).dirty = s.dirty := rfl
@[simp] theorem State.count_streamed (s : State) (c code n : Nat) : (s.count c code n).streamed = s.streamed := rfl
@[simp] theorem State.count_syncs (s : State) (c code n : Nat) : (s.count c code n).syncs = s.syncs := rfl
@[simp] theorem State.count_cass (s : State) (c code n : Nat) : (s.count c code n).cass = s.cass := rfl
@[simp] theorem State.count_dies (s : State) (c code n : Nat) : (s.count c code n).dies = s.dies := rfl
@[simp] theorem State.count_pkgs (s : State) (c code n : Nat) : (s.count c code n).pkgs = s.pkgs := rfl
@[simp] theorem State.count_ctxs (s : State) (c code n : Nat) : (s.count c code n).ctxs = s.ctxs := rfl
@[simp] theorem State.count_firings (s : State) (c code n : Nat) : (s.count c code n).firings = s.firings := rfl
@[simp] theorem State.count_pend (s : State) (c code n : Nat) : (s.count c code n).pend = s.pend := rfl
@[simp] theorem State.count_groups (s : State) (c code n : Nat) : (s.count c code n).groups = s.groups := rfl
@[simp] theorem State.count_holds (s : State) (c code n : Nat) : (s.count c code n).holds = s.holds := rfl
@[simp] theorem State.count_holdWait (s : State) (c code n : Nat) : (s.count c code n).holdWait = s.holdWait := rfl
@[simp] theorem State.count_chans (s : State) (c code n : Nat) : (s.count c code n).chans = s.chans := rfl
@[simp] theorem State.count_notices (s : State) (c code n : Nat) : (s.count c code n).notices = s.notices := rfl
@[simp] theorem State.count_msgs (s : State) (c code n : Nat) : (s.count c code n).msgs = s.msgs := rfl
@[simp] theorem State.count_agenda (s : State) (c code n : Nat) : (s.count c code n).agenda = s.agenda := rfl
@[simp] theorem State.count_sched (s : State) (c code n : Nat) : (s.count c code n).sched = s.sched := rfl
@[simp] theorem State.count_choices (s : State) (c code n : Nat) : (s.count c code n).choices = s.choices := rfl
@[simp] theorem State.count_fresh (s : State) (c code n : Nat) : (s.count c code n).fresh = s.fresh := rfl
@[simp] theorem State.count_nextTag (s : State) (c code n : Nat) : (s.count c code n).nextTag = s.nextTag := rfl
@[simp] theorem State.count_host (s : State) (c code n : Nat) : (s.count c code n).host = s.host := rfl
@[simp] theorem State.count_hostAns (s : State) (c code n : Nat) : (s.count c code n).hostAns = s.hostAns := rfl
@[simp] theorem State.count_cur (s : State) (c code n : Nat) : (s.count c code n).cur = s.cur := rfl

/-! ## Accessors after updates -/

@[simp] theorem State.core_setCore_self (s : State) (c : Nat) (x : Core) : (s.setCore c x).core c = x :=
  KMap.get_set_self _ _ _ _

theorem State.core_setCore_other (s : State) (c d : Nat) (x : Core) (h : d ≠ c) : (s.setCore c x).core d = s.core d :=
  KMap.get_set_other _ _ _ _ _ h

@[simp] theorem State.cas_setCas_self (s : State) (k : Nat) (x : Cas) : (s.setCas k x).cas k = x :=
  KMap.get_set_self _ _ _ _

theorem State.cas_setCas_other (s : State) (k j : Nat) (x : Cas) (h : j ≠ k) : (s.setCas k x).cas j = s.cas j :=
  KMap.get_set_other _ _ _ _ _ h

@[simp] theorem State.die_setDie_self (s : State) (k : Nat) (x : Die) : (s.setDie k x).die k = x :=
  KMap.get_set_self _ _ _ _

theorem State.die_setDie_other (s : State) (k j : Nat) (x : Die) (h : j ≠ k) : (s.setDie k x).die j = s.die j :=
  KMap.get_set_other _ _ _ _ _ h

@[simp] theorem State.pkg_setPkg_self (s : State) (k : Nat) (x : Pkg) : (s.setPkg k x).pkg k = x :=
  KMap.get_set_self _ _ _ _

theorem State.pkg_setPkg_other (s : State) (k j : Nat) (x : Pkg) (h : j ≠ k) : (s.setPkg k x).pkg j = s.pkg j :=
  KMap.get_set_other _ _ _ _ _ h

@[simp] theorem State.ctx_setCtx_self (s : State) (k : Nat) (x : Ctx) : (s.setCtx k x).ctx k = x :=
  KMap.get_set_self _ _ _ _

theorem State.ctx_setCtx_other (s : State) (k j : Nat) (x : Ctx) (h : j ≠ k) : (s.setCtx k x).ctx j = s.ctx j :=
  KMap.get_set_other _ _ _ _ _ h

@[simp] theorem State.msg?_dropMsg_self (s : State) (t : Nat) : (s.dropMsg t).msg? t = none :=
  KMap.find_del_self _ _

theorem State.msg?_dropMsg_other (s : State) (t u : Nat) (h : u ≠ t) : (s.dropMsg t).msg? u = s.msg? u :=
  KMap.find_del_other _ _ _ h

@[simp] theorem State.msg?_setMsg_self (s : State) (t : Nat) (m : Msg) : (s.setMsg t m).msg? t = some m :=
  KMap.find_set_self _ _ _

@[simp] theorem State.run?_setCf (s : State) (f : Firing) : (s.setCf f).run? = some f := by
  simp [State.run?, State.setCf, State.core, State.setCore, KMap.get_set_self]

@[simp] theorem State.cf_setCf (s : State) (f : Firing) : (s.setCf f).cf = f := by simp [State.cf]

@[simp] theorem State.cf_jump (s : State) (pc : Nat) : (s.jump pc).cf = { s.cf with pc := pc } := by
  simp [State.jump]

@[simp] theorem State.cf_advance (s : State) : s.advance.cf = { s.cf with pc := s.cf.pc + 12 } := by
  simp [State.advance]

end Sys2Proof.Machine
end

