-- ==== Sys2Proof/Laws/Memory.lean ====
section
/-! SUPPORT. The laws of memory: a write keeps the canonical form, a read of the byte written gives it, and every other
byte reads as before; the same for runs of bytes, numbers and workspace words. -/

namespace Sys2Proof.Machine

/-! ## Cells -/

/-- Every key of the list is above k. -/
def Cells.above (k : Nat) (m : List Host.Cell) : Prop := ∀ c ∈ m, k < c.1

theorem Cells.wf_cons {u : Nat → Byte} {c : Host.Cell} {t : List Host.Cell} :
    Cells.wf u (c :: t) = true ↔ c.2 ≠ u c.1 ∧ Cells.above c.1 t ∧ Cells.wf u t = true := by
  induction t generalizing c with
  | nil => simp [Cells.wf, Cells.above]
  | cons d t ih =>
    have hd := ih (c := d)
    constructor
    · intro h
      simp only [Cells.wf, Bool.and_eq_true, bne_iff_ne, ne_eq, decide_eq_true_eq] at h
      obtain ⟨⟨hv, hlt⟩, hr⟩ := h
      refine ⟨hv, ?_, hr⟩
      intro e he
      rcases List.mem_cons.1 he with rfl | he
      · exact hlt
      · exact Nat.lt_trans hlt ((hd.1 hr).2.1 e he)
    · rintro ⟨hv, ha, hr⟩
      simp only [Cells.wf, Bool.and_eq_true, bne_iff_ne, ne_eq, decide_eq_true_eq]
      exact ⟨⟨hv, ha d (by simp)⟩, hr⟩

theorem Cells.read_above {u : Nat → Byte} {m : List Host.Cell} {k : Nat} (h : Cells.above k m) :
    Cells.read u m k = u k := by
  cases m with
  | nil => rfl
  | cons c t =>
    have hk := h c (by simp)
    simp [Cells.read, Nat.ne_of_lt hk, hk]

theorem Cells.above_mono {j k : Nat} {m : List Host.Cell} (hjk : j ≤ k) (h : Cells.above k m) : Cells.above j m :=
  fun c hc => Nat.lt_of_le_of_lt hjk (h c hc)

theorem Cells.above_write {u : Nat → Byte} {j k : Nat} {m : List Host.Cell} {v : Byte} (hjk : j < k)
    (h : Cells.above j m) : Cells.above j (Cells.write u m k v) := by
  induction m with
  | nil => by_cases hv : v = u k <;> simp [Cells.write, hv, Cells.above, hjk]
  | cons c t ih =>
    have ht : Cells.above j t := fun e he => h e (by simp [he])
    have hc := h c (by simp)
    unfold Cells.write
    split
    · split
      · exact h
      · intro e he
        rcases List.mem_cons.1 he with rfl | he
        · exact hjk
        · exact h e he
    · split
      · split
        · exact ht
        · intro e he
          rcases List.mem_cons.1 he with rfl | he
          · exact hjk
          · exact ht e he
      · intro e he
        rcases List.mem_cons.1 he with rfl | he
        · exact hc
        · exact ih ht e he

theorem Cells.write_wf {u : Nat → Byte} {m : List Host.Cell} (k : Nat) (v : Byte) (h : Cells.wf u m = true) :
    Cells.wf u (Cells.write u m k v) = true := by
  induction m with
  | nil => by_cases hv : v = u k <;> simp [Cells.write, hv, Cells.wf]
  | cons c t ih =>
    obtain ⟨hc, ha, ht⟩ := Cells.wf_cons.1 h
    unfold Cells.write
    split
    · next hk =>
      split
      · exact h
      · next hv =>
        refine Cells.wf_cons.2 ⟨hv, ?_, h⟩
        intro e he
        rcases List.mem_cons.1 he with rfl | he
        · exact hk
        · exact Nat.lt_trans hk (ha e he)
    · split
      · next hk =>
        split
        · exact ht
        · next hv => exact Cells.wf_cons.2 ⟨hv, fun e he => hk ▸ ha e he, ht⟩
      · next h1 h2 =>
        have hlt : c.1 < k := by omega
        exact Cells.wf_cons.2 ⟨hc, Cells.above_write hlt ha, ih ht⟩

theorem Cells.read_write_self {u : Nat → Byte} {m : List Host.Cell} (k : Nat) (v : Byte) (h : Cells.wf u m = true) :
    Cells.read u (Cells.write u m k v) k = v := by
  induction m with
  | nil => by_cases hv : v = u k <;> simp [Cells.write, hv, Cells.read]
  | cons c t ih =>
    obtain ⟨hc, ha, ht⟩ := Cells.wf_cons.1 h
    by_cases h1 : k < c.1
    · by_cases hv : v = u k
      · simp [Cells.write, h1, hv, Cells.read, Nat.ne_of_lt h1]
      · simp [Cells.write, h1, hv, Cells.read]
    · by_cases h2 : k = c.1
      · by_cases hv : v = u k
        · rw [Cells.write, if_neg h1, if_pos h2, if_pos hv, Cells.read_above (h2 ▸ ha), hv]
        · simp [Cells.write, h2 ▸ hv, Cells.read, h2]
      · simp [Cells.write, h1, h2, Cells.read, ih ht]

theorem Cells.read_write_other {u : Nat → Byte} {m : List Host.Cell} (k j : Nat) (v : Byte) (h : Cells.wf u m = true)
    (hj : j ≠ k) : Cells.read u (Cells.write u m k v) j = Cells.read u m j := by
  induction m with
  | nil => by_cases hv : v = u k <;> simp [Cells.write, hv, Cells.read, hj]
  | cons c t ih =>
    obtain ⟨hc, ha, ht⟩ := Cells.wf_cons.1 h
    by_cases h1 : k < c.1
    · by_cases hv : v = u k
      · simp [Cells.write, h1, hv]
      · simp only [Cells.write, h1, hv, if_true, if_false, Cells.read, hj]
        by_cases h3 : j < k
        · have : j < c.1 := Nat.lt_trans h3 h1
          simp [h3, this, Nat.ne_of_lt this]
        · simp [h3]
    · by_cases h2 : k = c.1
      · have hjc : j ≠ c.1 := h2 ▸ hj
        by_cases hv : v = u k
        · rw [Cells.write, if_neg h1, if_pos h2, if_pos hv]
          by_cases h3 : j < c.1
          · rw [Cells.read_above (Cells.above_mono (Nat.le_of_lt h3) ha)]
            simp [Cells.read, hjc, h3]
          · simp [Cells.read, hjc, h3]
        · simp [Cells.write, h2 ▸ hv, Cells.read, h2, hjc]
      · simp [Cells.write, h1, h2, Cells.read, ih ht]

/-! ## The pod's memory -/

namespace State

theorem setByte_wf (s : State) (k : Nat) (v : Byte) (h : Memory.wf s.changes s.mem = true) :
    Memory.wf (s.setByte k v).changes (s.setByte k v).mem = true :=
  Cells.write_wf k v h

theorem byte_setByte_self (s : State) (k : Nat) (v : Byte) (h : Memory.wf s.changes s.mem = true) :
    (s.setByte k v).byte k = v :=
  Cells.read_write_self k v h

theorem byte_setByte_other (s : State) (k j : Nat) (v : Byte) (h : Memory.wf s.changes s.mem = true) (hj : j ≠ k) :
    (s.setByte k v).byte j = s.byte j :=
  Cells.read_write_other k j v h hj

/-- Two states agree in everything but memory. -/
def sameButMem (s t : State) : Prop := { s with mem := t.mem } = t

theorem sameButMem_refl (s : State) : s.sameButMem s := rfl

theorem sameButMem_trans {s t r : State} (h1 : s.sameButMem t) (h2 : t.sameButMem r) : s.sameButMem r := by
  unfold sameButMem at *; rw [← h2, ← h1]

theorem setByte_sameButMem (s : State) (k : Nat) (v : Byte) : s.sameButMem (s.setByte k v) := rfl

theorem setBytes_sameButMem (s : State) (k : Nat) (v : List Byte) : s.sameButMem (s.setBytes k v) := by
  induction v generalizing s k with
  | nil => rfl
  | cons b t ih => exact sameButMem_trans (setByte_sameButMem s k b) (ih (s.setByte k b) (k + 1))

@[simp] theorem setBytes_changes (s : State) (k : Nat) (v : List Byte) : (s.setBytes k v).changes = s.changes := by
  rw [← setBytes_sameButMem s k v]

@[simp] theorem setBytes_cores (s : State) (k : Nat) (v : List Byte) : (s.setBytes k v).cores = s.cores := by
  rw [← setBytes_sameButMem s k v]

@[simp] theorem setBytes_cur (s : State) (k : Nat) (v : List Byte) : (s.setBytes k v).cur = s.cur := by
  rw [← setBytes_sameButMem s k v]

theorem setBytes_wf (s : State) (k : Nat) (v : List Byte) (h : Memory.wf s.changes s.mem = true) :
    Memory.wf (s.setBytes k v).changes (s.setBytes k v).mem = true := by
  induction v generalizing s k with
  | nil => exact h
  | cons b t ih => exact ih _ _ (setByte_wf s k b h)

/-- A write of bytes leaves every byte outside them as it was. -/
theorem byte_setBytes_other (s : State) (k : Nat) (v : List Byte) (j : Nat) (h : Memory.wf s.changes s.mem = true)
    (hj : j < k ∨ k + v.length ≤ j) : (s.setBytes k v).byte j = s.byte j := by
  induction v generalizing s k with
  | nil => rfl
  | cons b t ih =>
    rw [List.length_cons] at hj
    have hne : j ≠ k := by omega
    have ho : j < k + 1 ∨ k + 1 + t.length ≤ j := by omega
    show ((s.setByte k b).setBytes (k + 1) t).byte j = s.byte j
    rw [ih (s.setByte k b) (k + 1) (setByte_wf s k b h) ho, byte_setByte_other s k j b h hne]

/-- A write of bytes is read back. -/
theorem byte_setBytes_self (s : State) (k : Nat) (v : List Byte) (i : Nat) (h : Memory.wf s.changes s.mem = true)
    (hi : i < v.length) : (s.setBytes k v).byte (k + i) = v[i] := by
  induction v generalizing s k i with
  | nil => simp at hi
  | cons b t ih =>
    show ((s.setByte k b).setBytes (k + 1) t).byte (k + i) = _
    have hw := setByte_wf s k b h
    cases i with
    | zero =>
      rw [byte_setBytes_other (s.setByte k b) (k + 1) t (k + 0) hw (by omega)]
      simpa using byte_setByte_self s k b h
    | succ i =>
      have := ih (s.setByte k b) (k + 1) i hw (by simpa using hi)
      simpa [Nat.add_assoc, Nat.add_comm 1 i] using this

theorem bytes_setBytes (s : State) (k : Nat) (v : List Byte) (h : Memory.wf s.changes s.mem = true) :
    (s.setBytes k v).bytes k v.length = v := by
  apply List.ext_getElem
  · simp [bytes]
  · intro i h1 h2
    simpa [bytes] using byte_setBytes_self s k v i h h2

end State

/-! ## Numbers -/

@[simp] theorem toLe_length (n v : Nat) : (toLe n v).length = n := by
  induction n generalizing v with
  | zero => rfl
  | succ n ih => simp [toLe, ih]

theorem leNat_toLe (n v : Nat) : leNat (toLe n v) = v % 256 ^ n := by
  induction n generalizing v with
  | zero => simp [toLe, leNat, Nat.mod_one]
  | succ n ih =>
    rw [toLe, leNat, ih, BitVec.toNat_ofNat, Nat.pow_succ' (m := 256), Nat.mod_mul]

namespace State

theorem num_setNum (s : State) (k n v : Nat) (h : Memory.wf s.changes s.mem = true) :
    (s.setNum k n v).num k n = v % 256 ^ n := by
  have hb := bytes_setBytes s k (toLe n v) h
  rw [toLe_length] at hb
  rw [num, setNum, hb, leNat_toLe]

theorem bytes_setBytes_other (s : State) (k : Nat) (v : List Byte) (j n : Nat)
    (h : Memory.wf s.changes s.mem = true) (hj : j + n ≤ k ∨ k + v.length ≤ j) :
    (s.setBytes k v).bytes j n = s.bytes j n := by
  apply List.map_congr_left
  intro i hi
  have hi := List.mem_range.1 hi
  exact byte_setBytes_other s k v (j + i) h (by omega)

theorem num_setNum_other (s : State) (k n v j m : Nat) (h : Memory.wf s.changes s.mem = true)
    (hj : j + m ≤ k ∨ k + n ≤ j) : (s.setNum k n v).num j m = s.num j m := by
  rw [num, setNum, bytes_setBytes_other s k (toLe n v) j m h (by simpa using hj), num]

/-! ## Workspace words (R26, R27) -/

@[simp] theorem setNum_cores (s : State) (k n v : Nat) : (s.setNum k n v).cores = s.cores := setBytes_cores _ _ _

@[simp] theorem setNum_cur (s : State) (k n v : Nat) : (s.setNum k n v).cur = s.cur := setBytes_cur _ _ _

@[simp] theorem setNum_changes (s : State) (k n v : Nat) : (s.setNum k n v).changes = s.changes :=
  setBytes_changes _ _ _

@[simp] theorem setNum_cf (s : State) (k n v : Nat) : (s.setNum k n v).cf = s.cf := by
  simp [cf, run?, core]

theorem setNum_wf (s : State) (k n v : Nat) (h : Memory.wf s.changes s.mem = true) :
    Memory.wf (s.setNum k n v).changes (s.setNum k n v).mem = true := setBytes_wf _ _ _ h

/-- Outside a tandem a raw word that was written reads back. -/
theorem rawWord_setRaw_self (s : State) (i : Nat) (v : Word) (h : Memory.wf s.changes s.mem = true)
    (ht : s.cf.tandem = none) : (s.setRaw i v).rawWord s.cf i = v := by
  simp only [setRaw, rawWord, ht]
  rw [num_setNum s _ 8 v.toNat h]
  have : v.toNat % 256 ^ 8 = v.toNat := Nat.mod_eq_of_lt (by have := v.isLt; omega)
  rw [this]; simp

/-- Outside a tandem a write of a raw word leaves every other word as it was. -/
theorem rawWord_setRaw_other (s : State) (i j : Nat) (v : Word) (h : Memory.wf s.changes s.mem = true)
    (ht : s.cf.tandem = none) (hij : j ≠ i) : (s.setRaw i v).rawWord s.cf j = s.rawWord s.cf j := by
  simp only [setRaw, rawWord, ht]
  rw [num_setNum_other s _ 8 v.toNat _ 8 h]
  unfold sliceKey
  omega

theorem setRaw_cf (s : State) (i : Nat) (v : Word) (ht : s.cf.tandem = none) : (s.setRaw i v).cf = s.cf := by
  simp [setRaw, ht]

theorem setRaw_wf (s : State) (i : Nat) (v : Word) (h : Memory.wf s.changes s.mem = true) :
    Memory.wf (s.setRaw i v).changes (s.setRaw i v).mem = true := by
  cases ht : s.cf.tandem with
  | none => simpa only [setRaw, ht] using setNum_wf s _ 8 v.toNat h
  | some t => simp only [setRaw, ht]; exact h

theorem setWord_wf (s : State) (i : Nat) (v : Word) (h : Memory.wf s.changes s.mem = true) :
    Memory.wf (s.setWord i v).changes (s.setWord i v).mem = true := by
  unfold setWord
  split <;> exact setRaw_wf _ _ _ h

theorem setPred_wf (s : State) (p : Nat) (b : Bool) (h : Memory.wf s.changes s.mem = true) :
    Memory.wf (s.setPred p b).changes (s.setPred p b).mem = true := by
  unfold setPred
  split
  · exact h
  · exact setRaw_wf _ _ _ h

/-- A word written as an operand reads back; w0 is covered by its own lemma (R196). -/
theorem word_setWord_self (s : State) (i : Nat) (v : Word) (h : Memory.wf s.changes s.mem = true)
    (ht : s.cf.tandem = none) (hi : i ≠ 0) : (s.setWord i v).word i = v := by
  have hc : (s.setWord i v).cf = s.cf := by simp [setWord, hi, setRaw_cf s i v ht]
  rw [word, if_neg hi, hc, setWord, if_neg hi, rawWord_setRaw_self s i v h ht]

theorem word_setWord_other (s : State) (i j : Nat) (v : Word) (h : Memory.wf s.changes s.mem = true)
    (ht : s.cf.tandem = none) (hij : j ≠ i) : (s.setWord i v).word j = s.word j := by
  have hc : (s.setWord i v).cf = s.cf := by
    unfold setWord; split <;> exact setRaw_cf s _ _ ht
  have hr : (s.setWord i v).rawWord s.cf j = s.rawWord s.cf j := by
    unfold setWord; split
    · next h0 => exact rawWord_setRaw_other s 0 j _ h ht (h0 ▸ hij)
    · exact rawWord_setRaw_other s i j v h ht hij
  unfold word
  rw [hc]
  split
  · next h0 => rw [h0] at hr; rw [hr]
  · rw [hr]

end State

end Sys2Proof.Machine
end

