-- ==== Sys2Proof/Laws/Exec.lean ====
section
/-! SUPPORT. What the shared frame of an instruction can do: advance under a false guard, take the fault of its body, or
have its body's effect; and what a fault leaves. -/

namespace Sys2Proof.Machine

/-! ## The frame of an instruction (R195, R398, R399) -/

theorem withGuardRaise_ok {s t : State} {hd : Head} {raise : Trap → Trap} {body : State → Res State} (hr : s.run?.isSome = true)
    (hg : s.guardHolds hd.g = true) (hb : body s = .ok t) : withGuardRaise s hd raise body = .next (t.tally s.cur) := by
  obtain ⟨f, hf⟩ := Option.isSome_iff_exists.1 hr
  simp [withGuardRaise, hf, hg, hb]

theorem withGuardRaise_error {s : State} {hd : Head} {raise : Trap → Trap} {body : State → Res State} {e : Trap}
    (hr : s.run?.isSome = true) (hg : s.guardHolds hd.g = true) (hb : body s = .error e) :
    withGuardRaise s hd raise body = .next (s.fault (raise e)) := by
  obtain ⟨f, hf⟩ := Option.isSome_iff_exists.1 hr
  simp [withGuardRaise, hf, hg, hb]

theorem withGuardRaise_false {s : State} {hd : Head} {raise : Trap → Trap} {body : State → Res State} (hr : s.run?.isSome = true)
    (hg : s.guardHolds hd.g = false) : withGuardRaise s hd raise body = .next s.advance := by
  obtain ⟨f, hf⟩ := Option.isSome_iff_exists.1 hr
  simp [withGuardRaise, hf, hg]

/-- Everything an instruction can do. -/
theorem withGuardRaise_cases {s t : State} {hd : Head} {raise : Trap → Trap} {body : State → Res State}
    (h : withGuardRaise s hd raise body = .next t) :
    s.run?.isSome = true ∧
      ((s.guardHolds hd.g = false ∧ t = s.advance)
        ∨ (s.guardHolds hd.g = true ∧ ∃ e, (∃ u, body s = .error u) ∧ t = s.fault e)
        ∨ (s.guardHolds hd.g = true ∧ ∃ r, body s = .ok r ∧ t = r.tally s.cur)) := by
  cases hf : s.run? with
  | none => simp [withGuardRaise, hf] at h
  | some f =>
    refine ⟨rfl, ?_⟩
    cases hg : s.guardHolds hd.g with
    | false => simp [withGuardRaise, hf, hg] at h; exact .inl ⟨rfl, h.symm⟩
    | true =>
      cases hb : body s with
      | error e => simp [withGuardRaise, hf, hg, hb] at h; exact .inr (.inl ⟨rfl, _, ⟨e, rfl⟩, h.symm⟩)
      | ok r => simp [withGuardRaise, hf, hg, hb] at h; exact .inr (.inr ⟨rfl, r, rfl, h.symm⟩)

/-- A fault that is neither uncorrectable data nor an unreachable home is raised as the body meets it (R397). -/
theorem State.firstRaised_own {s : State} {body : State → Res State} {e : Trap} (h : e.cls < 0x20) :
    s.firstRaised body e = e := by
  simp [State.firstRaised, h]

theorem withGuardJump_ok {s t : State} {hd : Head} {body : State → Res State} (hr : s.run?.isSome = true)
    (hg : s.guardHolds hd.g = true) (hb : body s = .ok t) : withGuardJump s hd body = .next (t.tally s.cur) :=
  withGuardRaise_ok hr hg hb

theorem withGuardJump_error {s : State} {hd : Head} {body : State → Res State} {e : Trap} (hr : s.run?.isSome = true)
    (hg : s.guardHolds hd.g = true) (hb : body s = .error e) (hc : e.cls < 0x20 := by decide) :
    withGuardJump s hd body = .next (s.fault e) := by
  rw [withGuardJump, withGuardRaise_error hr hg hb, State.firstRaised_own hc]

theorem withGuardJump_false {s : State} {hd : Head} {body : State → Res State} (hr : s.run?.isSome = true)
    (hg : s.guardHolds hd.g = false) : withGuardJump s hd body = .next s.advance :=
  withGuardRaise_false hr hg

theorem withGuardJump_cases {s t : State} {hd : Head} {body : State → Res State} (h : withGuardJump s hd body = .next t) :
    s.run?.isSome = true ∧
      ((s.guardHolds hd.g = false ∧ t = s.advance)
        ∨ (s.guardHolds hd.g = true ∧ ∃ e, (∃ u, body s = .error u) ∧ t = s.fault e)
        ∨ (s.guardHolds hd.g = true ∧ ∃ r, body s = .ok r ∧ t = r.tally s.cur)) :=
  withGuardRaise_cases h

theorem map_error {s : State} {body : State → Res State} {e : Trap} (hb : body s = .error e) :
    (body s).map State.advance = .error e := by
  simp [hb, Except.map]

theorem map_ok {s t : State} {body : State → Res State} (hb : body s = .ok t) :
    (body s).map State.advance = .ok t.advance := by
  simp [hb, Except.map]

theorem withGuard_ok {s t : State} {hd : Head} {body : State → Res State} (hr : s.run?.isSome = true)
    (hg : s.guardHolds hd.g = true) (hb : body s = .ok t) : withGuard s hd body = .next (t.advance.tally s.cur) :=
  withGuardJump_ok hr hg (map_ok hb)

theorem withGuard_error {s : State} {hd : Head} {body : State → Res State} {e : Trap} (hr : s.run?.isSome = true)
    (hg : s.guardHolds hd.g = true) (hb : body s = .error e) (hc : e.cls < 0x20 := by decide) :
    withGuard s hd body = .next (s.fault e) :=
  withGuardJump_error hr hg (map_error hb) hc

theorem withGuard_false {s : State} {hd : Head} {body : State → Res State} (hr : s.run?.isSome = true)
    (hg : s.guardHolds hd.g = false) : withGuard s hd body = .next s.advance :=
  withGuardJump_false hr hg

/-- Everything an instruction can do whose pc goes on. -/
theorem withGuardRaise_advance {s t : State} {hd : Head} {raise : Trap → Trap} {body : State → Res State}
    (h : withGuardRaise s hd raise (fun s => (body s).map State.advance) = .next t) :
    s.run?.isSome = true ∧
      ((s.guardHolds hd.g = false ∧ t = s.advance)
        ∨ (s.guardHolds hd.g = true ∧ ∃ e, (∃ u, body s = .error u) ∧ t = s.fault e)
        ∨ (s.guardHolds hd.g = true ∧ ∃ r, body s = .ok r ∧ t = r.advance.tally s.cur)) := by
  obtain ⟨hr, h⟩ := withGuardRaise_cases h
  refine ⟨hr, ?_⟩
  rcases h with h | ⟨hg, e, ⟨u, hb⟩, ht⟩ | ⟨hg, r, hb, ht⟩
  · exact .inl h
  · refine .inr (.inl ⟨hg, e, ?_, ht⟩)
    cases hs : body s with
    | error e' => exact ⟨e', rfl⟩
    | ok r => simp [hs, Except.map] at hb
  · refine .inr (.inr ⟨hg, ?_⟩)
    cases hs : body s with
    | error e' => simp [hs, Except.map] at hb
    | ok r' => simp [hs, Except.map] at hb; exact ⟨r', rfl, hb ▸ ht⟩

theorem withGuard_cases {s t : State} {hd : Head} {body : State → Res State} (h : withGuard s hd body = .next t) :
    s.run?.isSome = true ∧
      ((s.guardHolds hd.g = false ∧ t = s.advance)
        ∨ (s.guardHolds hd.g = true ∧ ∃ e, (∃ u, body s = .error u) ∧ t = s.fault e)
        ∨ (s.guardHolds hd.g = true ∧ ∃ r, body s = .ok r ∧ t = r.advance.tally s.cur)) :=
  withGuardRaise_advance h

/-- Everything a vector access can do. -/
theorem withGuardElems_cases {s t : State} {hd : Head} {opnds : State → Res Unit} {body : State → Res State}
    (h : withGuardElems s hd opnds body = .next t) :
    s.run?.isSome = true ∧
      ((s.guardHolds hd.g = false ∧ t = s.advance)
        ∨ (s.guardHolds hd.g = true ∧ ∃ e, (∃ u, body s = .error u) ∧ t = s.fault e)
        ∨ (s.guardHolds hd.g = true ∧ ∃ r, body s = .ok r ∧ t = r.advance.tally s.cur)) :=
  withGuardRaise_advance h

/-- An instruction on a core that runs a firing always goes on: it executes, is passed, or its fault is taken. -/
theorem withGuard_goes (s : State) (hd : Head) (body : State → Res State) (hr : s.run?.isSome = true) :
    ∃ t, withGuard s hd body = .next t := by
  cases hg : s.guardHolds hd.g with
  | false => exact ⟨_, withGuard_false hr hg⟩
  | true =>
    cases hb : body s with
    | error e => exact ⟨_, withGuardRaise_error (body := fun s => (body s).map State.advance) hr hg (map_error hb)⟩
    | ok r => exact ⟨_, withGuard_ok hr hg hb⟩

theorem notYet_go {s : State} {hd : Head} {wait : State → Bool} {go : Out} (hw : wait s = false) :
    notYet s hd wait go = go := by
  simp [notYet, hw]

theorem notYet_passed {s : State} {hd : Head} {wait : State → Bool} {go : Out} (hg : s.guardHolds hd.g = false) :
    notYet s hd wait go = go := by
  simp [notYet, hg]

theorem notYet_cases {s t : State} {hd : Head} {wait : State → Bool} {go : Out} (h : notYet s hd wait go = .next t) :
    t = s ∨ go = .next t := by
  unfold notYet at h
  split at h
  · simp at h; exact .inl h.symm
  · exact .inr h

/-! ## Taking a fault (R399) -/

/-- A fault changes the running firing's trap, with the time of the fault, and the core's stopping mark, and plans the stop; nothing else. -/
theorem State.takeFault_some {s : State} {c : Nat} {t : Trap} {f : Firing} (hf : (s.core c).run = some f) :
    s.takeFault c t = (s.setCore c { s.core c with
      run := some { f with trap := some { t with time := s.time } }, stopping := true }).planNow
      (if f.tandem.isSome then .tandemFault c else .faultStop c) := by
  simp only [State.takeFault, hf]
  split <;> rfl

/-- Keeping a region entry changes the cassettes alone. -/
theorem State.noteCap_cass (s : State) (k x va : Nat) : ∃ cs, s.noteCap k x va = { s with cass := cs } := by
  unfold State.noteCap
  split
  · exact ⟨s.cass, rfl⟩
  · dsimp only
    split
    · exact ⟨s.cass, rfl⟩
    · exact ⟨_, rfl⟩

/-- What a failed check keeps changes the cassettes alone. -/
theorem State.noteFailed_cass (s : State) (t : Trap) : ∃ cs, s.noteFailed t = { s with cass := cs } := by
  unfold State.noteFailed
  split
  · exact s.noteCap_cass _ _ _
  · exact ⟨s.cass, rfl⟩

theorem State.takeFault_mem (s : State) (c : Nat) (t : Trap) : (s.takeFault c t).mem = s.mem := by
  cases hf : (s.core c).run with
  | none => simp [State.takeFault, hf]
  | some f => rw [State.takeFault_some hf]; rfl

theorem State.takeFault_changes (s : State) (c : Nat) (t : Trap) : (s.takeFault c t).changes = s.changes := by
  cases hf : (s.core c).run with
  | none => simp [State.takeFault, hf]
  | some f => rw [State.takeFault_some hf]; rfl

theorem State.tally_mem (s : State) (c : Nat) : (s.tally c).mem = s.mem := by
  unfold State.tally; split <;> rfl

theorem State.tally_changes (s : State) (c : Nat) : (s.tally c).changes = s.changes := by
  unfold State.tally; split <;> rfl

theorem State.tally_byte (s : State) (c k : Nat) : (s.tally c).byte k = s.byte k := by
  simp [State.byte, State.tally_mem, State.tally_changes]

theorem State.fault_byte (s : State) (t : Trap) (k : Nat) : (s.fault t).byte k = s.byte k := by
  obtain ⟨cs, h⟩ := s.noteFailed_cass t
  simp [State.byte, State.fault, State.takeFault_mem, State.takeFault_changes, h]

theorem State.advance_byte (s : State) (k : Nat) : s.advance.byte k = s.byte k := rfl

end Sys2Proof.Machine
end

