-- ==== Sys2Proof/Laws/Access.lean ====
section
/-! SUPPORT. What the shared operations of loads and stores can do: which of them touch no byte of memory, and what each
keeps of the core whose turn it is. -/

namespace Sys2Proof.Machine

theorem State.core_setCore (s : State) (c d : Nat) (x : Core) :
    (s.setCore c x).core d = if d = c then x else s.core d := by
  split
  · subst d; exact KMap.get_set_self ..
  · exact KMap.get_set_other _ _ _ _ _ (by assumption)

theorem State.cf_congr {s t : State} (hc : t.cur = s.cur) (hr : (t.core s.cur).run = (s.core s.cur).run) : t.cf = s.cf := by
  simp only [State.cf, State.run?, hc, hr]

/-- Memory, the turn, and the running firing and loads of the core whose turn it is are the same. -/
def State.keepsRun (s t : State) : Prop :=
  t.mem = s.mem ∧ t.cur = s.cur ∧ (t.core s.cur).run = (s.core s.cur).run ∧ (t.core s.cur).loads = (s.core s.cur).loads

theorem State.keepsRun_refl (s : State) : s.keepsRun s := ⟨rfl, rfl, rfl, rfl⟩

theorem State.keepsRun_trans {s t u : State} (h1 : s.keepsRun t) (h2 : t.keepsRun u) : s.keepsRun u := by
  obtain ⟨a, b, c, d⟩ := h1
  obtain ⟨a', b', c', d'⟩ := h2
  rw [b] at c' d'
  exact ⟨a'.trans a, b'.trans b, c'.trans c, d'.trans d⟩

theorem State.keepsRun_foldl {α : Type} (f : State → α → State) (h : ∀ (s : State) a, s.keepsRun (f s a)) (l : List α) (s : State) :
    s.keepsRun (l.foldl f s) := by
  induction l generalizing s with
  | nil => exact s.keepsRun_refl
  | cons a l ih => exact State.keepsRun_trans (h s a) (ih _)

theorem State.keepsRun_cf {s t : State} (h : s.keepsRun t) : t.cf = s.cf := by
  simp [State.cf, State.run?, h.2.1, h.2.2.1]

theorem State.keepsRun_setCore (s : State) (c : Nat) (x : Core) (h1 : x.run = (s.core c).run)
    (h2 : x.loads = (s.core c).loads) : s.keepsRun (s.setCore c x) := by
  refine ⟨rfl, rfl, ?_, ?_⟩ <;> rw [State.core_setCore] <;> split <;> simp_all

theorem State.keepsRun_setCas (s : State) (k : Nat) (x : Cas) : s.keepsRun (s.setCas k x) := ⟨rfl, rfl, rfl, rfl⟩

theorem State.keepsRun_count (s : State) (c k n : Nat) : s.keepsRun (s.count c k n) :=
  s.keepsRun_setCore _ _ rfl rfl

theorem State.keepsRun_planNow (s : State) (i : Instr) : s.keepsRun (s.planNow i) := ⟨rfl, rfl, rfl, rfl⟩

theorem State.keepsRun_setDie (s : State) (k : Nat) (x : Die) : s.keepsRun (s.setDie k x) := ⟨rfl, rfl, rfl, rfl⟩

theorem State.keepsRun_noteTlb (s : State) (k : Nat) (t : Tlb) : s.keepsRun (s.noteTlb k t) := by
  unfold State.noteTlb
  split
  · exact s.keepsRun_refl
  · exact ⟨rfl, rfl, rfl, rfl⟩

theorem State.keepsRun_noteCap (s : State) (k x va : Nat) : s.keepsRun (s.noteCap k x va) := by
  obtain ⟨cs, h⟩ := s.noteCap_cass k x va
  rw [h]
  exact ⟨rfl, rfl, rfl, rfl⟩

theorem State.keepsRun_noteLoc (s : State) (k : Nat) (l : Loc) : s.keepsRun (s.noteLoc k l) := by
  cases l with
  | slice _ _ _ => exact s.keepsRun_refl
  | phys g =>
    exact State.keepsRun_trans
      (State.keepsRun_foldl (fun s (q : Seg) => s.noteTlb k q.tlb) (fun s q => s.keepsRun_noteTlb k q.tlb) g s)
      (State.keepsRun_foldl _ (fun s q => State.keepsRun_foldl _ (fun s _ => s.keepsRun_noteCap k _ _) _ s) _ _)

/-- Noting a translation changes nothing but its cassette's TLB and its die's table cache (R98). -/
theorem State.noteTlb_eq (s : State) (k : Nat) (t : Tlb) :
    s.noteTlb k t = { s with cass := (s.noteTlb k t).cass, dies := (s.noteTlb k t).dies } := by
  unfold State.noteTlb
  split <;> rfl

/-- A state that differs from another in its cassettes and dies alone. -/
def State.keepsRest (s t : State) : Prop := t = { s with cass := t.cass, dies := t.dies }

theorem State.keepsRest_foldl {α : Type} (f : State → α → State) (h : ∀ (s : State) a, s.keepsRest (f s a)) (l : List α)
    (s : State) : s.keepsRest (l.foldl f s) := by
  induction l generalizing s with
  | nil => rfl
  | cons a l ih =>
    have h1 := h s a
    have h2 := ih (f s a)
    unfold State.keepsRest at *
    rw [List.foldl_cons, h2, h1]

theorem State.noteCap_rest (s : State) (k x va : Nat) : s.keepsRest (s.noteCap k x va) := by
  obtain ⟨cs, h⟩ := s.noteCap_cass k x va
  rw [h]
  rfl

/-- Noting an access changes nothing but its cassette's TLB and capability cache and its die's table cache (R98, R177). -/
theorem State.noteLoc_eq (s : State) (k : Nat) (l : Loc) :
    s.noteLoc k l = { s with cass := (s.noteLoc k l).cass, dies := (s.noteLoc k l).dies } := by
  cases l with
  | slice _ _ _ => rfl
  | phys g =>
    have h1 : s.keepsRest (s.notePages k (.phys g)) :=
      State.keepsRest_foldl (fun s (q : Seg) => s.noteTlb k q.tlb) (fun s q => s.noteTlb_eq k q.tlb) g s
    have h2 : (s.notePages k (.phys g)).keepsRest (s.noteLoc k (.phys g)) :=
      State.keepsRest_foldl _ (fun s q => State.keepsRest_foldl _ (fun s _ => s.noteCap_rest k _ _) _ s) _ _
    unfold State.keepsRest at h1 h2
    rw [h2, h1]

theorem State.keepsRun_refreshLine (s : State) (k l : Nat) : s.keepsRun (s.refreshLine k l) := by
  unfold State.refreshLine
  dsimp only
  split
  · exact s.keepsRun_setCas _ _
  · exact s.keepsRun_refl

theorem State.keepsRun_askFill (s : State) (k line : Nat) (cls : BitVec 2) : s.keepsRun (s.askFill k line cls) := by
  unfold State.askFill
  dsimp only
  split
  · exact ⟨rfl, rfl, rfl, rfl⟩
  · split <;> exact ⟨rfl, rfl, rfl, rfl⟩

theorem State.keepsRun_missed (s : State) (c : Nat) (cls : BitVec 2) (l : Loc) : s.keepsRun (s.missed c cls l) := by
  unfold State.missed
  dsimp only
  split
  · exact s.keepsRun_refl
  · have h0 : s.keepsRun (if ((s.missLines c cls l).any fun e => (s.count c 5 1).homeDie (e.1 * 128) != dieOf c) = true
        then (s.count c 5 1).count c 6 1 else s.count c 5 1) := by
      split
      · exact State.keepsRun_trans (s.keepsRun_count c 5 1) (State.keepsRun_count _ _ _ _)
      · exact s.keepsRun_count c 5 1
    refine State.keepsRun_trans h0 (State.keepsRun_foldl _ (fun s e => ?_) _ _)
    split
    · split
      · exact State.keepsRun_askFill _ _ _ _
      · exact State.keepsRun_refl _
    · exact State.keepsRun_refreshLine _ _ _

/-- A watch can only ask the core to halt. -/
theorem State.watch_eq (s : State) (c x : Nat) (acc : List (Nat × Nat)) (ld st : Bool) :
    s.watch c x acc ld st = s ∨
      ∃ r, s.watch c x acc ld st = s.setCore c { s.core c with haltReq := some r } := by
  unfold State.watch
  split
  · exact .inl rfl
  · exact .inr ⟨_, rfl⟩

theorem State.keepsRun_watch (s : State) (c x : Nat) (acc : List (Nat × Nat)) (ld st : Bool) :
    s.keepsRun (s.watch c x acc ld st) := by
  rcases s.watch_eq c x acc ld st with h | ⟨r, h⟩ <;> rw [h]
  · exact s.keepsRun_refl
  · exact s.keepsRun_setCore _ _ rfl rfl

theorem State.keepsRun_catchUp (s : State) (key n : Nat) : s.keepsRun (s.catchUp key n) := by
  unfold State.catchUp
  dsimp only
  split
  · exact s.keepsRun_refl
  · split
    · exact s.keepsRun_setCore _ _ rfl rfl
    · exact s.keepsRun_refl

theorem State.keepsRun_seeWindow (s : State) (c : Nat) (acc : List (Nat × Nat)) : s.keepsRun (s.seeWindow c acc) := by
  unfold State.seeWindow
  dsimp only
  split
  · exact s.keepsRun_refl
  · refine State.keepsRun_trans (s.keepsRun_setCore c _ ?_ ?_) (State.keepsRun_foldl _ (fun s a => ?_) _ _)
    · rfl
    · rfl
    · split
      · exact s.keepsRun_catchUp _ _
      · exact s.keepsRun_refl

theorem State.keepsRun_acquire (s : State) (c : Nat) (sc : Scope) : s.keepsRun (s.acquire c sc) := by
  unfold State.acquire
  split
  · exact s.keepsRun_refl
  · dsimp only
    split
    · exact s.keepsRun_refl
    · exact s.keepsRun_setCas _ _
  · exact s.keepsRun_setCas _ _

/-- A load under way is counted at its core and, on a tandem, in its block; nothing else of the core changes. -/
theorem State.loadIssued_core (s : State) (c : Nat) :
    (s.loadIssued c).core c = { s.core c with
      loads := (s.core c).loads + 1
      run := (s.core c).run.map (fun f => { f with tandem := f.tandem.map (fun t => { t with loads := t.loads + 1 }) }) } := by
  show (s.setCore c _).core c = _
  simp

/-- The loads of an instruction take their places in the queue of their tandem; nothing else of the core changes. -/
theorem State.queueLoads_core (s : State) (c : Nat) (acc : List (Bool × Nat × Nat)) :
    (s.queueLoads c acc).core c = { s.core c with
      run := (s.core c).run.map (fun f => { f with tandem := f.tandem.map (fun t =>
        { t with queue := t.queue ++ acc.map (fun a => ⟨t.bsn, t.slot, a.1, a.2.1, a.2.2⟩) }) }) } := by
  unfold State.queueLoads
  split
  · rename_i f hf
    split
    · rename_i t ht
      simp [hf, ht]
    · rename_i ht
      rw [hf, Option.map_some, ht, Option.map_none, ← ht, ← hf]
  · rename_i hf
    rw [hf, Option.map_none, ← hf]

theorem State.loadIssued_mem (s : State) (c : Nat) : (s.loadIssued c).mem = s.mem := rfl

/-- The loads of an instruction change the firing that runs, and nothing of memory, the turn, or the count of loads. -/
theorem State.queueLoads_keeps (s : State) (c : Nat) (acc : List (Bool × Nat × Nat)) :
    (s.queueLoads c acc).mem = s.mem ∧ (s.queueLoads c acc).cur = s.cur
      ∧ ((s.queueLoads c acc).core c).loads = (s.core c).loads := by
  refine ⟨?_, ?_, by rw [State.queueLoads_core]⟩ <;> unfold State.queueLoads <;> split <;> try rfl
  all_goals split <;> rfl

/-- The running firing once a load is under way and in its queue. -/
theorem State.loadIssued_cf (s : State) (c : Nat) (acc : List (Bool × Nat × Nat)) (h : c = s.cur) :
    ((s.loadIssued c).queueLoads c acc).cf = s.loadsCf acc := by
  subst h
  have e := (s.loadIssued s.cur).queueLoads_core s.cur acc
  simp only [State.cf, State.run?, State.loadsCf]
  rw [((s.loadIssued s.cur).queueLoads_keeps s.cur acc).2.1, show (s.loadIssued s.cur).cur = s.cur from rfl, e, s.loadIssued_core]
  cases (s.core s.cur).run with
  | none => rfl
  | some f => cases ht : f.tandem <;> simp [ht]

theorem needAlign_ok {ea n : Nat} {o : Ord} (h : o ≠ .rlx → ea % n = 0) : needAlign ea n (o != .rlx) = .ok () := by
  unfold needAlign
  split
  · rename_i h1; simp at h1; exact absurd (h h1.1) h1.2
  · rfl

/-- A store's effect on the L1 lines of its cassette changes nothing but the cassette. -/
theorem State.updateLines_eq (s : State) (c key : Nat) (data : List Byte) :
    s.updateLines c key data = { s with cass := (s.updateLines c key data).cass } := by
  unfold State.updateLines
  dsimp only
  split <;> rfl

/-- A part of a store that is on its way: memory is as before, and the store stands last. -/
theorem State.storePart_mem (s : State) (p : PStore) :
    (s.storePart p).mem = s.mem ∧ (s.storePart p).pend = s.pend ++ [p] ∧ (s.storePart p).cores = s.cores
      ∧ (s.storePart p).cur = s.cur ∧ (s.storePart p).changes = s.changes ∧ (s.storePart p).nextTag = s.nextTag := by
  unfold State.storePart
  dsimp only
  rw [s.updateLines_eq p.core p.key p.data]
  repeat' split
  all_goals exact ⟨rfl, rfl, rfl, rfl, rfl, rfl⟩

/-! ## Stores leave the core (R253) -/

/-- What a queued store may change: the stores under way, its cassette's lines, and what is planned. -/
def State.queues (s t : State) (ps : List PStore) : Prop :=
  t.mem = s.mem ∧ t.pend = s.pend ++ ps ∧ t.cores = s.cores ∧ t.cur = s.cur ∧ t.changes = s.changes ∧ t.nextTag = s.nextTag

theorem State.queues_trans {s t u : State} {ps qs : List PStore} (h1 : s.queues t ps) (h2 : t.queues u qs) :
    s.queues u (ps ++ qs) := by
  obtain ⟨a, b, c, d, e, f⟩ := h1
  obtain ⟨a', b', c', d', e', f'⟩ := h2
  exact ⟨a'.trans a, by rw [b', b, List.append_assoc], c'.trans c, d'.trans d, e'.trans e, f'.trans f⟩

theorem State.storePart_queues (s : State) (p : PStore) : s.queues (s.storePart p) [p] := s.storePart_mem p

/-- The parts of one element: a page takes its share of the bytes. -/
theorem State.storePages_queue (part : Seg → List Byte → PStore) (g : List Seg) (s : State) (data : List Byte) :
    s.queues (g.foldl (fun (p : State × List Byte) q =>
      (p.1.storePart (part q (p.2.take q.len)), p.2.drop q.len)) (s, data)).1 (segParts part g data) := by
  induction g generalizing s data with
  | nil => exact ⟨rfl, by simp [segParts], rfl, rfl, rfl, rfl⟩
  | cons q g ih => exact State.queues_trans (s.storePart_queues _) (ih _ _)

/-- A release advances its die's clock and nothing else (R167). -/
theorem State.closeEpoch_eq (s : State) (c : Nat) (rel : Option Scope) :
    s.closeEpoch c rel = { s with dies := (s.closeEpoch c rel).dies } := by
  unfold State.closeEpoch
  split <;> rfl

/-- A store that is not performed as it issues: one element, through translated memory, a window, or in a tandem. -/
theorem State.storeLoc_queues (s : State) (k : StoreCtl) (ea : Nat) (l : Loc) (data : List Byte) (hn : k.now = false)
    (ha : l.ownAlias k.core = true → k.blk.isSome = true ∨ s.badRun ((l.keys 1).headD 0) data.length = true) :
    s.queues (s.storeLoc k ea l data) (k.parts ea l data) := by
  cases l with
  | slice t off w =>
    simp only [State.storeLoc, hn]
    have h1 : ¬ (decide (t = k.core) && k.blk.isNone && !s.badRun (sliceKey t off) data.length && !w) = true := by
      intro h
      simp only [Bool.and_eq_true, decide_eq_true_eq, Bool.not_eq_true'] at h
      have := ha (by simp [Loc.ownAlias, h.1.1.1, h.2])
      simp only [Loc.keys, List.range_one, List.map_cons, List.map_nil, Nat.add_zero, List.headD_cons] at this
      rcases this with hb | hb
      · rw [Option.isNone_iff_eq_none.1 h.1.1.2] at hb
        simp at hb
      · rw [h.1.2] at hb
        simp at hb
    rw [if_neg h1, if_neg (by simp)]
    exact s.storePart_queues _
  | phys g =>
    exact State.storePages_queue
      (fun q d => ⟨k.tag, k.core, k.ctx, k.num, q.va, q.key, d, k.rel, k.clock, false, q.cls k.cls, k.blk⟩)
      g s data

/-- Writing bytes and using a count keeps the canonical form. -/
theorem State.useFresh_setBytes_wf (s : State) (k : Nat) (v : List Byte) (hm : Memory.wf s.changes s.mem = true) :
    Memory.wf (s.setBytes k v).useFresh.changes (s.setBytes k v).useFresh.mem = true :=
  setBytes_wf s k v hm

/-- One sync word under a store: spoilt when the store touches it. -/
def State.spoilOne (s : State) (key n w : Nat) (data : List Byte) : State :=
  if w < key + n && key < w + 16 then (s.setBytes w data).useFresh else s

theorem State.spoilOne_keeps (s : State) (key n w : Nat) (data : List Byte) (hm : Memory.wf s.changes s.mem = true) :
    Memory.wf (s.spoilOne key n w data).changes (s.spoilOne key n w data).mem = true
      ∧ (s.spoilOne key n w data).cores = s.cores ∧ (s.spoilOne key n w data).pend = s.pend
      ∧ (s.spoilOne key n w data).cur = s.cur := by
  unfold State.spoilOne
  split
  · have e := setBytes_sameButMem s w data
    unfold State.sameButMem at e
    refine ⟨s.useFresh_setBytes_wf w data hm, ?_, ?_, ?_⟩ <;> simp only [State.useFresh] <;> rw [← e]
  · exact ⟨hm, rfl, rfl, rfl⟩

theorem State.spoilOne_byte (s : State) (key n w k : Nat) (data : List Byte) (hm : Memory.wf s.changes s.mem = true)
    (hk : w < key + n ∧ key < w + 16 → ¬(w ≤ k ∧ k < w + data.length)) :
    (s.spoilOne key n w data).byte k = s.byte k := by
  unfold State.spoilOne
  split
  · rename_i hw
    simp only [Bool.and_eq_true, decide_eq_true_eq] at hw
    have h0 := hk hw
    exact byte_setBytes_other s w data k hm (by omega)
  · rfl

theorem State.spoilSync_eq (s : State) (key n : Nat) : s.spoilSync key n =
    s.syncs.foldl (fun s w => s.spoilOne key n w ((List.range 16).map (fun i => Config.syncUndef (16 * s.fresh + i)))) s :=
  rfl

/-- A spoilt sync word changes its own 16 bytes at most. -/
theorem State.spoilSync_byte (s : State) (key n k : Nat) (hm : Memory.wf s.changes s.mem = true)
    (hk : ∀ w ∈ s.syncs, w < key + n ∧ key < w + 16 → ¬(w ≤ k ∧ k < w + 16)) :
    (s.spoilSync key n).byte k = s.byte k := by
  rw [State.spoilSync_eq]
  generalize s.syncs = l at hk
  induction l generalizing s with
  | nil => rfl
  | cons w l ih =>
    simp only [List.foldl_cons]
    rw [ih _ (s.spoilOne_keeps key n w _ hm).1 (fun w' h => hk w' (List.mem_cons_of_mem _ h)),
      s.spoilOne_byte key n w k _ hm]
    simpa using hk w (List.mem_cons_self ..)

theorem State.spoilSync_keeps (s : State) (key n : Nat) (hm : Memory.wf s.changes s.mem = true) :
    Memory.wf (s.spoilSync key n).changes (s.spoilSync key n).mem = true ∧ (s.spoilSync key n).cores = s.cores
      ∧ (s.spoilSync key n).pend = s.pend ∧ (s.spoilSync key n).cur = s.cur := by
  rw [State.spoilSync_eq]
  generalize s.syncs = l
  induction l generalizing s with
  | nil => exact ⟨hm, rfl, rfl, rfl⟩
  | cons w l ih =>
    simp only [List.foldl_cons]
    obtain ⟨a', b', c', d'⟩ := s.spoilOne_keeps key n w ((List.range 16).map (fun i => Config.syncUndef (16 * s.fresh + i))) hm
    obtain ⟨a, b, c, d⟩ := ih _ a'
    exact ⟨a, b.trans b', c.trans c', d.trans d'⟩

/-! ## Trace records (R372) -/

theorem State.keepsRun_traceCore (s : State) (c ty x pay : Nat) : s.keepsRun (s.traceCore c ty x pay) := by
  unfold State.traceCore
  dsimp only
  split
  · refine State.keepsRun_trans (s.keepsRun_setCore c _ ?_ ?_) (State.keepsRun_planNow _ _) <;> rfl
  · exact s.keepsRun_refl

theorem State.keepsRun_flushBranch (s : State) (c x : Nat) : s.keepsRun (s.flushBranch c x) := by
  unfold State.flushBranch
  dsimp only
  split
  · exact s.keepsRun_refl
  · refine State.keepsRun_trans (s.keepsRun_setCore c _ ?_ ?_) (State.keepsRun_traceCore _ _ _ _ _) <;> rfl

theorem State.keepsRun_traceAfterBranch (s : State) (c ty x pay : Nat) : s.keepsRun (s.traceAfterBranch c ty x pay) :=
  State.keepsRun_trans (s.keepsRun_flushBranch c x) (State.keepsRun_traceCore _ _ _ _ _)

theorem State.keepsRun_branchOutcome (s : State) (c x : Nat) (b : Bool) : s.keepsRun (s.branchOutcome c x b) := by
  unfold State.branchOutcome
  split
  · dsimp only
    split
    · refine State.keepsRun_trans (s.keepsRun_setCore c _ ?_ ?_) (State.keepsRun_flushBranch _ _ _) <;> rfl
    · refine s.keepsRun_setCore c _ ?_ ?_ <;> rfl
  · exact s.keepsRun_refl

end Sys2Proof.Machine
end

