-- ==== Sys2Proof/Laws/Inv.lean ====
section
/-! SUPPORT. The shared operations keep the invariant State.Inv: the pod's memory and the host's rings stay in canonical
form. One lemma for each operation, in the order of the model's files. -/

namespace Sys2Proof.Machine

namespace State

/-! ## How the invariant passes on -/

/-- A change of anything but the memory, its reset contents and the rings keeps the invariant. -/
theorem Inv.of_eq {s t : State} (h : s.Inv) (hm : t.mem = s.mem) (hc : t.changes = s.changes) (hh : t.host = s.host) :
    t.Inv := by
  unfold Inv
  rw [hm, hc, hh]
  exact h

theorem Inv.ite {s t : State} {c : Prop} [Decidable c] (hs : s.Inv) (ht : t.Inv) : (if c then s else t).Inv := by
  split
  · exact hs
  · exact ht

theorem Inv.foldl {α : Type} {s : State} (h : s.Inv) (f : State → α → State) (l : List α)
    (hf : ∀ (u : State) a, u.Inv → (f u a).Inv) : (l.foldl f s).Inv := by
  induction l generalizing s with
  | nil => exact h
  | cons a l ih => exact ih (hf s a h)

theorem Inv.setCore {s : State} (h : s.Inv) (c : Nat) (x : Core) : (s.setCore c x).Inv := h
theorem Inv.setCas {s : State} (h : s.Inv) (k : Nat) (x : Cas) : (s.setCas k x).Inv := h
theorem Inv.setDie {s : State} (h : s.Inv) (k : Nat) (x : Die) : (s.setDie k x).Inv := h
theorem Inv.setPkg {s : State} (h : s.Inv) (k : Nat) (x : Pkg) : (s.setPkg k x).Inv := h
theorem Inv.setCtx {s : State} (h : s.Inv) (k : Nat) (x : Ctx) : (s.setCtx k x).Inv := h
theorem Inv.setFir {s : State} (h : s.Inv) (f : Firing) : (s.setFir f).Inv := h
theorem Inv.setCf {s : State} (h : s.Inv) (f : Firing) : (s.setCf f).Inv := h
theorem Inv.setChan {s : State} (h : s.Inv) (k : Nat) (x : Chan) : (s.setChan k x).Inv := h
theorem Inv.useFresh {s : State} (h : s.Inv) : s.useFresh.Inv := h
theorem Inv.dropChoice {s : State} (h : s.Inv) : s.dropChoice.Inv := h
theorem Inv.plan {s : State} (h : s.Inv) (due : Nat) (i : Instr) : (s.plan due i).Inv := h
theorem Inv.planNow {s : State} (h : s.Inv) (i : Instr) : (s.planNow i).Inv := h
theorem Inv.post {s : State} (h : s.Inv) (m : Msg) (mk : Nat → Instr) : (s.post m mk).Inv := h
theorem Inv.dropMsg {s : State} (h : s.Inv) (t : Nat) : (s.dropMsg t).Inv := h
theorem Inv.setMsg {s : State} (h : s.Inv) (t : Nat) (m : Msg) : (s.setMsg t m).Inv := h

/-! ## Memory and the rings -/

theorem Inv.setByte {s : State} (h : s.Inv) (k : Nat) (v : Byte) : (s.setByte k v).Inv := ⟨s.setByte_wf k v h.1, h.2⟩

theorem Inv.setBytes {s : State} (h : s.Inv) (k : Nat) (v : List Byte) : (s.setBytes k v).Inv := by
  induction v generalizing s k with
  | nil => exact h
  | cons b t ih => exact ih (h.setByte k b) (k + 1)

theorem Inv.setNum {s : State} (h : s.Inv) (k n v : Nat) : (s.setNum k n v).Inv := h.setBytes k _

theorem Inv.setHost {s : State} (h : s.Inv) (a : Nat) (v : List Byte) : (s.setHost a v).Inv := by
  refine ⟨h.1, ?_⟩
  unfold State.setHost
  dsimp only
  generalize v.zipIdx = l
  have h2 := h.2
  generalize s.host = m at h2
  induction l generalizing m with
  | nil => exact h2
  | cons b t ih => exact ih _ (Cells.write_wf _ _ h2)

/-! ## The running firing -/

theorem Inv.setRaw {s : State} (h : s.Inv) (i : Nat) (v : Word) : (s.setRaw i v).Inv := by
  unfold State.setRaw
  dsimp only
  split
  · exact h
  · exact h.setNum _ _ _

theorem Inv.setWord {s : State} (h : s.Inv) (i : Nat) (v : Word) : (s.setWord i v).Inv := by
  unfold State.setWord
  split
  · exact h.setRaw _ _
  · exact h.setRaw _ _

theorem Inv.setWords {s : State} (h : s.Inv) (ws : List (Nat × Word)) : (s.setWords ws).Inv :=
  h.foldl _ _ (fun _ _ hu => hu.setWord _ _)

theorem Inv.setPred {s : State} (h : s.Inv) (p : Nat) (b : Bool) : (s.setPred p b).Inv := by
  unfold State.setPred
  split
  · exact h
  · exact h.setRaw _ _

theorem Inv.jump {s : State} (h : s.Inv) (pc : Nat) : (s.jump pc).Inv := h
theorem Inv.advance {s : State} (h : s.Inv) : s.advance.Inv := h
theorem Inv.commit {s : State} (h : s.Inv) : s.commit.Inv := h
theorem Inv.count {s : State} (h : s.Inv) (c code n : Nat) : (s.count c code n).Inv := h
theorem Inv.awaitAnswer {s : State} (h : s.Inv) (c : Nat) : (s.awaitAnswer c).Inv := h
theorem Inv.gotAnswer {s : State} (h : s.Inv) (c : Nat) : (s.gotAnswer c).Inv := h

theorem Inv.moveSlot {s : State} (h : s.Inv) (c : Nat) (f : Nat → Nat) : (s.moveSlot c f).Inv := by
  unfold State.moveSlot
  repeat' split
  all_goals exact h

theorem Inv.onCore {s : State} (h : s.Inv) (c : Nat) (body : State → State) (hb : ∀ u : State, u.Inv → (body u).Inv) :
    (s.onCore c body).Inv := by
  unfold State.onCore
  split
  · have h1 : (({ s with cur := c } : State).moveSlot c (· - 1)).Inv := Inv.moveSlot (s := { s with cur := c }) h _ _
    exact (hb _ h1).moveSlot c (· + 1)
  · exact hb { s with cur := c } h

theorem Inv.tally {s : State} (h : s.Inv) (c : Nat) : (s.tally c).Inv := by
  unfold State.tally
  split <;> exact h

theorem Inv.takeFault {s : State} (h : s.Inv) (c : Nat) (t : Trap) : (s.takeFault c t).Inv := by
  unfold State.takeFault
  dsimp only
  split
  · exact h
  · split <;> exact h

theorem Inv.noteCap {s : State} (h : s.Inv) (k x va : Nat) : (s.noteCap k x va).Inv := by
  obtain ⟨cs, e⟩ := s.noteCap_cass k x va
  rw [e]
  exact h

theorem Inv.noteFailed {s : State} (h : s.Inv) (t : Trap) : (s.noteFailed t).Inv := by
  obtain ⟨cs, e⟩ := s.noteFailed_cass t
  rw [e]
  exact h

theorem Inv.fault {s : State} (h : s.Inv) (t : Trap) : (s.fault t).Inv := (h.noteFailed t).takeFault _ _

theorem Inv.askFar {s : State} (h : s.Inv) (src : Nat) (w : Bool) (x va k : Nat) : (s.askFar src w x va k).Inv := by
  unfold State.askFar
  split
  · exact h
  · split <;> exact h

theorem Inv.gotWay {s : State} (h : s.Inv) (tag : Nat) : (s.gotWay tag).Inv := by
  unfold State.gotWay
  split <;> exact h

/-! ## Notes, traces and counts -/

theorem Inv.noteTlb {s : State} (h : s.Inv) (k : Nat) (t : Tlb) : (s.noteTlb k t).Inv := by
  rw [noteTlb_eq]
  exact h

theorem Inv.noteLoc {s : State} (h : s.Inv) (k : Nat) (l : Loc) : (s.noteLoc k l).Inv := by
  rw [noteLoc_eq]
  exact h

theorem Inv.traceCore {s : State} (h : s.Inv) (c ty x pay : Nat) : (s.traceCore c ty x pay).Inv := by
  unfold State.traceCore
  split <;> exact h

theorem Inv.traceDev {s : State} (h : s.Inv) (d ty x c pay : Nat) : (s.traceDev d ty x c pay).Inv := by
  unfold State.traceDev
  dsimp only
  split
  · split <;> exact h
  · exact h

theorem Inv.flushBranch {s : State} (h : s.Inv) (c x : Nat) : (s.flushBranch c x).Inv := by
  unfold State.flushBranch
  dsimp only
  split
  · exact h
  · exact (h.setCore _ _).traceCore _ _ _ _

theorem Inv.traceAfterBranch {s : State} (h : s.Inv) (c ty x pay : Nat) : (s.traceAfterBranch c ty x pay).Inv :=
  (h.flushBranch c x).traceCore _ _ _ _

theorem Inv.branchOutcome {s : State} (h : s.Inv) (c x : Nat) (b : Bool) : (s.branchOutcome c x b).Inv := by
  unfold State.branchOutcome
  dsimp only
  split
  · split
    · exact (h.setCore _ _).flushBranch _ _
    · exact h
  · exact h

/-! ## Vector registers -/

theorem Inv.setVreg {s : State} (h : s.Inv) (n : Nat) (v : VecBits) : (s.setVreg n v).Inv := h
theorem Inv.useVec {s : State} (h : s.Inv) : s.useVec.Inv := h
theorem Inv.undefVecs {s : State} (h : s.Inv) : s.undefVecs.Inv := h
theorem Inv.putLanes {s : State} (h : s.Inv) (n : Nat) (lm : Bool) (w : Nat) (f : Nat → Nat) : (s.putLanes n lm w f).Inv := h

/-! ## Loads and stores -/

theorem Inv.catchUp {s : State} (h : s.Inv) (key n : Nat) : (s.catchUp key n).Inv := by
  unfold State.catchUp
  dsimp only
  repeat' split
  all_goals exact h

theorem Inv.closeGroups {s : State} (h : s.Inv) (key n : Nat) : (s.closeGroups key n).Inv := by
  unfold State.closeGroups
  split <;> exact h

theorem Inv.recount {s : State} (h : s.Inv) (key n : Nat) : (s.recount key n).Inv :=
  h.foldl _ _ (fun _ _ hu => hu.planNow _)

theorem Inv.landBytes {s : State} (h : s.Inv) (key : Nat) (data : List Byte) : (s.landBytes key data).Inv :=
  (((h.setBytes key data).catchUp _ _).closeGroups _ _).recount _ _

theorem Inv.askFill {s : State} (h : s.Inv) (k line : Nat) (cls : BitVec 2) : (s.askFill k line cls).Inv := by
  unfold State.askFill
  dsimp only
  repeat' split
  all_goals exact h

theorem Inv.closeEpoch {s : State} (h : s.Inv) (c : Nat) (rel : Option Scope) : (s.closeEpoch c rel).Inv := by
  unfold State.closeEpoch
  split <;> exact h

theorem Inv.applyClock {s : State} (h : s.Inv) (c : Nat) (clk : KMap (BitVec 32)) : (s.applyClock c clk).Inv := by
  unfold State.applyClock
  split
  · exact h
  · exact h.foldl _ _ (fun _ _ hu => Inv.ite hu (Inv.setDie hu _ _))

theorem Inv.evictDirty {s : State} (h : s.Inv) (line : Nat) : (s.evictDirty line).Inv := by
  unfold State.evictDirty
  dsimp only
  repeat' split
  all_goals exact h

theorem Inv.refreshLine {s : State} (h : s.Inv) (k line : Nat) : (s.refreshLine k line).Inv := by
  unfold State.refreshLine
  dsimp only
  repeat' split
  all_goals exact h

theorem Inv.loadIssued {s : State} (h : s.Inv) (c : Nat) : (s.loadIssued c).Inv := h

theorem Inv.acquire {s : State} (h : s.Inv) (c : Nat) (sc : Scope) : (s.acquire c sc).Inv := by
  unfold State.acquire
  split
  · exact h
  · dsimp only
    split <;> exact h
  · exact h

theorem Inv.watch {s : State} (h : s.Inv) (c x : Nat) (acc : List (Nat × Nat)) (ld st : Bool) :
    (s.watch c x acc ld st).Inv := by
  unfold State.watch
  dsimp only
  split <;> exact h

theorem Inv.updateLines {s : State} (h : s.Inv) (c key : Nat) (data : List Byte) : (s.updateLines c key data).Inv := by
  unfold State.updateLines
  dsimp only
  split <;> exact h

theorem Inv.spoilSync {s : State} (h : s.Inv) (key n : Nat) : (s.spoilSync key n).Inv := by
  unfold State.spoilSync
  refine h.foldl _ _ (fun u w hu => ?_)
  split
  · exact (hu.setBytes _ _).useFresh
  · exact hu

theorem Inv.countIssue {s : State} (h : s.Inv) (c : Nat) : (s.countIssue c).Inv := h
theorem Inv.countDrain {s : State} (h : s.Inv) (c : Nat) : (s.countDrain c).Inv := h

theorem Inv.clean {s : State} (h : s.Inv) (f : Nat → Bool) : (s.clean f).Inv := h

theorem Inv.soil {s : State} (h : s.Inv) (key : Nat) (cls : BitVec 2) : (s.soil key cls).Inv := by
  unfold State.soil
  dsimp only
  split
  · have h' : ({ s with
        dirty := key / 128 :: s.dirty
        streamed := if cls = 1 then key / 128 :: s.streamed else s.streamed } : State).Inv := h
    exact Inv.evictDirty h' _
  · exact h

theorem Inv.noteBad {s : State} (h : s.Inv) (k : Nat) : (s.noteBad k).Inv := by
  unfold State.noteBad
  split <;> exact h

end State

theorem performStore_inv {s : State} (h : s.Inv) (p : PStore) : (performStore s p).1.Inv := by
  unfold performStore
  dsimp only
  split
  · exact State.Inv.ite (h.noteBad _) (h.noteBad _)
  · refine State.Inv.soil (State.Inv.soil ?_ _ _) _ _
    split
    · refine State.Inv.spoilSync ?_ _ _
      exact State.Inv.of_eq (h.landBytes p.key p.data) rfl rfl rfl
    · exact State.Inv.of_eq (h.landBytes p.key p.data) rfl rfl rfl

/-! ## Instructions -/

/-- An instruction keeps the invariant when its body does. -/
theorem withGuardJump_inv {s t : State} {hd : Head} {body : State → Res State} (h : s.Inv)
    (hb : ∀ u, body s = .ok u → u.Inv) (e : withGuardJump s hd body = .next t) : t.Inv := by
  obtain ⟨-, ⟨-, rfl⟩ | ⟨-, f, -, rfl⟩ | ⟨-, r, hr, rfl⟩⟩ := withGuardJump_cases e
  · exact h.advance
  · exact h.fault _
  · exact (hb r hr).tally _

/-- As withGuardJump_inv, for an instruction that only advances the pc. -/
theorem withGuard_inv {s t : State} {hd : Head} {body : State → Res State} (h : s.Inv)
    (hb : ∀ u, body s = .ok u → u.Inv) (e : withGuard s hd body = .next t) : t.Inv := by
  obtain ⟨-, ⟨-, rfl⟩ | ⟨-, f, -, rfl⟩ | ⟨-, r, hr, rfl⟩⟩ := withGuard_cases e
  · exact h.advance
  · exact h.fault _
  · exact (hb r hr).advance.tally _

/-- As withGuard_inv, for a vector access. -/
theorem withGuardElems_inv {s t : State} {hd : Head} {opnds : State → Res Unit} {body : State → Res State} (h : s.Inv)
    (hb : ∀ u, body s = .ok u → u.Inv) (e : withGuardElems s hd opnds body = .next t) : t.Inv := by
  obtain ⟨-, ⟨-, rfl⟩ | ⟨-, f, -, rfl⟩ | ⟨-, r, hr, rfl⟩⟩ := withGuardElems_cases e
  · exact h.advance
  · exact h.fault _
  · exact (hb r hr).advance.tally _

/-- An instruction whose read finds no way to its home keeps the invariant when it does once there is one. -/
theorem reachFirst_inv {s t : State} {hd : Head} {far : State → Option (Nat × Nat)} {go : Out} (h : s.Inv)
    (hg : ∀ u, go = .next u → u.Inv) (e : reachFirst s hd far go = .next t) : t.Inv := by
  unfold reachFirst at e
  split at e
  · obtain rfl := Host.Outcome.next.inj e
    exact h.askFar _ _ _ _ _
  · exact hg t e

/-- An instruction that may wait keeps the invariant when it does once it issues. -/
theorem notYet_inv {s t : State} {hd : Head} {wait : State → Bool} {go : Out} (h : s.Inv)
    (hg : ∀ u, go = .next u → u.Inv) (e : notYet s hd wait go = .next t) : t.Inv := by
  rcases notYet_cases e with rfl | e
  · exact h
  · exact hg t e

end Sys2Proof.Machine
end

