-- ==== Sys2Proof/Laws/InvDevice.lean ====
section
/-! SUPPORT. The operations of the device keep the invariant State.Inv: channels, releases, stops, starts, groups, engines,
the trace rings and the host's writes. -/

namespace Sys2Proof.Machine

namespace State

/-! ## Stores and atomics under way -/

theorem Inv.missed {s : State} (h : s.Inv) (c : Nat) (cls : BitVec 2) (l : Loc) : (s.missed c cls l).Inv := by
  unfold State.missed
  dsimp only
  split
  · exact h
  · exact Inv.foldl (Inv.ite (Inv.count (Inv.count h _ _ _) _ _ _) (Inv.count h _ _ _)) _ _
      (fun _ _ hu => Inv.ite (Inv.ite (hu.askFill _ _ _) hu) (hu.refreshLine _ _))

theorem Inv.storePart {s : State} (h : s.Inv) (p : PStore) : (s.storePart p).Inv := by
  unfold State.storePart
  dsimp only
  have h1 : (if p.blk.isSome = true then s else s.updateLines p.core p.key p.data).Inv := Inv.ite h (h.updateLines _ _ _)
  generalize (if p.blk.isSome = true then s else s.updateLines p.core p.key p.data) = t at h1
  exact Inv.of_eq (Inv.ite (c := (p.blk.isSome || t.pend.any (sameBlock p)) = true) h1 (h1.planNow (.storePerform p.tag)))
    rfl rfl rfl

theorem Inv.storeAlias {s : State} (h : s.Inv) (c key : Nat) (data : List Byte) : (s.storeAlias c key data).Inv := by
  unfold State.storeAlias
  dsimp only
  refine Inv.spoilSync (Inv.setBytes ?_ _ _) _ _
  exact h

theorem Inv.sendAtom {s : State} (h : s.Inv) (a : Atom) : (s.sendAtom a).Inv := by
  unfold State.sendAtom
  dsimp only
  repeat' split
  all_goals exact h

theorem Inv.atomIssued {s : State} (h : s.Inv) (x : Mem) : (s.atomIssued x).Inv := Inv.closeEpoch (s := (s.countIssue _).count _ _ _) h _ _
theorem Inv.setRovl {s : State} (h : s.Inv) (x : Nat) : (s.setRovl x).Inv := h

/-! ## Channels -/

theorem Inv.writeHome {s : State} (h : s.Inv) (key : Nat) (data : List Byte) : (s.writeHome key data).Inv := by
  unfold State.writeHome
  exact (h.setBytes key data).foldl _ _ (fun _ _ hu => hu.soil _ _)

theorem Inv.setPidx {s : State} (h : s.Inv) (k : Nat) (v : BitVec 32) : (s.setPidx k v).Inv := h.writeHome _ _
theorem Inv.setClm {s : State} (h : s.Inv) (k : Nat) (v : BitVec 32) : (s.setClm k v).Inv := h.writeHome _ _
theorem Inv.setCidx {s : State} (h : s.Inv) (k : Nat) (v : BitVec 32) : (s.setCidx k v).Inv := h.writeHome _ _

theorem Inv.publish {s : State} (h : s.Inv) (c x : Nat) (d : Desc) (i : BitVec 32) (hd : Nat × Nat) :
    (s.publish c x d i hd).Inv := by
  unfold State.publish
  split
  · exact h
  · exact (h.writeHome _ _).planNow _

theorem Inv.publishOwn {s : State} (h : s.Inv) (c x : Nat) (d : Desc) (i : BitVec 32) (hd : Nat × Nat) :
    (s.publishOwn c x d i hd).Inv := by
  unfold State.publishOwn
  split
  · exact h
  · exact (h.publish _ _ _ _ _).updateLines _ _ _

theorem Inv.voidSlot {s : State} (h : s.Inv) (c x : Nat) (r : Resv) (st : BitVec 32) : (s.voidSlot c x r st).Inv := by
  unfold State.voidSlot
  repeat' split
  all_goals first | exact h | exact h.publish _ _ _ _ _

theorem Inv.advanceClm {s : State} (h : s.Inv) (k n : Nat) : (s.advanceClm k n).Inv := by
  induction n generalizing s with
  | zero => exact h
  | succ n ih =>
    unfold State.advanceClm
    dsimp only
    split
    · exact ih (h.setClm _ _)
    · exact h

theorem Inv.advanceCidx {s : State} (h : s.Inv) (k n : Nat) : (s.advanceCidx k n).Inv := by
  induction n generalizing s with
  | zero => exact h
  | succ n ih =>
    unfold State.advanceCidx
    dsimp only
    split
    · exact ih ((h.setChan _ _).setCidx _ _)
    · exact h

theorem Inv.writeRecord {s t : State} (h : s.Inv) {near core x : Nat} {ws : List Nat}
    (e : s.writeRecord near core x ws = some t) : t.Inv := by
  unfold State.writeRecord at e
  split at e
  · cases e
  · split at e
    · cases e
    · split at e
      · cases e
      · cases e
        exact ((h.setPidx _ _).writeHome _ _).publish _ _ _ _ _

theorem Inv.notice {s : State} (h : s.Inv) (near core x cls addr info pc hdr : Nat) :
    (s.notice near core x cls addr info pc hdr).Inv := by
  unfold State.notice
  split
  · exact h
  · dsimp only
    split
    · exact h
    · cases e : s.writeRecord near core x _ with
      | none => exact h
      | some t => exact h.writeRecord e

theorem Inv.flushNotices {s : State} (h : s.Inv) : s.flushNotices.Inv := by
  unfold State.flushNotices
  refine h.foldl _ _ (fun u n hu => ?_)
  split
  · next t e => exact Inv.of_eq (hu.writeRecord e) rfl rfl rfl
  · exact hu

theorem Inv.freeSlots {s : State} (h : s.Inv) (k : Nat) (is : List (BitVec 32)) : (s.freeSlots k is).Inv :=
  Inv.flushNotices (Inv.advanceCidx (Inv.advanceClm (h.setChan _ _) _ _) _ _)

theorem Inv.freeClaims {s : State} (h : s.Inv) (c x : Nat) (cl : List Claim) : (s.freeClaims c x cl).Inv := by
  unfold State.freeClaims
  refine h.foldl _ _ (fun u q hu => ?_)
  split
  · exact hu
  · exact hu.freeSlots _ _

/-! ## Firings: made, ready, released -/

theorem Inv.make {s : State} (h : s.Inv) (f : Firing) : (s.make f).1.Inv := h

theorem Inv.childPath {s : State} (h : s.Inv) : s.childPath.2.Inv := by
  unfold State.childPath
  dsimp only
  split <;> exact h

theorem Inv.enterReady {s : State} (h : s.Inv) (f : Firing) : (s.enterReady f).Inv := h
theorem Inv.reinsert {s : State} (h : s.Inv) (f : Firing) : (s.reinsert f).Inv := h

theorem Inv.released {s : State} (h : s.Inv) (f : Firing) : (s.released f).Inv := by
  unfold State.released
  split <;> exact h

theorem Inv.releaseAll {s : State} (h : s.Inv) : s.releaseAll.Inv := by
  unfold State.releaseAll
  exact h.foldl _ _ (fun _ _ hu => Inv.ite (Inv.planNow hu _) hu)

theorem Inv.releaseLocks {s : State} (h : s.Inv) (d x : Nat) (els : List LockEl) (mode : RelMode) :
    (s.releaseLocks d x els mode).Inv := by
  unfold State.releaseLocks
  dsimp only
  refine h.foldl _ _ (fun u e hu => ?_)
  split <;> exact hu

theorem Inv.releases {s : State} (h : s.Inv) (f : Firing) (fs : Bool) : (s.releases f fs).Inv := by
  unfold State.releases
  dsimp only
  generalize (if f.placed then f.core else dieCore f.die) = c
  have h1 : (f.resv.foldl (fun s r => s.voidSlot c f.ctx r f.last) s).Inv :=
    h.foldl _ _ (fun u r hu => hu.voidSlot _ _ _ _)
  generalize f.resv.foldl (fun s r => s.voidSlot c f.ctx r f.last) s = u at h1
  have h2 : (if fs then u.freeClaims c f.ctx f.claims else u).Inv := Inv.ite (h1.freeClaims _ _ _) h1
  generalize (if fs then u.freeClaims c f.ctx f.claims else u) = v at h2
  have h3 := h2.releaseLocks f.die f.ctx f.got .free
  split
  · exact Inv.ite h3 (h3.releaseLocks _ _ _ _)
  · exact h3

theorem Inv.traceEnd {s : State} (h : s.Inv) (c : Nat) (f : Firing) (how : Nat) : (s.traceEnd c f how).Inv :=
  h.traceAfterBranch _ _ _ _

theorem Inv.account {s : State} (h : s.Inv) (c x sender a b r n : Nat) : (s.account c x sender a b r n).Inv := by
  unfold State.account
  dsimp only
  split <;> exact h

/-! ## Stops -/

theorem Inv.forget {s : State} (h : s.Inv) (key : Nat) : (s.forget key).Inv := h

theorem Inv.rePlace {s : State} (h : s.Inv) (d : Nat) : (s.rePlace d).Inv :=
  h.foldl _ _ (fun _ _ hu => Inv.ite (Inv.planNow hu _) hu)

theorem Inv.freed {s : State} (h : s.Inv) (c : Nat) : (s.freed c).Inv := by
  unfold State.freed
  dsimp only
  have h1 : ((s.firings.foldl (fun s e =>
      if e.2.stage == .composed && dieOf e.2.core == dieOf c then s.planNow (.tandemStart e.1)
      else s) ((s.planNow (.nextFiring c)).rePlace (dieOf c)))).Inv :=
    Inv.foldl (Inv.rePlace (Inv.planNow h _) _) _ _ (fun _ _ hu => Inv.ite (Inv.planNow hu _) hu)
  repeat' split
  all_goals exact h1

theorem Inv.nextPass {s : State} (h : s.Inv) (f : Firing) : (s.nextPass f).Inv := by
  unfold State.nextPass
  split
  · exact h
  · refine h.foldl _ _ (fun u e hu => ?_)
    split <;> exact hu

theorem Inv.refill {s : State} (h : s.Inv) (d b x n : Nat) : (s.refill d b x n).Inv := by
  induction n generalizing s with
  | zero => exact h
  | succ n ih =>
    unfold State.refill
    dsimp only
    split
    · exact h
    · split
      · exact h
      · exact Inv.ite (ih (h.setFir _)) h

theorem Inv.refillBank {s : State} (h : s.Inv) (d b : Nat) : (s.refillBank d b).Inv :=
  h.foldl _ _ (fun _ _ hu => hu.refill _ _ _ _)

theorem Inv.clearWait {s : State} (h : s.Inv) (key : Nat) : (s.clearWait key).Inv := h

theorem Inv.settleForks {s : State} (h : s.Inv) (c : Nat) : (s.settleForks c).Inv := by
  unfold State.settleForks
  refine h.foldl _ _ (fun u k hu => ?_)
  repeat' split
  all_goals exact hu

theorem Inv.dryShare {s : State} (h : s.Inv) (d x : Nat) : (s.dryShare d x).Inv := Inv.ite (h.setDie _ _) h

theorem Inv.accountRun {s : State} (h : s.Inv) (f : Firing) : (s.accountRun f).Inv :=
  Inv.ite (h.account _ _ _ _ _ _ _) h

theorem Inv.abandon {s : State} (h : s.Inv) (f : Firing) : (s.abandon f).Inv := by
  unfold State.abandon
  dsimp only
  have h1 := Inv.nextPass (Inv.forget (Inv.releases (h.accountRun f) f true) f.key) f
  have h2 : ((((s.accountRun f).releases f true).cores.filter (fun e => e.2.kept.any (fun k => k.1 == f.key))).foldl
      (fun s e => s.planNow (.nextFiring e.1)) ((((s.accountRun f).releases f true).forget f.key).nextPass f)).Inv :=
    h1.foldl _ _ (fun _ _ hu => hu.planNow _)
  refine Inv.freed ?_ _
  generalize List.foldl _ _ _ = u at h2
  have h3 := Inv.ite (c := (f.stage == .ready) = true) ((h2.refillBank f.die f.bank).dryShare f.die f.ctx) h2
  exact Inv.ite (h3.settleForks _) h3

theorem Inv.saveBlock {s : State} (h : s.Inv) (f : Firing) : (s.saveBlock f).1.Inv := by
  unfold State.saveBlock
  dsimp only
  exact Inv.foldl (((h.setNum _ _ _).setNum _ _ _).setNum _ _ _) _ _ (fun _ _ hu => hu.setNum _ _ _)

theorem Inv.saveIf {s : State} (h : s.Inv) (prec : Bool) (f : Firing) : (s.saveIf prec f).1.Inv := by
  unfold State.saveIf
  split
  · exact h.saveBlock f
  · exact h

theorem Inv.restore {s : State} (h : s.Inv) (good : Nat → Bool) : (s.restore good).Inv := by
  unfold State.restore
  split <;> exact h

theorem Inv.mend {s : State} (h : s.Inv) (runs : List (Nat × Nat)) : (s.mend runs).Inv := h.restore _

theorem Inv.mendLines {s : State} (h : s.Inv) (c : Nat) (runs : List (Nat × Nat)) : (s.mendLines c runs).Inv :=
  Inv.ite (h.setCas _ _) h

theorem Inv.leaveOne {s : State} (h : s.Inv) (c : Nat) (ps : List PStore) : (s.leaveOne c ps).Inv := by
  unfold State.leaveOne
  dsimp only
  have h0 : ({ s with nextTag := s.nextTag + 1 } : State).Inv := h
  have h2 := Inv.foldl ((h0.mend ((ps.filter PStore.viaAlias).map (fun p => (p.key, p.data.length)))).mendLines c
    (ps.map (fun p => (p.key, p.data.length)))) (fun u p =>
      if (p.viaAlias || p.beforeAlias ps) && !u.badRun p.key p.data.length then
        (if p.window then (u.landBytes p.key p.data).spoilSync p.key p.data.length else u.storeAlias c p.key p.data)
      else u.storePart { p with tag := s.nextTag, blk := none }) ps
    (fun u p hu => Inv.ite (Inv.ite ((hu.landBytes _ _).spoilSync _ _) (hu.storeAlias _ _ _)) (hu.storePart _))
  exact Inv.ite h2 (h2.countDrain c)

theorem Inv.leaveUpTo {s : State} (h : s.Inv) (c : Nat) (upTo : Nat → Bool) : (s.leaveUpTo c upTo).Inv := by
  unfold State.leaveUpTo
  dsimp only
  refine Inv.foldl ?_ _ _ (fun u g hu => hu.leaveOne _ _)
  exact h

theorem Inv.leaveStores {s : State} (h : s.Inv) (c : Nat) : (s.leaveStores c).Inv := h.leaveUpTo _ _

theorem Inv.gather {s : State} (h : s.Inv) (f : Firing) : (s.gather f).1.Inv := by
  unfold State.gather
  split
  · exact h
  · dsimp only
    exact Inv.foldl (Inv.foldl h _ _ (fun _ _ hu => hu.setNum _ _ _)) _ _ (fun _ _ hu => (hu.setCore _ _).freed _)

theorem Inv.emptyRun {s : State} (h : s.Inv) (c : Nat) : (s.emptyRun c).Inv := by
  unfold State.emptyRun
  dsimp only
  exact Inv.freed (s := { s.setCore c _ with agenda := _ }) h c

theorem Inv.stopRun {s : State} (h : s.Inv) (c : Nat) (f : Firing) (st : Stage) : (s.stopRun c f st).Inv :=
  ((((h.leaveStores c).traceEnd c f _).gather _).emptyRun c).setFir _

theorem Inv.order {s : State} (h : s.Inv) (f : Firing) (k : Cont) : (s.order f k).Inv := h

theorem Inv.haltNow {s : State} (h : s.Inv) (c : Nat) (r : BitVec 4) : (s.haltNow c r).Inv := by
  unfold State.haltNow
  dsimp only
  refine Inv.foldl ((h.setCore _ _).traceAfterBranch _ _ _ _) _ _ (fun u m hu => ?_)
  split
  · split <;> exact hu
  · exact hu

theorem Inv.preemptStop {s : State} (h : s.Inv) (c : Nat) (f : Firing) (k : Cont) : (s.preemptStop c f k).Inv := by
  unfold State.preemptStop
  dsimp only
  have h1 := (h.saveIf (k == .precise) { f with pin := true }).stopRun c (s.saveIf (k == .precise) { f with pin := true }).2
    (.ordered k)
  split
  · split
    · exact h1.abandon _
    · exact h1
  · exact h1

theorem Inv.requestPreempt {s : State} (h : s.Inv) (c : Nat) : (s.requestPreempt c).Inv := by
  unfold State.requestPreempt
  dsimp only
  repeat' split
  all_goals exact h

theorem Inv.stopEarly {s : State} (h : s.Inv) (f : Firing) (t : Trap) : (s.stopEarly f t).Inv := h

theorem Inv.voidAll {s : State} (h : s.Inv) (f : Firing) : (s.voidAll f).Inv :=
  h.foldl _ _ (fun _ _ hu => hu.voidSlot _ _ _ _)

/-! ## Starts -/

theorem Inv.initWords {s : State} (h : s.Inv) (f : Firing) : (s.initWords f).Inv :=
  h.foldl _ _ (fun _ _ hu => hu.setNum _ _ _)

theorem Inv.loseVolatile {s : State} (h : s.Inv) (f : Firing) : (s.loseVolatile f).Inv := by
  unfold State.loseVolatile
  split
  · exact h
  · exact Inv.useFresh (Inv.foldl h _ _ (fun _ _ hu => hu.setNum _ _ _))

theorem Inv.takeRun {s : State} (h : s.Inv) (c : Nat) (f : Firing) : (s.takeRun c f).Inv := by
  have h2 : ∀ (b : Bool) (u : State), u.Inv → (if b then u.haltNow c 0xA else u).Inv :=
    fun b u hu => Inv.ite (hu.haltNow _ _) hu
  unfold State.takeRun
  dsimp only
  refine h2 _ _ (Inv.traceCore (Inv.rePlace ?_ _) _ _ _ _)
  have h1 : ({ s with firings := s.firings.del f.key } : State).Inv := h
  have h3 := (h1.clearWait f.key).setCore c
    { (State.clearWait { s with firings := s.firings.del f.key } f.key).core c with
      run := some { f with stage := .running, trap := none, begun := true }
      slot := if ((State.clearWait { s with firings := s.firings.del f.key } f.key).core c).slot == some f.key then none
        else ((State.clearWait { s with firings := s.firings.del f.key } f.key).core c).slot
      stage := if ((State.clearWait { s with firings := s.firings.del f.key } f.key).core c).stage == some f.key then none
        else ((State.clearWait { s with firings := s.firings.del f.key } f.key).core c).stage
      spawnq := ((State.clearWait { s with firings := s.firings.del f.key } f.key).core c).spawnq.filter (· != f.key) }
  exact Inv.ite (h3.settleForks c) h3

theorem Inv.startFresh {s : State} (h : s.Inv) (c : Nat) (f : Firing) : (s.startFresh c f).Inv := by
  unfold State.startFresh
  dsimp only
  exact Inv.foldl (Inv.useFresh (Inv.takeRun (Inv.count ((h.acquire c _).initWords f) _ _ _) _ _)) _ _
    (fun u q hu => hu.traceCore _ _ _ _)

theorem Inv.startRegion {s : State} (h : s.Inv) (c : Nat) (f : Firing) : (s.startRegion c f).Inv :=
  Inv.useFresh (Inv.takeRun (Inv.count (h.loseVolatile f) _ _ _) _ _)

theorem Inv.startPrecise {s : State} (h : s.Inv) (c : Nat) (f : Firing) : (s.startPrecise c f).Inv :=
  Inv.takeRun (Inv.count (h.loseVolatile f) _ _ _) _ _

/-! ## Sync words and groups -/

theorem Inv.setSync {s : State} (h : s.Inv) (c off : Nat) (w : SyncWord) : (s.setSync c off w).Inv :=
  h.landBytes _ _

theorem Inv.setMapBit {s : State} (h : s.Inv) (g : GroupDesc) (c : Nat) (b : Bool) : (s.setMapBit g c b).Inv :=
  (h.landBytes _ _).soil _ _

theorem Inv.dropHold {s : State} (h : s.Inv) (key : Nat) : (s.dropHold key).Inv := by
  unfold State.dropHold
  dsimp only
  repeat' split
  all_goals exact h

theorem Inv.freeHold {s : State} (h : s.Inv) (key slice : Nat) : (s.freeHold key slice).Inv := by
  unfold State.freeHold
  dsimp only
  exact Inv.ite (Inv.planNow (h.dropHold key) _) (h.dropHold key)

theorem Inv.traceFire {s : State} (h : s.Inv) (home x : Nat) (gen : BitVec 32) (hn asked cause : Nat) :
    (s.traceFire home x gen hn asked cause).Inv :=
  h.traceDev _ _ _ _ _

theorem Inv.fireHold {s : State} (h : s.Inv) (key : Nat) (o : Hold) (g : GroupDesc) (cause : Nat) :
    (s.fireHold key o g cause).Inv := by
  unfold State.fireHold
  dsimp only
  refine Inv.foldl (Inv.planNow (Inv.traceFire ?_ _ _ _ _ _ _) _) _ _ (fun u e hu => ?_)
  · exact h
  · exact Inv.ite (Inv.ite (Inv.freeHold hu _ _) hu) hu

theorem Inv.land {s : State} (h : s.Inv) (c x dest sw : Nat) (data : List Byte) : (s.land c x dest sw data).Inv := by
  unfold State.land
  split
  · exact h
  · exact ((h.landBytes _ _).mend _).post _ _

/-! ## Engines -/

theorem Inv.setQueue {s : State} (h : s.Inv) (k q : Nat) (l : List EngCmd) : (s.setQueue k q l).Inv := h

theorem Inv.kick {s : State} (h : s.Inv) (k q : Nat) : (s.kick k q).Inv := by
  have fence : ∀ u : State, u.Inv → (if (u.readyFence k).isSome then u.planNow (.qfenceComplete k) else u).Inv :=
    fun _ hu => Inv.ite hu hu
  have early : ∀ u : State, u.Inv →
      (if q = 0 && (u.earlyLoad k).any (fun e => e.1 != 0) then u.planNow (.mxldPerform k) else u).Inv := fun _ hu => Inv.ite hu hu
  refine fence _ (early _ ?_)
  repeat' split
  all_goals exact h

theorem Inv.tell {s : State} (h : s.Inv) (c : EngCmd) (a b : Nat) : (s.tell c a b).Inv := by
  unfold State.tell
  split <;> exact h

theorem Inv.popCmd {s : State} (h : s.Inv) (k q : Nat) (c : EngCmd) : (s.popCmd k q c).Inv :=
  Inv.kick (Inv.traceDev (h.setQueue _ _ _) _ _ _ _ _) _ _

theorem Inv.holdCmd {s : State} (h : s.Inv) (k q : Nat) (c : EngCmd) (addr : Nat) : (s.holdCmd k q c addr).Inv :=
  Inv.kick (Inv.setQueue (h.notice _ _ _ _ _ _ _ _) _ _ _) _ _

theorem Inv.putKeys {s : State} (h : s.Inv) (k : Nat) (ks : List Nat) (v : List Byte) : (s.putKeys k ks v).Inv :=
  (Inv.foldl h _ (ks.zip v) (fun _ p hu => ((hu.landBytes p.1 [p.2]).soil p.1 0).updateLines (8 * k) p.1 [p.2])).restore _

/-! ## Trace rings and the host -/

theorem Inv.raise {s : State} (h : s.Inv) (p v : Nat) : (s.raise p v).Inv := h
theorem Inv.noteFull {s : State} (h : s.Inv) (d : Nat) : (s.noteFull d).Inv := h
theorem Inv.ringPut {s : State} (h : s.Inv) (d : Nat) (r : TraceRec) : (s.ringPut d r).Inv := (h.setHost _ _).setDie _ _

theorem Inv.ringLoss {s : State} (h : s.Inv) (d : Nat) : (s.ringLoss d).Inv := by
  unfold State.ringLoss
  dsimp only
  split
  · exact h
  · exact Inv.raise (Inv.setHost (Inv.setDie (h.ringPut _ _) _ _) _ _) _ _

theorem Inv.burst {s : State} (h : s.Inv) (d : Nat) : (s.burst d).Inv := by
  unfold State.burst
  dsimp only
  refine Inv.noteFull ?_ d
  have h1 := fun (u : State) (hu : u.Inv) (l : List TraceRec) =>
    Inv.foldl hu (fun s r => State.ringPut s d r) l (fun _ r hv => Inv.ringPut hv d r)
  have h2 := fun (x : Die) (l : List TraceRec) (a : Nat) (v : List Byte) =>
    Inv.setHost (h1 _ (Inv.setDie (h.ringLoss d) d x) l) a v
  exact Inv.ite (Inv.raise (h2 _ _ _ _) _ _) (h2 _ _ _ _)

theorem Inv.setCells {s : State} (h : s.Inv) (cells : List (Nat × Byte)) : (s.setCells cells).Inv := by
  refine ⟨?_, h.2⟩
  unfold State.setCells
  dsimp only
  have h1 := h.1
  generalize s.mem = m at h1
  induction cells generalizing m with
  | nil => exact h1
  | cons c t ih => exact ih _ (Cells.write_wf _ _ h1)

end State

end Sys2Proof.Machine
end

