-- ==== Sys2Proof/Tests/Slice0.lean ====
section
/-! SUPPORT. Tests, and for every statement a state and operands that meet its premises. -/

namespace Sys2Proof.Tests

set_option Elab.async false

open Sys2Proof Sys2Proof.Machine

/-! ## Words written out by their fields, and what they decode to -/

/-- A word with guard 0 and no hint, by its fields OP, FN, TY, D, A, B and MOD in the places of R193. -/
def inWord (op fn : BitVec 8) (ty : BitVec 4) (d a b : BitVec 18) (mod : BitVec 8) : IWord :=
  op ++ 0#4 ++ fn ++ ty ++ d ++ a ++ b ++ 0#10 ++ mod

/-- Every word decodes to the instruction beside it, which is well formed and encodes to the word. -/
def readsAs (l : List (IWord × Instr)) : Bool :=
  l.all (fun p => (decode p.1).toOption == some p.2 && p.2.wf && encode p.2 == some p.1)

def always : Head := ⟨⟨false, 0⟩, 0⟩

def ar (ty : Ty) (d a b : Opnd) : Arith := ⟨always, ty, d, a, b, false, .rne, false, false⟩

def mm (ty : Ty) (d a b : Opnd) (scope : Scope) (ord : Sys2Proof.Ord) : Mem := ⟨always, ty, d, a, b, false, scope, ord, 0⟩

def tk (d a b : Opnd) : Task := ⟨always, d, a, b⟩

/-- Opcodes 0x01 to 0x10 (R212), types of R201, operand kinds of R196, SAT at MOD bit 3 (R203). -/
theorem test_words_arithmetic : readsAs
    [(inWord 0x01 0 0x2 5 6 7 0, .add (ar .i32 (.w 5) (.w 6) (.w 7))),
     (inWord 0x02 0 0x6 5 6 0x27FFF 8, .sub ⟨always, .n32, .w 5, .w 6, .imm 0x7FFF, false, .rne, true, false⟩),
     (inWord 0x03 0 0x7 5 6 7 0, .addc (ar .n64 (.w 5) (.w 6) (.w 7))),
     (inWord 0x04 0 0x3 5 6 7 0, .subb (ar .i64 (.w 5) (.w 6) (.w 7))),
     (inWord 0x05 0 0x1 0x8001 0x8002 7 0x80, .mul ⟨always, .i16, .v 1, .v 2, .w 7, true, .rne, false, false⟩),
     (inWord 0x06 0 0x0 5 6 7 0, .mulh (ar .i8 (.w 5) (.w 6) (.w 7))),
     (inWord 0x07 0 0x4 5 6 7 0, .mulhn (ar .n8 (.w 5) (.w 6) (.w 7))),
     (inWord 0x08 0 0x5 5 6 7 0, .madd (ar .n16 (.w 5) (.w 6) (.w 7))),
     (inWord 0x09 0 0x3 5 6 7 0, .div (ar .i64 (.w 5) (.w 6) (.w 7))),
     (inWord 0x0A 0 0x7 5 6 7 0, .divn (ar .n64 (.w 5) (.w 6) (.w 7))),
     (inWord 0x0B 0 0x3 5 0x10002 7 0, .rem (ar .i64 (.w 5) (.ic 2) (.w 7))),
     (inWord 0x0C 0 0x7 5 6 7 0, .remn (ar .n64 (.w 5) (.w 6) (.w 7))),
     (inWord 0x0D 0 0x3 5 0x28008 7 0, .and (ar .i64 (.w 5) (.sr .time) (.w 7))),
     (inWord 0x0E 0 0x3 255 254 253 0, .or (ar .i64 (.w 255) (.w 254) (.w 253))),
     (inWord 0x0F 0 0x3 5 6 7 0, .xor (ar .i64 (.w 5) (.w 6) (.w 7))),
     (inWord 0x10 0 0x3 5 6 7 0, .andn (ar .i64 (.w 5) (.w 6) (.w 7)))] = true := by decide

/-- Opcodes 0x11 to 0x29 (R212); source types in FN (R210); the raw fields of li and lih (R200). -/
theorem test_words_bits_and_moves : readsAs
    [(inWord 0x11 0 0x3 5 6 7 0, .orn (ar .i64 (.w 5) (.w 6) (.w 7))),
     (inWord 0x12 0 0x3 5 6 7 8, .shl ⟨always, .i64, .w 5, .w 6, .w 7, false, .rne, true, false⟩),
     (inWord 0x13 0 0x3 5 6 7 0, .shr (ar .i64 (.w 5) (.w 6) (.w 7))),
     (inWord 0x14 0 0x3 5 6 7 0, .sar (ar .i64 (.w 5) (.w 6) (.w 7))),
     (inWord 0x15 0 0x3 5 6 7 0, .rol (ar .i64 (.w 5) (.w 6) (.w 7))),
     (inWord 0x16 0 0x3 5 6 7 0, .min (ar .i64 (.w 5) (.w 6) (.w 7))),
     (inWord 0x17 0 0x3 5 6 7 0, .max (ar .i64 (.w 5) (.w 6) (.w 7))),
     (inWord 0x18 0 0x7 5 6 7 0, .minn (ar .n64 (.w 5) (.w 6) (.w 7))),
     (inWord 0x19 0 0x7 5 6 7 0, .maxn (ar .n64 (.w 5) (.w 6) (.w 7))),
     (inWord 0x1A 0 0x3 5 6 0 0, .abs (ar .i64 (.w 5) (.w 6) (.w 0))),
     (inWord 0x1B 0 0x7 5 6 0 0, .neg (ar .n64 (.w 5) (.w 6) (.w 0))),
     (inWord 0x1C 0 0x3 5 6 0 0, .clz (ar .i64 (.w 5) (.w 6) (.w 0))),
     (inWord 0x1D 0 0x3 5 6 0 0, .ctz (ar .i64 (.w 5) (.w 6) (.w 0))),
     (inWord 0x1E 0 0x3 5 6 0 0, .popc (ar .i64 (.w 5) (.w 6) (.w 0))),
     (inWord 0x1F 0 0x3 5 6 0 0, .brev (ar .i64 (.w 5) (.w 6) (.w 0))),
     (inWord 0x20 0 0x3 5 6 0 0, .bswap (ar .i64 (.w 5) (.w 6) (.w 0))),
     (inWord 0x21 0x00 0x3 5 6 0 0, .sext .i8 (ar .i64 (.w 5) (.w 6) (.w 0))),
     (inWord 0x22 0x06 0x7 5 6 0 0, .zext .n32 (ar .n64 (.w 5) (.w 6) (.w 0))),
     (inWord 0x23 0 0x3 5 6 7 0, .bfx (ar .i64 (.w 5) (.w 6) (.w 7))),
     (inWord 0x24 0 0x3 5 6 7 0, .bfi (ar .i64 (.w 5) (.w 6) (.w 7))),
     (inWord 0x25 0 0xB 5 6 7 0, .sel (ar .f64 (.w 5) (.w 6) (.w 7))),
     (inWord 0x26 0 0xF 4 6 0 0, .mov (ar .q128 (.w 4) (.w 6) (.w 0))),
     (inWord 0x27 0 0 5 0x3FFFF 0x3FFFE 0, .li always (.w 5) 0xFFFFFFFFE),
     (inWord 0x28 0 0 5 0x003FF 0x3FFFE 0, .lih always (.w 5) 0xFFFFFFE),
     (inWord 0x29 0 0 5 6 0x20010 0, .lea (tk (.w 5) (.w 6) (.imm 16)))] = true := by decide

/-- Opcodes 0x30 to 0x36 (R212), conditions of R207, predicate fields of R200. -/
theorem test_words_compares : readsAs
    [(inWord 0x30 0x00 0x3 1 6 7 0, .cmp .eq ⟨always, .i64, .p 1, .w 6, .w 7, false⟩),
     (inWord 0x30 0x02 0x3 2 6 7 0, .cmp .lt ⟨always, .i64, .p 2, .w 6, .w 7, false⟩),
     (inWord 0x30 0x07 0x4 0x8002 0x8003 7 0x80, .cmp .tnz ⟨always, .n8, .v 2, .v 3, .w 7, true⟩),
     (inWord 0x31 0x05 0xA 7 6 7 0, .fcmp .ge ⟨always, .f32, .p 7, .w 6, .w 7, false⟩),
     (inWord 0x31 0x06 0xA 7 6 7 0, .fcmp .un ⟨always, .f32, .p 7, .w 6, .w 7, false⟩),
     (inWord 0x31 0x07 0xA 7 6 7 0, .fcmp .ord ⟨always, .f32, .p 7, .w 6, .w 7, false⟩),
     (inWord 0x32 0 0 1 2 0xB 0, .pand ⟨always, 1, ⟨false, 2⟩, ⟨true, 3⟩⟩),
     (inWord 0x33 0 0 1 0xA 3 0, .por ⟨always, 1, ⟨true, 2⟩, ⟨false, 3⟩⟩),
     (inWord 0x34 0 0 1 2 3 0, .pxor ⟨always, 1, ⟨false, 2⟩, ⟨false, 3⟩⟩),
     (inWord 0x35 0 0 1 2 0 0, .pnot ⟨always, 1, ⟨false, 2⟩, ⟨false, 0⟩⟩),
     (inWord 0x36 0 0 1 2 0 0, .pmov ⟨always, 1, ⟨false, 2⟩, ⟨false, 0⟩⟩)] = true := by decide

/-- Opcodes 0x38 to 0x50 (R212); RND at MOD bits 6:4, FTZ at bit 2, CLS of fmin and fmax at bits 1:0 (R203). -/
theorem test_words_floating : readsAs
    [(inWord 0x38 0 0xA 5 6 7 0x14, .fadd ⟨always, .f32, .w 5, .w 6, .w 7, false, .rtz, false, true⟩),
     (inWord 0x39 0 0xB 5 6 7 0x20, .fsub ⟨always, .f64, .w 5, .w 6, .w 7, false, .rdn, false, false⟩),
     (inWord 0x3A 0 0x9 5 6 7 0x30, .fmul ⟨always, .bf16, .w 5, .w 6, .w 7, false, .rup, false, false⟩),
     (inWord 0x3B 0 0x8 5 6 7 0x40, .ffma ⟨always, .f16, .w 5, .w 6, .w 7, false, .rto, false, false⟩),
     (inWord 0x3C 0 0xA 5 6 7 0x50, .ffms ⟨always, .f32, .w 5, .w 6, .w 7, false, .rna, false, false⟩),
     (inWord 0x3D 0 0xA 5 6 7 0, .fnma (ar .f32 (.w 5) (.w 6) (.w 7))),
     (inWord 0x3E 0 0xA 5 6 7 0, .fdiv (ar .f32 (.w 5) (.w 6) (.w 7))),
     (inWord 0x3F 0 0xA 5 6 0 0, .fsqrt (ar .f32 (.w 5) (.w 6) (.w 0))),
     (inWord 0x40 0 0xA 5 6 7 0, .fmin false (ar .f32 (.w 5) (.w 6) (.w 7))),
     (inWord 0x41 0 0xA 5 6 7 1, .fmax true (ar .f32 (.w 5) (.w 6) (.w 7))),
     (inWord 0x42 0 0xC 5 6 0 0, .fabs (ar .e4m3 (.w 5) (.w 6) (.w 0))),
     (inWord 0x43 0 0xD 5 6 0 0, .fneg (ar .e5m2 (.w 5) (.w 6) (.w 0))),
     (inWord 0x44 0 0xA 5 6 7 0, .fsgn (ar .f32 (.w 5) (.w 6) (.w 7))),
     (inWord 0x45 0 0xA 5 6 0 0, .frnd (ar .f32 (.w 5) (.w 6) (.w 0))),
     (inWord 0x46 0x0A 0x9 5 6 0 0, .fcvt .f32 (ar .bf16 (.w 5) (.w 6) (.w 0))),
     (inWord 0x47 0x0A 0x2 5 6 0 0x18, .ficvt .f32 ⟨always, .i32, .w 5, .w 6, .w 0, false, .rtz, true, false⟩),
     (inWord 0x48 0x03 0xB 5 6 0 0, .ifcvt .i64 (ar .f64 (.w 5) (.w 6) (.w 0))),
     (inWord 0x49 0 0xA 5 6 0 0, .fclass (ar .f32 (.w 5) (.w 6) (.w 0))),
     (inWord 0x4A 0 0xA 5 6 0 0, .frcp (ar .f32 (.w 5) (.w 6) (.w 0))),
     (inWord 0x4B 0 0xA 5 6 0 0, .frsq (ar .f32 (.w 5) (.w 6) (.w 0))),
     (inWord 0x4C 0 0xA 5 6 0 0, .fex2 (ar .f32 (.w 5) (.w 6) (.w 0))),
     (inWord 0x4D 0 0xA 5 6 0 0, .flg2 (ar .f32 (.w 5) (.w 6) (.w 0))),
     (inWord 0x4E 0 0xA 5 6 0 0, .fsin (ar .f32 (.w 5) (.w 6) (.w 0))),
     (inWord 0x4F 0 0xA 5 6 0 0, .fcos (ar .f32 (.w 5) (.w 6) (.w 0))),
     (inWord 0x50 0 0xA 5 6 0 0, .ftanh (ar .f32 (.w 5) (.w 6) (.w 0)))] = true := by decide

/-- Opcodes 0x58 to 0x66 (R212); FN of vperm and vslide (R211), of vscan and vred (R209), of qpack and qunpk (R210). -/
theorem test_words_vector : readsAs
    [(inWord 0x58 0 0 5 0x20100 0 0, .vclaim (tk (.w 5) (.imm 256) (.w 0))),
     (inWord 0x59 0 0x2 0x8001 6 0 0, .vbcast (ar .i32 (.v 1) (.w 6) (.w 0))),
     (inWord 0x5A 0x00 0x2 0x8001 0x8002 0x8003 0, .vperm .idx (ar .i32 (.v 1) (.v 2) (.v 3))),
     (inWord 0x5A 0x01 0x2 0x8001 0x8002 0 0, .vperm .rev (ar .i32 (.v 1) (.v 2) (.w 0))),
     (inWord 0x5A 0x05 0x2 0x8001 0x8002 0x8003 0, .vperm .unzh (ar .i32 (.v 1) (.v 2) (.v 3))),
     (inWord 0x5B 0x02 0x2 0x8001 0x8002 7 0, .vslide .rotu (ar .i32 (.v 1) (.v 2) (.w 7))),
     (inWord 0x5C 0x01 0x2 0x8001 0x8002 0 0, .vscan .min (ar .i32 (.v 1) (.v 2) (.w 0))),
     (inWord 0x5D 0x05 0x6 5 0x8002 0 0x80, .vred .xor ⟨always, .n32, .w 5, .v 2, .w 0, true, .rne, false, false⟩),
     (inWord 0x5E 0 0x2 0x8001 0x8002 0 0, .vcomp (ar .i32 (.v 1) (.v 2) (.w 0))),
     (inWord 0x5F 0 0x2 0x8001 0x8002 0 0, .vxpnd (ar .i32 (.v 1) (.v 2) (.w 0))),
     (inWord 0x60 0 0x2 0x8001 6 0 0, .viota (ar .i32 (.v 1) (.w 6) (.w 0))),
     (inWord 0x61 0 0x2 5 0x8002 7 0, .vext (ar .i32 (.w 5) (.v 2) (.w 7))),
     (inWord 0x62 0 0x2 0x800F 6 7 0, .vins (ar .i32 (.v 15) (.w 6) (.w 7))),
     (inWord 0x63 0 0x2 5 0x8002 0 0, .vany (ar .i32 (.w 5) (.v 2) (.w 0))),
     (inWord 0x64 0 0x2 5 0x8002 0 0, .vall (ar .i32 (.w 5) (.v 2) (.w 0))),
     (inWord 0x65 0x0A 0xE 0x8001 0x8002 7 0, .qpack .f32 (ar .e2m1 (.v 1) (.v 2) (.w 7))),
     (inWord 0x66 0x0E 0xA 0x8001 0x8002 7 0, .qunpk .e2m1 (ar .f32 (.v 1) (.v 2) (.w 7)))] = true := by decide

/-- Opcodes 0x68 to 0x7D (R212); SCOPE, ORD and CCLS of R204, operations of R208, the level of red (R211), [wa+k] (R199).
-/
theorem test_words_memory : readsAs
    [(inWord 0x68 0 0x7 5 6 0x20000 0x34, .ld (mm .n64 (.w 5) (.w 6) (.imm 0) .pkg .acq)),
     (inWord 0x69 0 0x2 5 6 7 0x28, .st (mm .i32 (.w 5) (.w 6) (.w 7) .die .rel)),
     (inWord 0x6A 0 0x2 0x8001 6 0x20000 0x81, .ldv ⟨always, .i32, .v 1, .w 6, .imm 0, true, .core, .rlx, 1⟩),
     (inWord 0x6B 0 0x2 0x8001 6 0x20000 2, .stv ⟨always, .i32, .v 1, .w 6, .imm 0, false, .core, .rlx, 2⟩),
     (inWord 0x6C 0 0x2 0x8001 6 0x8002 3, .ldg ⟨always, .i32, .v 1, .w 6, .v 2, false, .core, .rlx, 3⟩),
     (inWord 0x6D 0 0x2 0x8001 6 0x8002 0, .sts (mm .i32 (.v 1) (.w 6) (.v 2) .core .rlx)),
     (inWord 0x6E 0 0 0 6 0x20000 0, .pref (mm .i8 (.w 0) (.w 6) (.imm 0) .core .rlx)),
     (inWord 0x6F 0 0 0 0 0 0x4C, .fence (mm .i8 (.w 0) (.w 0) (.w 0) .pod .acqrel)),
     (inWord 0x70 0 0 0 0 0 0, .lbf (mm .i8 (.w 0) (.w 0) (.w 0) .core .rlx)),
     (inWord 0x71 0 0 0 6 0x20000 0, .cwb (mm .i8 (.w 0) (.w 6) (.imm 0) .core .rlx)),
     (inWord 0x72 0 0 0 6 0x20000 0, .cinv (mm .i8 (.w 0) (.w 6) (.imm 0) .core .rlx)),
     (inWord 0x78 0x10 0x6 5 6 7 0x18, .amo .padd (mm .n32 (.w 5) (.w 6) (.w 7) .cas .rel)),
     (inWord 0x79 0x06 0x7 0 6 7 0, .amon .swap (mm .n64 (.w 0) (.w 6) (.w 7) .core .rlx)),
     (inWord 0x7A 0 0x7 5 6 7 0, .cas (mm .n64 (.w 5) (.w 6) (.w 7) .core .rlx)),
     (inWord 0x7B 0 0xF 4 6 8 0, .casq (mm .q128 (.w 4) (.w 6) (.w 8) .core .rlx)),
     (inWord 0x7C 0x00 0x2 0 6 0x8002 0, .amov .add (mm .i32 (.w 0) (.w 6) (.v 2) .core .rlx)),
     (inWord 0x7D 0x10 0x2 5 6 7 0, .red 16 (mm .i32 (.w 5) (.w 6) (.w 7) .core .rlx))] = true := by decide

/-- Opcodes 0x80 to 0x8A (R212); the raw offsets of br, call, jmp and loop (R200). -/
theorem test_words_control : readsAs
    [(inWord 0x80 0 0 0 0x3FFFF 0x3FFFB 0, .br always 0xFFFFFFFFB),
     (inWord 0x81 0 0 1 2 3 0, .jmp always (1#18 ++ 2#18 ++ 3#18)),
     (inWord 0x82 0 0 0 6 0 0, .jmpi always (.w 6)),
     (inWord 0x83 0 0 5 0 0x10 0, .call always (.w 5) 16),
     (inWord 0x84 0 0 5 6 0 0, .calli always (.w 5) (.w 6)),
     (inWord 0x85 0 0 0 6 0 0, .ret always (.w 6)),
     (inWord 0x86 0 0 0 6 0x3FFFF 0, .loop always (.w 6) 0x3FFFF),
     (inWord 0x87 0 0 0 0 0 0, .endFiring always), (inWord 0x88 0 0 0 0 0 0, .region always),
     (inWord 0x89 0xFF 0 0 0 0 0, .brk always 255), (inWord 0x8A 0 0 0 0 0 0, .nop always)] = true := by decide

/-- Opcodes 0x90 to 0x9B (R212); FN of post, clmask, compose and handover (R211). -/
theorem test_words_tasks : readsAs
    [(inWord 0x90 0x00 0 8 6 0 0, .post .none (tk (.w 8) (.w 6) (.w 0))),
     (inWord 0x90 0x01 0 8 6 10 0, .post .sw (tk (.w 8) (.w 6) (.w 10))),
     (inWord 0x90 0x0E 0 8 6 0x20001 0, .post (.bar .pkg) (tk (.w 8) (.w 6) (.imm 1))),
     (inWord 0x91 0 0 8 0x28000 7 0, .spawn (tk (.w 8) (.sr .core) (.w 7))),
     (inWord 0x92 0 0 8 6 7 0, .fork (tk (.w 8) (.w 6) (.w 7))), (inWord 0x93 0 0 8 6 7 0, .send (tk (.w 8) (.w 6) (.w 7))),
     (inWord 0x94 0 0 8 6 7 0, .reply (tk (.w 8) (.w 6) (.w 7))), (inWord 0x95 0 0 0x18007 6 0 0, .chres (tk (.oc 7) (.w 6) (.w 0))),
     (inWord 0x96 0 0 0x18000 6 7 0, .chpub (tk (.oc 0) (.w 6) (.w 7))), (inWord 0x97 0 0 8 6 0 0, .clmask false (tk (.w 8) (.w 6) (.w 0))),
     (inWord 0x97 1 0 8 6 0 0, .clmask true (tk (.w 8) (.w 6) (.w 0))), (inWord 0x98 5 0 0 6 7 0, .compose 5 (tk (.w 0) (.w 6) (.w 7))),
     (inWord 0x99 0 0 0 0 0 0, .decomp always), (inWord 0x9A 0 0 8 6 7 0, .handover .ex (tk (.w 8) (.w 6) (.w 7))),
     (inWord 0x9A 1 0 8 6 7 0, .handover .ro (tk (.w 8) (.w 6) (.w 7))), (inWord 0x9A 2 0 8 6 7 0, .handover .rd (tk (.w 8) (.w 6) (.w 7))),
     (inWord 0x9B 0 0 8 6 0 0, .capq (tk (.w 8) (.w 6) (.w 0)))] = true := by decide

/-- Opcodes 0xA0 to 0xE5 (R212); FN of bara, mxrun, cpy, qfence, tlbinv and trap (R211), A of ctlrd (R200). -/
theorem test_words_sync_engines_system : readsAs
    [(inWord 0xA0 0x04 0 5 6 0 0, .bara .pod (tk (.w 5) (.w 6) (.w 0))), (inWord 0xA0 0x01 0 5 6 0 0, .bara .cas (tk (.w 5) (.w 6) (.w 0))),
     (inWord 0xA1 0 0 4 6 7 0, .swinit (tk (.w 4) (.w 6) (.w 7))), (inWord 0xA2 0 0 0 6 7 0, .swarr (tk (.w 0) (.w 6) (.w 7))),
     (inWord 0xA3 0 0 5 6 7 0, .swtest (tk (.w 5) (.w 6) (.w 7))), (inWord 0xA4 0 0 5 6 0 0, .gjoin (tk (.w 5) (.w 6) (.w 0))),
     (inWord 0xA5 0 0 5 6 0 0, .gleave (tk (.w 5) (.w 6) (.w 0))), (inWord 0xA6 0 0 5 6 7 0, .gld (tk (.w 5) (.w 6) (.w 7))),
     (inWord 0xB0 0 0xE 5 6 7 0, .mxld .e2m1 (tk (.w 5) (.w 6) (.w 7))), (inWord 0xB1 0 0 5 6 7 0, .mxflip (tk (.w 5) (.w 6) (.w 7))),
     (inWord 0xB2 3 0x9 5 6 7 0, .mxrun true true .bf16 (tk (.w 5) (.w 6) (.w 7))), (inWord 0xB3 2 0 5 6 7 0, .cpy false true (tk (.w 5) (.w 6) (.w 7))),
     (inWord 0xB4 3 0 5 6 7 0, .cpyf true true (tk (.w 5) (.w 6) (.w 7))), (inWord 0xB5 0x11 0 5 6 7 0, .qfence 0x11 (tk (.w 5) (.w 6) (.w 7))),
     (inWord 0xB6 0 0 5 6 7 0, .engq (tk (.w 5) (.w 6) (.w 7))), (inWord 0xE0 0x2A 0 0 0 0 0, .trap always 42),
     (inWord 0xE1 0 0 5 6 7 0, .tret (tk (.w 5) (.w 6) (.w 7))), (inWord 0xE2 0 0 5 0xABC 7 0, .ctlrd 0xABC (tk (.w 5) (.w 0) (.w 7))),
     (inWord 0xE3 0 0 5 0xABC 7 0, .ctlwr 0xABC (tk (.w 5) (.w 0) (.w 7))), (inWord 0xE4 0 0 5 6 0 0, .tlbinv .page (tk (.w 5) (.w 6) (.w 0))),
     (inWord 0xE4 1 0 5 6 0 0, .tlbinv .ctx (tk (.w 5) (.w 6) (.w 0))), (inWord 0xE4 2 0 5 6 0 0, .tlbinv .all (tk (.w 5) (.w 6) (.w 0))),
     (inWord 0xE5 0 0 5 6 7 0, .stop (tk (.w 5) (.w 6) (.w 7)))] = true := by decide

/-! ## Words and terms that are refused -/

/-- Each word is refused for the reason beside it. -/
def refusedFor (l : List (IWord × DecodeError)) : Bool :=
  l.all (fun p => match decode p.1 with | .error e => e == p.2 | .ok _ => false)

/-- R194, R195, R203 to R212: opcode 0x00 and an unassigned one, guard 0b1000, unlisted FN codes, reserved kinds and special
registers, reserved MOD codes, reserved bits, and forms that are not legal. -/
theorem test_refused_words : refusedFor
    [(0, .opcode), (inWord 0x2A 0 0 5 6 7 0, .opcode), (inWord 0xFF 0 0 0 0 0 0, .opcode),
     (0x8A#8 ++ 8#4 ++ 0#84, .guard),
     (inWord 0x30 0x08 0x3 1 6 7 0, .function), (inWord 0x78 0x07 0x6 5 6 7 0, .function), (inWord 0x5A 6 2 0x8001 0x8002 0 0, .function),
     (inWord 0x9A 3 0 8 6 7 0, .function), (inWord 0xE4 3 0 5 6 0 0, .function), (inWord 0xA0 0 0 5 6 0 0, .function),
     (inWord 0x90 3 0 8 6 7 0, .function), (inWord 0x5D 6 2 5 0x8002 0 0, .function),
     (inWord 0x01 0 2 5 0x30000 7 0, .kind), (inWord 0x01 0 2 5 0x2800C 7 0, .kind),
     (inWord 0x38 0 0xA 5 6 7 0x60, .modifier), (inWord 0x68 0 7 5 6 0x20000 0x54, .modifier), (inWord 0x40 0 0xA 5 6 7 2, .reserved),
     (inWord 0x01 0 2 0x100 6 7 0, .reserved), (inWord 0x01 1 2 5 6 7 0, .reserved), (inWord 0x29 0 1 5 6 7 0, .reserved),
     (inWord 0x8A 0 0 0 0 0 1, .reserved), (inWord 0x28 0 0 5 0x400 0 0, .reserved), (inWord 0xE2 0 0 5 0x1000 7 0, .reserved),
     (inWord 0x32 0 0 8 2 3 0, .reserved), (inWord 0x30 0 3 8 6 7 0, .reserved),
     (inWord 0x06 0 4 5 6 7 0, .notLegal), (inWord 0x01 0 0xA 5 6 7 0, .notLegal), (inWord 0x13 0 3 5 6 7 8, .notLegal),
     (inWord 0xB3 1 0 5 6 7 0, .notLegal), (inWord 0xB5 0 0 5 6 7 0, .notLegal), (inWord 0x98 0 0 0 6 7 0, .notLegal),
     (inWord 0x7D 0x11 2 5 6 7 0, .notLegal), (inWord 0x68 0 7 5 6 0x20000 0x10, .notLegal)] = true := by decide

/-- A term that fails each check of WellFormed: the guard; a type, the shape of an operand and a modifier of each shared
check; and the check of its own that a constructor adds. -/
theorem test_ill_formed_terms : ([
    .nop ⟨⟨true, 0⟩, 0⟩,
    .add (ar .f32 (.w 1) (.w 2) (.w 3)), .add (ar .i32 (.oc 1) (.w 2) (.w 3)), .add (ar .i32 (.w 1) (.v 2) (.w 3)),
    .add (ar .i32 (.w 1) (.w 2) (.v 3)), .add ⟨always, .i32, .w 1, .w 2, .w 3, true, .rne, false, false⟩,
    .add ⟨always, .i32, .w 1, .w 2, .w 3, false, .rtz, false, false⟩, .shr ⟨always, .i32, .w 1, .w 2, .w 3, false, .rne, true, false⟩,
    .fmin false ⟨always, .f32, .w 1, .w 2, .w 3, false, .rne, false, true⟩,
    .addc (ar .i16 (.w 1) (.w 2) (.w 3)), .addc (ar .i32 (.v 1) (.w 2) (.w 3)), .mulh (ar .n32 (.w 1) (.w 2) (.w 3)),
    .mulhn (ar .i32 (.w 1) (.w 2) (.w 3)), .abs (ar .n8 (.w 1) (.w 2) (.w 0)), .neg (ar .i8 (.w 1) (.w 2) (.w 3)),
    .bswap (ar .i8 (.w 1) (.w 2) (.w 0)), .sext .i64 (ar .i32 (.w 1) (.w 2) (.w 0)), .zext .f32 (ar .i64 (.w 1) (.w 2) (.w 0)),
    .sel (ar .q128 (.w 1) (.w 2) (.w 3)), .sel ⟨always, .i32, .v 1, .v 2, .v 3, true, .rne, false, false⟩,
    .mov (ar .q128 (.v 1) (.w 2) (.w 0)), .li always (.v 1) 0, .lih always (.imm 1) 0, .lea (tk (.w 1) (.imm 2) (.w 3)),
    .cmp .eq ⟨always, .f32, .p 1, .w 2, .w 3, false⟩, .cmp .eq ⟨always, .i32, .p 1, .w 2, .w 3, true⟩,
    .cmp .eq ⟨always, .i32, .p 1, .v 2, .w 3, false⟩, .fcmp .eq ⟨always, .i32, .p 1, .w 2, .w 3, false⟩,
    .pnot ⟨always, 1, ⟨false, 2⟩, ⟨false, 1⟩⟩, .fadd (ar .e4m3 (.w 1) (.w 2) (.w 3)), .fsqrt (ar .f32 (.w 1) (.w 2) (.w 3)),
    .fabs (ar .i32 (.w 1) (.w 2) (.w 0)), .fcvt .i32 (ar .f32 (.w 1) (.w 2) (.w 0)), .ficvt .i32 (ar .i32 (.w 1) (.w 2) (.w 0)),
    .ifcvt .f32 (ar .f32 (.w 1) (.w 2) (.w 0)), .fclass (ar .e4m3 (.v 1) (.v 2) (.w 0)), .fex2 (ar .f64 (.w 1) (.w 2) (.w 0)),
    .vclaim (tk (.v 1) (.w 2) (.w 0)), .vbcast (ar .i32 (.v 1) (.w 2) (.w 3)), .vbcast (ar .q128 (.v 1) (.w 2) (.w 0)),
    .vperm .rev (ar .i32 (.v 1) (.v 2) (.v 3)), .vperm .idx (ar .i32 (.v 1) (.v 2) (.w 3)), .vslide .up (ar .i32 (.v 1) (.w 2) (.w 3)),
    .vcomp (ar .i32 (.w 1) (.v 2) (.w 0)), .viota (ar .f32 (.v 1) (.w 2) (.w 0)), .vext ⟨always, .i32, .w 1, .v 2, .w 3, true, .rne, false, false⟩,
    .vins (ar .i32 (.v 1) (.v 2) (.w 3)), .vany (ar .i32 (.v 1) (.v 2) (.w 0)), .vred .and (ar .i32 (.w 1) (.v 2) (.w 0)),
    .vred .min ⟨always, .i32, .w 1, .v 2, .w 0, false, .rne, true, false⟩, .vscan .add (ar .e4m3 (.v 1) (.v 2) (.w 0)),
    .qpack .f64 (ar .e2m1 (.v 1) (.v 2) (.w 3)), .qpack .f32 (ar .e4m3 (.v 1) (.v 2) (.w 3)), .qunpk .f32 (ar .f32 (.v 1) (.v 2) (.w 3)),
    .ld (mm .e2m1 (.w 1) (.w 2) (.imm 0) .core .rlx), .ld (mm .q128 (.w 2) (.w 2) (.imm 0) .pkg .acq), .ld (mm .i32 (.w 1) (.w 2) (.imm 0) .die .rlx),
    .ld (mm .i32 (.w 1) (.imm 2) (.imm 0) .core .rlx), .ld (mm .i32 (.w 1) (.w 2) (.sr .core) .core .rlx),
    .st (mm .i32 (.w 1) (.w 2) (.imm 0) .core .acq), .ldv (mm .q128 (.v 1) (.w 2) (.imm 0) .core .rlx),
    .ldv ⟨always, .e2m1, .v 1, .w 2, .imm 0, true, .core, .rlx, 0⟩, .stv (mm .i32 (.w 1) (.w 2) (.imm 0) .core .rlx),
    .ldg (mm .i16 (.v 1) (.w 2) (.v 3) .core .rlx), .sts (mm .i32 (.v 1) (.w 2) (.w 3) .core .rlx),
    .pref (mm .i32 (.w 0) (.w 2) (.imm 0) .core .rlx), .cwb (mm .i8 (.w 1) (.w 2) (.imm 0) .core .rlx),
    .fence (mm .i8 (.w 0) (.w 0) (.w 0) .core .rlx), .lbf ⟨always, .i8, .w 0, .w 0, .w 0, false, .core, .rlx, 1⟩,
    .amo .and (mm .i32 (.w 1) (.w 2) (.w 3) .core .rlx), .amo .padd (mm .i32 (.w 1) (.w 2) (.imm 3) .core .rlx),
    .amo .add (mm .i32 (.w 1) (.w 2) (.sr .core) .core .rlx), .amon .add (mm .i32 (.w 1) (.w 2) (.w 3) .core .rlx),
    .amon .add (mm .i32 (.w 0) (.w 2) (.w 3) .core .acq), .cas (mm .i16 (.w 1) (.w 2) (.w 3) .core .rlx),
    .casq (mm .q128 (.w 2) (.w 2) (.imm 3) .core .rlx), .amov .add (mm .i32 (.w 0) (.w 2) (.w 3) .core .rlx),
    .red 17 (mm .i32 (.w 1) (.w 2) (.w 3) .core .rlx), .red 0 (mm .i16 (.w 1) (.w 2) (.w 3) .core .rlx),
    .jmpi always (.imm 1), .call always (.v 1) 0, .calli always (.w 1) (.sr .core),
    .post .none (tk (.w 8) (.w 6) (.w 1)), .post .sw (tk (.w 8) (.w 6) (.imm 1)), .post (.bar .die) (tk (.w 8) (.w 6) (.sr .core)),
    .spawn (tk (.w 8) (.ic 1) (.w 1)), .chres (tk (.w 1) (.w 2) (.w 0)), .chpub (tk (.oc 1) (.w 2) (.sr .core)), .clmask true (tk (.w 1) (.w 2) (.w 3)),
    .compose 0 (tk (.w 0) (.w 2) (.w 3)), .compose 6 (tk (.w 0) (.w 2) (.w 3)), .compose 1 (tk (.w 1) (.w 2) (.w 3)),
    .bara .die (tk (.w 1) (.sr .core) (.w 0)), .swinit (tk (.w 1) (.imm 2) (.w 3)), .swarr (tk (.w 1) (.w 2) (.w 3)),
    .mxld .f32 (tk (.w 1) (.w 2) (.w 3)), .mxrun false true .i8 (tk (.w 1) (.w 2) (.w 3)), .mxflip (tk (.w 1) (.ic 2) (.w 3)),
    .cpy true false (tk (.w 1) (.w 2) (.w 3)), .cpyf true false (tk (.w 1) (.w 2) (.w 3)), .qfence 0 (tk (.w 1) (.w 2) (.w 3)),
    .ctlrd 0 (tk (.w 1) (.w 2) (.w 3)), .tlbinv .all (tk (.w 1) (.w 2) (.w 3))] : List Instr).all (fun i => !i.wf) = true := by decide

/-! ## One step on a small state -/

/-- Core 0 runs a firing that holds these words; its code lies in the page at 0x10_0000. -/
def bench (ws : List (Nat × Word)) : State :=
  ws.foldl (fun s e => s.setWord e.1 e.2) (State.reset.withFetchWord 96 0)

/-- The bench with a vector register of 32-bit elements. -/
def vbench (ws : List (Nat × Word)) (vs : List (Nat × List Nat)) : State :=
  vs.foldl (fun s e => s.setVreg e.1 (withElems 0 32 e.2)) (bench ws)

/-- The instruction goes on, and the state it leaves passes a check. -/
def leaves (s : State) (i : Instr) (f : State → Bool) : Bool :=
  match exec i s with
  | .next t => f t
  | _ => false

/-- The word an instruction of words w5, w6, w7 leaves in w5. -/
def gives (i : Instr) (d a b r : Word) : Bool := leaves (bench [(5, d), (6, a), (7, b)]) i (fun t => t.word 5 == r)

def w567 (ty : Ty) : Arith := ar ty (.w 5) (.w 6) (.w 7)

def w56 (ty : Ty) : Arith := ar ty (.w 5) (.w 6) (.w 0)

/-- The firing takes a fault of this class. -/
def faults (s : State) (i : Instr) (cls : Nat) : Bool :=
  leaves s i (fun t => match t.run? with | some f => (match f.trap with | some e => e.cls == cls | none => false) | none => false)

/-- R220's table of corner results, in the word column (R134). -/
theorem test_arithmetic_corners :
    (gives (.add (w567 .i8)) 0 100 100 0xFFFFFFFFFFFFFFC8 && gives (.add { w567 .i8 with sat := true }) 0 100 100 0x7F
      && gives (.sub { w567 .n32 with sat := true }) 0 5 9 0 && gives (.div (w567 .i32)) 0 (-7) 2 0xFFFFFFFFFFFFFFFD
      && gives (.rem (w567 .i32)) 0 (-7) 2 0xFFFFFFFFFFFFFFFF && gives (.div (w567 .i32)) 0 5 0 0x7FFFFFFF
      && gives (.divn (w567 .n16)) 0 5 0 0xFFFF && gives (.remn (w567 .n16)) 0 5 0 5
      && gives (.shl { w567 .i16 with sat := true }) 0 0x4000 1 0x7FFF && gives (.sar (w567 .n8)) 0 0x90 2 0xE4) = true := by
  decide +kernel

/-- R219, R222, R223, by hand: signed and unsigned halves of a product, the accumulator, the lesser of two, and the borders
of the one-source operations. -/
theorem test_integer_results :
    (gives (.mul (w567 .i32)) 0 0x10000 0x10000 0 && gives (.mulh (w567 .i32)) 0 (-2) 3 (-1)
      && gives (.mulhn (w567 .n32)) 0 0xFFFFFFFF 2 1 && gives (.madd (w567 .n8)) 250 2 3 0
      && gives (.min (w567 .i8)) 0 0xFF 1 (-1) && gives (.minn (w567 .n8)) 0 0xFF 1 1 && gives (.max (w567 .i64)) 0 (-1) 1 1
      && gives (.maxn (w567 .n64)) 0 (-1) 1 (-1) && gives (.and (w567 .n8)) 0 0x1FF 0xF0 0xF0 && gives (.or (w567 .n8)) 0 0xF0 0x0F 0xFF
      && gives (.xor (w567 .n8)) 0 0xFF 0x0F 0xF0 && gives (.andn (w567 .n8)) 0 0xFF 0x0F 0xF0 && gives (.orn (w567 .n8)) 0 0 0x0F 0xF0
      && gives (.abs (w56 .i8)) 0 0x80 0 (-128) && gives (.abs { w56 .i8 with sat := true }) 0 0x80 0 127
      && gives (.neg (w56 .i8)) 0 1 0 (-1) && gives (.clz (w56 .n16)) 0 0 0 16 && gives (.ctz (w56 .n16)) 0 8 0 3
      && gives (.popc (w56 .n8)) 0 0x1FF 0 8 && gives (.brev (w56 .n8)) 0 1 0 0x80
      && gives (.bswap (w56 .n32)) 0 0x11223344 0 0x44332211) = true := by decide +kernel

/-- R221, R224 to R229, by hand: carries, shifts past the width, fields, extensions, selection, constants and addresses. -/
theorem test_bits_and_moves :
    (leaves (bench [(6, -1), (7, 1)]) (.addc (w567 .n64)) (fun t => t.word 5 == 0 && t.pred 7)
      && leaves ((bench [(6, 0), (7, 0)]).setPred 7 true) (.subb (w567 .n64)) (fun t => t.word 5 == -1 && t.pred 7)
      && gives (.shl (w567 .n8)) 0 1 8 0 && gives (.shr (w567 .n8)) 0 0xFF 9 0 && gives (.rol (w567 .n8)) 0 0x81 9 3
      && gives (.bfx (w567 .i32)) 0 0x80 (4 + 64 * 4) (-8) && gives (.bfi (w567 .n32)) 0xFFFF 0 (4 + 64 * 8) 0xF00F
      && gives (.sext .i8 (w56 .i64)) 0 0x80 0 (-128) && gives (.zext .n8 (w56 .n64)) 0 0x1FF 0 0xFF
      && gives (.sel (w567 .i64)) 0 1 2 2 && gives (.mov (w56 .i8)) 0 0x80 0 (-128)
      && leaves (bench [(6, 1), (7, 2)]) (.mov (ar .q128 (.w 4) (.w 6) (.w 0))) (fun t => t.word 4 == 1 && t.word 5 == 2)
      && gives (.li always (.w 5) 0xFFFFFFFFE) 0 0 0 (-2) && gives (.lih always (.w 5) 0xABC) 0x5 0 0 0xABC000000005
      && gives (.lea (tk (.w 5) (.w 6) (.imm 0x7FFF))) 0 0 0 (-1)) = true := by decide +kernel

/-- R207, R230, R231, by hand: signed and unsigned order, a NaN, all ones in an element, and inverted sources. -/
theorem test_compares :
    (leaves (bench [(6, 0xFF), (7, 1)]) (.cmp .lt ⟨always, .i8, .p 1, .w 6, .w 7, false⟩) (fun t => t.pred 1)
      && leaves (bench [(6, 0xFF), (7, 1)]) (.cmp .lt ⟨always, .n8, .p 1, .w 6, .w 7, false⟩) (fun t => !t.pred 1)
      && leaves (bench [(6, 0x7FC00000), (7, 0)]) (.fcmp .ne ⟨always, .f32, .p 1, .w 6, .w 7, false⟩) (fun t => t.pred 1)
      && leaves (bench [(6, 0x80000000), (7, 0)]) (.fcmp .eq ⟨always, .f32, .p 1, .w 6, .w 7, false⟩) (fun t => t.pred 1)
      && leaves (vbench [(7, 2)] [(2, [1, 2, 3])]) (.cmp .ge ⟨always, .i32, .v 3, .v 2, .w 7, false⟩)
        (fun t => elemOf (t.vreg 3) 32 0 == 0 && elemOf (t.vreg 3) 32 1 == 0xFFFFFFFF)
      && leaves (bench []) (.pand ⟨always, 2, ⟨false, 0⟩, ⟨true, 1⟩⟩) (fun t => t.pred 2)
      && leaves (bench []) (.por ⟨always, 2, ⟨false, 1⟩, ⟨false, 3⟩⟩) (fun t => !t.pred 2)
      && leaves (bench []) (.pxor ⟨always, 2, ⟨false, 0⟩, ⟨false, 0⟩⟩) (fun t => !t.pred 2)
      && leaves (bench []) (.pnot ⟨always, 2, ⟨false, 1⟩, ⟨false, 0⟩⟩) (fun t => t.pred 2)
      && leaves (bench []) (.pmov ⟨always, 2, ⟨false, 0⟩, ⟨false, 0⟩⟩) (fun t => t.pred 2)) = true := by decide +kernel

/-- R136 to R144, R233 to R238, by hand in f32, f64, bf16 and e4m3: ties, directed modes, overflow, a fused rounding, signs of
zero, NaN rules, conversions and classes. -/
theorem test_floating :
    (gives (.fadd (w567 .f32)) 0 0x3F800000 0x33800000 0x3F800000 && gives (.fadd { w567 .f32 with rnd := .rup }) 0 0x3F800000 0x33800000 0x3F800001
      && gives (.fsub (w567 .f32)) 0 0x3F800000 0x3F800000 0 && gives (.fsub { w567 .f32 with rnd := .rdn }) 0 0x3F800000 0x3F800000 0x80000000
      && gives (.fmul (w567 .f32)) 0 0x7F7FFFFF 0x40000000 0x7F800000 && gives (.fmul { w567 .f32 with rnd := .rtz }) 0 0x7F7FFFFF 0x40000000 0x7F7FFFFF
      && gives (.ffma { w567 .f32 with rnd := .rup }) 0xBF800000 0x3F800001 0x3F800001 0x34800001 && gives (.ffms (w567 .f32)) 0x3F800000 0x40000000 0x40000000 0x40400000
      && gives (.fnma (w567 .f32)) 0x40A00000 0x40000000 0x40000000 0x3F800000 && gives (.fdiv (w567 .f32)) 0 0x3F800000 0 0x7F800000
      && gives (.fdiv (w567 .f32)) 0 0x3F800000 0x40400000 0x3EAAAAAB && gives (.fsqrt (w56 .f32)) 0 0x40800000 0 0x40000000
      && gives (.fmin false (w567 .f32)) 0 0x7FC00000 0x3F800000 0x3F800000 && gives (.fmax true (w567 .f32)) 0 0x7FC00000 0x3F800000 0x7FC00000
      && gives (.fabs (w56 .bf16)) 0 0xBF80 0 0x3F80 && gives (.fneg (w56 .f32)) 0 0 0 0x80000000
      && gives (.fsgn (w567 .f32)) 0 0x3F800000 0x80000000 0xBF800000 && gives (.frnd (w56 .f32)) 0 0x40200000 0 0x40000000
      && gives (.fcvt .f32 (w56 .bf16)) 0 0x3F808000 0 0x3F80 && gives (.fcvt .f32 (w56 .f64)) 0 0x3F800000 0 0x3FF0000000000000
      && gives (.ficvt .f32 { w56 .i32 with rnd := .rtz }) 0 0xBFC00000 0 (-1) && gives (.ifcvt .i64 (w56 .f32)) 0 (-2) 0 0xC0000000
      && gives (.frcp (w56 .f32)) 0 0x40000000 0 0x3F000000 && gives (.fex2 (w56 .f32)) 0 0x40400000 0 0x41000000
      && gives (.flg2 (w56 .f32)) 0 0x41000000 0 0x40400000 && gives (.fsin (w56 .f32)) 0 0 0 0 && gives (.fcos (w56 .f32)) 0 0 0 0x3F800000
      && gives (.ftanh (w56 .f32)) 0 0 0 0 && gives (.frsq (w56 .f32)) 0 0x40800000 0 0x3F000000) = true := by decide +kernel

/-- R105: the check value that the manual gives. -/
theorem test_crc64 : crc64 0 ([0x31, 0x32, 0x33, 0x34, 0x35, 0x36, 0x37, 0x38, 0x39] : List Byte) = 0x6C40DF5F0B497347 := by decide +kernel

/-- The 32-bit elements of a vector register. -/
def elems (s : State) (v n : Nat) : List Nat := (List.range n).map (fun k => elemOf (s.vreg v) 32 k)

def vv (f : Arith → Instr) (d a b : Opnd) : Instr := f (ar .i32 d a b)

/-- R135, R216, R241 to R250, by hand on 16 lanes of 32 bits: each lane move, scan and reduction. -/
theorem test_vectors :
    (let s := vbench [(6, 9), (7, 1)] [(1, [10, 20, 30, 40]), (2, [1, 2, 3, 4]), (15, [1, 0, 1, 0])]
     leaves s (vv .add (.v 3) (.v 1) (.v 2)) (fun t => elems t 3 5 == [11, 22, 33, 44, 0] && t.vreg 1 == s.vreg 1)
     && leaves s (.add ⟨always, .i32, .v 1, .v 1, .w 6, true, .rne, false, false⟩) (fun t => elems t 1 4 == [19, 20, 39, 40])
     && leaves s (vv .vbcast (.v 3) (.w 6) (.w 0)) (fun t => elems t 3 16 == List.replicate 16 9)
     && leaves s (vv .vbcast (.v 3) (.v 1) (.w 7)) (fun t => elems t 3 2 == [20, 20])
     && leaves s (vv (.vperm .idx) (.v 3) (.v 1) (.v 2)) (fun t => elems t 3 4 == [20, 30, 40, 0])
     && leaves s (vv (.vperm .rev) (.v 3) (.v 1) (.w 0)) (fun t => elems t 3 16 == List.replicate 12 0 ++ [40, 30, 20, 10])
     && leaves s (vv (.vperm .zipl) (.v 3) (.v 1) (.v 2)) (fun t => elems t 3 4 == [10, 1, 20, 2])
     && leaves s (vv (.vperm .unzh) (.v 3) (.v 1) (.v 2)) (fun t => elems t 3 10 == [20, 40, 0, 0, 0, 0, 0, 0, 2, 4])
     && leaves s (vv (.vslide .up) (.v 3) (.v 1) (.w 7)) (fun t => elems t 3 4 == [0, 10, 20, 30])
     && leaves s (vv (.vslide .down) (.v 3) (.v 1) (.w 7)) (fun t => elems t 3 4 == [20, 30, 40, 0])
     && leaves s (vv (.vslide .rotu) (.v 3) (.v 1) (.w 7)) (fun t => elems t 3 3 == [0, 10, 20])
     && leaves s (vv (.vslide .rotd) (.v 3) (.v 1) (.w 7)) (fun t => elemOf (t.vreg 3) 32 15 == 10)
     && leaves s (vv (.vscan .add) (.v 3) (.v 1) (.w 0)) (fun t => elems t 3 5 == [10, 30, 60, 100, 100])
     && leaves s (.vred .add ⟨always, .i32, .w 5, .v 1, .w 0, true, .rne, false, false⟩) (fun t => t.word 5 == 40)
     && leaves s (.vcomp ⟨always, .i32, .v 3, .v 1, .w 0, true, .rne, false, false⟩) (fun t => elems t 3 3 == [10, 30, 0])
     && leaves s (.vxpnd ⟨always, .i32, .v 3, .v 1, .w 0, true, .rne, false, false⟩) (fun t => elems t 3 4 == [10, 0, 20, 0])
     && leaves s (.viota ⟨always, .i32, .v 3, .w 6, .w 0, true, .rne, false, false⟩) (fun t => elems t 3 3 == [9, 0, 10])
     && leaves s (vv .vext (.w 5) (.v 1) (.w 7)) (fun t => t.word 5 == 20)
     && leaves s (vv .vins (.v 1) (.w 6) (.w 7)) (fun t => elems t 1 3 == [10, 9, 30])
     && leaves s (vv .vany (.w 5) (.v 1) (.w 0)) (fun t => t.word 5 == 1) && leaves s (vv .vall (.w 5) (.v 1) (.w 0)) (fun t => t.word 5 == 0))
     = true := by decide +kernel

/-- R239: vclaim of 40 lanes grants 48; a claim after a vector instruction of the region faults. -/
theorem test_vclaim :
    (leaves (bench [(6, 40)]) (.vclaim (tk (.w 5) (.w 6) (.w 0))) (fun t => t.word 5 == 48 && t.cf.groups == 3)
     && faults (vbench [(6, 40)] [(1, [])]) (.vclaim (tk (.w 5) (.w 6) (.w 0))) 0x01) = true := by decide +kernel

/-- R139, R249, R250, by hand: 6.0 packs to the e2m1 code 0b0111 under a scale of one, and unpacks to itself. -/
theorem test_quantized_blocks :
    (let s := vbench [(6, 0x3F80)] [(1, [0x40C00000])]
     match exec (.qpack .f32 (ar .e2m1 (.v 2) (.v 1) (.w 6))) s with
     | .next t => elemOf (t.vreg 2) 4 0 == 7
       && leaves t (.qunpk .e2m1 (ar .f32 (.v 3) (.v 2) (.w 6))) (fun u => elems u 3 2 == [0x40C00000, 0])
     | _ => false) = true := by decide +kernel

/-- R253, R256, by hand: a store through the private alias and the loads of its bytes; a load of the last bytes of the slice;
one past them faults. -/
theorem test_scalar_memory :
    (leaves (bench [(5, 0x1122334455667788), (6, 0x100)]) (.st (mm .n32 (.w 5) (.w 6) (.imm 4) .core .rlx))
       (fun t => t.num (sliceKey 0 0x104) 4 == 0x55667788 && t.num (sliceKey 0 0x108) 4 == 0 && t.word 5 == 0x1122334455667788
         && leaves t (.ld (mm .i8 (.w 7) (.w 6) (.imm 4) .core .rlx)) (fun u => u.word 7 == 0xFFFFFFFFFFFFFF88))
     && leaves (bench [(6, 0x5FFF8)]) (.ld (mm .n64 (.w 7) (.w 6) (.imm 0) .core .rlx)) (fun t => t.word 7 == 0)
     && faults (bench [(6, 0x5FFF9)]) (.ld (mm .n64 (.w 7) (.w 6) (.imm 0) .core .rlx)) Cls.window
     && faults (bench [(6, 0x104)]) (.ld (mm .n64 (.w 7) (.w 6) (.imm 0) .core .acq)) Cls.alignment) = true := by decide +kernel

/-- R253, R256: a store to translated memory is on its way, and lands when it is performed. -/
theorem test_store_on_its_way :
    leaves (bench [(5, 0xAB), (6, 0x100040)]) (.st (mm .n8 (.w 5) (.w 6) (.imm 0) .core .rlx))
      (fun t => t.num 0x40 1 == 0 && t.pend.length == 1 && (t.core 0).issued == 1 && (t.core 0).drained == 0
        && leaves t (.storePerform 0) (fun u => u.num 0x40 1 == 0xAB && u.pend.isEmpty && (u.core 0).drained == 1)) = true := by
  decide +kernel

/-- R257, R258, by hand: elements in order, a masked load, a gather by byte offsets of the index register. -/
theorem test_vector_memory :
    (let s := vbench [(6, 0x100)] [(1, [5, 6, 7]), (2, [8, 4, 0]), (15, [0, 1])]
     leaves s (.stv (mm .i32 (.v 1) (.w 6) (.imm 0) .core .rlx))
       (fun t => t.num (sliceKey 0 0x104) 4 == 6
         && leaves t (.ldv (mm .i32 (.v 3) (.w 6) (.imm 4) .core .rlx)) (fun u => elems u 3 3 == [6, 7, 0]))) = true := by
  decide +kernel

/-- R281, R284, R313, by hand: a taken branch goes back five words; a call keeps the address after it; loop counts down; an
odd target faults; trap and brk stop after themselves. -/
theorem test_control :
    (leaves (bench []) (.br always 0xFFFFFFFFB) (fun t => t.cf.pc == 0x100000 - 60)
     && leaves (bench []) (.br ⟨⟨false, 1⟩, 0⟩ 0xFFFFFFFFB) (fun t => t.cf.pc == 0x10000C)
     && leaves (bench []) (.jmp always 3) (fun t => t.cf.pc == 0x100024)
     && leaves (bench [(6, 0x200)]) (.jmpi always (.w 6)) (fun t => t.cf.pc == 0x200)
     && leaves (bench []) (.call always (.w 5) 1) (fun t => t.cf.pc == 0x10000C && t.word 5 == 0x10000C)
     && leaves (bench [(5, 0x200)]) (.calli always (.w 5) (.w 5)) (fun t => t.cf.pc == 0x200 && t.word 5 == 0x10000C)
     && leaves (bench [(6, 0x200)]) (.ret always (.w 6)) (fun t => t.cf.pc == 0x200)
     && leaves (bench [(6, 1)]) (.loop always (.w 6) 0x3FFFF) (fun t => t.cf.pc == 0x10000C && t.word 6 == 0)
     && leaves (bench [(6, 0)]) (.loop always (.w 6) 0x3FFFF) (fun t => t.cf.pc == 0x100000 - 12 && t.word 6 == -1)
     && faults (bench [(6, 0x202)]) (.jmpi always (.w 6)) 0x05
     && leaves (bench []) (.trap always 7) (fun t => match t.cf.trap with | some e => e.pc == 0x10000C && e.code == 7 | none => false)
     && faults (bench []) (.brk always 7) 0x11 && leaves (bench []) (.nop always) (fun t => t.cf.pc == 0x10000C)
     && leaves (bench []) (.region always) (fun t => t.rawWord t.cf 0 == 0x10000C / 4 * 0x10000)
     && leaves (bench []) (.endFiring always) (fun t => (t.core 0).ending == some 0)) = true := by decide +kernel

/-- R190, R192, R397, R408: a step runs the word at the pc and takes a ck; a word of zeros is an illegal instruction. -/
theorem test_step_runs_the_word :
    ((match step (State.reset.withFetchWord 96 (inWord 0x27 0 0 5 0 0x00009 0).toNat) with
      | .next t => t.word 5 == 9 && t.cf.pc == 0x10000C && t.time == 1
      | _ => false)
     && (match step (State.reset.withFetchWord 96 0) with
      | .next t => (match t.cf.trap with | some e => e.cls == 1 | none => false)
      | _ => false)) = true := by decide +kernel

/-! ## A state and operands that meet the premises of each statement -/

/-- The computation answers v. -/
def okIs {α : Type} [DecidableEq α] (r : Res α) (v : α) : Bool :=
  match r with
  | .ok a => decide (a = v)
  | .error _ => false

theorem ok_of {α : Type} [DecidableEq α] {r : Res α} {v : α} (h : okIs r v = true) : r = .ok v := by
  cases r with
  | error e => exact absurd h (by simp [okIs])
  | ok a => simp [okIs] at h; rw [h]

/-- The computation ends in this fault. -/
def errorIs {α : Type} (r : Res α) (e : Trap) : Bool :=
  match r with
  | .ok _ => false
  | .error t => decide (t = e)

theorem error_of {α : Type} {r : Res α} {e : Trap} (h : errorIs r e = true) : r = .error e := by
  cases r with
  | error t => simp [errorIs] at h; rw [h]
  | ok a => exact absurd h (by simp [errorIs])

/-- A tandem of cores 0 and 1 runs on core 0. -/
def tandemBench (ws : List (Nat × Word)) : State :=
  let s := bench []
  s.setCf { s.cf with tandem := some ⟨[0, 1], ws, [], 0, 0, s.cf.pc, [], false, [], 0, [], []⟩ }

theorem witness_FalseGuard :
    ((1 : BitVec 4) ≠ 8 ∧ (15 : BitVec 4) ≠ 8) ∧ (0x8A#8 ++ 8#4 ++ 0#84 : IWord).extractLsb' 84 4 = 8
    ∧ (bench []).run?.isSome = true
    ∧ (match fieldsOf (.br ⟨⟨false, 1⟩, 0⟩ 0xFFFFFFFFB) with | some f => f.op == 0x80 && guardOf f.g == ⟨false, 1⟩ | none => false) = true
    ∧ (match fieldsOf (.nop ⟨⟨true, 0⟩, 0⟩) with | some f => f.op == 0x8A && f.g == 8 | none => false) = true
    ∧ (match fieldsOf (.add { ar .i32 (.w 1) (.w 2) (.w 3) with hd := ⟨⟨true, 7⟩, 0⟩ }) with
        | some f => f.op == 0x01 && f.g == 15 | none => false) = true
    ∧ ((bench []).setPred 7 true).guardHolds ⟨true, 7⟩ = false
    ∧ (bench []).guardHolds ⟨false, 1⟩ = false ∧ (bench []).guardHolds ⟨true, 0⟩ = false := by
  repeat' apply And.intro
  all_goals decide +kernel

theorem witness_FaultsAreTaken :
    (bench []).run?.isSome = true ∧ (fieldsOf (.ld (mm .n64 (.w 5) (.imm 0) (.imm 0) .core .rlx))).isSome = true
    ∧ (bench []).run? = some (bench []).cf ∧ (tandemBench []).run? = some (tandemBench []).cf
    ∧ (tandemBench []).cf.tandem.isSome = true := by
  repeat' apply And.intro
  all_goals decide +kernel

theorem witness_WordsAndPredicates :
    ((bench [(5, 1)]).Inv ∧ (bench [(5, 1)]).run?.isSome = true ∧ (bench [(5, 1)]).cf.tandem = none
      ∧ ¬(bench [(5, 1)]).inWord 5 (sliceKey 0 (0x60000 - 128 + 48)))
    ∧ (tandemBench [(5, 1)]).Inv ∧ (tandemBench [(5, 1)]).run?.isSome = true ∧ (tandemBench [(5, 1)]).cf.tandem.isSome = true
    ∧ (let s := bench []
       let s := s.setCf { s.cf with claims := [⟨0, 0x100400, 0, 1, 0x100800⟩] }
       s.Inv ∧ s.run?.isSome = true ∧ s.cf.claims.find? (fun q => q.input == (0 : BitVec 3).toNat) = some ⟨0, 0x100400, 0, 1, 0x100800⟩
        ∧ s.cf.claims.find? (fun q => q.input == (1 : BitVec 3).toNat) = none)
    ∧ (let s := ((((bench []).setNum 0x400 8 0x100800).setNum 0x408 8 (2 * 2 ^ 16 + 7)).setNum 0x420 8 0x100200).setChan 0x400
         { Chan.reset with next := 1, counted := [(0, 0)] }
       s.Inv ∧ s.run?.isSome = true ∧ (claimsOf s 0 0 [(1, ⟨1, 0x100400⟩)]).isSome = true) := by
  repeat' apply And.intro
  all_goals first | decide +kernel | (unfold State.inWord; decide +kernel)

theorem witness_ResultsAndDivision :
    Ty.i8.isInt = true ∧ Ty.n64.isInt = true ∧ Ty.i64.isI = true ∧ (0 : Int) = 0 ∧ (-1 : Int) ≠ 0 := by
  repeat' apply And.intro
  all_goals decide

theorem witness_FieldsAndElements :
    (Ty.n8.isInt = true ∧ 255 < 2 ^ Ty.n8.width ∧ 0 < 2 ^ Ty.n8.width ∧ 7 < Ty.n8.width)
    ∧ 0 < 4 ∧ [15, 0].length * 4 ≤ 4608 ∧ (∀ e ∈ [15, 0], e < 2 ^ 4) ∧ 1 < [15, 0].length ∧ [15, 0].length ≤ 2 := by
  repeat' apply And.intro
  all_goals decide

/-- A bench with words and vectors, and operands of both shapes. -/
def ibench : State := vbench [(5, 1), (6, -7), (7, 64)] [(1, [10, 20]), (2, [1, 2]), (15, [1])]

theorem witness_IntegerInstructions :
    (ibench.issues always ∧ ibench.needOpnds [.w 5, .w 6, .imm 0x4000] = .ok () ∧ ibench.srcT (.w 6) .i32 .rne = .ok 0xFFFFFFF9
      ∧ ibench.srcT (.imm 0x4000) .i32 .rne = .ok 0xFFFFC000)
    ∧ (ibench.needOpnds [.v 3, .v 1, .w 15] = .ok () ∧ ibench.srcT (.v 1) .i32 .rne = .ok 0 ∧ ibench.srcT (.w 15) .i32 .rne = .ok 0)
    ∧ ibench.src64 (.w 7) = .ok 64 ∧ (w567 .i32).d = .w 5 ∧ (ar .i32 (.v 3) (.v 1) (.w 7)).d = .v 3
    ∧ ibench.needMask true = .ok () ∧ ibench.needDest (.w 5) = .ok () ∧ ibench.needDest (.v 3) = .ok () := by
  repeat' apply And.intro
  all_goals first | decide +kernel | exact ok_of (by decide +kernel)

theorem witness_OneSourceAndConversions :
    (ibench.issues always ∧ ibench.needOpnds [.w 5, .w 6] = .ok () ∧ ibench.srcT (.w 6) .i8 .rne = .ok 0xF9
      ∧ ibench.srcT (.imm 3) .f32 .rne = .ok 0x40400000)
    ∧ (ibench.needOpnds [.v 3, .v 1] = .ok () ∧ ibench.srcT (.v 1) .i32 .rne = .ok 0 ∧ (Opnd.w 6).isV = false
      ∧ ibench.needOpnds [.v 3, .w 6] = .ok () ∧ ibench.srcT (.w 6) .f32 .rne = .ok 0xFFFFFFF9 ∧ ibench.needMask true = .ok ()) := by
  repeat' apply And.intro
  all_goals first | decide +kernel | exact ok_of (by decide +kernel)

theorem witness_CarryChain :
    decode (inWord 0x03 0 0x7 5 6 7 0) = .ok (.addc (w567 .n64)) ∧ (inWord 0x03 0 0x7 5 6 7 0).extractLsb' 88 8 = 0x03
    ∧ decode (inWord 0x04 0 0x2 5 6 7 0) = .ok (.subb (w567 .i32)) ∧ (inWord 0x04 0 0x2 5 6 7 0).extractLsb' 88 8 = 0x04
    ∧ ibench.issues always ∧ ibench.needOpnds [.w 5, .w 6, .w 7] = .ok () ∧ ibench.srcT (.w 6) .n64 .rne = .ok 0xFFFFFFFFFFFFFFF9
    ∧ ibench.srcT (.w 7) .n64 .rne = .ok 64 := by
  repeat' apply And.intro
  all_goals first | decide +kernel | exact ok_of (by decide +kernel) | rfl

theorem witness_SelectAndMoves :
    (decode (inWord 0x25 0 0xB 5 6 7 0) = .ok (.sel (w567 .f64)) ∧ decode (inWord 0x29 0 0 5 6 0x20010 0) = .ok (.lea (tk (.w 5) (.w 6) (.imm 16)))
      ∧ 0x25 ≤ ((inWord 0x25 0 0xB 5 6 7 0).extractLsb' 88 8).toNat ∧ ((inWord 0x29 0 0 5 6 0x20010 0).extractLsb' 88 8).toNat ≤ 0x29)
    ∧ (decode (inWord 0x27 0 0 5 0x3FFFF 0x3FFFE 0) = .ok (.li always (.w 5) 0xFFFFFFFFE)
      ∧ decode (inWord 0x28 0 0 5 0x003FF 0x3FFFE 0) = .ok (.lih always (.w 5) 0xFFFFFFE)
      ∧ decode (inWord 0x26 0 0xF 4 6 0 0) = .ok (.mov (ar .q128 (.w 4) (.w 6) (.w 0))))
    ∧ (ibench.issues always ∧ ibench.needOpnds [.w 5, .w 6, .w 7] = .ok () ∧ ibench.needOpnds [.v 3, .v 1, .w 7] = .ok ()
      ∧ ibench.srcT (.w 6) .i8 .rne = .ok 0xF9 ∧ ibench.srcT (.w 7) .i8 .rne = .ok 64 ∧ ibench.srcT (.v 1) .i8 .rne = .ok 0)
    ∧ (ibench.needPair 14 = .ok () ∧ ibench.needPair 6 = .ok () ∧ ibench.srcWord 6 = .ok (-7) ∧ ibench.srcWord 7 = .ok 64
      ∧ (5 : BitVec 8).toNat % 2 = 1 ∧ ibench.needWord 15 = .ok () ∧ ibench.src64 (.imm 0x4000) = .ok (-16384)
      ∧ ibench.needMask true = .ok () ∧ ibench.srcWord 5 = .ok 1) := by
  repeat' apply And.intro
  all_goals first | decide +kernel | exact ok_of (by decide +kernel) | rfl

theorem witness_ComparesAndPredicates :
    ibench.issues always ∧ ibench.needOpnds [.w 6, .w 7] = .ok () ∧ ibench.srcT (.w 6) .i8 .rne = .ok 0xF9
    ∧ ibench.srcT (.w 7) .i8 .rne = .ok 64 ∧ ibench.needOpnds [.v 1, .w 7] = .ok () ∧ ibench.srcT (.v 1) .i8 .rne = .ok 0
    ∧ ibench.needMask true = .ok () ∧ CmpDst.p 0 ≠ CmpDst.p 7 ∧ (⟨always, .i8, .v 3, .v 1, .w 7, true⟩ : Cmp).d = .v 3 := by
  repeat' apply And.intro
  all_goals first | decide +kernel | exact ok_of (by decide +kernel)

theorem witness_FloatTwoSource :
    ibench.issues always ∧ ibench.needOpnds [.w 5, .w 6, .imm 1] = .ok () ∧ ibench.srcT (.w 6) .f64 .rne = .ok 0xFFFFFFFFFFFFFFF9
    ∧ ibench.srcT (.imm 1) .f64 .rne = .ok 0x3FF0000000000000 ∧ ibench.needDest (.w 5) = .ok () ∧ ibench.needMask true = .ok () := by
  repeat' apply And.intro
  all_goals first | decide +kernel | exact ok_of (by decide +kernel)

theorem witness_LaneMoves :
    ibench.issues always ∧ ibench.needOpnds [.v 1, .w 7] = .ok () ∧ ibench.srcT (.v 1) .i32 .rne = .ok 0 ∧ ibench.src64 (.w 7) = .ok 64
    ∧ ibench.needOpnds [.w 7] = .ok () ∧ (ar .i32 (.v 3) (.v 1) (.w 7)).d = .v 3
    ∧ ibench.needOpnds [.v 1] = .ok () ∧ (Opnd.v 1).isV = true ∧ ibench.srcT (.w 7) .i32 .rne = .ok 64 ∧ (Opnd.w 7).isV = false
    ∧ ibench.needLanes [.v 1, .w 7] = .ok () ∧ ibench.needLanes [.v 1] = .ok () ∧ ibench.needMask true = .ok () := by
  repeat' apply And.intro
  all_goals first | decide +kernel | exact ok_of (by decide +kernel) | rfl

theorem witness_LaneClaimAndReductions :
    ((bench [(6, 256)]).issues always ∧ (bench [(6, 256)]).needOpnds [.w 5, .w 6] = .ok () ∧ (bench [(6, 256)]).src64 (.w 6) = .ok 256
      ∧ (bench [(6, 256)]).cf.vecUsed = false ∧ ibench.cf.vecUsed = true)
    ∧ ibench.issues always ∧ ibench.needOpnds [.w 5, .imm 0] = .ok () ∧ ibench.src64 (.imm 0) = .ok 0 ∧ ibench.needWord 5 = .ok ()
    ∧ ibench.needOpnds [.w 7] = .ok () ∧ ibench.src64 (.w 7) = .ok 64 ∧ ibench.needLanes [.v 1] = .ok () ∧ ibench.needMask true = .ok () := by
  repeat' apply And.intro
  all_goals first | decide +kernel | exact ok_of (by decide +kernel)

theorem witness_RegisterFrame :
    ibench.Inv ∧ (∃ t, exec (.add (w567 .i32)) ibench = .next t) ∧ (∃ t, exec (.vbcast (ar .i32 (.v 3) (.w 6) (.w 0))) ibench = .next t)
    ∧ (∃ t, exec (.vext (ar .i32 (.w 5) (.v 1) (.w 7))) ibench = .next t) ∧ (∃ t, exec (.addc (w567 .n64)) ibench = .next t)
    ∧ (∃ t, exec (.li always (.w 5) 1) ibench = .next t) ∧ (∃ t, exec (.cmp .eq ⟨always, .i8, .p 7, .w 6, .w 7, false⟩) ibench = .next t)
    ∧ (∃ t, exec (.pand ⟨always, 1, ⟨false, 0⟩, ⟨false, 0⟩⟩) ibench = .next t)
    ∧ (∃ t, exec (.mov (ar .q128 (.w 14) (.w 6) (.w 0))) ibench = .next t) ∧ (∃ t, exec (.vscan .add (ar .i32 (.v 3) (.v 1) (.w 0))) ibench = .next t)
    ∧ (∃ t, exec (.qpack .f32 (ar .e2m1 (.v 3) (.v 1) (.w 5))) ibench = .next t)
    ∧ (∃ t, exec (.qunpk .e2m1 (ar .f32 (.v 3) (.v 1) (.w 5))) ibench = .next t)
    ∧ (bench [(6, 256)]).Inv ∧ (∃ t, exec (.vclaim (tk (.w 5) (.w 6) (.w 0))) (bench [(6, 256)]) = .next t) := by
  repeat' apply And.intro
  all_goals first | decide +kernel | exact ⟨_, rfl⟩

theorem witness_LoadAndStoreFrame :
    ibench.Inv ∧ (∃ t, exec (.ld (mm .n64 (.w 5) (.w 7) (.imm 0) .core .rlx)) ibench = .next t)
    ∧ (∃ t, exec (.st (mm .n64 (.w 5) (.w 7) (.imm 0) .core .rlx)) ibench = .next t)
    ∧ (tandemBench [(5, 1), (7, 64)]).Inv ∧ (tandemBench [(5, 1), (7, 64)]).cf.tandem.isSome = true
    ∧ (∃ t, exec (.st (mm .n64 (.w 5) (.w 7) (.imm 0) .core .rlx)) (tandemBench [(5, 1), (7, 64)]) = .next t) := by
  repeat' apply And.intro
  all_goals first | decide +kernel | exact ⟨_, rfl⟩

/-- The translation of the bench's page. -/
def page0 : Tlb := ⟨0, 0x100000, 19, 0, true, true, false⟩

/-- Where n bytes at offset k of the bench's page lie. -/
def seg0 (k n : Nat) : Seg := ⟨0x100000 + k, k, k, n, false, page0⟩

/-- A bench with addresses of the slice and of translated memory in words. -/
def mbench : State := vbench [(5, 1), (6, 0x100040), (7, 0x5FF00), (8, 0x80), (10, 0x107FFF)] [(1, [1, 2]), (2, [8, 4])]

theorem witness_ScalarLoad :
    (mbench.issues always ∧ mbench.needOpnds [.w 7, .imm 0xF8] = .ok () ∧ mbench.needWord 5 = .ok () ∧ mbench.src64 (.w 7) = .ok 0x5FF00
      ∧ mbench.src64 (.imm 0xF8) = .ok 0xF8 ∧ (0x5FF00 + 0xF8 : Word).toNat % accBytes .n64 = 0
      ∧ mbench.whereAt mbench.cur mbench.cctx 0x5FFF8 8 .load = .ok (.slice 0 0x5FFF8 false)
      ∧ mbench.readable mbench.cur 0x5FFF8 (.slice 0 0x5FFF8 false) 8 0 = .ok ()
      ∧ loadWaits (mm .n64 (.w 5) (.w 7) (.imm 0xF8) .pod .acq) .load mbench = false
      ∧ ldFar (mm .n64 (.w 5) (.w 7) (.imm 0xF8) .pod .acq) mbench = none)
    ∧ (mbench.needPair 14 = .ok () ∧ mbench.whereAt mbench.cur mbench.cctx 0x100040 16 .load = .ok (.phys [seg0 0x40 16])
      ∧ mbench.src64 (.w 6) = .ok 0x100040 ∧ mbench.readable mbench.cur 0x100040 (.phys [seg0 0x40 16]) 16 0 = .ok ()
      ∧ loadWaits (mm .q128 (.w 14) (.w 6) (.imm 0) .core .rlx) .load mbench = false
      ∧ ldFar (mm .q128 (.w 14) (.w 6) (.imm 0) .core .rlx) mbench = none) := by
  repeat' apply And.intro
  all_goals first | decide +kernel | exact ok_of (by decide +kernel)

theorem witness_ScalarStores :
    (mbench.Inv ∧ mbench.issues always ∧ mbench.needOpnds [.w 7, .imm 0xF8] = .ok () ∧ mbench.needWord 5 = .ok ()
      ∧ mbench.src64 (.w 7) = .ok 0x5FF00 ∧ mbench.whereAt mbench.cur mbench.cctx 0x5FFF8 8 .store = .ok (.slice mbench.cur 0x5FFF8 false)
      ∧ storeData mbench (mm .n64 (.w 5) (.w 7) (.imm 0xF8) .pod .rel) = .ok [1, 0, 0, 0, 0, 0, 0, 0]
      ∧ storeWaits (mm .n64 (.w 5) (.w 7) (.imm 0xF8) .pod .rel) mbench = false ∧ mbench.cf.tandem = none
      ∧ mbench.badRun (sliceKey mbench.cur 0x5FFF8) 8 = false
      ∧ ({ mbench with bad := [sliceKey 0 0x5FFF8 / 128] } : State).badRun (((Loc.slice 0 0x5FFF8 false).keys 1).headD 0) 8 = true)
    ∧ (mbench.needOpnds [.w 6, .w 8] = .ok () ∧ mbench.src64 (.w 6) = .ok 0x100040 ∧ mbench.src64 (.w 8) = .ok 0x80
      ∧ mbench.whereAt mbench.cur mbench.cctx 0x1000C0 1 .store = .ok (.phys [seg0 0xC0 1])
      ∧ storeData mbench (mm .i8 (.w 5) (.w 6) (.w 8) .core .rlx) = .ok [1]
      ∧ storeWaits (mm .i8 (.w 5) (.w 6) (.w 8) .core .rlx) mbench = false ∧ (Loc.phys [seg0 0xC0 1]).ownAlias mbench.cur = false)
    ∧ (let s := tandemBench [(5, 1), (7, 0x5FF00)]
       let x := mm .n64 (.w 5) (.w 7) (.imm 0xF8) .core .rlx
       s.issues always ∧ s.needOpnds [.w 7, .imm 0xF8] = .ok () ∧ s.needWord 5 = .ok () ∧ s.src64 (.w 7) = .ok 0x5FF00
        ∧ s.whereAt s.cur s.cctx 0x5FFF8 8 .store = .ok (.slice s.cur 0x5FFF8 false)
        ∧ storeData s x = .ok [1, 0, 0, 0, 0, 0, 0, 0] ∧ storeWaits x s = false ∧ s.cf.tandem.isSome = true
        ∧ (s.stParts x 0x5FFF8 (.slice s.cur 0x5FFF8 false) [1, 0, 0, 0, 0, 0, 0, 0]).length = 1) := by
  repeat' apply And.intro
  all_goals first | decide +kernel | exact ok_of (by decide +kernel)

/-- A bench whose v2 holds the offsets of the example of R258. -/
def gbench : State :=
  vbench [(7, 0x5FF00)] [(1, [1, 0, 2, 0, 3, 0, 4]), (2, [0, 8, 0x80000000, 0, 0x80000000, 0x80000000, 0x80000000, 0x80000000])]

theorem witness_VectorLoadsAndStores :
    (let x := mm .i64 (.v 1) (.w 7) (.imm 0xC0) .core .rlx
     let els := (List.range 8).map (fun k => (k, 0x5FFC0 + 8 * k, Loc.slice 0 (0x5FFC0 + 8 * k) false))
     mbench.issues always ∧ ldvElems x .load mbench = .ok els ∧ elemWaits (ldvElems x .load) (elBytes x.ty) mbench = false ∧ elemFar x (ldvElems x .load) mbench = none ∧ mbench.needMask x.lm = .ok () ∧ mbench.needLanes [x.d] = .ok ()
      ∧ (∀ e ∈ els, mbench.readable mbench.cur e.2.1 e.2.2 (elBytes x.ty) x.ccls = .ok ())
      ∧ ldvElems x .store mbench = .ok els ∧ elemStoreWaits x (ldvElems x .store) mbench = false)
    ∧ (let x := mm .i64 (.v 1) (.w 7) (.v 2) .core .rlx
       let els := [(0, 0), (1, 8), (3, 0)].map (fun e => (e.1, 0x5FF00 + e.2, Loc.slice 0 (0x5FF00 + e.2) false))
       gbench.issues always ∧ ldgElems x .load gbench = .ok els ∧ elemWaits (ldgElems x .load) (elBytes x.ty) gbench = false ∧ elemFar x (ldgElems x .load) gbench = none ∧ gbench.needMask x.lm = .ok () ∧ gbench.needLanes [x.d] = .ok ()
        ∧ (∀ e ∈ els, gbench.readable gbench.cur e.2.1 e.2.2 (elBytes x.ty) x.ccls = .ok ())
        ∧ ldgElems x .store gbench = .ok els ∧ elemStoreWaits x (ldgElems x .store) gbench = false) := by
  have all : ∀ (s : State) (l : List (Nat × Nat × Loc)), l.all (fun e => okIs (s.readable s.cur e.2.1 e.2.2 8 0) ()) = true →
      ∀ e ∈ l, s.readable s.cur e.2.1 e.2.2 8 0 = .ok () := fun s l h e m => ok_of (List.all_eq_true.mp h e m)
  repeat' apply And.intro
  all_goals first | decide +kernel | exact ok_of (by decide +kernel) | (refine all _ _ ?_; decide +kernel)

/-- R258: the example of the rule: element 1 lands at wa + 8, element 3 at wa. -/
theorem test_scatter :
    leaves gbench (.sts (mm .n64 (.v 1) (.w 7) (.v 2) .core .rlx))
      (fun t => t.num (sliceKey 0 0x5FF00) 8 == 4 && t.num (sliceKey 0 0x5FF08) 8 == 2 && t.num (sliceKey 0 0x5FF10) 8 == 0) = true := by
  decide +kernel

theorem witness_CacheControl :
    (mbench.issues always ∧ fenceWaits (mm .i8 (.w 0) (.w 0) (.w 0) .pod .acqrel) mbench = false ∧ lbfWaits mbench = false
      ∧ mbench.needOpnds [.w 6, .imm 0] = .ok () ∧ mbench.src64 (.w 6) = .ok 0x100040 ∧ mbench.src64 (.imm 0) = .ok 0
      ∧ mbench.whereAt mbench.cur mbench.cctx (0x100040 + 0 : Word).toNat 1 .load = .ok (.phys [seg0 0x40 1])
      ∧ (0x100040 + 0 : Word).toNat / 2 ^ 55 ≠ 1 ∧ (2 ^ 55 + 0x40 : Word).toNat / 2 ^ 55 = 1)
    ∧ (let p := { page0 with c := true }
       let s := mbench.setCas 0 { mbench.cas 0 with tlb := [p] }
       s.whereAt s.cur s.cctx 0x100040 1 .load = .ok (.phys [{ seg0 0x40 1 with cached := true, tlb := p }])
        ∧ ((s.noteTlb (casOf s.cur) p).cas (casOf s.cur)).l1co ≠ 0 ∧ (s.noteTlb (casOf s.cur) p).l1Line s.cur 0x40 = none)
    ∧ (mbench.src64 (.w 5) = .ok 1 ∧ mbench.whereAt mbench.cur mbench.cctx (1 + 0 : Word).toNat 1 .load = .ok (.slice 0 1 false)
      ∧ mbench.whereAt mbench.cur mbench.cctx (0x60000 + 0 : Word).toNat 1 .load = .error (trapAt Cls.window 0x60000))
    ∧ ((0 : BitVec 2).toNat ≤ 1 ∧ (mbench.cas (casOf mbench.cur)).l1co ≠ 0 ∧ mbench.l1Line mbench.cur 0x40 = none) := by
  repeat' apply And.intro
  all_goals first | decide +kernel | exact ok_of (by decide +kernel) | exact error_of (by decide +kernel)

/-- A region entry over the bench's page (R175): STATE, OWNER, RTY i64, ROP add, SLOTS and the staging image at 0x9000. -/
def regionBits (state owner slots : Nat) : Nat :=
  3 * 2 ^ 12 + 16 * 2 ^ 16 + state * 2 ^ 62 + owner * 2 ^ 64 + 8 * 2 ^ 96 + 0x9000 * 2 ^ 160 + slots * 2 ^ 224

/-- A bench whose context 0 is deterministic, with one region over its page. -/
def dbench (ws : List (Nat × Word)) (state owner slots : Nat) : State :=
  let s := bench ws
  (s.setCtx 0 { s.ctx 0 with detctl := 1, rgntab := 0x8000, rgncnt := 1 }).setNum 0x8000 32 (regionBits state owner slots)

/-- A state in which a message waits under tag 7. -/
def State.waiting (s : State) (m : Msg) : State := { s with msgs := [(7, m)], nextTag := 9 }

def abench : State := vbench [(4, 1), (5, 0), (6, 0x100040), (7, 0x5FF00), (8, 3), (9, 0)] [(2, [1, 2, 3, 4])]

theorem witness_AtomicIssue :
    (let x := mm .n32 (.w 5) (.w 7) (.w 8) .pod .acqrel
     abench.issues always ∧ relBlocks x abench = false ∧ abench.src64 (.w 7) = .ok 0x5FF00 ∧ abench.needOpnds [.w 5, .w 7, .w 8] = .ok ()
      ∧ abench.needOpnds [.w 7, .w 8] = .ok () ∧ atomLoc abench 0x5FF00 4 = .ok (.slice 0 0x5FF00 false, sliceKey 0 0x5FF00)
      ∧ atomOpnd abench .add x = .ok 3 ∧ abench.srcT (.w 5) .n32 .rne = .ok 0 ∧ abench.srcT (.w 8) .n32 .rne = .ok 3
      ∧ abench.needOpnds [.w 7] = .ok () ∧ abench.needPair 4 = .ok () ∧ abench.needPair 8 = .ok ()
      ∧ atomLoc abench 0x5FF00 16 = .ok (.slice 0 0x5FF00 false, sliceKey 0 0x5FF00) ∧ abench.pair 4 = .ok 1 ∧ abench.pair 8 = .ok 3)
    ∧ (let x := mm .i32 (.w 0) (.w 7) (.v 2) .core .rlx
       relBlocks x abench = false ∧ abench.needLanes [.v 2] = .ok () ∧ 0x5FF00 % (atomWidth .add x.ty / 8) = 0
        ∧ ∀ k < lanes abench.cf.groups (atomWidth .add x.ty), abench.whereAt abench.cur abench.cctx
          ((0x5FF00 + k * (atomWidth .add x.ty / 8)) % 2 ^ 64) (atomWidth .add x.ty / 8) .atomic = .ok (.slice 0 (0x5FF00 + k * 4) false))
    ∧ (let s := dbench [(5, 15), (6, 0x100040), (8, 3)] 3 0 16
       let x := mm .i64 (.w 5) (.w 6) (.w 8) .core .rlx
       s.issues always ∧ relBlocks x s = false ∧ s.needOpnds [.w 5, .w 6, .w 8] = .ok () ∧ s.src64 (.w 6) = .ok 0x100040
        ∧ 0x100040 % (x.ty.width / 8) = 0 ∧ s.sliceSize s.cur < 0x100040 + 8 ∧ 0x80000 ≤ 0x100040 ∧ 0x100040 + 8 ≤ 2 ^ 55
        ∧ s.segs s.cur s.cctx 0x100040 8 .atomic 3 = .ok [seg0 0x40 8] ∧ s.srcWord 5 = .ok 15 ∧ s.srcT (.w 8) .i64 .rne = .ok 3 ∧ s.det s.cctx = true
        ∧ s.findRegion (pkgOf s.cur) s.cctx 0x100040 = some 0
        ∧ (let e := s.region (pkgOf s.cur) s.cctx 0
           rgnBad e = false ∧ rgnState e = 3 ∧ rgnTy e = .i64 ∧ 15 % 2 ^ 32 % 2 ^ (0 : BitVec 5).toNat = 0 ∧ 15 < rgnSlots e)) := by
  have each : ∀ (s : State) (n : Nat), (List.range n).all (fun k => okIs (s.whereAt s.cur s.cctx ((0x5FF00 + k * 4) % 2 ^ 64) 4 .atomic)
      (.slice 0 (0x5FF00 + k * 4) false)) = true → ∀ k < n, s.whereAt s.cur s.cctx ((0x5FF00 + k * 4) % 2 ^ 64) 4 .atomic
      = .ok (.slice 0 (0x5FF00 + k * 4) false) := fun s n h k m => ok_of (List.all_eq_true.mp h k (List.mem_range.mpr m))
  repeat' apply And.intro
  all_goals first | decide +kernel | exact ok_of (by decide +kernel) | (refine each _ _ ?_; decide +kernel)

/-- An atomic add of 3 to the 32-bit word at key 0x40, from core 0. -/
def addAtom : Atom := ⟨0, 0, .amo, .add, .n32, 0x40, 0x100040, [3], 0, 5, 0, none, some .pod, [], 7, 0, 0, false, 0, 0⟩

theorem witness_AtomicAtHome :
    (let s := State.waiting (bench []) (.atom addAtom)
     s.Inv ∧ s.msg? 7 = some (.atom addAtom) ∧ addAtom.kind ≠ .red ∧ s.homePkg addAtom.key = pkgOf addAtom.core
      ∧ addAtom.ops = [3] ∧ addAtom.applied = false
      ∧ s.lostHome (pkgOf addAtom.core) addAtom.key = false ∧ atomReady s 7 addAtom = true
      ∧ s.unitFails addAtom = none)
    ∧ (let a := { addAtom with core := 32768 }
       let s := State.waiting (bench []) (.atom a)
       s.Inv ∧ s.msg? 7 = some (.atom a) ∧ s.homePkg a.key ≠ pkgOf a.core ∧ s.dupOf a = none ∧ s.dupFull a = false
        ∧ s.lostHome (pkgOf a.core) a.key = false ∧ atomReady s 7 a = true ∧ s.unitFails a = none)
    ∧ (let a := { addAtom with kind := .amov, ops := [3, 4] }
       let s : State := { State.waiting (bench []) (.atom a) with syncs := [sliceKey 0 0x40] }
       s.msg? 7 = some (.atom a) ∧ a.kind ≠ .red ∧ a.kind = .amov ∧ atomReady s 7 a = true ∧ s.unitFails a = none)
    ∧ (let s : State := { bench [] with msgs := [(7, .atom addAtom), (8, .atomAck 7 none [(5, 0)])] }
       s.msg? 8 = some (.atomAck 7 none [(5, 0)]) ∧ (s.dropMsg 8).msg? 7 = some (.atom addAtom)
        ∧ State.atomReturns addAtom = true ∧ addAtom.acq = none) := by
  repeat' apply And.intro
  all_goals decide +kernel

/-- R264 to R266, by hand: 0xFFFFFFFF + 3 wraps to 2 and the old value goes back; cas stores only where the value is the one
expected. -/
theorem test_atomics :
    (let s := (State.waiting (bench []) (.atom addAtom)).setNum 0x40 4 0xFFFFFFFF
     let c (e : Nat) := (State.waiting (bench []) (.atom { addAtom with kind := .cas, fn := .swap, expected := e })).setNum 0x40 4 9
     leaves s (.atomicApply 7) (fun t => t.num 0x40 4 == 2 && t.num 0x44 1 == 0
        && leaves t (.atomicAck 9) (fun u => u.word 5 == 0xFFFFFFFF && u.cf.c && u.cf.k))
      && leaves (c 9) (.atomicApply 7) (fun t => t.num 0x40 4 == 3 && leaves t (.atomicAck 9) (fun u => u.word 5 == 9 && u.pred 7))
      && leaves (c 8) (.atomicApply 7) (fun t => t.num 0x40 4 == 9 && leaves t (.atomicAck 9) (fun u => u.word 5 == 9 && !u.pred 7)))
     = true := by decide +kernel

/-- A contribution of 3 with index 0 and level 0 to the element at 0x10_0040. -/
def oneRed : Atom := ⟨0, 0, .red, .swap, .i64, 0x40, 0x100040, [3], 0, 0, 0, none, none, [], 7, 0, 0, false, 0, 0⟩

theorem witness_ReductionAtHome :
    (let s := State.waiting (bench []) (.atom oneRed)
     s.Inv ∧ s.msg? 7 = some (.atom oneRed) ∧ oneRed.kind = .red ∧ s.homePkg oneRed.key = pkgOf oneRed.core
      ∧ oneRed.applied = false
      ∧ s.lostHome (pkgOf oneRed.core) oneRed.key = false ∧ atomReady s 7 oneRed = true ∧ s.unitFails oneRed = none
      ∧ s.findRegion (pkgOf oneRed.core) 0 0x100040 = none)
    ∧ (let s := State.waiting (dbench [] 1 0 16) (.atom oneRed)
       s.Inv ∧ s.unitFails oneRed = none ∧ s.findRegion 0 0 0x100040 = some 0 ∧ rgnState (s.region 0 0 0) ≠ 3)
    ∧ (let s := State.waiting (dbench [] 3 0 16) (.atom oneRed)
       let u := s.setCtx 0 { s.ctx 0 with cover := [(0x100040, 0, 0)] }
       s.Inv ∧ s.unitFails oneRed = none ∧ u.unitFails oneRed = none ∧ s.findRegion 0 0 0x100040 = some 0 ∧ rgnState (s.region 0 0 0) = 3
        ∧ (s.coverOf 0 0x100040).any (fun q => overlaps q.2.1 (2 ^ q.2.2) 0 (2 ^ 0)) = false
        ∧ (s.coverOf 0 0x100040 ++ [(0x100040, 0, 0)]).foldl (fun k q => k + State.coverCount 16 q) 0 < rgnSlots (s.region 0 0 0)
        ∧ u.Inv ∧ u.findRegion 0 0 0x100040 = some 0
        ∧ (u.coverOf 0 0x100040).any (fun q => overlaps q.2.1 (2 ^ q.2.2) 0 (2 ^ 0)) = true)
    ∧ (let s := State.waiting (dbench [] 3 0 1) (.atom oneRed)
       let e := s.region 0 0 0
       let u := (s.setNum (State.stageKey 0 e 0x100040 0) 8 3).setCtx 0 { s.ctx 0 with cover := [(0x100040, 0, 0)] }
       s.Inv ∧ s.unitFails oneRed = none ∧ s.findRegion 0 0 0x100040 = some 0 ∧ rgnState e = 3 ∧ rgnSlots e ≤ State.coverCount (rgnSlots e) (0x100040, 0, 0)
        ∧ u.redNode 0 0 0x100040 e 16 0 = some 3) := by
  repeat' apply And.intro
  all_goals decide +kernel

/-- R184, R268: the second contribution of one index is dropped with DETSTAT.ROVL. -/
theorem test_reduction_overlap :
    (let s := State.waiting (dbench [] 3 0 16) (.atom oneRed)
     leaves s (.redApply 7) (fun t => (t.ctx 0).detstat == 0
       && leaves (State.waiting t (.atom oneRed)) (.redApply 7) (fun u => (u.ctx 0).detstat == 2 && u.mem == t.mem))) = true := by
  decide +kernel

/-- R185, by hand: of five slots, one contribution of level 4 covers every index and gives the element its value. -/
theorem test_reduction_level :
    (let a := { oneRed with dword := 4 }
     leaves (State.waiting (dbench [] 3 0 5) (.atom a)) (.redApply 7) (fun t => t.num 0x40 8 == 3 && (t.ctx 0).detstat == 0)) = true := by
  decide +kernel

theorem witness_Handover :
    (let s := dbench [(4, 1), (5, 0), (6, 0x100040), (8, 1)] 1 0 0
     let e := s.region (pkgOf s.cur) s.cctx 0
     s.issues always ∧ handWaits s = false ∧ s.needOpnds [.w 6, .w 8] = .ok () ∧ s.needWord 5 = .ok () ∧ s.needPair 4 = .ok ()
      ∧ s.src64 (.w 6) = .ok 0x100040 ∧ s.src64 (.w 8) = .ok 1 ∧ s.srcWord 5 = .ok 0 ∧ s.sliceSize s.cur ≤ 0x100040
      ∧ s.seg s.cur s.cctx 0x100040 1 .load = .ok (seg0 0x40 1) ∧ s.det s.cctx = true
      ∧ s.findRegion (pkgOf s.cur) s.cctx 0x100040 = some 0 ∧ rgnBad e = false ∧ rgnOwner e = s.cur ∧ rgnState e ≠ 3
      ∧ s.isCore (pkgOf s.cur) 1 = true ∧ handOk .ex 0 0 = true ∧ handOk .ro 0 0 = true)
    ∧ (let s := dbench [(4, 0x1030000000), (5, 0x9000), (6, 0x100040), (8, 1)] 1 0 0
       s.needPair 4 = .ok () ∧ s.srcWord 4 = .ok 0x1030000000 ∧ s.srcWord 5 = .ok 0x9000
        ∧ handOk .rd 0x1030000000 0x9000 = true)
    ∧ (let s := State.waiting (dbench [] 1 0 0) (.hand 0 0 0x100040 .ex 1 0 0 0x100000)
       s.msg? 7 = some (.hand 0 0 0x100040 .ex 1 0 0 0x100000) ∧ s.findRegion 0 0 0x100040 = some 0
        ∧ s.lostHome 0 (s.rgnKey 0 0 0) = false ∧ rgnOwner (s.region 0 0 0) = 0
        ∧ rgnState (s.region 0 0 0) ≠ 3)
    ∧ (let s := State.waiting (bench []) (.handDone 3 0 0 none (some (1, 16)))
       s.msg? 7 = some (.handDone 3 0 0 none (some (1, 16))) ∧ (s.core 0).run = some s.cf) := by
  repeat' apply And.intro
  all_goals first | decide +kernel | exact ok_of (by decide +kernel)

theorem witness_CapabilityAndRetries :
    (let s := dbench [(6, 0x100040), (8, 0xFFFFFFFFFFFFFF)] 3 0 16
     s.issues always ∧ s.needOpnds [.w 5, .w 6] = .ok () ∧ s.src64 (.w 6) = .ok 0x100040 ∧ s.det s.cctx = true
      ∧ s.findRegion (pkgOf s.cur) s.cctx 0x100040 = some 0 ∧ s.src64 (.w 8) = .ok 0xFFFFFFFFFFFFFF ∧ s.findRegion (0 / 4096) 0 0x100040 = some 0)
    ∧ ((bench []).det 0 = false)
    ∧ (let s := ((bench []).setCtx 0 { Ctx.reset with ptroot := 0x8000 }).setNum 0x8000 8 (2 ^ 63 + 0x10000)
       let t := s.setNum 0x10000 8 (2 ^ 63 + 2 ^ 61 + 2 ^ 60)
       t.walkFrom (0 / 256) 0 0x100000 4 (t.ctx 0).ptroot.toNat = .ok ⟨0, 0, 31, 0, true, false, false⟩)
    ∧ (let a := { addAtom with key := 2 ^ 40 }
       let s := State.waiting (bench []) (.atom a)
       s.msg? 7 = some (.atom a) ∧ s.homePkg a.key ≠ pkgOf a.core)
    ∧ (let s : State := { State.waiting (bench []) (.atom { addAtom with reads := 3 }) with bad := [0] }
       let q : State := { s with bad := [], silent := [0] }
       s.msg? 7 = some (.atom { addAtom with reads := 3 }) ∧ s.unitFails { addAtom with reads := 3 } = some .uncorrectable ∧ s.agenda = []
        ∧ q.unitFails { addAtom with reads := 3 } = some .silent) := by
  repeat' apply And.intro
  all_goals first | decide +kernel | exact ok_of (by decide +kernel)

theorem witness_ControlTransfers :
    (let s := bench [(5, 2), (6, 0x200), (7, 0x202), (8, 1)]
     s.issues always ∧ s.needWord 5 = .ok () ∧ s.src64 (.w 5) = .ok 2 ∧ (2 : Word) ≠ 1 ∧ s.src64 (.w 8) = .ok 1 ∧ s.cf.pc % 4 = 0
      ∧ s.cf.pc + 12 < 2 ^ 50 ∧ (((s.cf.pc : Int) + 12 * (-87381)) % 4 = 0 ∧ 0 ≤ (s.cf.pc : Int) + 12 * (-87381))
      ∧ ¬(0 ≤ (s.cf.pc : Int) + 12 * (-87382)) ∧ s.needOpnds [.w 6] = .ok () ∧ s.src64 (.w 6) = .ok 0x200 ∧ 0x200 % 4 = 0
      ∧ s.src64 (.w 7) = .ok 0x202 ∧ 0x202 % 4 ≠ 0)
    ∧ (let s := bench []
       let h := s.setCore 0 { s.core 0 with dctl := 1 }
       s.issues always ∧ (s.core s.cur).preempt = none ∧ s.Inv ∧ s.cf.tandem = none
        ∧ ¬((s.core s.cur).dctl.getLsbD 0 = true ∧ ((s.core s.cur).dctl.extractLsb' 8 6).toNat = s.cctx)
        ∧ h.issues always ∧ (h.core h.cur).dctl.getLsbD 0 = true ∧ ((h.core h.cur).dctl.extractLsb' 8 6).toNat = h.cctx) := by
  repeat' apply And.intro
  all_goals first | decide +kernel | exact ok_of (by decide +kernel)

/-- A bench with a header at 0x10_0200, a channel descriptor at 0x10_0400 of four slots of 128 bytes at 0x10_0800, whose
consumer is the header, and a firing with one output, two slots wide, and one claimed slot. -/
def cbench (ws : List (Nat × Word)) : State :=
  let s := bench ws
  let s := s.setCf { s.cf with head := { s.cf.head with outs := [⟨2, 0x100400⟩] }, claims := [⟨0, 0x100400, 0, 1, 0x100800⟩] }
  (((s.setNum 0x208 8 (15 * 2 ^ 24)).setNum 0x400 8 0x100800).setNum 0x408 8 (2 * 2 ^ 16 + 7)).setNum 0x420 8 0x100200

/-- The header of the bench as read. -/
def head0 : Hdr :=
  ⟨0, 15, 0, 0, 0, false, 0, false, 0, 0, 0, List.replicate 8 ⟨0, 0⟩, List.replicate 8 ⟨0, 0⟩, List.replicate 4 ⟨0, 0, false, 0, 0⟩⟩

/-- The descriptor of the bench as read. -/
def desc0 : Desc := ⟨0x400, 0x100800, 0x20007, 0, 0, 0, 0x100200, 0⟩

theorem witness_PostMakesFiring :
    (let s := cbench [(6, 0x100200)]
     s.issues always ∧ postWaits s = false ∧ s.needOpnds [.w 6] = .ok () ∧ postOperand s .none (.w 0) = .ok ()
      ∧ s.needArgs 8 = .ok () ∧ guardAlign s .none (.w 0) = .ok () ∧ 0x100200 % 256 = 0
      ∧ s.argWords 8 = .ok (List.replicate 8 0) ∧ s.src64 (.w 6) = .ok 0x100200 ∧ s.privHdr s.cctx 0x100200 = false
      ∧ s.whereAt s.cur s.cctx 0x100200 1 .load = .ok (.phys [seg0 0x200 1]) ∧ postGuard s .none (.w 0) = .ok .none
      ∧ s.hdrOf s.cur s.cctx 0x100200 = .ok (head0, true) ∧ head0.hasInput = false
      ∧ s.whereAt s.cur s.cctx 0x100200 256 .load = .ok (.phys [seg0 0x200 256])
      ∧ s.readable s.cur 0x100200 (.phys [seg0 0x200 256]) 256 3 = .ok ())
    ∧ (let s := cbench [(6, 0x100200), (2, 0x5FF00), (3, 5)]
       postOperand s .sw (.w 2) = .ok () ∧ guardAlign s .sw (.w 2) = .ok () ∧ guardAlign s (.bar .pod) (.imm 9) = .ok () ∧ postGuard s .sw (.w 2) = .ok (.sync 0 0x5FF00 5)
        ∧ postOperand s (.bar .pod) (.imm 9) = .ok () ∧ postGuard s (.bar .pod) (.imm 9) = .ok (.bar (barKey .pod 0) 9)) := by
  repeat' apply And.intro
  all_goals first | decide +kernel | exact ok_of (by decide +kernel)

theorem witness_SpawnForkSendReply :
    (let s := bench [(6, 1), (7, 0x100000)]
     s.issues always ∧ spawnWaits (tk (.w 8) (.w 6) (.w 7)) s = false
      ∧ spawnOperands s (tk (.w 8) (.w 6) (.w 7)) false = .ok (List.replicate 8 0, 1, 0x100000) ∧ s.det s.cctx = false ∧ s.cf.head.det = false)
    ∧ (let s := bench [(6, 1), (7, 0x100000)]
       let d := (s.setCtx 0 { s.ctx 0 with detctl := 1, dettab := 0x100300, detn := 1 }).setNum 0x300 4 7
       let d := d.setCf { d.cf with head := { d.cf.head with det := true } }
       d.issues always ∧ spawnWaits (tk (.w 8) (.w 6) (.w 7)) d = false
        ∧ spawnOperands d (tk (.w 8) (.w 6) (.w 7)) true = .ok (List.replicate 8 0, 1, 0x100000)
        ∧ d.det d.cctx = true ∧ d.cf.head.det = true ∧ placedCore d d.childPath.1 = .ok 7)
    ∧ (let s := (cbench [(5, 0x5FC00), (6, 1 * 2 ^ 24 + 0xEFF * 2 ^ 28 + 1), (7, 1024)]).setNum 0x800 8 (1 * 2 ^ 32)
       s.issues always ∧ sendWaits s = false ∧ s.needOpnds [.w 5, .w 6, .w 7] = .ok () ∧ s.src64 (.w 6) = .ok 0xEFF1000001
        ∧ s.src64 (.w 7) = .ok 1024 ∧ s.srcWord 5 = .ok 0x5FC00 ∧ 0xEFF1000001 / 2 ^ 24 % 16 = 1 ∧ 0xEFF1000001 / 2 ^ 28 % 4096 < 0xF00
        ∧ 0x5FC00 % 8 = 0 ∧ 0x5FC00 + 1024 ≤ s.sliceSize s.cur
        ∧ s.readable s.cur 0x5FC00 (.slice s.cur 0x5FC00 false) 1024 3 = .ok () ∧ s.isCore (pkgOf s.cur) (0xEFF1000001 % 2 ^ 24) = true
        ∧ s.cf.claims.find? (fun q => q.input == 0) = some ⟨0, 0x100400, 0, 1, 0x100800⟩
        ∧ s.devKey s.cur s.cctx 0x100800 .load = .ok 0x800 ∧ (s.slotHdr 0x800).sender = 1 ∧ s.isCore (pkgOf s.cur) 1 = true) := by
  repeat' apply And.intro
  all_goals first | decide +kernel | exact ok_of (by decide +kernel)

theorem witness_ChannelInstructions :
    (let s := cbench [(4, 0x100800), (5, 0), (6, 112 + 0xEFF * 2 ^ 16)]
     let r := s.setCf { s.cf with resv := [⟨0, 0x100400, 0, false⟩] }
     s.issues always ∧ s.needPair 4 = .ok () ∧ outEntry s (.oc 0) = (0, ⟨2, 0x100400⟩) ∧ outDesc s ⟨2, 0x100400⟩ = .ok desc0
      ∧ (r.cf.resv.filter (fun q => q.out == 0)).length < 2 ∧ chpubWaits (tk (.oc 0) (.w 4) (.w 6)) r = false
      ∧ r.issues always ∧ r.needOpnds [.w 6] = .ok () ∧ outDesc r ⟨2, 0x100400⟩ = .ok desc0 ∧ r.srcWord 4 = .ok 0x100800 ∧ r.srcWord 5 = .ok 0
      ∧ r.src64 (.w 6) = .ok (112 + 0xEFF * 2 ^ 16) ∧ 0x100800 = desc0.slot 0 ∧ r.cf.resv.any (fun q => q.out == 0 && q.idx == 0 && !q.done) = true
      ∧ 112 + 16 ≤ 2 ^ desc0.sz ∧ r.devKey r.cur r.cctx 0x100800 .load = .ok 0x800)
    ∧ (let s := bench [(6, 0xFFFF)]
       s.issues always ∧ s.needOpnds [.w 5, .w 6] = .ok () ∧ s.src64 (.w 6) = .ok 0xFFFF ∧ s.privileged s.cf = false
        ∧ (let p := (s.setCtx 0 { s.ctx 0 with syshdr := 0x10000 }).setCf { s.cf with hdr := 0x10000 }
           p.privileged p.cf = true)) := by
  repeat' apply And.intro
  all_goals first | decide +kernel | exact ok_of (by decide +kernel)

theorem witness_ComposeAndDecomp :
    (let s := bench [(6, 0x100000), (7, 15 * 256 + 9), (8, 0)]
     s.issues always ∧ (s.core s.cur).loads = 0 ∧ s.needOpnds [.w 6, .w 7] = .ok () ∧ s.src64 (.w 6) = .ok 0x100000
      ∧ s.src64 (.w 7) = .ok (15 * 256 + 9) ∧ s.cf.tandem = none ∧ 9 ≤ (15 * 256 + 9) % 256 ∧ (15 * 256 + 9) / 256 % 256 ≤ s.wsn
      ∧ s.src64 (.w 8) = .ok 0 ∧ markerWaits s = false)
    ∧ (let s := tandemBench [(5, 1)]
       s.issues always ∧ s.cf.tandem = some ⟨[0, 1], [(5, 1)], [], 0, 0, s.cf.pc, [], false, [], 0, [], []⟩ ∧ markerWaits s = false ∧ (s.core s.cur).preempt = none) := by
  repeat' apply And.intro
  all_goals first | decide +kernel | exact ok_of (by decide +kernel)

/-- A packet of class 1 from core 1 to core 0. -/
def packet0 : Packet := ⟨1, 0, 0, 1, 0x123, 0, [7], false⟩

theorem witness_ArrivalsAndPackets :
    (let s := State.waiting (bench []) (.answer 3 0 0 (some true) [(5, 1)] none)
     s.msg? 7 = some (.answer 3 0 0 (some true) [(5, 1)] none))
    ∧ (let f := { Firing.blank with key := 3, src := .spawn }
       let s := State.waiting ((bench []).setFir f) (.spawn 0 1 3)
       let full := s.setDie 0 { s.die 0 with spawnq := 0 }
       let other := s.setCore 1 { s.core 1 with spown := 2 }
       s.msg? 7 = some (.spawn 0 1 3) ∧ s.fir? 3 = some f ∧ f.key = 3 ∧ spawnReady s 7 0 1 = true
        ∧ (s.dropMsg 7).refusesSpawn 1 f.ctx = false ∧ full.fir? 3 = some f ∧ spawnReady full 7 0 1 = true
        ∧ (full.dropMsg 7).refusesSpawn 1 f.ctx = true ∧ (s.core 1).spown.toNat = f.ctx ∧ (other.core 1).spown.toNat ≠ f.ctx
        ∧ other.fir? 3 = some f ∧ (other.ctx f.ctx).fltch = 0)
    ∧ (let s := State.waiting (cbench []) (.packet packet0)
       let r := s.setCore 0 { s.core 0 with rctab := [(1, 0x100400)] }
       let m := s.setCore 0 { s.core 0 with mask := 2 }
       let e := s.setCore 0 { s.core 0 with spown := 2 }
       let q := m.setCas 0 { m.cas 0 with inbcap := [(0, 0)] }
       let h := r.setCore 0 { r.core 0 with held := [7] }
       s.msg? 7 = some (.packet packet0) ∧ releaseReady s 7 1 (spanScope 1 0) = true ∧ (e.core 0).spown.toNat ≠ packet0.ctx
        ∧ releaseReady e 7 1 (spanScope 1 0) = true ∧ (m.core 0).mask.getLsbD 1 = true ∧ m.admits (casOf 0) (packetBlocks packet0) [0] = true
        ∧ q.admits (casOf 0) (packetBlocks packet0) [0] = false ∧ (r.core 0).mask.getLsbD 1 = false
        ∧ (match deliver (r.dropMsg 7) packet0 with | .ok u => decide (u.num 0x410 4 = 1) | _ => false) = true
        ∧ (releasable h 0).find? (fun e => match deliver h e.2 with | .full => false | _ => true) = some (7, packet0)
        ∧ (match deliver ((h.setCore 0 { h.core 0 with held := (h.core 0).held.erase 7 }).dropMsg 7) packet0 with
            | .ok u => decide (u.num 0x810 1 = 7) | _ => false) = true)
    ∧ (let s := (cbench []).setCore 0 { (cbench []).core 0 with rctab := [(1, 0x100400)] }
       (s.core packet0.dest).spown.toNat = packet0.ctx ∧ ((s.core packet0.dest).rctab.get packet0.cls 0).toNat = 0x100400
        ∧ s.descAt packet0.dest packet0.ctx 0x100400 = .ok desc0 ∧ desc0.ok = true ∧ desc0.ctx = packet0.ctx
        ∧ packet0.payload.length + 16 ≤ 2 ^ desc0.sz ∧ desc0.full = false
        ∧ s.devKey packet0.dest packet0.ctx (desc0.slot desc0.pidx.toNat) .load = .ok 0x800) := by
  repeat' apply And.intro
  all_goals first | decide +kernel | exact ok_of (by decide +kernel)

/-- A store of two bytes at key 0x50 on its way under tag 3, a release of scope .pod. -/
def store0 : PStore := ⟨3, 0, 0, 0, 0x100050, 0x50, [1, 2], some .pod, [], false, 0, none⟩

/-- The channel of the bench with one published slot that no one has counted, from core 0, with STAMP 0. -/
def slotted (len opc cons stamp : Nat) : State :=
  let h := slotHeader len opc 0 0 true 0 (BitVec.ofNat 32 stamp)
  ((((cbench []).setNum 0x800 8 h.1).setNum 0x808 8 h.2).setNum 0x410 4 1).setNum 0x420 8 cons

theorem witness_MemoryAndChannelEvents :
    (let s : State := { bench [] with pend := [store0, { store0 with key := 0x100, data := [3] }] }
     let l : State := { bench [] with pend := [store0] }
     let w := { store0 with key := sliceKey 0 0x40, data := [1], window := true, rel := none }
     let b : State := { bench [] with pend := [w, { w with key := sliceKey 0 0x48 }] }
     s.pend.find? (fun q => q.tag == 3) = some store0 ∧ storeReady s store0 = true ∧ s.together store0 = [store0]
      ∧ writeReady s 3 0 0x50 2 (some .pod) = true ∧ s.lostHome 0 0x50 = false
      ∧ s.isBad 0x50 = false ∧ s.isBad 0x51 = false ∧ store0.key < sliceBase ∧ (s.pend.erase store0).any (fun q => q.tag == 3) = true
      ∧ l.pend.find? (fun q => q.tag == 3) = some store0 ∧ storeReady l store0 = true ∧ l.together store0 = [store0]
      ∧ (l.pend.erase store0).any (fun q => q.tag == 3) = false
      ∧ b.pend.find? (fun q => q.tag == 3) = some w ∧ storeReady b w = true ∧ b.together w = b.pend
      ∧ b.pend.all (fun q => writeReady b q.tag q.core q.key 1 q.rel && !b.lostHome 0 q.key && !b.isBad q.key) = true
      ∧ b.syncs = [] ∧ (b.pend.foldl List.erase b.pend).any (fun q => q.tag == 3) = false)
    ∧ (let s := State.waiting (bench []) (.wback 0 0 0x100100 2 1)
       s.msg? 7 = some (.wback 0 0 0x100100 2 1)
        ∧ (∀ p ∈ s.pend, p.core = 0 → p.tag < 7 → overlaps p.key p.data.length (2 * 128) 128 = false)
        ∧ s.msgs.all (fun e => match e.2 with | .atom _ => false | _ => true) = true)
    ∧ (((bench []).setCore 0 { (bench []).core 0 with loads := 1 }).core 0).loads ≠ 0 ∧ ((bench []).cas 0).l1co ≠ 0
    ∧ 2 ∉ (bench []).bad ∧ (bench []).lostHome (0 / 4096) (2 * 128) = false
    ∧ (let s := State.waiting (cbench []) (.chres 0 0 0x100400 4)
       let f := s.setNum 0x410 4 4
       s.msg? 7 = some (.chres 0 0 0x100400 4) ∧ (s.core 0).run = some s.cf ∧ (s.dropMsg 7).descAt 0 0 0x100400 = .ok desc0
        ∧ desc0.full = false ∧ (f.dropMsg 7).descAt 0 0 0x100400 = .ok { desc0 with pidx := 4 } ∧ { desc0 with pidx := 4 }.full = true)
    ∧ (let ready := fun (s : State) => (s.desc 0x400).ok = true ∧ (s.chan 0x400).next ≠ (s.desc 0x400).pidx
          ∧ s.devKey (State.dieCore (s.homeDie 0x400)) 0 ((s.desc 0x400).slot (s.chan 0x400).next.toNat) .load = .ok 0x800
          ∧ (s.slotHdr 0x800).mark = (s.desc 0x400).mark (s.chan 0x400).next
       let cause := fun (s : State) => slotCause s 0 (s.desc 0x400) (s.slotHdr 0x800)
       let dbgSlot := slotted 112 0xFFE 1 0
       let dropped := slotted 113 0x1 0x100200 0
       let empty := slotted 0 0xFFF 0x100200 0
       let counted := slotted 112 0x0 0x100200 0
       let early := slotted 8 0x1 0x100200 1
       let again := early.setChan 0x400 { Chan.reset with restored := some 1 }
       let unmarked := (cbench []).setNum 0x410 4 1
       (ready dbgSlot ∧ drained dbgSlot 0 (dbgSlot.slotHdr 0x800) = true ∧ cause dbgSlot = 0 ∧ (dbgSlot.slotHdr 0x800).opc ≠ 0xFFF
          ∧ (dbgSlot.desc 0x400).cons = 1)
       ∧ (ready dropped ∧ drained dropped 0 (dropped.slotHdr 0x800) = true ∧ cause dropped ≠ 0)
       ∧ (ready empty ∧ drained empty 0 (empty.slotHdr 0x800) = true ∧ cause empty = 0 ∧ (empty.slotHdr 0x800).opc = 0xFFF)
       ∧ (ready counted ∧ drained counted 0 (counted.slotHdr 0x800) = true ∧ cause counted = 0
          ∧ (counted.slotHdr 0x800).opc ≠ 0xFFF ∧ (counted.desc 0x400).cons ≠ 1)
       ∧ ready early ∧ (early.chan 0x400).restored = none ∧ drained early 0 (early.slotHdr 0x800) = false
       ∧ ready again ∧ (again.chan 0x400).restored.isSome = true
       ∧ (unmarked.desc 0x400).ok = true ∧ (unmarked.chan 0x400).next ≠ (unmarked.desc 0x400).pidx
       ∧ unmarked.devKey (State.dieCore (unmarked.homeDie 0x400)) 0 ((unmarked.desc 0x400).slot (unmarked.chan 0x400).next.toNat) .load = .ok 0x800
       ∧ (unmarked.slotHdr 0x800).mark ≠ (unmarked.desc 0x400).mark (unmarked.chan 0x400).next) := by
  repeat' apply And.intro
  all_goals first | decide +kernel | exact ok_of (by decide +kernel)

/-- A group of cassette 0 with two buffers of 128 bytes at 0x400 of each slice, its sync word at 0x300 (R108). -/
def grbench (ws : List (Nat × Word)) : State :=
  let s := bench ws
  let s := s.setDie 0 { s.die 0 with grptab := 0x1000, grptabSet := true }
  let s := ((s.setNum 0x1000 8 (2 ^ 63 + 2 ^ 60 + 2 ^ 52 + 256)).setNum 0x1010 8 0x1100).setNum 0x1018 4 0x400
  ((s.setNum 0x101C 4 128).setNum 0x1020 4 0x300).setNum 0x1024 4 1

theorem witness_SyncAndGroupInstructions :
    (let s := bench [(6, 0), (7, 0xFFFFFFFF)]
     s.issues always ∧ baraWaits .pod (tk (.w 5) (.w 6) (.w 0)) s = false ∧ s.needOpnds [.w 5, .w 6] = .ok () ∧ s.src64 (.w 6) = .ok 0
      ∧ baraWaits .pod (tk (.w 5) (.w 7) (.w 0)) s = false ∧ s.needOpnds [.w 5, .w 7] = .ok () ∧ s.src64 (.w 7) = .ok 0xFFFFFFFF)
    ∧ (let s := bench [(4, 1), (5, 2), (6, 0x5FF00), (7, 0x10)]
       let x := tk (.w 4) (.w 6) (.w 7)
       s.issues always ∧ s.needOpnds [.w 6, .w 7] = .ok () ∧ s.src64 (.w 6) = .ok 0x5FF00 ∧ s.src64 (.w 7) = .ok 0x10
        ∧ syncLoc s (0x5FF00 + 0x10 : Word).toNat .store = .ok (0, 0x5FF10) ∧ s.needPair 4 = .ok () ∧ s.srcWord 4 = .ok 1 ∧ s.srcWord 5 = .ok 2
        ∧ swarrWaits x s = false ∧ s.needOpnds [.w 5, .w 6, .w 7] = .ok () ∧ syncLoc s 0x5FF00 .load = .ok (0, 0x5FF00)
        ∧ s.readable s.cur 0x5FF00 (.slice 0 0x5FF00 false) 16 3 = .ok () ∧ swtestFar x s = none)
    ∧ (let s := grbench [(5, 128 * 2 ^ 32), (6, 0), (7, 1), (8, 0x102000)]
       let g := s.groupAt 0x1000
       s.issues always ∧ s.needOpnds [.w 5, .w 6] = .ok () ∧ s.src64 (.w 6) = .ok 0 ∧ s.groupOf s.cur s.cctx 0 = some g
        ∧ s.src64 (.w 7) = .ok 1 ∧ s.groupOf s.cur s.cctx 1 = none
        ∧ gldWaits s = false ∧ s.needOpnds [.w 5, .w 8, .w 7] = .ok () ∧ s.src64 (.w 8) = .ok 0x102000 ∧ s.srcWord 5 = .ok (128 * 2 ^ 32)
        ∧ 0x102000 % 128 = 0 ∧ 128 ≤ g.len ∧ s.whereAt s.cur s.cctx 0x102000 128 .load = .ok (.phys [seg0 0x2000 128])) := by
  repeat' apply And.intro
  all_goals first | decide +kernel | exact ok_of (by decide +kernel)

/-- The group of the bench with cores 0 and 1 members from generation 1 on, HIGH 5. -/
def members0 : State :=
  { (grbench []).setNum 0x1100 1 3 with groups := [(0x1000, ⟨5, [(0, 1, none), (1, 1, none)], []⟩)] }

/-- A hold of the bench's group for generation 5, opened by core 1. -/
def hold0 : Hold := ⟨1040, 0x1000, 0, 0, 5, 0x2000, 128, 0, 3, [1], .opened, [], false, false, [(1, 6)]⟩

theorem witness_SyncAndGroupEvents :
    (let s := State.waiting (bench []) (.bar 0 0 (barKey .pod 0) 2 5)
     let t := s.setCtx 0 { s.ctx 0 with bars := [(barKey .pod 0, ⟨9, 1, 2⟩)] }
     s.msg? 7 = some (.bar 0 0 (barKey .pod 0) 2 5) ∧ releaseReady s 7 0 (keyScope (barKey .pod 0)) = true
      ∧ (s.barrier 0 (barKey .pod 0)).count + 1 ≠ 2 ∧ t.msg? 7 = some (.bar 0 0 (barKey .pod 0) 2 5)
      ∧ releaseReady t 7 0 (keyScope (barKey .pod 0)) = true ∧ (t.barrier 0 (barKey .pod 0)).count + 1 = (t.barrier 0 (barKey .pod 0)).e)
    ∧ (let s := State.waiting (bench []) (.sync 0 0 0x5FF00 1 0 (some 0))
       s.Inv ∧ s.msg? 7 = some (.sync 0 0 0x5FF00 1 0 (some 0)) ∧ releaseReady s 7 0 (spanScope 0 0) = true)
    ∧ (let s := State.waiting (bench []) (.swinit 0 0x5FF00 1 2 0)
       s.Inv ∧ s.msg? 7 = some (.swinit 0 0x5FF00 1 2 0) ∧ writeReady s 7 0 (sliceKey 0 0x5FF00) 16 none = true)
    ∧ (let s := State.waiting members0 (.group 2 0 0 5 true)
       s.msg? 7 = some (.group 2 0 0 5 true) ∧ s.groupKey 2 0 = 0x1000 ∧ (s.groupAt 0x1000).serves 0 = true ∧ (s.groupAt 0x1000).serves 1 = false
        ∧ State.isMember (s.groupState 0x1000 (s.groupAt 0x1000)) 2 6 = false
        ∧ State.isMember (s.groupState 0x1000 (s.groupAt 0x1000)) 1 6 = true)
    ∧ (let s := State.waiting members0 (.gld 0 0 0 5 0x2000 128 0x102000)
       let t := State.waiting members0 (.gld 3 0 0 6 0x2000 128 0x102000)
       let u : State := { s with holds := [(4, hold0)] }
       let q' := { s.groupState 0x1000 (s.groupAt 0x1000) with high := 5 }
       s.msg? 7 = some (.gld 0 0 0 5 0x2000 128 0x102000) ∧ State.genLe 5 5 = true ∧ State.isMember q' 0 5 = true
        ∧ u.holds.find? (fun e => e.2.desc == 0x1000 && e.2.gen == 5) = some (4, hold0) ∧ hold0.state = .opened
        ∧ hold0.marked.contains 0 = false ∧ hold0.marked.length + 1 ≠ hold0.expc
        ∧ t.msg? 7 = some (.gld 3 0 0 6 0x2000 128 0x102000) ∧ State.genLe 6 5 = false ∧ State.isMember { q' with high := 6 } 3 6 = false)
    ∧ (let s := State.waiting members0 (.gld 0 0 0 6 0x2000 128 0x102000)
       let g := s.groupAt 0x1000
       let q := s.groupState 0x1000 g
       let q' := { q with high := 6 }
       s.msg? 7 = some (.gld 0 0 0 6 0x2000 128 0x102000) ∧ g.serves 0 = true ∧ q.high = 5 ∧ State.genLe 6 q.high = false
        ∧ State.isMember q' 0 6 = true ∧ s.holds = [] ∧ q.past = [] ∧ State.genLe 6 (q.high - BitVec.ofNat 32 g.bufs + 1) = false
        ∧ s.home 0x1000 = 1040 ∧ s.behindOthers 1040 7 = false ∧ s.holdBytes 1040 + 128 + g.mapBytes ≤ 3 * 2 ^ 20
        ∧ 1 < State.memberCount q' 6)
    ∧ (let s : State := { State.waiting members0 (.gld 0 0 0 6 0x2000 128 0x102000) with holdWait := [(1040, 7), (1040, 8)] }
       let f : State := { s with holds := [(4, { hold0 with len := 3 * 2 ^ 20 })] }
       s.holdWait.find? (fun e => e.1 == 1040) = some (1040, 7) ∧ s.msg? 7 = some (.gld 0 0 0 6 0x2000 128 0x102000)
        ∧ ((s.serveGroup 7 0 0 0 6 0x2000 128).msg? 7).isSome = false
        ∧ ((s.serveGroup 7 0 0 0 6 0x2000 128).holdWait.erase (1040, 7)).any (fun e => e.1 == 1040) = true
        ∧ f.holdWait.find? (fun e => e.1 == 1040) = some (1040, 7) ∧ f.msg? 7 = some (.gld 0 0 0 6 0x2000 128 0x102000)
        ∧ ((f.serveGroup 7 0 0 0 6 0x2000 128).msg? 7).isSome = true)
    ∧ (let s : State := { members0 with holds := [(4, hold0)] }
       let h := { hold0 with state := .fired }
       let f : State := { members0 with holds := [(4, h)] }
       s.holds.find 4 = some hold0 ∧ hold0.due ≤ s.time.toNat ∧ f.holds.find 4 = some h ∧ h.read = false
        ∧ (List.range h.len).find? (fun i => f.isBad (physKey (pkgOf h.slice) h.pa + i)) = none ∧ h.marked.length < h.expc ∧ h.surpassed = false)
    ∧ (let s := State.waiting (bench []) (.fill 3 0 0 0 0x400 0x300 [1])
       let o := State.waiting (bench []) (.fill 3 0 0 1 0x400 0x300 [1])
       s.msg? 7 = some (.fill 3 0 0 0 0x400 0x300 [1]) ∧ (s.core 0).spown.toNat = 0 ∧ o.msg? 7 = some (.fill 3 0 0 1 0x400 0x300 [1])
        ∧ (o.core 0).spown.toNat ≠ 1)
    ∧ (let s := State.waiting (bench []) (.solo 0 0 0x2000 128 0x400 0x300 0 5)
       s.msg? 7 = some (.solo 0 0 0x2000 128 0x400 0x300 0 5) ∧ (s.core 0).spown.toNat = 0
        ∧ (List.range 128).find? (fun i => s.isBad (physKey (pkgOf 0) 0x2000 + i)) = none) := by
  repeat' apply And.intro
  all_goals decide +kernel

/-- R101, R269, by hand: the last arrival of two completes a phase of a barrier; an arrival and 128 bytes complete a sync
word that expects both. -/
theorem test_barriers_and_sync_words :
    (let s := State.waiting (bench []) (.bar 0 0 (barKey .pod 0) 2 5)
     let t := s.setCtx 0 { s.ctx 0 with bars := [(barKey .pod 0, ⟨9, 1, 2⟩)] }
     leaves s (.barrierArrival 7) (fun u => u.barrier 0 (barKey .pod 0) == ⟨0, 1, 2⟩ && u.word 5 == 1)
      && leaves t (.barrierArrival 7) (fun u => u.barrier 0 (barKey .pod 0) == ⟨10, 0, 2⟩ && u.word 5 == 10)
      && (SyncWord.update ⟨0, 1, 7, 0, 128⟩ 0 128 == ⟨0, 1, 7, 128, 128⟩) && (SyncWord.update ⟨0, 1, 7, 128, 128⟩ 1 0 == ⟨0, 1, 8, 0, 128⟩))
     = true := by decide +kernel

/-- A firing under key 3, made by post. -/
def fir0 : Firing := { Firing.blank with key := 3, args := List.replicate 8 0 }

/-- The bench with an exclusion map of four elements at 0x10_0600, its lock records at 0x10_2000 (R66). -/
def xbench (f : Firing) : State :=
  let s := bench []
  let s := (s.setCtx 0 { s.ctx 0 with xmapbase := 0x100600, xmapcnt := 1 }).setFir f
  ((((s.setNum 0x600 8 0x101000).setNum 0x608 8 0x101800).setNum 0x610 8 0x102000).setNum 0x618 4 4).setNum 0x61C 4 1

/-- A bound firing of that map. -/
def bound0 : Firing := { fir0 with head := { Hdr.blank with bound := true } }

/-- Its one lock. -/
def lock0 : LockEl := ⟨0, 0x2000, true⟩

theorem witness_InsertionAndRelease :
    (let s := (bench []).setFir fir0
     let g := { fir0 with guard := .sync 0 0x5FF00 1 }
     let t := (bench []).setFir g
     s.fir? 3 = some fir0 ∧ fir0.stage = .made ∧ fir0.src = .post ∧ writeReady s 3 0 0 0 (some .die) = true ∧ fir0.width = 0
      ∧ s.guardRec 0 fir0.guard = true ∧ t.fir? 3 = some g ∧ writeReady t 3 0 0 0 (some .die) = true ∧ t.guardRec 0 g.guard = false)
    ∧ (let f := { fir0 with src := .chan, hdr := 0x100200 }
       let s := (bench []).setFir f
       let w := { fir0 with width := 2 }
       s.fir? 3 = some f ∧ f.stage = .made ∧ f.width = 0
        ∧ (match s.hdrOf (State.dieCore f.die) f.ctx f.hdr with | .ok p => !p.2 | .error _ => false) = true
        ∧ ((bench []).setFir w).fir? 3 = some w ∧ 0 < w.width ∧ writeReady ((bench []).setFir w) 3 0 0 0 (some .die) = true)
    ∧ (let f := { fir0 with stage := .pending }
       let s := (bench []).setFir f
       s.fir? 3 = some f ∧ s.guardRec f.ctx f.guard = true ∧ f.watched = false) := by
  repeat' apply And.intro
  all_goals decide +kernel

theorem witness_PopAndRefill :
    (bench []).chooseCtx 0 = none
    ∧ (let f := { fir0 with stage := .ready }
       let s := (bench []).setFir f
       s.chooseCtx 0 = some 0 ∧ (s.choosePop 0 0).1 = some f ∧ f.head.bound = false)
    ∧ (let f := { bound0 with stage := .ready }
       let s := xbench f
       let u := (s.choosePop 0 0).2
       s.chooseCtx 0 = some 0 ∧ (s.choosePop 0 0).1 = some f ∧ f.head.bound = true ∧ s.det 0 = false
        ∧ (u.countPop 0 0 f).exclSet (State.dieCore 0) { f with firstPop := u.time, spilled := false } = .ok [lock0]) := by
  repeat' apply And.intro
  all_goals first | decide +kernel | exact ok_of (by decide +kernel)

theorem witness_LockRecords :
    (let s := State.waiting ((bench []).setFir fir0) (.lockReq 3 0 [lock0] none 0)
     let t := s.setNum 0x2000 8 1
     s.msg? 7 = some (.lockReq 3 0 [lock0] none 0) ∧ s.fir? 3 = some fir0 ∧ lockBehind s 7 fir0.die 0 = false ∧ lockBehind t 7 fir0.die 0 = false
      ∧ s.locksFail [lock0] = none ∧ t.locksFail [lock0] = none ∧ ((s.dropMsg 7).applyLocks [lock0] none).isSome = true
      ∧ t.msg? 7 = some (.lockReq 3 0 [lock0] none 0) ∧ t.fir? 3 = some fir0 ∧ (t.dropMsg 7).applyLocks [lock0] none = none)
    ∧ (State.waiting (bench []) (.lockBatch 3 1 [lock0] none)).msg? 7 = some (.lockBatch 3 1 [lock0] none)
    ∧ (let s := State.waiting (bench []) (.lockRel 0 0 0 [lock0] (.clear 2))
       s.Inv ∧ s.msg? 7 = some (.lockRel 0 0 0 [lock0] (.clear 2)) ∧ lockBehind s 7 0 0 = false ∧ s.lineFails lock0.addr = none)
    ∧ (let f := { bound0 with stage := .between, ticket := some 4, order := [lock0] }
       let s := (State.waiting (xbench f) (.lockRel 0 0 0 [lock0] (.again 4))).setNum 0x2000 8 (2 ^ 31)
       s.Inv ∧ s.msg? 7 = some (.lockRel 0 0 0 [lock0] (.again 4)) ∧ lockBehind s 7 0 0 = false ∧ s.lineFails lock0.addr = none ∧ lockRsv (releaseRec (s.num 0x2000 8) true (.again 4)) = false
        ∧ s.firings.find? (fun g => g.2.ticket == some 4 && g.2.order.contains lock0 && !g.2.placed) ≠ none)
    ∧ (lockRsv 0 = false ∧ lockExc 0 = false ∧ lockShr 0 = 0 ∧ lockExc (2 ^ 31) = true ∧ lockRsv (2 ^ 30) = true
      ∧ lockTicket (2 ^ 30) ≠ 5 ∧ lockRsv 65534 = false ∧ lockExc 65534 = false ∧ lockShr 65534 < 65535) := by
  repeat' apply And.intro
  all_goals decide +kernel

theorem witness_TriesAndReservations :
    (let f := { bound0 with stage := .acquiring, set := [lock0] }
     let g := { f with tryFailed := true, tries := 6 }
     let p := { f with tryFailed := true, tries := 7 }
     let r := { f with tryFailed := true, granted := true }
     let h := { f with tryFailed := true, ticket := some 4, order := [lock0], rsvd := 1 }
     let o := { h with rsvd := 0 }
     (xbench f).fir? 3 = some f ∧ f.set.any (fun e => ((xbench f).pkg 0).lost.contains ((xbench f).homePkg e.addr)) = false
      ∧ [f, g, p, r, h, o].all (fun q => q.set.all (fun e => ((xbench q).lineFails e.addr).isNone)
          && ((xbench q).lineFails ((xbench q).ticketKey q.die q.ctx)).isNone && !q.set.isEmpty) = true
      ∧ (xbench g).fir? 3 = some g ∧ g.tries + 1 < ((xbench g).die g.die).patienceNow ∧ g.tries < 255
      ∧ (xbench p).fir? 3 = some p ∧ ((xbench p).die p.die).patienceNow ≤ Nat.min (p.tries + 1) 255
      ∧ (xbench r).fir? 3 = some r ∧ Nat.min (r.tries + 1) 255 < ((xbench r).die r.die).patienceNow
      ∧ (xbench h).fir? 3 = some h ∧ h.order.length ≤ h.rsvd ∧ (xbench o).fir? 3 = some o ∧ o.rsvd < o.order.length)
    ∧ (let f := { bound0 with stage := .reserving, order := [lock0, ⟨1, 0x2008, false⟩], ticket := some 5 }
       let s := xbench f
       let t := s.setNum 0x2000 8 (4 * 2 ^ 32 + 2 ^ 30)
       s.fir? 3 = some f ∧ f.order[f.rsvd]? = some lock0 ∧ f.rsvd + 1 < f.order.length ∧ (s.pkg (f.die / 16)).lost.contains (s.homePkg 0x2000) = false
        ∧ s.lineFails 0x2000 = none ∧ t.lineFails 0x2000 = none ∧ lockBehind s s.nextTag f.die (s.home 0x2000) = false
        ∧ lockBehind t t.nextTag f.die (t.home 0x2000) = false
        ∧ lockRsv (s.num 0x2000 8) = false ∧ t.fir? 3 = some f ∧ lockRsv (t.num 0x2000 8) = true ∧ lockTicket (t.num 0x2000 8) ≠ 5
        ∧ olderTicket 5 (lockTicket (t.num 0x2000 8)) = false
        ∧ (let y := s.setNum 0x2000 8 (6 * 2 ^ 32 + 2 ^ 30)
           y.fir? 3 = some f ∧ lockTicket (y.num 0x2000 8) ≠ 5 ∧ olderTicket 5 (lockTicket (y.num 0x2000 8)) = true
          ∧ y.lineFails 0x2000 = none ∧ lockBehind y y.nextTag f.die (y.home 0x2000) = false))
    ∧ (let f := { bound0 with stage := .between, ticket := some 5 }
       let g := { bound0 with stage := .between, granted := true }
       (xbench f).fir? 3 = some f ∧ (xbench f).exclSet (State.dieCore 0) f = .ok [lock0] ∧ f.ticket.isSome = true
        ∧ (xbench g).fir? 3 = some g ∧ (xbench g).exclSet (State.dieCore 0) g = .ok [lock0] ∧ g.granted = true)
    ∧ (let f := { bound0 with stage := .between, inRound := true, head := { bound0.head with det := true } }
       let s := xbench f
       let mine := (s.firings.map (·.2)).filter (fun g =>
         State.sameRound f g && g.head.det && g.head.bound && (g.inRound || g.stage == .pending))
       s.fir? 3 = some f ∧ mine.any (fun g => g.granted) = false ∧ (∀ g ∈ mine, g.stage ≠ .pending)
        ∧ s.cores.any (fun e => match e.2.run with | some g => g.granted && State.sameRound f g | none => false) = false ∧ mine = [f]) := by
  repeat' apply And.intro
  all_goals first | decide +kernel | exact ok_of (by decide +kernel)

theorem witness_PlacementStartRetire :
    (let f := { fir0 with stage := .placing }
     let s := (bench []).setFir f
     s.fir? 3 = some f ∧ (s.chooseCore f).isSome = true)
    ∧ (let f := { fir0 with stage := .fetching, core := 1, wp := 0x5F000 }
       let s := (bench []).setFir f
       let g := { f with head := { Hdr.blank with fps := [⟨0x400000, 128, false, 0, 0⟩] } }
       let t := (bench []).setFir g
       s.fir? 3 = some f ∧ s.footFar f = none ∧ t.footFar g = none ∧ (s.fetchFootprint f).2 = none
        ∧ t.fir? 3 = some g ∧ (t.fetchFootprint g).2.isSome = true)
    ∧ (let f := { fir0 with stage := .resident, core := 1 }
       let s := (bench []).setFir f
       let s := s.setCore 1 { s.core 1 with stage := some 3 }
       (s.pkg (pkgOf 1)).st = 0x03 ∧ (s.core 1).run = none ∧ (s.core 1).halted = false ∧ (s.core 1).memberOf = none
        ∧ s.nextOf 1 = some f ∧ f.stage = .resident)
    ∧ (let f := { fir0 with stage := .ordered .precise, core := 1, saved := true, c := true, groups := 9 }
       let s := (bench []).setFir f
       s.fir? 3 = some f ∧ f.width = 0 ∧ (s.core 1).run = none ∧ (s.core 1).halted = false ∧ (s.core 1).memberOf = none
        ∧ s.canGrant 1 f .precise = true)
    ∧ (let f := { fir0 with groups := 9, pc := 0x100000, vregs := [1, 2 ^ 4607] }
       (bench []).Inv ∧ f.groups ≤ 9 ∧ f.pc < 2 ^ 64 ∧ (∀ i < 16, (f.vregs.getD i 0).toNat < 256 ^ (64 * f.groups)))
    ∧ (let s := (bench []).setCore 0 { (bench []).core 0 with ending := some 0 }
       (s.core 0).run.isSome = true ∧ (s.core 0).ending = some 0 ∧ (s.core 0).loads = 0 ∧ (s.core 0).waits = 0
        ∧ (let f := { s.cf with got := [lock0] }
           let h := (s.setCf f).setCore 0 { s.core 0 with run := some f, step := .instr }
           (h.core 0).run = some f ∧ (h.core 0).ending = some 0 ∧ ((h.core 0).step == .instr) = true
            ∧ (h.pkg (f.die / 16)).lost.contains (pkgOf (h.home lock0.addr)) = false))
    ∧ (let s := cbench []
       (⟨0, 0x100400, 0, false⟩ : Resv).done = false ∧ s.descAt 0 0 0x100400 = .ok desc0
        ∧ s.devKey 0 0 (desc0.slot (BitVec.ofNat 32 0).toNat) .load = .ok 0x800)
    ∧ (let s := (cbench []).setNum 0x410 4 2
       let g := s.setChan 0x400 { s.chan 0x400 with next := 2, counted := [(0, 0), (1, 0)] }
       g.Inv ∧ g.notices = [] ∧ (g.desc 0x400).cidx ∈ [(0 : BitVec 32)] ∧ (g.desc 0x400).cidx + 1 ∉ [(0 : BitVec 32)]
        ∧ (g.desc 0x400).cidx + 1 ∉ (g.chan 0x400).freed ∧ (g.desc 0x400).cidx ∉ [(1 : BitVec 32)]
        ∧ (g.desc 0x400).cidx ∉ (g.chan 0x400).freed) := by
  repeat' apply And.intro
  all_goals first | decide +kernel | exact ok_of (by decide +kernel)

/-- A firing on core 0 that has met a trap of a class, with C set. -/
def trapped (cls : Nat) : State :=
  let s := bench []
  let s := s.setCf { s.cf with trap := some ⟨cls, 0, 0, 0, 0x100000, 0⟩, c := true }
  s.setCore 0 { s.core 0 with stopping := true }

theorem witness_StopsAndOrders :
    (let s := trapped 0x0B
     s.cf.trap = some ⟨0x0B, 0, 0, 0, 0x100000, 0⟩ ∧ (s.core 0).run = some s.cf ∧ (s.core 0).stopping = true ∧ (s.core 0).loads = 0
      ∧ (s.core 0).waits = 0)
    ∧ (let f := { fir0 with stage := .stopping, trap := some ⟨0x0B, 0, 0, 0, 0x100000, 0⟩, placed := true, wp := 0x5FF80 }
       let s := ((cbench []).setFir f).setCtx 0 { Ctx.reset with fltch := 0x100400 }
       let r := { f with trap := some ⟨0x20, 0, 0, 0, 0x100000, 0⟩, retries := 1 }
       let t := (bench []).setFir r
       s.fir? 3 = some f ∧ (s.ctx 0).fltch ≠ 0
        ∧ (s.writeRecord 0 0 0 (State.recordWords 0 0 0 0 false false false ⟨0x0B, 0, 0, 0, 0x100000, 0⟩ f.id (s.regionOf f) f.hdr)).isSome = true
        ∧ (s.setNum 0x410 4 4).fir? 3 = some f
        ∧ ((s.setNum 0x410 4 4).writeRecord 0 0 0 (State.recordWords 0 0 0 0 false false false ⟨0x0B, 0, 0, 0, 0x100000, 0⟩ f.id
            ((s.setNum 0x410 4 4).regionOf f) f.hdr)).isNone = true
        ∧ t.fir? 3 = some r ∧ (t.ctx 0).fltch = 0 ∧ r.placed = true ∧ r.retries < State.allowance r.head
        ∧ (let words := fun (q : State) (n disp : Nat) =>
             State.recordWords 0 0 n disp false false false ⟨0x20, 0, 0, 0, 0x100000, 0⟩ f.id (q.regionOf r) f.hdr
           let u := s.setFir r
           let v := u.setNum 0x410 4 4
           let spent := { r with retries := State.allowance r.head }
           u.fir? 3 = some r ∧ (u.writeRecord 0 0 0 (words u 2 1)).isSome = true ∧ (v.writeRecord 0 0 0 (words v 2 1)).isNone = true
            ∧ (s.setFir { r with placed := false }).fir? 3 = some { r with placed := false }
            ∧ (s.setFir spent).fir? 3 = some spent ∧ State.allowance spent.head ≤ spent.retries
            ∧ ((s.setFir spent).writeRecord 0 0 0 (words (s.setFir spent) spent.retries 4)).isSome = true))
    ∧ (let f := { fir0 with stage := .waiting, placed := true, id := 5 }
       let s := State.waiting ((bench []).setFir f) (.tret 0 0 5 0 5)
       s.msg? 7 = some (.tret 0 0 5 0 5)
        ∧ s.firings.find? (fun e => e.2.id == 5 && e.2.ctx == 0 && e.2.stage == .waiting) = some (3, f) ∧ f.placed = true ∧ f.saved = false
        ∧ ((s.die f.die).cxwt.get f.ctx 16).toNat ≠ 0
        ∧ (((s.setDie 0 { s.die 0 with cxwt := [(0, 0)] }).die f.die).cxwt.get f.ctx 16).toNat = 0)
    ∧ (let s := State.waiting (bench []) (.tret 0 0 5 3 5)
       s.msg? 7 = some (.tret 0 0 5 3 5) ∧ s.firings.find? (fun e => e.2.id == 5 && e.2.ctx == 0 && e.2.stage == .waiting) = none
        ∧ 3 ≤ 3) := by
  repeat' apply And.intro
  all_goals decide +kernel

theorem witness_Preemption :
    (let s := (bench []).setCore 0 { (bench []).core 0 with preempt := some 0 }
     (s.core 0).preempt = some 0 ∧ (s.core 0).run = some s.cf ∧ 0 ≤ s.time.toNat ∧ (s.core 0).halted = false ∧ s.cf.trap = none
      ∧ (s.core 0).ending = none ∧ s.cf.tandem = none ∧ (s.core 0).loads = 0 ∧ (s.core 0).waits = 0 ∧ s.cf.doomed = false)
    ∧ (let s := (bench []).setCore 0 { (bench []).core 0 with preempt := some 1 }
       (s.core 0).preempt = some 1 ∧ (s.core 0).run = some s.cf ∧ s.time.toNat < 1)
    ∧ (let s := tandemBench []
       let s := s.setCf { s.cf with tandem := s.cf.tandem.map (fun t => { t with slot := 3 }) }
       let s := s.setCore 0 { s.core 0 with preempt := some 0, loads := 1 }
       (s.core 0).preempt = some 0 ∧ (s.core 0).run = some s.cf ∧ s.cf.tandem.map (·.mid) = some true ∧ (tandemBench []).cf.tandem.map (·.mid) = some false ∧ s.cf.trap = none
        ∧ (s.core 0).ending = none ∧ (s.core 0).halted = false ∧ (s.core 0).loads ≠ 0) := by
  repeat' apply And.intro
  all_goals decide +kernel

theorem witness_TandemBlocks :
    (let f := { fir0 with stage := .composed, width := 2, core := 2, entry := 0x100000 }
     let s := (bench []).setFir f
     let s := [2, 3].foldl (fun s c => s.setCore c { s.core c with kept := [(3, [])] }) s
     s.fir? 3 = some f ∧ f.width ≠ 0 ∧ f.stage = .composed ∧ s.setFree f = true)
    ∧ (let s := tandemBench []
       let tn : Tandem := ⟨[0, 1], [], [], 0, 0, 0x100000, [], false, [], 0, [], []⟩
       let e (p : List Token) := s.setCf { s.cf with tandem := some { tn with ended := true, tokens := p } }
       let r := s.setCf { s.cf with trap := some ⟨0x0B, 0, 0, 0, 0x100000, 0⟩ }
       let r := r.setCore 0 { r.core 0 with stopping := true }
       let o := s.setCf { s.cf with tandem := some { tn with bsn := 1, flight := [⟨0, 0x100000, 0x1000C0, 16, true, 0, 16⟩] } }
       (o.core 0).run = some o.cf ∧ (o.core 0).loads ≤ 0 ∧ (e []).cf.trap = none ∧ ((e []).core 0).stopping = false ∧ tn.flight = [] ∧ s.cf.tandem = some tn ∧ tn.tokens = [] ∧ ((e [⟨1, 0x100300, 1⟩]).core 0).run = some (e [⟨1, 0x100300, 1⟩]).cf
        ∧ 0x100300 ≠ (e [⟨1, 0x100300, 1⟩]).cf.pc ∧ ((e []).core 0).loads = 0 ∧ ((e []).core 0).waits = 0
        ∧ (r.core 0).run = some r.cf ∧ r.cf.trap = some ⟨0x0B, 0, 0, 0, 0x100000, 0⟩ ∧ (r.core 0).stopping = true ∧ (r.core 0).loads = 0
        ∧ (r.core 0).waits = 0) := by
  repeat' apply And.intro
  all_goals decide +kernel

/-- A bench whose context 0 holds one grant: every queue of every cassette of the pod (R302). -/
def ebench (ws : List (Nat × Word)) : State :=
  let s := bench ws
  (s.setCtx 0 { s.ctx 0 with captab := 0x7000, capcnt := 1 }).setNum 0x7000 8 (2 ^ 63 + 4 * 2 ^ 60 + 31 * 2 ^ 55)

/-- The computation succeeds. -/
def isOk {α : Type} (r : Res α) : Bool := match r with | .ok _ => true | .error _ => false

/-- The premises of EngineIssue for an instruction of n image words at w8, target cassette 0 through w6, capability in w7. -/
def engReady (s : State) (eop flg n : Nat) (ty : BitVec 4) (copy : Bool) : Bool :=
  let x := tk (.w 8) (.w 6) (.w 7)
  let img := fun j => (s.word (8 + j)).toNat
  let que := if copy then (s.word 6).toNat / 2 ^ 24 % 4 + 1 else 0
  let target := (s.word 6).toNat % 2 ^ 24 / 8 * 8
  s.run?.isSome && s.guardHolds always.g && !State.engWaits x s && okIs (s.needWord (8 + n - 1)) () && okIs (s.needOpnds [x.a, x.b]) ()
    && okIs ((List.range n).mapM (fun j => s.srcWord (8 + j))) ((List.range n).map (fun j => s.word (8 + j)))
    && isOk (s.src64 x.a) && isOk (s.src64 x.b) && s.grants s.cur s.cctx ((s.word 7).toNat % 2 ^ 32) target (cmdQueues eop flg que)
    && s.isCore (pkgOf s.cur) target && okIs (s.cmdLimits eop flg (casOf target) (tyOf ty) img) ()

theorem witness_EngineIssue :
    engReady (ebench [(8, 0x300)]) 0xB1 0 1 0 false = true
    ∧ engReady (ebench [(8, 0), (9, 0x1000), (10, 0x4000), (11, 7)]) 0xB0 0 4 0xE false = true
    ∧ engReady (ebench [(8, 0x300), (9, 0x1000), (12, 0x4000), (13, 1)]) 0xB2 3 6 9 false = true
    ∧ engReady (ebench [(8, 0x300), (9, 0x1000), (10, 0x102000), (11, 300), (12, 0x5000)]) 0xB3 3 5 0 true = true
    ∧ engReady (ebench [(6, 3 * 2 ^ 24), (8, 0x300), (9, 0x1000), (10, 0x102000), (12, 2 * 2 ^ 32 + 64)]) 0xB4 0 6 0 true = true
    ∧ engReady (ebench [(8, 0x300)]) 0xB5 31 1 0 false = true
    ∧ (let s := (ebench [(5, 0x5FC00)]).setNum (sliceKey 0 0x5FC00) 8 (0xB1 * 2 ^ 24)
       s.issues always ∧ State.engWaits (tk (.w 5) (.w 6) (.w 7)) s = false ∧ s.needOpnds [.w 5, .w 6, .w 7] = .ok ()
        ∧ s.srcWord 5 = .ok 0x5FC00 ∧ s.src64 (.w 6) = .ok 0 ∧ s.src64 (.w 7) = .ok 0 ∧ 0x5FC00 % 64 = 0
        ∧ s.readable s.cur 0x5FC00 (.slice s.cur 0x5FC00 false) 64 3 = .ok () ∧ cmdLegal 0xB1 0 0 0 = true
        ∧ s.num (sliceKey s.cur 0x5FC00) 8 / 2 ^ 24 % 256 = 0xB1 ∧ s.grants s.cur s.cctx 0 0 (cmdQueues 0xB1 0 0) = true
        ∧ s.cmdLimits 0xB1 0 0 (tyOf 0) (fun j => s.num (sliceKey s.cur (0x5FC00 + 8 * (j + 2))) 8) = .ok ()
        ∧ s.num (sliceKey s.cur 0x5FC00) 8 / 2 ^ 12 % 16 ≠ 14)
    ∧ ((bench [(8, 0x300)]).grants 0 0 0 0 (cmdQueues 0xB1 0 0) = false
      ∧ ((bench [(8, 0x300)]).cmdChecks 0xB1 0 0 (tyOf 0) (fun _ => 0x300)).all (fun r => (State.addrFault r).isNone) = true)
    ∧ (let s := ebench [(6, 0x7FF8), (8, 0x300)]
       s.grants s.cur s.cctx 0 0x7FF8 (cmdQueues 0xB1 0 0) = true ∧ s.cmdLimits 0xB1 0 (casOf 0x7FF8) (tyOf 0) (fun _ => 0x300) = .ok ()
        ∧ s.isCore (pkgOf s.cur) 0x7FF8 = false) := by
  repeat' apply And.intro
  all_goals first | decide +kernel | exact ok_of (by decide +kernel)

/-- A command of context 0 from core 0 in cassette 0, with sync word 0x300 of core 0. -/
def cmd0 (eop flg que : Nat) (img : List Word) : EngCmd :=
  ⟨40, 0, 0, 0, que, BitVec.ofNat 64 (eop * 2 ^ 24 + flg * 2 ^ 16 + que * 2 ^ 9) :: 0 :: BitVec.ofNat 64 (2 ^ 55 + 0x300) :: img, 0, 0, false, [], false⟩

theorem witness_EngineQueuesAndHolds :
    (let c := cmd0 0xB3 0 1 [0x100000, 0x102000, 0, 0, 0]
     let s := State.waiting (bench []) (.eng c (2 ^ 1))
     let f := s.setCas 0 { s.cas 0 with inbcap := [(9, 0)] }
     let h := s.setPkg 0 { s.pkg 0 with st := 0x0F }
     h.msg? 7 = some (.eng c 2) ∧ (h.pkg 0).st ≠ 0x03 ∧ (s.pkg 0).st = 0x03 ∧ (f.pkg 0).st = 0x03 ∧ s.msg? 7 = some (.eng c (2 ^ 1)) ∧ releaseReady s 7 0 (spanScope 0 0) = true ∧ (s.dropMsg 7).admits 0 1 [1 + 8] = true
      ∧ (s.die 0).savedCmds.any (fun p => p.cas == 0 && p.queue == 1 && p.ctx == 0) = false
      ∧ f.msg? 7 = some (.eng c 2) ∧ releaseReady f 7 0 (spanScope 0 0) = true ∧ (f.dropMsg 7).admits 0 1 ((maskQueues 2).map (· + 8)) = false)
    ∧ (let c := cmd0 0xB5 3 0 [0, 0, 0, 0, 0]
       let s := ((bench []).setQueue 0 0 [c]).setQueue 0 1 [c]
       s.readyFence 0 = some c ∧ c.sync ≠ 0 ∧ s.headCmd 0 1 = some c)
    ∧ (let c := cmd0 0xB3 0 1 [0x100000, 0x2000000, 128, 0, 0]
       let d := cmd0 0xB3 0 1 [0x100000, 0x102000, 128, 0, 0]
       let s := (bench []).setQueue 0 1 [c]
       let t := (bench []).setQueue 0 1 [{ d with held := true }]
       s.headCmd 0 1 = some c ∧ c.held = false ∧ (s.engTrouble 0 c).isSome = true
        ∧ t.headCmd 0 1 = some { d with held := true } ∧ t.engTrouble 0 { d with held := true } = none
        ∧ ((bench []).setQueue 0 1 [{ c with held := true }]).headCmd 0 1 = some { c with held := true }
        ∧ (((bench []).setQueue 0 1 [{ c with held := true }]).engTrouble 0 { c with held := true }).isSome = true)
    ∧ (let c := cmd0 0xB3 0 1 [0x100000, 0x102000, 128, 0, 0]
       let s := (bench []).setQueue 0 1 [c]
       let s := (s.setCas 0 { s.cas 0 with stops := [(1, 0)] }).setDie 0 { s.die 0 with cxwt := [(0, 0)] }
       let t := (bench []).setDie 0 { (bench []).die 0 with savedCmds := [c] }
       ((s.cas 0).stops.filter (fun e => e.1 == 1)).map (·.2) = [0] ∧ s.weight (0 / 256) 0 = 0
        ∧ t.weight 0 0 ≠ 0 ∧ (t.die 0).savedCmds.any (fun c => c.ctx == 0) = true) := by
  repeat' apply And.intro
  all_goals decide +kernel

/-- A window address of core 0. -/
def win (off : Nat) : Word := BitVec.ofNat 64 (2 ^ 55 + off)

theorem witness_MatrixEngine :
    (let c := { cmd0 0xB0 0 0 [win 0x1000, win 0x4000, 7] with words := (cmd0 (0xB0) 0 0 [win 0x1000, win 0x4000, 7]).words }
     let s := (bench []).setQueue 0 0 [c]
     let r := cmd0 0xB2 0 0 [win 0x4000, 0, 0, win 0x8000, 16]
     let t := (bench []).setQueue 0 0 [r, c]
     (s.pkg 0).st = 0x03 ∧ (s.queue 0 0)[0]? = some c ∧ c.held = false ∧ c.eop = 0xB0
      ∧ isOk (s.engRead 0 c (c.img 1) (c.img 1) 8192) = true ∧ c.sync ≠ 0 ∧ (t.queue 0 0)[1]? = some c ∧ r.held = false ∧ r.eop = 0xB2
      ∧ overlaps (c.img 1) 8192 (r.img 4) (256 * (r.img 5 % 8192)) = false ∧ c.ty ≠ .e2m1
      ∧ isOk (t.engRead 0 c (c.img 1) (c.img 1) 8192) = true)
    ∧ (let c := cmd0 0xB1 0 0 []
       let s := (bench []).setQueue 0 0 [c]
       s.headCmd 0 0 = some c ∧ c.eop = 0xB1)
    ∧ (let c := cmd0 0xB2 1 0 [win 0x1000, 0, 0, win 0x4000, 17]
       let d := { c with prog := 16 }
       let e := { d with act := List.replicate (tileK d.ty * d.ty.width / 8) 1 }
       let f := { d with words := (cmd0 0xB2 1 0 [win 0x1000, 0, 0, win 0x4000, 33]).words
                         act := List.replicate (16 * (tileK d.ty * d.ty.width / 8)) 1, prog := 0 }
       let s := fun c => (bench []).setQueue 0 0 [c]
       (s d).headCmd 0 0 = some d ∧ d.eop = 0xB2 ∧ mxReady d = false ∧ isOk ((s d).engRead 0 d (d.img 1) (mxBlock d) 64) = true
        ∧ (s e).headCmd 0 0 = some e ∧ e.held = false ∧ mxReady e = true
        ∧ (match (s e).mxRest 0 e with | .ok r => !(s e).engBehind 0 r.2.2.2 | .error _ => false) = true
        ∧ Nat.min 16 (e.img 5 % 8192 - e.prog) = 1 ∧ e.img 5 % 8192 ≤ e.prog + 1
        ∧ (s f).headCmd 0 0 = some f ∧ mxReady f = true
        ∧ (match (s f).mxRest 0 f with | .ok r => !(s f).engBehind 0 r.2.2.2 | .error _ => false) = true ∧ f.prog + 16 < f.img 5 % 8192) := by
  repeat' apply And.intro
  all_goals decide +kernel

theorem witness_CopyEngine :
    (let c := cmd0 0xB3 3 1 [win 0x1000, 0x102000, 129, 0x103000, 0]
     let s := (bench []).setQueue 0 1 [c]
     let g := copyOf c.eop c.img
     s.headCmd 0 1 = some c ∧ c.held = false ∧ c.eop = 0xB3 ∧ c.prog < g.total
      ∧ (match s.sector 0 c g (Nat.min 128 (g.total - c.prog)) with
          | .ok (b, ks) => b.length == ks.length && !s.engBehind 0 ks && ks.all (fun p => (s.sourceRuns 0 c g).all (fun r => !(decide (r.1 ≤ p) && decide (p < r.1 + r.2))))
          | .error _ => false) = true)
    ∧ (let c := { cmd0 0xB3 3 1 [win 0x1000, 0x102000, 129, 0x103000, 0] with prog := 129 }
       let d := { cmd0 0xB4 0 1 [win 0x1000, 0x102000, 0, 2 * 2 ^ 32 + 64, 0] with prog := 128 }
       let s := (bench []).setQueue 0 1 [c]
       (copyOf c.eop c.img).total ≤ c.prog ∧ c.hasRec = true ∧ (match s.engWritable 0 c (copyOf c.eop c.img).recAddr (copyOf c.eop c.img).recAddr 16 with
          | .ok ks => !s.engBehind 0 ks | .error _ => false) = true
        ∧ (copyOf d.eop d.img).total = d.prog ∧ d.hasRec = false ∧ (copyOf d.eop d.img).total ≠ 0 ∧ d.sync ≠ 0
        ∧ ((bench []).setQueue 0 1 [d]).headCmd 0 1 = some d) := by
  repeat' apply And.intro
  all_goals decide +kernel

/-- R308, by hand: 128 bytes land, then the last one. -/
theorem test_copy_sectors :
    (let c := cmd0 0xB3 0 1 [win 0x1000, 0x102000, 129, 0, 0]
     let s := ((bench []).setQueue 0 1 [c]).setNum (sliceKey 0 0x1000) 8 0x55
     leaves s (.copySector 0 1) (fun t => t.num 0x2000 8 == 0x55 && (match t.headCmd 0 1 with | some e => e.prog == 128 | none => false)
       && leaves t (.copySector 0 1) (fun u => match u.headCmd 0 1 with | some e => e.prog == 129 | none => false))) = true := by
  decide +kernel

/-- R147, R148, by hand: 64 products of ones are 64.0; on top of 1.0 they are 65.0; 128 products of −1 and 2 are −256. -/
theorem test_dot_products :
    (let one := decodeF .bf16 0x3F80
     (dotF (fun _ => one) (fun _ => one) 64 none == 0x42800000) && (dotF (fun _ => one) (fun _ => one) 64 (some 0x3F800000) == 0x42820000)
      && (dotI (fun _ => -1) (fun _ => 2) 128 0 == 0xFFFFFF00)) = true := by decide +kernel

/-- A bench whose firing is privileged (R278). -/
def pbench (ws : List (Nat × Word)) : State :=
  let s := bench ws
  (s.setCtx 0 { s.ctx 0 with syshdr := 0x10000 }).setCf { s.cf with hdr := 0x10000 }

theorem witness_SystemInstructions :
    (let s := pbench [(5, 7), (6, 9), (7, 63), (8, 0), (9, -(2 ^ 63)), (10, 1)]
     let u := bench [(5, 7), (6, 9), (7, 63), (8, 0), (9, -(2 ^ 63)), (10, 1)]
     let v := (s.setCtx 5 { s.ctx 5 with syshdr := 0x10000 }).setCf { s.cf with ctx := 5 }
     (v.issues always ∧ v.privileged v.cf = true ∧ v.cctx = 5 ∧ (5 : Nat) ≠ 0 ∧ ctlWaits v = false ∧ tlbWaits v = false
       ∧ v.needOpnds [.w 5, .w 6, .w 8] = .ok () ∧ v.src64 (.w 6) = .ok 9 ∧ (9 : Word).toNat % 64 ≠ 5)
     ∧ Machine.ctlOf (0xFFF : BitVec 12).toNat = none
     ∧ (s.issues always ∧ u.issues always ∧ s.privileged s.cf = true ∧ u.privileged u.cf = false)
     ∧ (s.needOpnds [.w 5, .w 6, .w 8] = .ok () ∧ s.src64 (.w 6) = .ok 9 ∧ s.src64 (.w 8) = .ok 0
       ∧ u.needOpnds [.w 5, .w 6, .w 8] = .ok () ∧ u.src64 (.w 6) = .ok 9 ∧ u.src64 (.w 8) = .ok 0)
     ∧ (ctlWaits s = false ∧ s.needOpnds [.w 5, .w 8] = .ok () ∧ s.srcWord 5 = .ok 7 ∧ Machine.ctlOf (0x000 : BitVec 12).toNat = some .spown
       ∧ CtlReg.spown.words = 0 ∧ CtlReg.spown.readOnly = false ∧ s.cctx = 0 ∧ (0 : Word).toNat / 2 ^ 63 = 0
       ∧ ctlWaits u = false ∧ u.needOpnds [.w 5, .w 8] = .ok () ∧ u.srcWord 5 = .ok 7)
     ∧ (Machine.ctlOf (0x020 : BitVec 12).toNat = some .rctab ∧ (15 * 2 ^ 8 : Word).toNat / 2 ^ 8 % 1024 < CtlReg.rctab.words
       ∧ CtlReg.actfc.readOnly = true ∧ Machine.ctlOf (0x203 : BitVec 12).toNat = some .actfc)
     ∧ (s.src64 (.w 9) = .ok (-(2 ^ 63)) ∧ (-(2 ^ 63) : Word).toNat / 2 ^ 63 ≠ 0 ∧ s.isCore (pkgOf s.cur) ((-(2 ^ 63) : Word).toNat / 2 ^ 24 % 2 ^ 24) = true)
     ∧ (tlbWaits s = false ∧ tlbWaits u = false ∧ (9 : Word).toNat < 2 ^ 56)
     ∧ (s.holders (dieOf s.cur) 9 = [] ∧ (∀ c ∈ s.runners (dieOf s.cur) 0, (s.core c).halted = false) ∧ s.runners (dieOf s.cur) 0 = [0]
       ∧ s.src64 (.w 10) = .ok 1 ∧ s.holders (dieOf s.cur) 0 = [])) := by
  repeat' apply And.intro
  all_goals first | decide +kernel | exact ok_of (by decide +kernel)

/-- A write of a control register from core 0 for context 0. -/
def ctl0 (num : Nat) (v : Word) : CtlAcc := ⟨0, 0, num, 0, 0, true, v, 0⟩

theorem witness_ControlRegisterEvents :
    (let s := State.waiting (pbench []) (.ctl (ctl0 0x200 255))
     let b := State.waiting (pbench []) (.ctl (ctl0 0x200 256))
     s.msg? 7 = some (.ctl (ctl0 0x200 255)) ∧ Machine.ctlOf 0x200 = some .patience ∧ CtlReg.patience.readOnly = false
      ∧ isOk (s.ctlPut (ctl0 0x200 255) .patience) = true ∧ b.msg? 7 = some (.ctl (ctl0 0x200 256))
      ∧ isOk (b.ctlPut (ctl0 0x200 256) .patience) = false ∧ (b.core 0).run = some b.cf)
    ∧ (let s := State.waiting (pbench []) (.ctl { ctl0 0x000 5 with inst := 1 })
       s.msg? 7 = some (.ctl { ctl0 0x000 5 with inst := 1 }) ∧ Machine.ctlOf 0x000 = some .spown
        ∧ isOk (s.ctlPut { ctl0 0x000 5 with inst := 1 } .spown) = true)
    ∧ (let s := State.waiting (pbench []) (.ctl (ctl0 0x17 0x8002))
       let t := State.waiting (pbench []) (.ctl (ctl0 0x020 0x100400))
       s.msg? 7 = some (.ctl (ctl0 0x17 0x8002)) ∧ Machine.ctlOf 0x17 = some (.evsel 7)
        ∧ isOk (s.ctlPut (ctl0 0x17 0x8002) (.evsel 7)) = true
        ∧ t.msg? 7 = some (.ctl (ctl0 0x020 0x100400)) ∧ Machine.ctlOf 0x020 = some .rctab ∧ isOk (t.ctlPut (ctl0 0x020 0x100400) .rctab) = true)
    ∧ (let s := State.waiting (pbench []) (.ctl { ctl0 0x200 0 with write := false, dword := 5 })
       s.msg? 7 = some (.ctl { ctl0 0x200 0 with write := false, dword := 5 }))
    ∧ (let s := (bench []).setCas 1 { Cas.reset with l1coNext := some 3, wsareaNext := some 16 }
       let b := (bench []).setCas 0 { Cas.reset with l1coNext := some 3, wsareaNext := some 16 }
       s.casQuiet 1 = true ∧ (s.cas 1).l1coNext = some 3 ∧ (s.cas 1).wsareaNext = some 16
        ∧ b.casQuiet 0 = false ∧ (b.cas 0).l1coNext = some 3 ∧ (b.cas 0).wsareaNext = some 16)
    ∧ (let s := State.waiting (bench []) (.tlb 0 0 0x100000 5 .page)
       s.msg? 7 = some (.tlb 0 0 0x100000 5 .page) ∧ page0 ∈ (s.cas 0).tlb) := by
  repeat' apply And.intro
  all_goals decide +kernel

theorem witness_ControlRegisterWrites :
    (let s := pbench []
     isOk (s.ctlPut (ctl0 0x200 1) .patience) = true ∧ isOk (s.ctlPut (ctl0 0x200 0) .patience) = false
      ∧ isOk (s.ctlPut (ctl0 0x206 16777216) .preemptwin) = true ∧ isOk (s.ctlPut (ctl0 0x206 255) .preemptwin) = false
      ∧ isOk (s.ctlPut (ctl0 0x409 2) .detstat) = true ∧ (ctl0 0x409 2).ctx = (ctl0 0x409 2).inst
      ∧ isOk (s.ctlPut (ctl0 0x403 0x8000) .ptroot) = true ∧ isOk (s.ctlPut (ctl0 0x403 0x4000) .ptroot) = false
      ∧ CtlReg.patience ≠ .detstat ∧ CtlReg.ptroot.kind = .ctx
      ∧ isOk (s.ctlPut { ctl0 0x000 63 with inst := 1 } .spown) = true ∧ s.coreQuiet 1 = true
      ∧ isOk (s.ctlPut { ctl0 0x000 64 with inst := 1 } .spown) = false ∧ isOk (s.ctlPut (ctl0 0x000 5) .spown) = false
      ∧ isOk (s.ctlPut (ctl0 0x40C 0x10000) .syshdr) = true ∧ isOk (s.ctlPut (ctl0 0x40C 0x8000) .syshdr) = false
      ∧ isOk (s.ctlPut (ctl0 0x101 16) .wsarea) = true ∧ isOk (s.ctlPut (ctl0 0x101 17) .wsarea) = false) := by
  repeat' apply And.intro
  all_goals decide +kernel

/-- R315, by hand: a value above the range of ctl.PATIENCE is the control register fault of the writer. -/
theorem test_control_register_fault :
    (let b := State.waiting (pbench []) (.ctl (ctl0 0x200 256))
     let s := State.waiting (pbench []) (.ctl (ctl0 0x200 255))
     faults b (.patienceWrite 7) 0x0F && leaves s (.patienceWrite 7) (fun t => t.ctlGet .patience 0 0 0 == 255)
       && faults (bench []) (.ctlrd 0x200 (tk (.w 5) (.w 0) (.imm 0))) 0x03) = true := by decide +kernel

/-- A debug request for core 0 through the channel of the bench, whose responses go to the same descriptor. -/
def dbg0 (op : Nat) (a0 a1 : Word) (status : Nat) : DbgReq := ⟨0x400, 0x400, 0, 0, 1, op, 0, a0, a1, 0x100400, status, 0, 0⟩

/-- The channel bench with core 0 halted, or not, and a debug request waiting. -/
def dbench1 (halted : Bool) (r : DbgReq) : State :=
  let s := State.waiting (cbench []) (.dbg r)
  s.setCore 0 { s.core 0 with halted := halted }

theorem witness_DebugOperations :
    (let no := dbg0 2 0 0 256
     (dbench1 false no).msg? 7 = some (.dbg no) ∧ (dbench1 false no).dbgStatus { no with target := (dbench1 false no).served no.target } ≠ 0 ∧ no.status = 256)
    ∧ (let ok := fun (h : Bool) (r : DbgReq) => (dbench1 h r).msg? 7 = some (.dbg r) ∧ (dbench1 h r).served r.target = 0 ∧ (dbench1 h r).dbgStatus r = 0 ∧ r.target = 0
       ok false (dbg0 1 0 0 256) ∧ ok true (dbg0 1 0 0 256) ∧ ok true (dbg0 2 0 0 256) ∧ ok true (dbg0 3 0 0 256) ∧ ok false (dbg0 4 0 0 256)
        ∧ ok false (dbg0 5 11 0 256) ∧ ok false (dbg0 6 1 0 256) ∧ ok false (dbg0 6 9 0 256) ∧ ok true (dbg0 7 15 0 256)
        ∧ ok true (dbg0 8 15 0 256) ∧ ok true (dbg0 9 15 15 256) ∧ ok false (dbg0 10 255 3 256) ∧ ok false (dbg0 11 0 0 256))
    ∧ (((dbench1 false (dbg0 1 0 0 256)).msgs.map (·.1)).Nodup ∧ ((dbench1 false (dbg0 1 0 0 256)).core 0).run ≠ none
      ∧ (let s := (dbench1 false (dbg0 1 0 0 256)).setCore 0 Core.reset
         s.dbgStatus (dbg0 1 0 0 256) = 0 ∧ (s.core 0).run = none ∧ (s.core 0).halted = false))
    ∧ (let s := dbench1 true (dbg0 7 15 0 256)
       s.onCoreFiring 0 = some s.cf ∧ (s.core 0).run ≠ none
        ∧ (let f := { fir0 with stage := .resident }
           let t := ((dbench1 true (dbg0 8 15 0 256)).setFir f).setCore 0 { (s.core 0) with run := none, stage := some 3 }
           t.onCoreFiring 0 = some f ∧ (t.core 0).run = none ∧ t.dbgStatus (dbg0 8 15 0 256) = 0))
    ∧ (let s := (((cbench []).setNum 0x420 8 1).setNum 0x810 8 1).setChan 0x400 { Chan.reset with next := 1 }
       (s.chan 0x400).busy = false ∧ (s.desc 0x400).cons = 1 ∧ (s.desc 0x400).ok = true ∧ (s.desc 0x400).clm ≠ (s.chan 0x400).next
        ∧ s.devKey (State.dieCore (s.homeDie 0x400)) 0 ((s.desc 0x400).slot (s.desc 0x400).clm.toNat) .load = .ok 0x800
        ∧ s.num (0x800 + 16 + 8 * 0) 8 % 256 = 1 ∧ (s.setNum 0x810 8 12).num 0x810 8 % 256 = 12
        ∧ ((s.setNum 0x810 8 12).desc 0x400) = s.desc 0x400)
    ∧ (let r := dbg0 1 0 0 0
       let s := dbench1 true r
       let f := s.setNum 0x410 4 4
       s.msg? 7 = some (.dbg r) ∧ r.status < 256 ∧ s.respOk 0 0 0x100400 = true ∧ s.descAt 0 0 0x100400 = .ok desc0 ∧ desc0.full = false
        ∧ s.devKey 0 0 (desc0.slot desc0.pidx.toNat) .load = .ok 0x800
        ∧ f.respOk 0 0 0x100400 = true ∧ f.descAt 0 0 0x100400 = .ok { desc0 with pidx := 4 } ∧ { desc0 with pidx := 4 }.full = true
        ∧ s.respOk 0 0 0x100401 = false
        ∧ s.msgs.find? (fun m => match m.2 with | .dbg q => q.target == 0 && decide (q.status < 256) | _ => false) = some (7, .dbg r)
        ∧ (s.writeResp r).isSome = true ∧ f.writeResp r = none)
    ∧ (let s := (bench []).setCore 0 { (bench []).core 0 with haltReq := some 9, skipBp := false, ibp := [(2, 2 ^ 63 + 0x100000)] }
       s.atBoundary 0 = true ∧ (s.core 0).halted = false ∧ (s.core 0).haltReq = some 9 ∧ s.breakpoint 0 = some 2) := by
  repeat' apply And.intro
  all_goals first | decide +kernel | exact ok_of (by decide +kernel)

/-- A bench whose die 0 traces every event into a ring of 16 records at host offset 0x100, described at 0x40. -/
def tbench : State :=
  let s := bench []
  s.setDie 0 { s.die 0 with trring := 0, trctl := 0xFFFFFFFF01000001, tbuf := [5], fullSince := some 0 }

theorem witness_TraceAndCounters :
    (let s := tbench.setCore 0 { tbench.core 0 with counted := true }
     let t := tbench.setCore 0 { tbench.core 0 with evsel := [(7, 0x8002)] }
     (s.core 0).counted = true ∧ (t.core 0).counted = false ∧ ((t.core 0).evsel.get 7 0).getLsbD 15 = true
      ∧ (((t.core 0).evsel.get 7 0).extractLsb' 0 8).toNat ≠ 0 ∧ ((t.core 0).evsel.get 7 0).getLsbD 14 = false)
    ∧ (let s := tbench.setCore 0 { tbench.core 0 with recs := [9] }
       s.nextEncoder 0 = some 0 ∧ (s.core 0).recs = [9] ∧ (s.die 0).tbuf.length < 7
        ∧ s.Inv ∧ (s.die 0).drops = 0 ∧ (s.die 0).trctl.getLsbD 0 = true ∧ (s.die 0).tbuf.length < 4096
        ∧ (s.die 0).fullSince = some 0 ∧ (s.die 0).trctl.getLsbD 24 = true
        ∧ (({ s with time := 0x40000000 } : State).die 0).fullSince = some 0 ∧ 0 + 2 ^ 30 ≤ ({ s with time := 0x40000000 } : State).time.toNat)
    ∧ (let s := tbench.setDie 0 { tbench.die 0 with tbuf := List.replicate 8 5 }
       s.Inv ∧ s.burstReady 0 = true ∧ (s.die 0).drops = 0)
    ∧ (let s := tbench.setDie 0 { tbench.die 0 with tbuf := List.replicate 4096 5, widx := 16 }
       (s.die 0).trctl.getLsbD 0 = true ∧ 4096 ≤ (s.die 0).tbuf.length ∧ s.ringFree 0 = 0) := by
  repeat' apply And.intro
  all_goals decide +kernel

theorem witness_HostAccesses :
    (let m := Msg.hostWrite 0 0xBFFFFFFFFF [7] true
     let s := State.waiting (bench []) m
     s.Inv ∧ s.msg? 7 = some m ∧ s.hostWriteWaits 7 0 true = false ∧ s.dark 0 = false ∧ (s.setPkg 0 { s.pkg 0 with st := 0x00 }).dark 0 = true ∧ 0xBFFFFFFFFF + [(7 : Byte)].length ≤ s.bar2Reach 0
      ∧ (∀ i < [(7 : Byte)].length, s.isBad (bar2Key 0 (0xBFFFFFFFFF + i)) = false) ∧ bar2Key 0 (0x410 + 0) % 64 = 16)
    ∧ (let m := Msg.hostRead 0 0xBFFFFFFFF8 8
       let n := Msg.hostRead 0 0xBFFFFFFFF8 9
       let s := State.waiting (bench []) m
       s.msg? 7 = some m ∧ s.hostReadWaits 7 = false ∧ s.dark 0 = false ∧ 0xBFFFFFFFF8 + 8 ≤ s.bar2Reach 0
        ∧ (∀ i < 8, s.isBad (bar2Key 0 (0xBFFFFFFFF8 + i)) = false)
        ∧ (State.waiting (bench []) n).msg? 7 = some n ∧ (State.waiting (bench []) n).hostReadWaits 7 = false ∧ (State.waiting (bench []) n).bar2Reach 0 < 0xBFFFFFFFF8 + 9)
    ∧ (let s := State.waiting State.reset (.facc 0 1)
       let t := State.waiting (bench []) (.facc 0 1)
       s.msg? 7 = some (.facc 0 1) ∧ s.hostWriteWaits 7 0 false = false ∧ t.hostWriteWaits 7 0 false = false ∧ (s.pkg 0).st = 0x02 ∧ (s.pkg 0).facc = none ∧ t.msg? 7 = some (.facc 0 1) ∧ (t.pkg 0).st ≠ 0x02)
    ∧ (let s := State.waiting State.reset (.bar0 0 0x4F [1])
       let t := State.waiting (bench []) (.bar0 0 0x10FF [1])
       s.msg? 7 = some (.bar0 0 0x4F [1]) ∧ s.hostWriteWaits 7 0 false = false ∧ t.hostWriteWaits 7 0 false = false ∧ (s.pkg 0).facc = none ∧ s.liveIn 0 = false ∧ t.msg? 7 = some (.bar0 0 0x10FF [1])
        ∧ t.liveIn 0 = true ∧ (t.pkg 0).facc ≠ none ∧ s.dark 0 = false ∧ t.dark 0 = false
        ∧ ({ s with pkgs := [(0, { Pkg.reset with st := 0x00 })] } : State).dark 0 = true) := by
  repeat' apply And.intro
  all_goals decide +kernel

/-- R356: the digest that FIPS 180-4 gives for the message of three bytes "abc". -/
theorem test_sha256 :
    sha256 [0x61, 0x62, 0x63]
      = [0xBA, 0x78, 0x16, 0xBF, 0x8F, 0x01, 0xCF, 0xEA, 0x41, 0x41, 0x40, 0xDE, 0x5D, 0xAE, 0x22, 0x23]
        ++ [0xB0, 0x03, 0x61, 0xA3, 0x96, 0x17, 0x7A, 0x9C, 0xB4, 0x10, 0xFF, 0x61, 0xF2, 0x00, 0x15, 0xAD] := by
  decide +kernel

/-- R358, R351, by hand: the host accepts the features and the package runs; a power cap of 10,500 W is taken. -/
theorem test_host_configuration :
    (let cap : List Byte := toLe 4 10500
     let mb := { Mailbox.reset with cmd := 3, seq := 5, len := 4, go := true, req := cap.zipIdx.map (fun b => (b.2, b.1)) }
     leaves (State.waiting State.reset (.facc 0 1)) (.faccWrite 7) (fun t => (t.pkg 0).st == 0x03)
      && leaves (State.reset.setPkg 0 { Pkg.reset with mbox := mb, cap := 1000 }) (.setcap 0)
        (fun t => (t.pkg 0).cap == 10500 && (t.pkg 0).mbox.status == 0 && (t.pkg 0).mbox.rseq == 5 && !(t.pkg 0).mbox.go)) = true := by
  decide +kernel

theorem witness_ManagementAndFatalErrors :
    (let with_ := fun (c : Nat) (l : Nat) => State.reset.setPkg 0 { Pkg.reset with mbox := { Mailbox.reset with cmd := BitVec.ofNat 32 c, len := BitVec.ofNat 32 l, go := true } }
     let busy : State := { with_ 1 0 with choices := [1] }
     ((with_ 1 2016).pkg 0).mbox.go = true ∧ mailStatus ((with_ 1 2016).pkg 0) = 0 ∧ (with_ 1 2016).choice 2 ≠ 1
      ∧ (with_ 1 2016).dark 0 = false ∧ mailStatus ((with_ 1 2017).pkg 0) ≠ 0 ∧ mailStatus ((with_ 2 0).pkg 0) = 0 ∧ mailStatus ((with_ 4 0).pkg 0) = 0
      ∧ (busy.pkg 0).mbox.go = true ∧ mailStatus (busy.pkg 0) = 0 ∧ busy.choice 2 = 1)
    ∧ (State.waiting State.reset (.doe 0 [1])).msg? 7 = some (.doe 0 [1]) ∧ (State.reset.pkg (15 / 16)).dump = none
    ∧ (State.waiting State.reset (.doe 0 [1])).dark 0 = false
    ∧ (State.reset.setPkg 0 { Pkg.reset with st := 0x00 }).dark 0 = true := by
  repeat' apply And.intro
  all_goals decide +kernel

/-- Package 0 keeps two packets toward package 1. -/
def peers0 (sends : Nat) : State :=
  { State.reset with time := 131072, pkgs := [(0, { Pkg.reset with peers := [(1, ⟨2, [⟨0, 40, none, sends, 0, true⟩, ⟨1, 41, none, sends, 0, false⟩], 0⟩)] })] }

theorem witness_LinksAndRecovery :
    (let data : List Byte := List.replicate 56 3
     let crc := flitCrc 0 0 1 data
     let f : Flit := ⟨7, false, data, false⟩
     let s := State.waiting State.reset (.flit 0 11 0 0 1 f crc)
     let b := State.waiting State.reset (.flit 0 11 1 0 1 f (crc + 1))
     let e := State.waiting State.reset (.flit 0 11 0 0 1 { f with last := true } crc)
     let l := s.setLink 0 11 { Link.reset with up := false }
     e.msg? 7 = some (.flit 0 11 0 0 1 { f with last := true } crc) ∧ (e.spoke 0 11).up = true ∧ 0 = (e.spoke 0 11).expect
      ∧ s.msg? 7 = some (.flit 0 11 0 0 1 f crc) ∧ (s.spoke 0 11).up = true ∧ data.length = 56 ∧ 0 = (s.spoke 0 11).expect
      ∧ b.msg? 7 = some (.flit 0 11 1 0 1 f (crc + 1)) ∧ (b.spoke 0 11).up = true ∧ crc + 1 ≠ flitCrc 1 0 1 data
      ∧ 1 ≠ (b.spoke 0 11).expect ∧ l.msg? 7 = some (.flit 0 11 0 0 1 f crc) ∧ (l.spoke 0 11).up = false)
    ∧ ((peers0 1).peer 0 1).unacked.any (fun u => u.seq == 1) = true
    ∧ ((peers0 15).peer 0 1).unacked.any (fun u => decide (u.sent + 131072 ≤ (peers0 15).time.toNat ∧ u.sends < 16)) = true
    ∧ (0 ≠ 1 ∧ ((peers0 16).pkg 0).lost.contains 1 = false ∧ ((peers0 16).peer 0 1).unacked.any (fun u => decide (16 ≤ u.sends)) = true
      ∧ (peers0 16).msgs.filter (fun m => outstandingAt (peers0 16) 0 1 m.1 m.2) = [])
    ∧ (let s := State.reset.setDie 0 { State.reset.die 0 with recent := List.replicate 65 (143, 0) }
       let f := s.setDie 0 { s.die 0 with retired := List.range 16 }
       let z := State.reset.setDie (State.reset.homeDie 0) { State.reset.die 0 with failing := [0, 0] }
       s.failsOften 0 143 = true ∧ f.failsOften 0 143 = true ∧ z.failsOften (z.homeDie 0) (z.sliceOf 0) = true ∧ 143 < 144 ∧ (s.die 0).retired.contains 143 = false ∧ (s.die 0).retired.length < 16 ∧ s.holds = []
        ∧ (gridNear 143).filter (fun m => !(s.die 0).retired.contains m) ≠ [] ∧ (f.die 0).retired.contains 143 = false
        ∧ 16 ≤ (f.die 0).retired.length)
    ∧ (let s := (cbench []).setNum 0x410 4 1
       s.Inv ∧ s.descsOf (s.homeDie 0x400) = [0x400])
    ∧ (let s := (bench []).setPkg 0 { (bench []).pkg 0 with lost := [1] }
       let m := Msg.atom { addAtom with key := 2 ^ 40 }
       (wireOf s 7 m).any s.toLost = true ∧ (s.core 0).run = some s.cf) := by
  repeat' apply And.intro
  all_goals decide +kernel

theorem witness_ResetOfAPackage :
    (bench [(5, 1)]).Inv ∧ (bench [(5, 1)]).choice 2 = 0 ∧ resetZeroes 0 0x40 = true ∧ resetZeroes 0 (sliceKey 0 0) = true
    ∧ (let s : State := { bench [] with choices := [1], dirty := [cxlBase / 128] }
       s.Inv ∧ s.choice 2 = 1 ∧ cxlBase / 128 + 1 ∉ s.dirty ∧ cxlBase + 128 < sliceBase) := by
  repeat' apply And.intro
  all_goals decide +kernel

theorem witness_StepRunsTheDecodedInstruction :
    (let s := State.reset.withFetchWord 96 (inWord 0x8A 0 0 0 0 0 0).toNat
     let u : State := { s with sched := [], cur := 0 }
     s.sched = [.core 0] ∧ (u.core 0).run = some u.cf ∧ (u.core 0).memberOf = none ∧ (u.core 0).halted = false
      ∧ (u.core 0).haltReq = none ∧ u.blocked 0 = false ∧ u.breakpoint 0 = none ∧ u.cf.fresh = false ∧ u.fetchFar 0 u.cf.ctx u.cf.pc = none
      ∧ u.fetchCheck 0 u.cf.ctx u.cf.pc = .ok [page0, page0, page0]
      ∧ (match decode (u.fetchBits 0 u.cf.pc [page0, page0, page0]) with | .ok i => decide (i = .nop always) | .error _ => false) = true
      ∧ namesFp4 (u.fetchBits 0 u.cf.pc [page0, page0, page0]) (.nop always) = false ∧ isWide (.nop always) = false
      ∧ (u.noteFetch 0 u.cf.pc [page0, page0, page0]).notOldest 0 (.nop always) = false ∧ u.cf.tandem = none
      ∧ (let w := (u.noteFetch 0 u.cf.pc [page0, page0, page0]).oldest 0 (.nop always)
         (match exec (.nop always) w with | .next v => !w.faultWaits v 0 | _ => false) = true)
      ∧ (∃ v, exec (.nop always) ((u.noteFetch 0 u.cf.pc [page0, page0, page0]).oldest 0 (.nop always)) = .next v))
    ∧ (let s := State.reset.withFetchWord 96 (inWord 0x8A 0 0 0 0 0 0).toNat
       let down : Link := { Link.reset with up := false }
       let s := s.setPkg 0 { s.pkg 0 with podgeom := 3, links := [(0, down), (1, down), (2, down), (3, down)] }
       let s := s.setCas 0 { s.cas 0 with tlb := [{ page0 with pa := 2 ^ 40 }] }
       let u : State := { s with sched := [], cur := 0 }
       u.fetchFar 0 u.cf.ctx u.cf.pc = some (0x100000, 2 ^ 40) ∧ u.blocked 0 = false ∧ u.breakpoint 0 = none)
    ∧ (let b : Block := ⟨0, 0x100000, 0x10000C, 1, false, 0, 1⟩
       let t : Tandem := ⟨[0, 1], [], [], 1, 0, 0x1000C0, [], false, [b], 0, [], []⟩
       let s0 := State.reset.withFetchWord 96 0
       let s := fun (t : Tandem) (n : Nat) => { s0.setCf { s0.cf with pc := 0x1000C0, tandem := some t } with choices := [n] }
       let u := fun (t : Tandem) (n : Nat) => ({ s t n with sched := [], cur := 0 } : State)
       let x := fun (t : Tandem) (n : Nat) => ((u t n).nextBlock 0).dropChoice
       let ready := fun (y : State) => (y.core 0).run = some y.cf ∧ y.blocked 0 = false ∧ y.breakpoint 0 = none
       ((u t 0).core 0).memberOf = none ∧ ((u t 0).core 0).halted = false ∧ ((u t 0).core 0).haltReq = none
        ∧ ((u t 0).tandem? 0).isSome = true ∧ ((u t 0).nextBlock 0).choice 3 = 0 ∧ ((u t 1).nextBlock 0).choice 3 = 1
        ∧ ((u t 2).nextBlock 0).choice 3 = 2 ∧ (x t 0).cf.tandem = some t ∧ t.behind = some (0, b) ∧ ready (x t 1)
        ∧ (x t 1).youngestWaits 0 (x t 1).cf t = false
        ∧ (x { t with flight := [b, { b with addr := 0x1000C0 }] } 1).youngestWaits 0 (x t 1).cf { t with flight := [b, { b with addr := 0x1000C0 }] } = true
        ∧ stopAsked (x t 0) 0 = false ∧ ready ((x t 0).rewind 0 (x t 0).cf t 0 b) ∧ { t with flight := [] }.behind = none
        ∧ ready (x { t with flight := [] } 0)
        ∧ stopAsked ((x t 0).setCore 0 { (x t 0).core 0 with step := .instr }) 0 = true)
    ∧ (let s0 := State.reset.withFetchWord 96 (inWord 0x8A 0 0 0 0 0 0).toNat
       let s := s0.setCf { s0.cf with fresh := true }
       let u : State := { s with sched := [], cur := 0 }
       s.sched = [.core 0] ∧ u.blocked 0 = false ∧ u.breakpoint 0 = none ∧ u.cf.fresh = true
        ∧ u.fetchCheck 0 u.cf.ctx u.cf.pc = .ok [page0, page0, page0]
        ∧ (let w := (u.noteFetch 0 u.cf.pc [page0, page0, page0]).oldest 0 (.nop always)
           (match exec (.nop always) w with | .next v => w.didIssue v 0 | _ => false) = true
            ∧ ∃ v, exec (.nop always) (w.firstIssue 0) = .next v))
    ∧ (let s := State.reset.withFetchWord 96 (inWord 0x98 4 0 0 6 7 0).toNat
       let s := s.setPkg 0 { s.pkg 0 with facc := some 1 }
       let u : State := { s with sched := [], cur := 0 }
       u.blocked 0 = false ∧ u.fetchCheck 0 u.cf.ctx u.cf.pc = .ok [page0, page0, page0]
        ∧ (match decode (u.fetchBits 0 u.cf.pc [page0, page0, page0]) with
            | .ok i => decide (i = .compose 4 (tk (.w 0) (.w 6) (.w 7))) | .error _ => false) = true
        ∧ isWide (.compose 4 (tk (.w 0) (.w 6) (.w 7))) = true ∧ u.feature (pkgOf 0) 1 = false)
    ∧ (let s0 := State.reset.withFetchWord 96 (inWord 0x8A 0 0 0 0 0 0).toNat
       let s := s0.setCf { s0.cf with pc := 0x7FFFC }
       let u : State := { s with sched := [], cur := 0 }
       s.sched = [.core 0] ∧ u.blocked 0 = false ∧ u.breakpoint 0 = none
        ∧ u.fetchCheck 0 u.cf.ctx u.cf.pc = .error (trapAt Cls.window 0x7FFFC))
    ∧ (let s := State.reset.withFetchWord 96 0
       let u : State := { s with sched := [], cur := 0 }
       s.sched = [.core 0] ∧ u.fetchCheck 0 u.cf.ctx u.cf.pc = .ok [page0, page0, page0]
        ∧ (match decode (u.fetchBits 0 u.cf.pc [page0, page0, page0]) with | .ok _ => false | .error e => decide (e = .opcode)) = true) := by
  repeat' apply And.intro
  all_goals first | decide +kernel | exact ok_of (by decide +kernel) | exact error_of (by decide +kernel) | exact ⟨_, rfl⟩

theorem witness_DecodeInvertsEncode :
    (Instr.add (w567 .i32)).wf = true ∧ encode (.add (w567 .i32)) = some (inWord 0x01 0 0x2 5 6 7 0)
    ∧ decode (inWord 0x01 0 0x2 5 6 7 0) = .ok (.add (w567 .i32)) := by
  refine ⟨by decide, by decide, rfl⟩

theorem witness_StepKeepsInv :
    (State.reset.withFetchWord 96 (inWord 0x8A 0 0 0 0 0 0).toNat).Inv
    ∧ (match step (State.reset.withFetchWord 96 (inWord 0x8A 0 0 0 0 0 0).toNat) with | .next _ => true | _ => false) = true := by
  repeat' apply And.intro
  all_goals decide +kernel

/-- R286, R33, by hand: a post makes a firing, which becomes Ready in die 0 with identifier 0. -/
theorem test_post :
    leaves (cbench [(6, 0x100200), (8, 77)]) (.post .none (tk (.w 8) (.w 6) (.w 0)))
      (fun t => (match t.fir? 0 with | some f => f.args.head? == some 77 && f.hdr == 0x100200 | none => false)
        && leaves t (.firingInsert 0) (fun u => match u.fir? 0 with | some f => f.stage == .ready && f.id == 0 | none => false)) = true := by
  decide +kernel

/-- R36, R37, R291, R292, by hand: the slot at PIDX is reserved and PIDX is 1; its published header holds LEN, OPC and mark 1. -/
theorem test_channels :
    (let s := State.waiting (cbench []) (.chres 0 0 0x100400 4)
     let p := (cbench [(4, 0x100880), (5, 1), (6, 8 + 0x123 * 2 ^ 16)])
     let p := p.setCf { p.cf with resv := [⟨0, 0x100400, 1, false⟩] }
     leaves s (.channelReserve 7) (fun t => t.num 0x410 4 == 1 && t.cf.resv == [⟨0, 0x100400, 0, false⟩])
      && leaves p (.chpub (tk (.oc 0) (.w 4) (.w 6))) (fun t => t.num 0x888 8 == 8 * 2 ^ 48 + 0x123 * 2 ^ 36 && t.num 0x880 8 == 2 ^ 63)) = true := by
  decide +kernel

/-- R399, R400, R403, by hand: a task fault stops its core and its record has the class in bits 7:0 and the pc in word 2. -/
theorem test_fault_record :
    (let s := trapped 0x0B
     let s := { s with mem := ((cbench []).mem) }
     let s := s.setCtx 0 { Ctx.reset with fltch := 0x100400 }
     leaves s (.faultStop 0) (fun t => (t.core 0).run.isNone
       && leaves t (.faultRecordWrite 0) (fun u => u.num 0x810 1 == 0x0B && u.num 0x820 8 == 0x100000 && u.num 0x410 4 == 1))) = true := by
  decide +kernel

/-- R361, R369, by hand: a halt of a core that runs waits for its boundary; the core is then halted with reason 1. -/
theorem test_halt :
    leaves (dbench1 false (dbg0 1 0 0 256)) (.halt 7)
      (fun t => !(t.core 0).halted && leaves t (.haltTakeEffect 0) (fun u => (u.core 0).halted && (u.core 0).reason == 1)) = true := by
  decide +kernel

end Sys2Proof.Tests
end

section
/-! SUPPORT. The host's accesses (R173, R349 to R353, R446): steps planned together, the cells of a write of BAR2, and each
register of BAR0 as a byte written to it reads back. -/

namespace Sys2Proof.Machine

namespace State

/-! ## What the marks of a write keep -/

/-- Steps planned one after the other are the end of the agenda. -/
theorem foldl_planNow {α : Type} (f : α → Instr) (l : List α) (s : State) :
    l.foldl (fun s a => s.planNow (f a)) s = { s with agenda := s.agenda ++ l.map (fun a => (s.time.toNat, f a)) } := by
  induction l generalizing s with
  | nil => simp
  | cons a l ih => rw [List.foldl_cons, ih]; simp [planNow, plan]

/-- Every byte of memory, the messages and the time are the same. -/
def keepsBytes (s t : State) : Prop :=
  t.mem = s.mem ∧ t.changes = s.changes ∧ t.msgs = s.msgs ∧ t.time = s.time

theorem keepsBytes_refl (s : State) : s.keepsBytes s := ⟨rfl, rfl, rfl, rfl⟩

theorem keepsBytes_trans {s t u : State} (h1 : s.keepsBytes t) (h2 : t.keepsBytes u) : s.keepsBytes u := by
  obtain ⟨hm, hc, hg, ht⟩ := h1
  obtain ⟨hm', hc', hg', ht'⟩ := h2
  exact ⟨hm'.trans hm, hc'.trans hc, hg'.trans hg, ht'.trans ht⟩

theorem keepsBytes_foldl {α : Type} (f : State → α → State) (h : ∀ (s : State) a, s.keepsBytes (f s a)) (l : List α)
    (s : State) : s.keepsBytes (l.foldl f s) := by
  induction l generalizing s with
  | nil => exact s.keepsBytes_refl
  | cons a l ih => exact keepsBytes_trans (h s a) (ih _)

theorem keepsBytes_byte {s t : State} (h : s.keepsBytes t) (k : Nat) : t.byte k = s.byte k := by
  obtain ⟨hm, hc, -, -⟩ := h
  rw [byte, byte, hm, hc]

theorem keepsBytes_msg? {s t : State} (h : s.keepsBytes t) (tag : Nat) : t.msg? tag = s.msg? tag := by
  obtain ⟨-, -, hg, -⟩ := h
  rw [msg?, msg?, hg]

theorem keepsBytes_restore (s : State) (good : Nat → Bool) : s.keepsBytes (s.restore good) := by
  unfold restore
  split <;> exact ⟨rfl, rfl, rfl, rfl⟩

theorem keepsBytes_evictDirty (s : State) (line : Nat) : s.keepsBytes (s.evictDirty line) := by
  unfold evictDirty
  dsimp only
  repeat' split
  all_goals exact ⟨rfl, rfl, rfl, rfl⟩

theorem keepsBytes_soil (s : State) (key : Nat) (cls : BitVec 2) : s.keepsBytes (s.soil key cls) := by
  unfold soil
  dsimp only
  split
  · exact keepsBytes_evictDirty { s with
      dirty := key / 128 :: s.dirty
      streamed := if cls = 1 then key / 128 :: s.streamed else s.streamed } _
  · exact s.keepsBytes_refl

theorem keepsBytes_closeGroups (s : State) (key n : Nat) : s.keepsBytes (s.closeGroups key n) := by
  unfold closeGroups
  split <;> exact ⟨rfl, rfl, rfl, rfl⟩

theorem keepsBytes_recount (s : State) (key n : Nat) : s.keepsBytes (s.recount key n) := by
  rw [recount, foldl_planNow (fun e : Nat × Chan => .slotCount e.1)]
  exact ⟨rfl, rfl, rfl, rfl⟩

/-- A line that fails is noted in its home die alone (R447). -/
theorem noteBad_eq (s : State) (k : Nat) : s.noteBad k = { s with dies := (s.noteBad k).dies } := by
  unfold noteBad
  split <;> rfl

theorem elim_noteBad (s : State) (o : Option Nat) : ∃ ds, o.elim s s.noteBad = { s with dies := ds } := by
  cases o with
  | none => exact ⟨s.dies, rfl⟩
  | some k => exact ⟨_, s.noteBad_eq k⟩

/-! ## The cells of a write (R353, R446) -/

@[simp] theorem setCells_cons (s : State) (c : Nat × Byte) (l : List (Nat × Byte)) :
    s.setCells (c :: l) = (s.setByte c.1 c.2).setCells l := rfl

/-- A write of cells leaves every byte outside them as it was. -/
theorem byte_setCells_other (s : State) (l : List (Nat × Byte)) (k : Nat) (h : Memory.wf s.changes s.mem = true)
    (hk : ∀ c ∈ l, k ≠ c.1) : (s.setCells l).byte k = s.byte k := by
  induction l generalizing s with
  | nil => rfl
  | cons c l ih =>
    rw [setCells_cons, ih _ (s.setByte_wf c.1 c.2 h) (fun d hd => hk d (by simp [hd])),
      byte_setByte_other s c.1 k c.2 h (hk c (by simp))]

/-- A cell that is written reads back, where no two cells have the same key. -/
theorem byte_setCells_mem (s : State) (l : List (Nat × Byte)) (k : Nat) (v : Byte) (h : Memory.wf s.changes s.mem = true)
    (hn : (l.map (·.1)).Nodup) (hk : (k, v) ∈ l) : (s.setCells l).byte k = v := by
  induction l generalizing s with
  | nil => simp at hk
  | cons c l ih =>
    obtain ⟨hc, hl⟩ := List.nodup_cons.1 hn
    have hw := s.setByte_wf c.1 c.2 h
    rcases List.mem_cons.1 hk with rfl | hk
    · have hne : ∀ d ∈ l, k ≠ d.1 := fun d hd e => hc (List.mem_map.2 ⟨d, hd, e.symm⟩)
      rw [setCells_cons, byte_setCells_other _ l k hw hne, byte_setByte_self s k v h]
    · exact ih _ hw hl hk

end State

/-- BAR2 shows each byte of the package's memory once (R353). -/
theorem bar2Key_injective (p : Nat) : Function.Injective (bar2Key p) := by
  intro a b h
  unfold bar2Key at h
  omega

/-- The cells of a write of BAR2, in the order of its bytes. -/
def bar2Cells (p off : Nat) (data : List Byte) : List (Nat × Byte) :=
  data.zipIdx.map (fun b => (bar2Key p (off + b.2), b.1))

/-- A partial map that has a value for every element of a list is a map of the list. -/
theorem filterMap_eq_map_of_some {α β : Type} {f : α → Option β} {g : α → β} {l : List α}
    (h : ∀ a ∈ l, f a = some (g a)) : l.filterMap f = l.map g := by
  induction l with
  | nil => rfl
  | cons a l ih =>
    rw [List.filterMap_cons_some (h a (List.mem_cons_self ..)), ih fun b hb => h b (List.mem_cons_of_mem a hb)]
    rfl

/-- Within BAR2, and where no line is uncorrectable, every byte of a write lands (R353, R446). -/
theorem State.hostCells_eq (s : State) (p off : Nat) (data : List Byte) (hr : off + data.length ≤ s.bar2Reach p)
    (hb : ∀ i < data.length, s.isBad (bar2Key p (off + i)) = false) : s.hostCells p off data = bar2Cells p off data := by
  have hlt : ∀ b ∈ data.zipIdx, b.2 < data.length := fun b h => by simpa using List.snd_lt_of_mem_zipIdx h
  have hall : data.zipIdx.filter (fun b => decide (off + b.2 < s.bar2Reach p)) = data.zipIdx :=
    List.filter_eq_self.2 fun b h => decide_eq_true (by have := hlt b h; omega)
  unfold State.hostCells bar2Cells
  dsimp only
  rw [hall]
  refine filterMap_eq_map_of_some fun b h => ?_
  rw [hb b.2 (hlt b h)]
  rfl

theorem mem_bar2Cells (p off : Nat) {i : Nat} {data : List Byte} (h : i < data.length) :
    (bar2Key p (off + i), data.getD i 0) ∈ bar2Cells p off data := by
  refine List.mem_map.2 ⟨(data[i], i), List.mk_mem_zipIdx_iff_getElem?.2 (List.getElem?_eq_getElem h), ?_⟩
  simp [h]

theorem key_of_mem_bar2Cells {p off : Nat} {data : List Byte} {c : Nat × Byte} (h : c ∈ bar2Cells p off data) :
    ∃ i < data.length, c.1 = bar2Key p (off + i) := by
  obtain ⟨b, hb, rfl⟩ := List.mem_map.1 h
  exact ⟨b.2, by simpa using List.snd_lt_of_mem_zipIdx hb, rfl⟩

theorem bar2Cells_nodup (p off : Nat) (data : List Byte) : ((bar2Cells p off data).map (·.1)).Nodup := by
  have hkeys : (bar2Cells p off data).map (·.1) = (List.range' 0 data.length).map (fun i => bar2Key p (off + i)) := by
    rw [← List.zipIdx_map_snd 0 data, List.map_map, bar2Cells, List.map_map]
    rfl
  have hrange : (List.range' 0 data.length).Nodup := List.nodup_range'
  rw [hkeys]
  exact List.Pairwise.map _ (fun a b hne h => hne (Nat.add_left_cancel (bar2Key_injective p h))) hrange

theorem State.mem_pidxKeys {cells : List (Nat × Byte)} {c : Nat × Byte} (h : c ∈ cells) (h16 : c.1 % 64 = 16) :
    c.1 - 16 ∈ State.pidxKeys cells :=
  List.mem_map.2 ⟨c, List.mem_filter.2 ⟨h, by simpa using h16⟩, rfl⟩

/-! ## The steps of BAR2 (R173, R353) -/

/-- What a host write leaves once its cells are written, before the slots of the PIDX it covers are to be counted. -/
def State.hostStored (s : State) (tag : Nat) (good : Nat → Bool) (cells : List (Nat × Byte)) : State :=
  cells.foldl (fun s c => ((s.soil c.1 0).closeGroups c.1 1).recount c.1 1) (((s.dropMsg tag).setCells cells).restore good)

theorem State.hostStored_keeps (s : State) (tag : Nat) (good : Nat → Bool) (cells : List (Nat × Byte)) :
    ((s.dropMsg tag).setCells cells).keepsBytes (s.hostStored tag good cells) := by
  refine keepsBytes_trans (keepsBytes_restore _ good) (keepsBytes_foldl _ (fun u c => ?_) cells _)
  exact keepsBytes_trans (keepsBytes_trans (u.keepsBytes_soil _ _) (keepsBytes_closeGroups _ _ _)) (keepsBytes_recount _ _ _)

section Bar2Write

variable {s : State} {tag p off : Nat} {data : List Byte} {rx : Bool}

theorem exec_hostBar2Write_dark (hm : s.msg? tag = some (.hostWrite p off data rx)) (hw : s.hostWriteWaits tag p rx = false)
    (hd : s.dark p = true) : exec (.hostBar2Write tag) s = .next (s.dropMsg tag) := by
  simp [exec, execHostBar2Write, hm, hw, hd]

/-- A host write that lands whole: its cells are written, and every PIDX among them has its slots counted. -/
theorem exec_hostBar2Write (hm : s.msg? tag = some (.hostWrite p off data rx)) (hw : s.hostWriteWaits tag p rx = false)
    (hd : s.dark p = false) (hr : off + data.length ≤ s.bar2Reach p)
    (hb : ∀ i < data.length, s.isBad (bar2Key p (off + i)) = false) :
    exec (.hostBar2Write tag) s = .next ((State.pidxKeys (bar2Cells p off data)).foldl (fun s k => s.planNow (.slotCount k))
      (s.hostStored tag (State.wholeLine (bar2Key p off) data.length) (bar2Cells p off data))) := by
  simp [exec, execHostBar2Write, hm, hw, hd, s.hostCells_eq p off data hr hb, State.hostStored]

theorem hostBar2Write_lands (hi : s.Inv) (hm : s.msg? tag = some (.hostWrite p off data rx))
    (hw : s.hostWriteWaits tag p rx = false) (hd : s.dark p = false) (hr : off + data.length ≤ s.bar2Reach p)
    (hb : ∀ i < data.length, s.isBad (bar2Key p (off + i)) = false) :
    ∃ t, exec (.hostBar2Write tag) s = .next t ∧ (∀ i < data.length, t.byte (bar2Key p (off + i)) = data.getD i 0)
      ∧ (∀ k, (∀ i < data.length, k ≠ bar2Key p (off + i)) → t.byte k = s.byte k)
      ∧ (∀ i < data.length, bar2Key p (off + i) % 64 = 16 → s.planned t (.slotCount (bar2Key p (off + i) - 16)))
      ∧ t.msg? tag = none := by
  have hk := s.hostStored_keeps tag (State.wholeLine (bar2Key p off) data.length) (bar2Cells p off data)
  rw [exec_hostBar2Write hm hw hd hr hb, State.foldl_planNow (fun k => .slotCount k)]
  refine ⟨_, rfl, fun i h => ?_, fun k h => ?_, fun i h h16 => ?_, ?_⟩
  · exact (State.keepsBytes_byte hk _).trans
      (State.byte_setCells_mem _ _ _ _ hi.1 (bar2Cells_nodup p off data) (mem_bar2Cells p off h))
  · refine (State.keepsBytes_byte hk k).trans (State.byte_setCells_other _ _ k hi.1 fun c hc => ?_)
    obtain ⟨i, hl, hc⟩ := key_of_mem_bar2Cells hc
    exact hc ▸ h i hl
  · obtain ⟨-, -, -, ht⟩ := hk
    have hmem := State.mem_pidxKeys (mem_bar2Cells p off h) h16
    exact List.mem_append_right _ (List.mem_map.2 ⟨_, hmem, by rw [ht]; rfl⟩)
  · exact (State.keepsBytes_msg? hk tag).trans (s.msg?_dropMsg_self tag)

end Bar2Write

/-- What a read of BAR2 answers: nothing of a package without power, beyond BAR2, or from a line that is uncorrectable. -/
def State.bar2Answer (s : State) (p off n : Nat) : Option (List Byte) :=
  if s.dark p = false ∧ off + n ≤ s.bar2Reach p ∧ ∀ i < n, s.isBad (bar2Key p (off + i)) = false then
    some ((List.range n).map (fun i => s.byte (bar2Key p (off + i))))
  else none

theorem State.bar2Answer_some (s : State) {p off n : Nat} (hd : s.dark p = false) (hr : off + n ≤ s.bar2Reach p)
    (hb : ∀ i < n, s.isBad (bar2Key p (off + i)) = false) :
    s.bar2Answer p off n = some ((List.range n).map (fun i => s.byte (bar2Key p (off + i)))) :=
  if_pos ⟨hd, hr, hb⟩

theorem State.bar2Answer_none (s : State) {p off n : Nat}
    (h : s.dark p = true ∨ s.bar2Reach p < off + n ∨ ∃ i < n, s.isBad (bar2Key p (off + i)) = true) :
    s.bar2Answer p off n = none := by
  refine if_neg ?_
  rintro ⟨hd, hr, hb⟩
  rcases h with h | h | ⟨i, hi, h⟩
  · exact absurd (hd.symm.trans h) (by decide)
  · omega
  · exact absurd ((hb i hi).symm.trans h) (by decide)

theorem exec_hostBar2Read {s : State} {tag p off n : Nat} (hm : s.msg? tag = some (.hostRead p off n))
    (hw : s.hostReadWaits tag = false) : ∃ ds, exec (.hostBar2Read tag) s
      = .next { s.dropMsg tag with dies := ds, hostAns := s.hostAns ++ [(tag, s.bar2Answer p off n)] } := by
  obtain ⟨ds, hds⟩ := s.elim_noteBad (((List.range n).map (fun i => bar2Key p (off + i))).find? s.isBad)
  have hr : (if (!s.dark p && decide (off + n ≤ s.bar2Reach p)
        && ((List.range n).map (fun i => bar2Key p (off + i))).all (fun k => !s.isBad k)) = true
      then some (((List.range n).map (fun i => bar2Key p (off + i))).map s.byte) else none) = s.bar2Answer p off n := by
    simp [State.bar2Answer, Function.comp_def, and_assoc]
  exact ⟨ds, by simp only [exec, execHostBar2Read, hm, hw, hds, hr]; rfl⟩

/-! ## Bytes of a register (R350) -/

/-- The byte replaced reads back. -/
theorem extractLsb'_putByte {w : Nat} (x : BitVec w) (i : Nat) (b : Byte) (h : 8 * i + 8 ≤ w) :
    (putByte x i b).extractLsb' (8 * i) 8 = b := by
  have hpos : 0 < 256 ^ i := Nat.pow_pos (by decide)
  have hpow : 2 ^ (8 * i) = 256 ^ i := Nat.pow_mul 2 8 i
  have hsum : x.toNat / 256 ^ (i + 1) * 256 ^ (i + 1) + b.toNat * 256 ^ i + x.toNat % 256 ^ i
      = x.toNat % 256 ^ i + (256 * (x.toNat / 256 ^ (i + 1)) + b.toNat) * 256 ^ i := by
    generalize x.toNat / 256 ^ (i + 1) = q
    rw [Nat.pow_succ, Nat.mul_comm (256 ^ i) 256, ← Nat.mul_assoc, ← Nat.add_mul, Nat.mul_comm q 256, Nat.add_comm]
  have hdiv : (x.toNat / 256 ^ (i + 1) * 256 ^ (i + 1) + b.toNat * 256 ^ i + x.toNat % 256 ^ i) / 2 ^ (8 * i)
      = 256 * (x.toNat / 256 ^ (i + 1)) + b.toNat := by
    rw [hpow, hsum, Nat.add_mul_div_right _ _ hpos, Nat.div_eq_of_lt (Nat.mod_lt _ hpos), Nat.zero_add]
  ext j hj
  have hbit : (256 * (x.toNat / 256 ^ (i + 1)) + b.toNat).testBit j = b.toNat.testBit j :=
    (Nat.testBit_two_pow_mul_add _ b.isLt j).trans (if_pos hj)
  rw [BitVec.getElem_extractLsb', putByte, BitVec.getLsbD_ofNat, decide_eq_true (by omega), Bool.true_and,
    Nat.add_comm (8 * i), ← Nat.testBit_div_two_pow, hdiv, hbit, BitVec.testBit_toNat, BitVec.getLsbD_eq_getElem hj]

/-- The low bits of a value, as a mask of it. -/
theorem setWidth_extractLsb'_zero {v w : Nat} (x : BitVec w) :
    (x.extractLsb' 0 v).setWidth w = x &&& BitVec.ofNat w (2 ^ v - 1) := by
  apply BitVec.eq_of_getLsbD_eq
  intro j hj
  rw [BitVec.getLsbD_setWidth, BitVec.getLsbD_extractLsb', BitVec.getLsbD_and, BitVec.getLsbD_ofNat,
    Nat.testBit_two_pow_sub_one, Nat.zero_add, decide_eq_true hj, Bool.true_and, Bool.true_and, Bool.and_comm]

/-! ## The mailbox (R358) -/

/-- CMD, SEQ and LEN of the mailbox take a byte. -/
theorem Mailbox.getByte_putByte_head (m : Mailbox) {o : Nat} (b : Byte) (h : o < 0x00C) : (m.putByte o b).getByte o = b := by
  by_cases h4 : o < 0x004
  · simpa [Mailbox.putByte, Mailbox.getByte, h4] using extractLsb'_putByte m.cmd o b (by omega)
  · by_cases h8 : o < 0x008
    · simpa [Mailbox.putByte, Mailbox.getByte, h4, h8] using extractLsb'_putByte m.seq (o - 4) b (by omega)
    · simpa [Mailbox.putByte, Mailbox.getByte, h4, h8, h] using extractLsb'_putByte m.len (o - 8) b (by omega)

/-- A byte of the mailbox's request reads back. -/
theorem Mailbox.getByte_putByte_req (m : Mailbox) {o : Nat} (b : Byte) (h : 0x020 ≤ o) (h' : o < 0x800) :
    (m.putByte o b).getByte o = b := by
  have hp : m.putByte o b = { m with req := m.req.set (o - 0x020) b } := by
    simp (disch := omega) only [Mailbox.putByte, if_neg, if_pos]
  rw [hp]
  simp (disch := omega) only [Mailbox.getByte, if_neg, if_pos, KMap.get_set_self]

/-- GO is set by a 1. -/
theorem Mailbox.putByte_go (m : Mailbox) (b : Byte) : (m.putByte 0x00C b).go = (m.go || b == 1) := by
  by_cases h : b = 1
  · simp [Mailbox.putByte, h]
  · have hb : (b == 1) = false := by simpa using h
    rw [hb, Bool.or_false]
    exact congrArg Mailbox.go (if_neg h)

/-! ## The registers of BAR0 (R350, R355) -/

namespace State

section Bar0

variable (s : State) {p o : Nat} (b : Byte)

/-! ### Where the host reads each register -/

theorem bar0Get_rcroute (h : 0x40 ≤ o) (h' : o < 0x50) : s.bar0Get p o = (s.pkg p).rcroute.get (o - 0x40) 0 := by
  simp (disch := omega) only [bar0Get, if_neg, if_pos]

theorem bar0Get_podgeom (h : 0x50 ≤ o) (h' : o < 0x58) :
    s.bar0Get p o = ((s.pkg p).podgeom.setWidth 64).extractLsb' (8 * (o - 0x50)) 8 := by
  simp (disch := omega) only [bar0Get, if_neg, if_pos]

theorem bar0Get_cxldec (h : 0x1000 ≤ o) (h' : o < 0x1100) : s.bar0Get p o
    = ((s.pkg p).cxldec.get ((o - 0x1000) / 32) 0).extractLsb' (8 * ((o - 0x1000) % 32)) 8 := by
  simp (disch := omega) only [bar0Get, if_neg, if_pos]

theorem bar0Get_mbox (h : 0x2000 ≤ o) (h' : o < 0x3000) : s.bar0Get p o = (s.pkg p).mbox.getByte (o - 0x2000) := by
  simp (disch := omega) only [bar0Get, if_neg, if_pos]

theorem bar0Get_msixTab (h : 0x10000 ≤ o) (h' : o < 0x10040) : s.bar0Get p o = (s.pkg p).msixByte (o - 0x10000) := by
  simp (disch := omega) only [bar0Get, if_neg, if_pos]

/-! ### What a write leaves in each -/

theorem bar0Put_rcroute (h : 0x40 ≤ o) (h' : o < 0x50) (hf : (s.pkg p).facc = none) : s.bar0Put p o b
    = s.setPkg p { s.pkg p with rcroute := (s.pkg p).rcroute.set (o - 0x40) (b &&& 1) } := by
  simp [bar0Put, h, h', hf]

theorem bar0Put_podgeom (h : 0x50 ≤ o) (h' : o < 0x58) (hf : (s.pkg p).facc = none) : s.bar0Put p o b
    = s.setPkg p { s.pkg p with
        podgeom := (putByte ((s.pkg p).podgeom.setWidth 64) (o - 0x50) b).extractLsb' 0 18 } := by
  have hn : ¬(0x40 ≤ o ∧ o < 0x50) := by omega
  simp [bar0Put, hn, h, h', hf]

/-- The routes and the geometry are fixed once the features are accepted. -/
theorem bar0Put_accepted (h : 0x40 ≤ o) (h' : o < 0x58) (hf : (s.pkg p).facc ≠ none) : s.bar0Put p o b = s := by
  have hs := Option.isSome_iff_ne_none.2 hf
  by_cases hr : o < 0x50
  · simp [bar0Put, h, hr, hs]
  · have hn : 0x50 ≤ o := by omega
    simp [bar0Put, hr, hn, h', hs]

theorem bar0Put_cxldec (h : 0x1000 ≤ o) (h' : o < 0x1100) (hl : s.liveIn p = false) : s.bar0Put p o b
    = s.setPkg p { s.pkg p with
        cxldec := (s.pkg p).cxldec.set ((o - 0x1000) / 32)
          (putByte ((s.pkg p).cxldec.get ((o - 0x1000) / 32) 0) ((o - 0x1000) % 32) b &&& cxldecMask) } := by
  have hn : ¬s.liveIn p = true := by rw [hl]; exact Bool.false_ne_true
  unfold bar0Put
  dsimp only
  rw [if_neg (show ¬(0x40 ≤ o ∧ o < 0x50) by omega), if_neg (show ¬(0x50 ≤ o ∧ o < 0x58) by omega), if_pos ⟨h, h'⟩, if_neg hn]

/-- The decoders are fixed while the package is live. -/
theorem bar0Put_live (h : 0x1000 ≤ o) (h' : o < 0x1100) (hl : s.liveIn p = true) : s.bar0Put p o b = s := by
  unfold bar0Put
  dsimp only
  rw [if_neg (show ¬(0x40 ≤ o ∧ o < 0x50) by omega), if_neg (show ¬(0x50 ≤ o ∧ o < 0x58) by omega), if_pos ⟨h, h'⟩, if_pos hl]

theorem bar0Put_mbox (h : 0x2000 ≤ o) (h' : o < 0x3000) : s.bar0Put p o b
    = s.setPkg p { s.pkg p with mbox := (s.pkg p).mbox.putByte (o - 0x2000) b } := by
  simp (disch := omega) only [bar0Put, if_neg, if_pos]

theorem bar0Put_msixTab (h : 0x10000 ≤ o) (h' : o < 0x10040) : s.bar0Put p o b
    = s.setPkg p { s.pkg p with msixTab := (s.pkg p).msixTab.set (o - 0x10000) b }.unmask := by
  simp (disch := omega) only [bar0Put, if_neg, if_pos]

/-- A write of an offset that is no register's is dropped. -/
theorem bar0Put_elsewhere (h1 : ¬(0x40 ≤ o ∧ o < 0x58)) (h2 : ¬(0x1000 ≤ o ∧ o < 0x1100)) (h3 : ¬(0x2000 ≤ o ∧ o < 0x3000))
    (h4 : ¬(0x10000 ≤ o ∧ o < 0x10040)) : s.bar0Put p o b = s := by
  simp (disch := omega) only [bar0Put, if_neg]

/-- A write of BAR0 reaches no byte of memory. -/
theorem bar0Put_mem (p o : Nat) : (s.bar0Put p o b).mem = s.mem := by
  unfold bar0Put
  dsimp only
  repeat' split
  all_goals rfl

/-! ### What reads back -/

theorem bar0_rcroute (h : 0x40 ≤ o) (h' : o < 0x50) (hf : (s.pkg p).facc = none) :
    (s.bar0Put p o b).bar0Get p o = b &&& 1 := by
  rw [s.bar0Put_rcroute b h h' hf, bar0Get_rcroute _ h h', pkg_setPkg_self, KMap.get_set_self]

theorem bar0_podgeom (h : 0x50 ≤ o) (h' : o < 0x58) (hf : (s.pkg p).facc = none) :
    (s.bar0Put p o b).bar0Get p o = b &&& (0x3FFFF#64).extractLsb' (8 * (o - 0x50)) 8 := by
  have hmask : BitVec.ofNat 64 (2 ^ 18 - 1) = 0x3FFFF#64 := rfl
  rw [s.bar0Put_podgeom b h h' hf, bar0Get_podgeom _ h h', pkg_setPkg_self, setWidth_extractLsb'_zero, hmask,
    BitVec.extractLsb'_and, extractLsb'_putByte _ _ _ (by omega)]

theorem bar0_cxldec (h : 0x1000 ≤ o) (h' : o < 0x1100) (hl : s.liveIn p = false) :
    (s.bar0Put p o b).bar0Get p o = b &&& cxldecMask.extractLsb' (8 * ((o - 0x1000) % 32)) 8 := by
  rw [s.bar0Put_cxldec b h h' hl, bar0Get_cxldec _ h h', pkg_setPkg_self, KMap.get_set_self, BitVec.extractLsb'_and,
    extractLsb'_putByte _ _ _ (by omega)]

theorem bar0_mbox_head (h : 0x2000 ≤ o) (h' : o < 0x200C) : (s.bar0Put p o b).bar0Get p o = b := by
  rw [s.bar0Put_mbox b h (by omega), bar0Get_mbox _ h (by omega), pkg_setPkg_self, Mailbox.getByte_putByte_head _ b (by omega)]

theorem bar0_mbox_req (h : 0x2020 ≤ o) (h' : o < 0x2800) : (s.bar0Put p o b).bar0Get p o = b := by
  rw [s.bar0Put_mbox b (by omega) (by omega), bar0Get_mbox _ (by omega) (by omega), pkg_setPkg_self,
    Mailbox.getByte_putByte_req _ b (by omega) (by omega)]

theorem bar0_mbox_go : ((s.bar0Put p 0x200C b).pkg p).mbox.go = ((s.pkg p).mbox.go || b == 1) := by
  rw [s.bar0Put_mbox b (by omega) (by omega), pkg_setPkg_self]
  exact Mailbox.putByte_go _ b

theorem bar0_msixTab (h : 0x10000 ≤ o) (h' : o < 0x10040) : (s.bar0Put p o b).bar0Get p o = b := by
  rw [s.bar0Put_msixTab b h h', bar0Get_msixTab _ h h', pkg_setPkg_self]
  exact KMap.get_set_self _ _ _ _

end Bar0

end State

/-- A host write of one byte of BAR0. -/
theorem exec_bar0Write {s : State} {tag p off : Nat} {b : Byte} (hm : s.msg? tag = some (.bar0 p off [b]))
    (hw : s.hostWriteWaits tag p false = false) : exec (.bar0Write tag) s
      = .next (if s.dark p then s.dropMsg tag else (s.dropMsg tag).bar0Put p off b) := by
  simp [exec, execBar0Write, hm, hw]

/-! ## The negotiation of features (R352) -/

/-- What the one write of accepted features leaves of its package. -/
def Pkg.accept (q : Pkg) (v : BitVec 128) (fresh : Nat) : Pkg :=
  { q with
    facc := some (v &&& featOffered)
    st := if v.getLsbD 0 then 0x03 else 0x0F
    meas := measure q.meas (256 * fresh) }

/-- The features are accepted, and every core of the package may start a firing. -/
theorem exec_faccWrite {s : State} {tag p : Nat} {v : BitVec 128} (hm : s.msg? tag = some (.facc p v))
    (hw : s.hostWriteWaits tag p false = false) (hst : (s.pkg p).st = 0x02) (hf : (s.pkg p).facc = none) :
    exec (.faccWrite tag) s = .next (((s.dropMsg tag).cores.filter (fun e => pkgOf e.1 == p)).foldl
      (fun s e => s.planNow (.nextFiring e.1))
      ((s.dropMsg tag).setPkg p ((s.pkg p).accept v s.fresh)).useFresh) := by
  have hp : (s.dropMsg tag).pkg p = s.pkg p := rfl
  have hb : (v &&& featOffered).getLsbD 0 = v.getLsbD 0 := by rw [BitVec.getLsbD_and]; simp [featOffered]
  simp only [exec, execFaccWrite, hm, hw, hp, hst, hf, hb]
  rfl

/-- Once negotiated, or before STATE 0x02, a write of accepted features is dropped. -/
theorem exec_faccWrite_dropped {s : State} {tag p : Nat} {v : BitVec 128} (hm : s.msg? tag = some (.facc p v))
    (hw : s.hostWriteWaits tag p false = false) (h : (s.pkg p).st ≠ 0x02 ∨ (s.pkg p).facc ≠ none) :
    exec (.faccWrite tag) s = .next (s.dropMsg tag) := by
  have hp : (s.dropMsg tag).pkg p = s.pkg p := rfl
  have hc : ((s.pkg p).st != 0x02 || (s.pkg p).facc.isSome) = true := by
    simpa [Option.isSome_iff_ne_none] using h
  simp only [exec, execFaccWrite, hm, hw, hp, hc]
  rfl

/-- Settles O51: each write and read runs as its exec lemma says, and what it leaves is read off the lemmas of the cells of
BAR2, of the registers of BAR0 and of the steps planned. -/
theorem hostAccesses : Obligations.HostAccesses := by
  refine ⟨fun s tag p off data rx hi hm hw => ⟨exec_hostBar2Write_dark hm hw, hostBar2Write_lands hi hm hw⟩,
    fun s tag p off n hm hw => ?bar2Read, fun s tag p v hm hw => ⟨fun hst hf => ?accepted, exec_faccWrite_dropped hm hw⟩,
    fun s tag p off b hm hw => ⟨fun hd => ?bar0Dark, fun hd => ?bar0⟩⟩
  case bar2Read =>
    obtain ⟨ds, he⟩ := exec_hostBar2Read hm hw
    refine ⟨_, he, rfl, s.msg?_dropMsg_self tag, fun hd hr hb => ?_, fun hno => ?_⟩
    · rw [s.bar2Answer_some hd hr hb]
    · rw [s.bar2Answer_none hno]
  case accepted =>
    rw [exec_faccWrite hm hw hst hf, State.foldl_planNow (fun e : Nat × Core => .nextFiring e.1)]
    have hq : (((s.dropMsg tag).setPkg p ((s.pkg p).accept v s.fresh)).useFresh).pkg p = (s.pkg p).accept v s.fresh :=
      State.pkg_setPkg_self _ _ _
    exact ⟨_, rfl, congrArg Pkg.facc hq, congrArg Pkg.st hq, rfl⟩
  case bar0Dark => rw [exec_bar0Write hm hw, if_pos hd]
  case bar0 =>
    let u := s.dropMsg tag
    refine ⟨u.bar0Put p off b, by rw [exec_bar0Write hm hw, hd]; rfl, u.bar0Put_mem b _ _,
      u.bar0_rcroute b, u.bar0_podgeom b, fun h h' hf => ?_, u.bar0_cxldec b, fun h h' hl => ?_,
      u.bar0_mbox_head b, u.bar0_mbox_req b, fun h => ?_, u.bar0_msixTab b, fun h1 h2 h3 h4 => ?_⟩
    · rw [u.bar0Put_accepted b h h' hf]; rfl
    · rw [u.bar0Put_live b h h' hl]; rfl
    · rw [h]; exact u.bar0_mbox_go b
    · rw [u.bar0Put_elsewhere b h1 h2 h3 h4]; rfl

end Sys2Proof.Machine
end

section
/-! SUPPORT. The management mailbox (R18, R358), attestation (R356), and fatal errors with their causes (R20, R449, R451, R452). -/

namespace Sys2Proof.Machine

/-! ## An answer of the controller (R358) -/

namespace State

@[simp] theorem raise_agenda (s : State) (p v : Nat) : (s.raise p v).agenda = s.agenda := rfl

/-- Of its package, a raised vector changes the list of those raised and of those pending alone (R349, R350). -/
theorem pkg_raise (s : State) (p v : Nat) : ∃ pend,
    (s.raise p v).pkg p = { s.pkg p with msix := (s.pkg p).msix ++ [v], msixPend := pend } :=
  ⟨_, pkg_setPkg_self _ _ _⟩

@[simp] theorem answerMail_mem (s : State) (p status : Nat) (rsp : List Byte) : (s.answerMail p status rsp).mem = s.mem := rfl

/-- Of its package, an answer changes GO and the fields of the response, and raises vector 1. -/
theorem pkg_answerMail (s : State) (p status : Nat) (rsp : List Byte) : ∃ pend,
    (s.answerMail p status rsp).pkg p = { s.pkg p with
      mbox := { (s.pkg p).mbox with
        go := false, rsp := rsp, rlen := BitVec.ofNat 32 rsp.length, status := BitVec.ofNat 32 status
        rseq := (s.pkg p).mbox.seq }
      msix := (s.pkg p).msix ++ [1], msixPend := pend } := by
  obtain ⟨pend, h⟩ := pkg_raise (s.setPkg p { s.pkg p with mbox := { (s.pkg p).mbox with
    go := false, rsp := rsp, rlen := BitVec.ofNat 32 rsp.length, status := BitVec.ofNat 32 status
    rseq := (s.pkg p).mbox.seq } }) p 1
  exact ⟨pend, by rw [answerMail, h, pkg_setPkg_self]⟩

end State

section Serve

variable {s : State} {p cmd : Nat} {go : State → List Byte × State}

/-- A request that a check fails is answered with the status of the check. -/
theorem serveMail_refused (hg : (s.pkg p).mbox.go = true) (hc : (s.pkg p).mbox.cmd.toNat = cmd) (hd : s.dark p = false)
    (h : mailStatus (s.pkg p) ≠ 0) : serveMail p cmd s go = .next (s.answerMail p (mailStatus (s.pkg p)) []) := by
  simp [serveMail, hg, hc, hd, h]

/-- The controller may answer that it is busy. -/
theorem serveMail_busy (hg : (s.pkg p).mbox.go = true) (hc : (s.pkg p).mbox.cmd.toNat = cmd) (hd : s.dark p = false)
    (h : mailStatus (s.pkg p) = 0) (hb : s.choice 2 = 1) :
    serveMail p cmd s go = .next (s.dropChoice.answerMail p 3 []) := by
  simp [serveMail, hg, hc, hd, h, hb]

/-- Otherwise the command acts and its response is the answer. -/
theorem serveMail_served (hg : (s.pkg p).mbox.go = true) (hc : (s.pkg p).mbox.cmd.toNat = cmd) (hd : s.dark p = false)
    (h : mailStatus (s.pkg p) = 0) (hb : s.choice 2 ≠ 1) :
    serveMail p cmd s go = .next ((go s.dropChoice).2.answerMail p 0 (go s.dropChoice).1) := by
  simp [serveMail, hg, hc, hd, h, hb]

end Serve

/-! ## What each command answers (R18, R358) -/

theorem length_flatMap_const {α β : Type} (l : List α) (f : α → List β) (n : Nat) (h : ∀ a, (f a).length = n) :
    (l.flatMap f).length = l.length * n := by
  induction l with
  | nil => rw [List.flatMap_nil, List.length_nil, List.length_nil, Nat.zero_mul]
  | cons a l ih => rw [List.flatMap_cons, List.length_append, h, ih, List.length_cons, Nat.succ_mul, Nat.add_comm]

/-- TELEM answers 56 bytes. -/
theorem State.telemetry_length (s : State) (p : Nat) : (s.telemetry p).length = 56 := by
  simp [State.telemetry, length_flatMap_const _ _ 2]

/-- The power that TELEM reports is at most the cap in force (R18). -/
theorem State.telemetry_power_le_cap (s : State) (p : Nat) : leNat ((s.telemetry p).take 4) ≤ (s.pkg p).cap := by
  have hfirst : (s.telemetry p).take 4 = toLe 4 (Nat.min (Config.sensor (32 * s.fresh + 0)).toNat (s.pkg p).cap) := by
    simp only [State.telemetry, List.append_assoc]
    exact List.take_left' (toLe_length 4 _)
  rw [hfirst, leNat_toLe]
  exact Nat.le_trans (Nat.mod_le _ _) (Nat.min_le_right _ _)

/-- An SPDM response fits RSP. -/
theorem State.spdmReply_length_le (s : State) : s.spdmReply.length ≤ 2016 := by
  simp only [State.spdmReply, List.length_map, List.length_range]
  omega

/-- DUMPINFO answers 272 bytes where a dump has been noted. -/
theorem State.dumpSummary_length {q : Pkg} (h : q.dump.isSome = true) : (State.dumpSummary q).length = 272 := by
  obtain ⟨⟨cause, lostmap, t, sect⟩, hd⟩ := Option.isSome_iff_exists.1 h
  simp [State.dumpSummary, hd, length_flatMap_const _ _ 16]

/-- A check that answers a status other than 0 has passed where the status is 0. -/
theorem passed_of_ite_eq_zero {c : Prop} [Decidable c] {status rest : Nat} (h : (if c then status + 1 else rest) = 0) :
    ¬c ∧ rest = 0 := by
  by_cases hc : c
  · rw [if_pos hc] at h
    exact absurd h (Nat.succ_ne_zero status)
  · rw [if_neg hc] at h
    exact ⟨hc, h⟩

/-- A request that passes its checks is no SETCAP of a wrong length or cap, and no DUMPINFO without a dump. -/
theorem mailStatus_passed {q : Pkg} (h : mailStatus q = 0) :
    ¬(q.mbox.cmd.toNat = 3 ∧ (q.mbox.len ≠ 4 ∨ leNat q.mbox.payload < 1000 ∨ 10500 < leNat q.mbox.payload))
    ∧ ¬(q.mbox.cmd.toNat = 5 ∧ q.dump.isNone = true) := by
  obtain ⟨-, h⟩ := passed_of_ite_eq_zero h
  obtain ⟨-, h⟩ := passed_of_ite_eq_zero h
  obtain ⟨-, h⟩ := passed_of_ite_eq_zero h
  obtain ⟨hsetcap, h⟩ := passed_of_ite_eq_zero h
  obtain ⟨hdump, -⟩ := passed_of_ite_eq_zero h
  exact ⟨hsetcap, hdump⟩

/-- A cap that SETCAP takes is between 1,000 W and 10,500 W. -/
theorem mailStatus_setcap {q : Pkg} (h : mailStatus q = 0) (hc : q.mbox.cmd.toNat = 3) :
    1000 ≤ leNat q.mbox.payload ∧ leNat q.mbox.payload ≤ 10500 := by
  obtain ⟨hsetcap, -⟩ := mailStatus_passed h
  simp only [hc, true_and, not_or, Nat.not_lt] at hsetcap
  exact hsetcap.2

/-- DUMPINFO is served where a dump has been noted. -/
theorem mailStatus_dumpinfo {q : Pkg} (h : mailStatus q = 0) (hc : q.mbox.cmd.toNat = 5) : q.dump.isSome = true := by
  obtain ⟨-, hdump⟩ := mailStatus_passed h
  simpa [hc, Option.isSome_iff_ne_none] using hdump

/-- What a command that is served answers to a request q, and the cap it leaves. -/
def mailServed (q : Pkg) (cmd : Nat) (rsp : List Byte) (cap : Nat) : Prop :=
  (cmd = 1 → rsp.length = 56 ∧ leNat (rsp.take 4) ≤ q.cap)
  ∧ (cmd = 2 → rsp = toLe 4 q.cap)
  ∧ (cmd = 3 → cap = leNat q.mbox.payload ∧ 1000 ≤ cap ∧ cap ≤ 10500)
  ∧ (cmd = 4 → rsp.length ≤ 2016)
  ∧ (cmd = 5 → rsp.length = 272)

section MailServed

variable {q : Pkg} {rsp : List Byte} {cap : Nat}

theorem mailServed_telem : mailServed q 1 rsp cap ↔ rsp.length = 56 ∧ leNat (rsp.take 4) ≤ q.cap := by simp [mailServed]

theorem mailServed_getcap : mailServed q 2 rsp cap ↔ rsp = toLe 4 q.cap := by simp [mailServed]

theorem mailServed_setcap : mailServed q 3 rsp cap ↔ cap = leNat q.mbox.payload ∧ 1000 ≤ cap ∧ cap ≤ 10500 := by
  simp [mailServed]

theorem mailServed_spdm : mailServed q 4 rsp cap ↔ rsp.length ≤ 2016 := by simp [mailServed]

theorem mailServed_dumpinfo : mailServed q 5 rsp cap ↔ rsp.length = 272 := by simp [mailServed]

end MailServed

/-- What a command does beside its answer leaves memory, the request and the vectors of its package as they are. -/
def keepsRequest (p : Nat) (go : State → List Byte × State) : Prop :=
  ∀ u : State, (go u).2.mem = u.mem ∧ ((go u).2.pkg p).mbox = (u.pkg p).mbox ∧ ((go u).2.pkg p).msix = (u.pkg p).msix

/-- Each command serves its request as mailServed says. -/
theorem exec_mail {s : State} {p cmd : Nat} {i : Instr} (hc : (s.pkg p).mbox.cmd.toNat = cmd)
    (hi : (cmd = 1 ∧ i = .telem p) ∨ (cmd = 2 ∧ i = .getcap p) ∨ (cmd = 3 ∧ i = .setcap p) ∨ (cmd = 4 ∧ i = .spdm p)
      ∨ (cmd = 5 ∧ i = .dumpinfo p)) :
    ∃ go, exec i s = serveMail p cmd s go ∧ keepsRequest p go ∧ (mailStatus (s.pkg p) = 0 →
      mailServed (s.pkg p) cmd (go s.dropChoice).1 ((go s.dropChoice).2.pkg p).cap) := by
  have hq : s.dropChoice.pkg p = s.pkg p := rfl
  rcases hi with ⟨rfl, rfl⟩ | ⟨rfl, rfl⟩ | ⟨rfl, rfl⟩ | ⟨rfl, rfl⟩ | ⟨rfl, rfl⟩
  · refine ⟨fun u => (u.telemetry p, u.useFresh), rfl, fun _ => ⟨rfl, rfl, rfl⟩, fun _ => mailServed_telem.2 ⟨?_, ?_⟩⟩
    · exact s.dropChoice.telemetry_length p
    · exact hq ▸ s.dropChoice.telemetry_power_le_cap p
  · exact ⟨fun u => (toLe 4 (u.pkg p).cap, u), rfl, fun _ => ⟨rfl, rfl, rfl⟩, fun _ => mailServed_getcap.2 rfl⟩
  · refine ⟨fun u => ([], u.setPkg p { u.pkg p with cap := leNat (u.pkg p).mbox.payload }), rfl, fun u => ?_, fun h0 => ?_⟩
    · dsimp only
      rw [State.pkg_setPkg_self]
      exact ⟨rfl, rfl, rfl⟩
    · dsimp only
      rw [State.pkg_setPkg_self, hq]
      exact mailServed_setcap.2 ⟨rfl, mailStatus_setcap h0 hc⟩
  · exact ⟨fun u => (u.spdmReply, u.useFresh), rfl, fun _ => ⟨rfl, rfl, rfl⟩,
      fun _ => mailServed_spdm.2 s.dropChoice.spdmReply_length_le⟩
  · exact ⟨fun u => (State.dumpSummary (u.pkg p), u), rfl, fun _ => ⟨rfl, rfl, rfl⟩,
      fun h0 => mailServed_dumpinfo.2 (State.dumpSummary_length (mailStatus_dumpinfo h0 hc))⟩

/-- A request is answered by its status, as busy, or by what its command serves. -/
theorem serveMail_answers {s : State} {p cmd : Nat} {go : State → List Byte × State} (hg : (s.pkg p).mbox.go = true)
    (hc : (s.pkg p).mbox.cmd.toNat = cmd) (hd : s.dark p = false) (hk : keepsRequest p go) :
    ∃ t, serveMail p cmd s go = .next t ∧ t.mem = s.mem ∧ (t.pkg p).mbox.go = false
      ∧ (t.pkg p).mbox.rseq = (s.pkg p).mbox.seq ∧ (t.pkg p).mbox.rlen = BitVec.ofNat 32 (t.pkg p).mbox.rsp.length
      ∧ (t.pkg p).msix = (s.pkg p).msix ++ [1]
      ∧ (mailStatus (s.pkg p) ≠ 0 →
        (t.pkg p).mbox.status = BitVec.ofNat 32 (mailStatus (s.pkg p)) ∧ (t.pkg p).mbox.rsp = [])
      ∧ (mailStatus (s.pkg p) = 0 → s.choice 2 = 1 → (t.pkg p).mbox.status = 3)
      ∧ (mailStatus (s.pkg p) = 0 → s.choice 2 ≠ 1 → (t.pkg p).mbox.status = 0
        ∧ (t.pkg p).mbox.rsp = (go s.dropChoice).1 ∧ (t.pkg p).cap = ((go s.dropChoice).2.pkg p).cap) := by
  by_cases h0 : mailStatus (s.pkg p) = 0
  · by_cases hb : s.choice 2 = 1
    · obtain ⟨pend, hq⟩ := s.dropChoice.pkg_answerMail p 3 []
      refine ⟨_, serveMail_busy hg hc hd h0 hb, State.answerMail_mem .., ?_⟩
      rw [hq]
      exact ⟨rfl, rfl, rfl, rfl, absurd h0, fun _ _ => rfl, fun _ h => absurd hb h⟩
    · obtain ⟨hmem, hmbox, hmsix⟩ := hk s.dropChoice
      obtain ⟨pend, hq⟩ := (go s.dropChoice).2.pkg_answerMail p 0 (go s.dropChoice).1
      refine ⟨_, serveMail_served hg hc hd h0 hb, (State.answerMail_mem ..).trans hmem, ?_⟩
      rw [hq]
      exact ⟨rfl, congrArg Mailbox.seq hmbox, rfl, congrArg (· ++ [1]) hmsix, absurd h0, fun _ h => absurd h hb,
        fun _ _ => ⟨rfl, rfl, rfl⟩⟩
  · obtain ⟨pend, hq⟩ := s.pkg_answerMail p (mailStatus (s.pkg p)) []
    refine ⟨_, serveMail_refused hg hc hd h0, State.answerMail_mem .., ?_⟩
    rw [hq]
    exact ⟨rfl, rfl, rfl, rfl, fun _ => ⟨rfl, rfl⟩, fun h => absurd h h0, fun h => absurd h h0⟩

/-! ## Attestation (R356) -/

section Doe

variable {s : State} {tag p : Nat} {v : List Byte}

theorem exec_doe (hm : s.msg? tag = some (.doe p v)) (hd : s.dark p = false) : exec (.pcieDoeSpdmRequest tag) s
    = .next ({ s.dropMsg tag with hostAns := s.hostAns ++ [(tag, some s.spdmReply)] }.useFresh) := by
  simp only [exec, execPcieDoeSpdmRequest, hm, hd]
  rfl

theorem exec_doe_dark (hm : s.msg? tag = some (.doe p v)) (hd : s.dark p = true) : exec (.pcieDoeSpdmRequest tag) s
    = .next { s.dropMsg tag with hostAns := s.hostAns ++ [(tag, none)] } := by
  simp only [exec, execPcieDoeSpdmRequest, hm, hd]
  rfl

end Doe

/-! ## Fatal errors (R20, R449, R451, R452) -/

/-- t is s after a fatal error has stopped package p: STATE is 0x0F, none of its engines' steps is to come, the cause and
the ck are noted for the dump, and vector 0 is raised (R452). -/
def State.stoppedBy (s t : State) (p cause : Nat) : Prop :=
  (t.pkg p).st = 0x0F
  ∧ (∀ e ∈ t.agenda, ∀ k, State.engineOf e.2 = some k → k / 4096 ≠ p)
  ∧ (∃ m l, (t.pkg p).dump = some (cause, m, s.time, l))
  ∧ (t.pkg p).msix = (s.pkg p).msix ++ [0]

/-- The first fatal error of a package writes memory, takes its engines' steps off the agenda and notes the dump. -/
theorem State.fatal_eq {s : State} {p : Nat} (cause : Nat) (h : (s.pkg p).dump = none) : ∃ cells agenda m l,
    s.fatal p cause = (({ s with mem := cells, agenda := agenda } : State).setPkg p
      { s.pkg p with st := 0x0F, dump := some (cause, m, s.time, l) }).raise p 0
    ∧ ∀ e ∈ agenda, ∀ k, State.engineOf e.2 = some k → k / 4096 ≠ p := by
  have hn : ¬(s.pkg p).dump.isSome = true := by simp [h]
  refine ⟨_, _, _, _, if_neg hn, fun e he k hk => ?_⟩
  obtain ⟨-, hp⟩ := List.mem_filter.1 he
  simpa [hk] using hp

/-- The first fatal error of a package stops it. -/
theorem State.fatal_stops {s : State} {p : Nat} (cause : Nat) (h : (s.pkg p).dump = none) :
    s.stoppedBy (s.fatal p cause) p cause := by
  obtain ⟨cells, agenda, m, l, he, hag⟩ := State.fatal_eq cause h
  obtain ⟨pend, hq⟩ := (({ s with mem := cells, agenda := agenda } : State).setPkg p
    { s.pkg p with st := 0x0F, dump := some (cause, m, s.time, l) }).pkg_raise p 0
  rw [pkg_setPkg_self] at hq
  rw [he, State.stoppedBy, hq]
  exact ⟨rfl, hag, ⟨m, l, rfl⟩, rfl⟩

/-- The first loss of a die of a package stops it. -/
theorem State.dieLost_stops {s : State} {d : Nat} (h : (s.pkg (d / 16)).dump = none) :
    s.stoppedBy ((s.setDie d { s.die d with gone := true }).fatal (d / 16) 2) (d / 16) 2 :=
  (s.setDie d { s.die d with gone := true }).fatal_stops 2 h

theorem exec_fatalError {s : State} {p cause : Nat} (h : 1 ≤ cause) (h' : cause ≤ 5) :
    exec (.fatalError p cause) s = .next (s.fatal p cause) :=
  if_neg (by omega)

/-- A step after which its package has been stopped, as the obligation names what it leaves. -/
theorem State.stoppedBy_exists {s t : State} {p cause : Nat} {i : Instr} (he : exec i s = .next t)
    (h : s.stoppedBy t p cause) : ∃ t m l, exec i s = .next t ∧ (t.pkg p).st = 0x0F
      ∧ (∀ e ∈ t.agenda, ∀ k, State.engineOf e.2 = some k → k / 4096 ≠ p)
      ∧ (t.pkg p).dump = some (cause, m, s.time, l) ∧ (t.pkg p).msix = (s.pkg p).msix ++ [0] := by
  obtain ⟨hst, hag, ⟨m, l, hdump⟩, hmsix⟩ := h
  exact ⟨t, m, l, he, hst, hag, hdump, hmsix⟩

/-- Settles O52: the answer of the mailbox is serveMail_answers, with what its command serves; the causes of a fatal error
all stop the package as State.fatal_stops says. -/
theorem managementAndFatalErrors : Obligations.ManagementAndFatalErrors := by
  refine ⟨fun s p cmd i hg hc hd hi => ?mailbox, fun s tag p v hm => ⟨fun hd => ?doe, exec_doe_dark hm⟩,
    fun s d => rfl, fun s d h => ⟨?critical, ?lost, fun cause h1 h5 => ?fatal⟩⟩
  case mailbox =>
    obtain ⟨go, he, hk, hserved⟩ := exec_mail hc hi
    obtain ⟨t, ht, hmem, hgo, hrseq, hrlen, hmsix, hrefused, hbusy, hok⟩ := serveMail_answers hg hc hd hk
    refine ⟨t, he.trans ht, hmem, hgo, hrseq, hrlen, hmsix, hrefused, hbusy, fun h0 hb => ?_⟩
    obtain ⟨hstatus, hrsp, hcap⟩ := hok h0 hb
    rw [hrsp, hcap]
    exact ⟨hstatus, hserved h0⟩
  case doe => exact ⟨_, _, exec_doe hm hd, rfl, rfl⟩
  case critical => exact State.stoppedBy_exists rfl (s.fatal_stops 1 h)
  case lost => exact State.stoppedBy_exists rfl (State.dieLost_stops h)
  case fatal => exact State.stoppedBy_exists (exec_fatalError h1 h5) (s.fatal_stops cause h)

end Sys2Proof.Machine
end

section
/-! SUPPORT. The dispatcher's lock records (R66 to R79): what a write of one leaves of the state, how a try, a release and a
reservation change it. -/

namespace Sys2Proof.Machine

namespace State

/-! ## What a write of a record changes -/

/-- Bytes that are written change memory alone. -/
theorem setBytes_eq (s : State) (k : Nat) (v : List Byte) : s.setBytes k v = { s with mem := (s.setBytes k v).mem } := by
  induction v generalizing s k with
  | nil => rfl
  | cons b t ih => rw [setBytes, ih]; rfl

/-- A line that becomes dirty changes the marks of lines alone (R94). -/
theorem soil_eq (s : State) (key : Nat) (cls : BitVec 2) :
    s.soil key cls = { s with dirty := (s.soil key cls).dirty, streamed := (s.soil key cls).streamed } := by
  unfold soil evictDirty clean
  dsimp only
  repeat' split
  all_goals rfl

@[simp] theorem soil_mem (s : State) (key : Nat) (cls : BitVec 2) : (s.soil key cls).mem = s.mem := by rw [soil_eq]

/-- Nothing but memory and the marks of its lines differs. -/
def memoryOnly (s t : State) : Prop := t = { s with mem := t.mem, dirty := t.dirty, streamed := t.streamed }

theorem memoryOnly_trans {s t u : State} (h1 : s.memoryOnly t) (h2 : t.memoryOnly u) : s.memoryOnly u := by
  unfold memoryOnly at *
  rw [h2, h1]

theorem memoryOnly_firings {s t : State} (h : s.memoryOnly t) : t.firings = s.firings := by rw [h]

/-- The record at a key is written at its home (R69). -/
def putRecord (s : State) (k v : Nat) : State := (s.setNum k 8 v).soil k 0

theorem memoryOnly_putRecord (s : State) (k v : Nat) : s.memoryOnly (s.putRecord k v) := by
  unfold memoryOnly putRecord setNum
  rw [soil_eq, setBytes_eq]

@[simp] theorem putRecord_mem (s : State) (k v : Nat) : (s.putRecord k v).mem = (s.setNum k 8 v).mem := by simp [putRecord]

@[simp] theorem putRecord_changes (s : State) (k v : Nat) : (s.putRecord k v).changes = s.changes := by
  rw [s.memoryOnly_putRecord k v]

@[simp] theorem putRecord_firings (s : State) (k v : Nat) : (s.putRecord k v).firings = s.firings :=
  memoryOnly_firings (s.memoryOnly_putRecord k v)

theorem putRecord_wf {s : State} (k v : Nat) (h : Memory.wf s.changes s.mem = true) :
    Memory.wf (s.putRecord k v).changes (s.putRecord k v).mem = true := by
  simpa using s.setNum_wf k 8 v h

theorem num_putRecord {s : State} (k v : Nat) (h : Memory.wf s.changes s.mem = true) :
    (s.putRecord k v).num k 8 = v % 256 ^ 8 := by
  rw [← num_setNum s k 8 v h]
  simp [num, bytes, byte]

theorem byte_putRecord_other {s : State} (a v : Nat) (h : Memory.wf s.changes s.mem = true) {k : Nat}
    (hk : ¬(a ≤ k ∧ k < a + 8)) : (s.putRecord a v).byte k = s.byte k := by
  rw [← byte_setBytes_other s a (toLe 8 v) k h (by simpa using by omega)]
  simp [byte, setNum]

end State

end Sys2Proof.Machine

namespace Sys2Proof.Machine

open State

/-! ## Requests (R71, R72) -/

/-- The requests of a try that succeed change memory alone. -/
theorem State.memoryOnly_applyLocks {s u : State} {els : List LockEl} {tk : Option Nat} (h : s.applyLocks els tk = some u) :
    s.memoryOnly u := by
  induction els generalizing s with
  | nil => cases h; rfl
  | cons e els ih =>
    rw [applyLocks] at h
    split at h
    · cases h
    · exact memoryOnly_trans (s.memoryOnly_putRecord e.addr _) (ih h)

/-- A try's firing after one answer of a home slice: the locks it got there, or that it has failed (R71). -/
def Firing.answered (f : Firing) (els : List LockEl) (ok : Bool) : Firing :=
  { f with
    outstanding := f.outstanding - 1, got := if ok then f.got ++ els else f.got, tryFailed := f.tryFailed || !ok }

/-- A lock request that has its turn at records that can be read is answered: the memory is what the locks leave. -/
theorem exec_lockRequest {s : State} {tag key h reads : Nat} {f : Firing} {els : List LockEl} {tk : Option Nat}
    (hm : s.msg? tag = some (.lockReq key h els tk reads)) (hf : s.fir? key = some f) (hk : f.key = key)
    (hb : lockBehind s tag f.die h = false) (hl : s.locksFail els = none) :
    let r := (s.dropMsg tag).applyLocks els tk
    ∃ t, exec (.lockRequest tag) s = .next t ∧ t.mem = (r.getD s).mem ∧ t.fir? key = some (f.answered els r.isSome) := by
  intro r
  have hrun : exec (.lockRequest tag) s = .next
      (if (f.answered els r.isSome).outstanding = 0 then
        ((r.getD (s.dropMsg tag)).setFir (f.answered els r.isSome)).planNow (.tryResult key)
      else (r.getD (s.dropMsg tag)).setFir (f.answered els r.isSome)) := by
    simp [exec, execLockRequest, hm, hf, hb, hl, Firing.answered, r]
  have hmem : (r.getD (s.dropMsg tag)).mem = (r.getD s).mem := by cases r <;> rfl
  have hfir : ((r.getD (s.dropMsg tag)).setFir (f.answered els r.isSome)).fir? key = some (f.answered els r.isSome) :=
    hk ▸ KMap.find_set_self _ _ _
  refine ⟨_, hrun, ?_, ?_⟩ <;> split
  · exact hmem
  · exact hmem
  · exact hfir
  · exact hfir

/-! ## Reservations at a record (R77) -/

/-- A record under the reservation of a ticket, its holders kept (R68). -/
def reservedRec (t r : Nat) : Nat := t * 2 ^ 32 + r % 2 ^ 32 / 2 ^ 31 * 2 ^ 31 + 2 ^ 30 + r % 2 ^ 30

/-- The reservation of a ticket stands in a record. -/
def State.markRsv (s : State) (t : Nat) (e : LockEl) : State := s.putRecord e.addr (reservedRec t (s.num e.addr 8))

theorem State.reserveAt_free {s : State} {t : Nat} {e : LockEl} (f : Firing) (h : lockRsv (s.num e.addr 8) = false) :
    s.reserveAt f t e = some (s.markRsv t e) := by
  simp [reserveAt, h, markRsv, putRecord, reservedRec]

theorem State.reserveAt_own {s : State} {t : Nat} {e : LockEl} (f : Firing) (h : lockRsv (s.num e.addr 8) = true)
    (ht : lockTicket (s.num e.addr 8) = t) : s.reserveAt f t e = some s := by
  simp [reserveAt, h, ht]

/-- The reservation of a ticket stands in a record, and no more than one step is planned, for the firing it displaces. -/
def State.marksRsv (s : State) (t : Nat) (e : LockEl) (u : State) : Prop :=
  u = s.markRsv t e ∨ ∃ i, u = (s.markRsv t e).planNow i

theorem State.marksRsv_mem {s u : State} {t : Nat} {e : LockEl} (h : s.marksRsv t e u) : u.mem = (s.markRsv t e).mem := by
  rcases h with rfl | ⟨i, rfl⟩ <;> rfl

/-- An older ticket takes the record. -/
theorem State.reserveAt_displaces {s : State} {t : Nat} {e : LockEl} (f : Firing) (hr : lockRsv (s.num e.addr 8) = true)
    (ht : lockTicket (s.num e.addr 8) ≠ t) (h : olderTicket t (lockTicket (s.num e.addr 8)) = true) :
    ∃ u, s.reserveAt f t e = some u ∧ s.marksRsv t e u := by
  cases hg : s.firings.find? (fun g =>
      g.2.ticket == some (lockTicket (s.num e.addr 8)) && g.2.ctx == f.ctx && g.1 != f.key) with
  | none => exact ⟨s.markRsv t e, by simp [reserveAt, hr, ht, h, hg, markRsv, putRecord, reservedRec], .inl rfl⟩
  | some g => exact ⟨(s.markRsv t e).planNow (.displacementNotice g.1 e.elem),
      by simp [reserveAt, hr, ht, h, hg, markRsv, putRecord, reservedRec], .inr ⟨_, rfl⟩⟩

theorem State.reserveAt_busy {s : State} {t : Nat} {e : LockEl} (f : Firing) (hr : lockRsv (s.num e.addr 8) = true)
    (ht : lockTicket (s.num e.addr 8) ≠ t) (h : olderTicket t (lockTicket (s.num e.addr 8)) = false) :
    s.reserveAt f t e = none := by
  simp [reserveAt, hr, ht, h]

/-- A reservation that is not busy stands already or is placed. -/
theorem State.reserveAt_cases {s u : State} {f : Firing} {t : Nat} {e : LockEl} (h : s.reserveAt f t e = some u) :
    u = s ∨ s.marksRsv t e u := by
  cases hr : lockRsv (s.num e.addr 8) with
  | false =>
    rw [reserveAt_free f hr] at h
    exact .inr (.inl (by simpa using h.symm))
  | true =>
    by_cases ht : lockTicket (s.num e.addr 8) = t
    · rw [reserveAt_own f hr ht] at h
      exact .inl (by simpa using h.symm)
    · cases ho : olderTicket t (lockTicket (s.num e.addr 8)) with
      | false => rw [reserveAt_busy f hr ht ho] at h; cases h
      | true =>
        obtain ⟨v, hv, hm⟩ := reserveAt_displaces f hr ht ho
        rw [hv] at h
        cases h
        exact .inr hm

/-! ## Releases (R72, R73, R78) -/

/-- The record that a release leaves, before a failed ticketed try places its reservation again. -/
def State.releasedAt (s : State) (e : LockEl) (mode : RelMode) : State :=
  s.putRecord e.addr (releaseRec (s.num e.addr 8) e.exc mode)

theorem exec_lockRelease {s : State} {tag d h x : Nat} {e : LockEl} {mode : RelMode}
    (hm : s.msg? tag = some (.lockRel d h x [e] mode)) (hb : lockBehind s tag d h = false)
    (hl : s.lineFails e.addr = none) :
    exec (.lockRelease tag) s = .next (match mode with
      | .again t => ((s.dropMsg tag).releasedAt e mode).keepRsv t e
      | _ => (s.dropMsg tag).releasedAt e mode) := by
  have hl' : (s.dropMsg tag).lineFails e.addr = none := hl
  cases mode <;> simp [exec, execLockRelease, hm, hb, hl'] <;> rfl

/-- What is kept of a reservation changes no byte but those of its record. -/
theorem State.byte_keepRsv_other {s : State} (t : Nat) (e : LockEl) (h : Memory.wf s.changes s.mem = true) {k : Nat}
    (hk : ¬(e.addr ≤ k ∧ k < e.addr + 8)) : (s.keepRsv t e).byte k = s.byte k := by
  unfold keepRsv
  split
  · rfl
  · split
    · next hu =>
      rcases reserveAt_cases hu with rfl | rfl | ⟨i, rfl⟩
      · rfl
      · exact byte_putRecord_other e.addr _ h hk
      · exact byte_putRecord_other e.addr _ h hk
    · rfl

/-- The firing of a failed ticketed try keeps its reservation: the record it left holds none, and takes it again. -/
theorem State.num_keepRsv {s : State} {t : Nat} {e : LockEl} (h : Memory.wf s.changes s.mem = true)
    (hr : lockRsv (s.num e.addr 8) = false)
    (hf : s.firings.find? (fun g => g.2.ticket == some t && g.2.order.contains e && !g.2.placed) ≠ none) :
    (s.keepRsv t e).num e.addr 8 = reservedRec t (s.num e.addr 8) % 256 ^ 8 := by
  obtain ⟨g, hg⟩ := Option.ne_none_iff_exists'.1 hf
  simp only [keepRsv, hg, reserveAt_free g.2 hr]
  exact num_putRecord e.addr _ h

theorem lockRsv_mod (r : Nat) : lockRsv (r % 256 ^ 8) = lockRsv r := by
  have h : r % 256 ^ 8 / 2 ^ 30 % 2 = r / 2 ^ 30 % 2 := by omega
  simp only [lockRsv, h]

theorem reservedRec_mod (t r : Nat) : reservedRec t (r % 256 ^ 8) = reservedRec t r := by
  unfold reservedRec
  omega

/-! ## A request at a record (R72) -/

theorem applyLock_exclusive {r : Nat} (t : Nat) (hr : lockRsv r = false) (he : lockExc r = false) (hs : lockShr r = 0) :
    applyLock r true (some t) = some (r + 2 ^ 31) := by
  simp [applyLock, hr, he, hs]

theorem applyLock_held {r : Nat} (exc : Bool) (tk : Option Nat) (he : lockExc r = true) : applyLock r exc tk = none := by
  simp [applyLock, he]

theorem applyLock_reserved {r t : Nat} (exc : Bool) (hr : lockRsv r = true) (ht : lockTicket r ≠ t) :
    applyLock r exc (some t) = none := by
  have ht' : t ≠ lockTicket r := fun e => ht e.symm
  simp [applyLock, hr, ht']

theorem applyLock_shared {r : Nat} (hr : lockRsv r = false) (he : lockExc r = false) (hs : lockShr r < 65535) :
    applyLock r false none = some (r + 1) := by
  simp [applyLock, hr, he, hs]

/-- Settles O36: requests by what their firing is answered, releases by the record they leave and, after a failed ticketed try, the
reservation placed in it again. -/
theorem lockRecords : Obligations.LockRecords := by
  unfold Obligations.LockRecords
  refine ⟨?_, ?_, ?_, ?_⟩
  · intro s tag key h f els tk reads hm hf hk hb hl
    obtain ⟨t, ht, hmem, hfir⟩ := exec_lockRequest hm hf hk hb hl
    refine ⟨fun u hu => ?_, fun hu => ?_⟩ <;> simp only [hu] at hmem hfir
    · exact ⟨t, _, ht, hmem, hfir, by simp [Firing.answered], rfl, by simp [Firing.answered]⟩
    · exact ⟨t, _, ht, hmem, hfir, by simp [Firing.answered], rfl, by simp [Firing.answered]⟩
  · intro s tag key q els tk hm
    simp [exec, execLockRequest, hm]
  · intro s tag d h x e mode hi hm hb hl r
    have hw : Memory.wf (s.dropMsg tag).changes (s.dropMsg tag).mem = true := hi.1
    have hw' := putRecord_wf e.addr r hw
    have hn := num_putRecord e.addr r hw
    have hrun := exec_lockRelease hm hb hl
    cases mode with
    | again t =>
      refine ⟨_, hrun, fun k hk => ?_, fun hne => absurd rfl (hne t), ?_⟩
      · exact (byte_keepRsv_other t e hw' hk).trans (byte_putRecord_other e.addr r hw hk)
      · rintro _ ⟨rfl⟩ hr hf
        have hf' : ((s.dropMsg tag).putRecord e.addr r).firings.find?
            (fun g => g.2.ticket == some t && g.2.order.contains e && !g.2.placed) ≠ none := by simpa using hf
        refine (num_keepRsv hw' ?_ hf').trans ?_
        · rw [hn, lockRsv_mod, hr]
        · rw [hn, reservedRec_mod, reservedRec]
    | free =>
      exact ⟨_, hrun, fun k hk => byte_putRecord_other e.addr r hw hk, fun _ => hn, fun _ h => nomatch h⟩
    | clear t =>
      exact ⟨_, hrun, fun k hk => byte_putRecord_other e.addr r hw hk, fun _ => hn, fun _ h => nomatch h⟩
  · intro r t
    exact ⟨applyLock_exclusive t, fun he => ⟨applyLock_held _ _ he, applyLock_held _ _ he⟩,
      fun hr ht => ⟨applyLock_reserved _ hr ht, applyLock_reserved _ hr ht⟩, applyLock_shared⟩

end Sys2Proof.Machine
end

section
/-! SUPPORT. Tries, tickets and reservations (R71 to R79) and the passes of a round (R182). -/

namespace Sys2Proof.Machine

open State

namespace State

/-! ## Steps planned -/

theorem mem_agenda_plan (s : State) (due : Nat) (i : Instr) : (due, i) ∈ (s.plan due i).agenda := by simp [plan]

theorem planned_planNow {s u : State} (i : Instr) (h : u.time = s.time) : s.planned (u.planNow i) i :=
  show (s.time.toNat, i) ∈ (u.plan u.time.toNat i).agenda from h ▸ u.mem_agenda_plan u.time.toNat i

theorem planned_of_time {s u t : State} {i : Instr} (h : u.time = s.time) (hp : u.planned t i) : s.planned t i := by
  unfold planned at *
  rwa [h] at hp

/-! ## Releases sent (R71, R79, R433) -/

/-- Nothing differs but messages, the steps they plan, and the releases that a die keeps for a lost package. -/
def sendsReleases (s t : State) : Prop :=
  t = { s with msgs := t.msgs, nextTag := t.nextTag, agenda := t.agenda, dies := t.dies }
    ∧ ∀ d, ∃ l, t.die d = { s.die d with keptRel := l }

theorem sendsReleases_refl (s : State) : s.sendsReleases s := ⟨rfl, fun d => ⟨(s.die d).keptRel, rfl⟩⟩

theorem sendsReleases_trans {s t u : State} (h1 : s.sendsReleases t) (h2 : t.sendsReleases u) : s.sendsReleases u := by
  obtain ⟨e1, d1⟩ := h1
  obtain ⟨e2, d2⟩ := h2
  refine ⟨by rw [e2, e1], fun d => ?_⟩
  obtain ⟨l1, h1⟩ := d1 d
  obtain ⟨l2, h2⟩ := d2 d
  exact ⟨l2, by rw [h2, h1]⟩

theorem sendsReleases_keepRel (s : State) (d : Nat) (l : List (Nat × Nat × List LockEl × RelMode)) :
    s.sendsReleases (s.setDie d { s.die d with keptRel := l }) := by
  refine ⟨rfl, fun d' => ?_⟩
  by_cases h : d' = d
  · subst h
    exact ⟨l, die_setDie_self _ _ _⟩
  · exact ⟨_, die_setDie_other _ _ _ _ h⟩

theorem sendsReleases_foldl {α : Type} (f : State → α → State) (h : ∀ (s : State) a, s.sendsReleases (f s a)) (l : List α)
    (s : State) : s.sendsReleases (l.foldl f s) := by
  induction l generalizing s with
  | nil => exact s.sendsReleases_refl
  | cons a l ih => exact sendsReleases_trans (h s a) (ih _)

theorem sendsReleases_releaseLocks (s : State) (d x : Nat) (els : List LockEl) (mode : RelMode) :
    s.sendsReleases (s.releaseLocks d x els mode) := by
  unfold releaseLocks
  refine sendsReleases_foldl _ (fun u h => ?_) _ _
  dsimp only
  split
  · exact u.sendsReleases_keepRel _ _
  · exact ⟨rfl, fun d => ⟨(u.die d).keptRel, rfl⟩⟩

/-! ## The result of a try (R71, R75, R78) -/

/-- What a failed try leaves: the firing's releases are sent, and its reservations stay those of its ticket. -/
def letGo (s : State) (f : Firing) : State :=
  s.releaseLocks f.die f.ctx f.got (match f.ticket with | some t => .again t | none => .free)

theorem sendsReleases_letGo (s : State) (f : Firing) : s.sendsReleases (s.letGo f) := s.sendsReleases_releaseLocks _ _ _ _

@[simp] theorem letGo_time (s : State) (f : Firing) : (s.letGo f).time = s.time := by rw [(s.sendsReleases_letGo f).1]

@[simp] theorem letGo_patienceNow (s : State) (f : Firing) (d : Nat) :
    ((s.letGo f).die d).patienceNow = (s.die d).patienceNow := by
  obtain ⟨l, h⟩ := (s.sendsReleases_letGo f).2 d
  rw [h]

@[simp] theorem letGo_ticketKey (s : State) (f : Firing) (d x : Nat) : (s.letGo f).ticketKey d x = s.ticketKey d x := by
  rw [(s.sendsReleases_letGo f).1]; rfl

@[simp] theorem letGo_lineFails (s : State) (f : Firing) (k : Nat) : (s.letGo f).lineFails k = s.lineFails k := by
  rw [(s.sendsReleases_letGo f).1]; rfl

/-- How a firing goes on after a failed try whose records can all be read. -/
def tryAgain (s : State) (f : Firing) : State :=
  if f.ticket.isSome then
    if f.rsvd < f.order.length then (s.setFir { f with stage := .reserving }).planNow (.reservation f.key)
    else (s.setFir { f with stage := .between }).plan (s.time.toNat + 64) (.ticketedTryRetry f.key)
  else if f.tries ≥ (s.die f.die).patienceNow then s.startReservation f f.set
  else if f.granted then (s.setFir { f with stage := .between }).plan (s.time.toNat + 64) (.roundTryRetry f.key)
  else s.reinsert f

section TryAgain

variable {s : State} {f : Firing}

theorem tryAgain_reserves {n : Nat} (ht : f.ticket = some n) (hr : f.rsvd < f.order.length) :
    s.tryAgain f = (s.setFir { f with stage := .reserving }).planNow (.reservation f.key) := by
  rw [tryAgain, if_pos (Option.isSome_iff_exists.2 ⟨n, ht⟩), if_pos hr]

theorem tryAgain_ticketed {n : Nat} (ht : f.ticket = some n) (hr : f.order.length ≤ f.rsvd) :
    s.tryAgain f = (s.setFir { f with stage := .between }).plan (s.time.toNat + 64) (.ticketedTryRetry f.key) := by
  rw [tryAgain, if_pos (Option.isSome_iff_exists.2 ⟨n, ht⟩), if_neg (Nat.not_lt.2 hr)]

theorem tryAgain_patient (ht : f.ticket = none) (hp : (s.die f.die).patienceNow ≤ f.tries) :
    s.tryAgain f = s.startReservation f f.set := by
  rw [tryAgain, if_neg (Option.not_isSome_iff_eq_none.2 ht), if_pos hp]

theorem tryAgain_granted (ht : f.ticket = none) (hp : f.tries < (s.die f.die).patienceNow) (hg : f.granted = true) :
    s.tryAgain f = (s.setFir { f with stage := .between }).plan (s.time.toNat + 64) (.roundTryRetry f.key) := by
  rw [tryAgain, if_neg (Option.not_isSome_iff_eq_none.2 ht), if_neg (Nat.not_le.2 hp), if_pos hg]

theorem tryAgain_reinserts (ht : f.ticket = none) (hp : f.tries < (s.die f.die).patienceNow) (hg : f.granted = false) :
    s.tryAgain f = s.reinsert f := by
  rw [tryAgain, if_neg (Option.not_isSome_iff_eq_none.2 ht), if_neg (Nat.not_le.2 hp), if_neg (Bool.eq_false_iff.1 hg)]

end TryAgain

/-- A firing whose ticket counter can be read draws a ticket, and its reservations begin (R75 to R77). -/
theorem startReservation_draws {s : State} {f : Firing} (set : List LockEl) (ht : f.ticket = none)
    (hl : s.lineFails (s.ticketKey f.die f.ctx) = none) :
    ∃ n, (s.startReservation f set).fir? f.key = some { f with
        stage := .reserving, ticket := some n, set := set, order := set.foldr s.insertEl [], rsvd := 0, got := [] }
      ∧ s.planned (s.startReservation f set) (.reservation f.key) := by
  have htime : (s.drawTicket f.die f.ctx).2.time = s.time := by
    simp only [drawTicket, setNum]
    rw [soil_eq, setBytes_eq]
    rfl
  refine ⟨(s.drawTicket f.die f.ctx).1, ?_, ?_⟩ <;> simp only [startReservation, ht, hl]
  · exact KMap.find_set_self _ _ _
  · exact planned_planNow _ htime

end State

/-- The firing after a try that failed: it holds nothing, and one more try is counted. -/
def Firing.failedTry (f : Firing) : Firing := { f with got := [], tries := Nat.min (f.tries + 1) 255, tryFailed := false }

section Result

variable {s : State} {key : Nat} {f : Firing} (hf : s.fir? key = some f) (hs : f.stage = .acquiring) (ho : f.outstanding = 0)
  (hd : f.doomed = false) (hh : f.set.any (fun e => (s.pkg (f.die / 16)).lost.contains (s.homePkg e.addr)) = false)
include hf hs ho hd hh

theorem exec_tryResult_succeeded (ht : f.tryFailed = false) :
    exec (.tryResult key) s = .next (s.acquired { f with elem := some (elemNo f) }) := by
  have hlost : f.set.find? (fun e => (s.pkg (f.die / 16)).lost.contains (s.homePkg e.addr)) = none := by
    simpa using hh
  have hdue : (f.stage != .acquiring || f.outstanding != 0) = false := by simp [hs, ho]
  simp only [exec, execTryResult, hf, hdue, hd, hlost, ht]
  rfl

theorem exec_tryResult_failed (hk : f.key = key) (hl : ∀ e ∈ f.set, s.lineFails e.addr = none) (ht : f.tryFailed = true) :
    exec (.tryResult key) s = .next ((s.letGo f).tryAgain f.failedTry) := by
  have hlost : f.set.find? (fun e => (s.pkg (f.die / 16)).lost.contains (s.homePkg e.addr)) = none := by
    simpa using hh
  have hread : f.set.find? (fun e => (s.lineFails e.addr).isSome) = none := by
    simpa using hl
  have hdue : (f.stage != .acquiring || f.outstanding != 0) = false := by simp [hs, ho]
  subst hk
  simp only [exec, execTryResult, hf, hdue, hd, hlost, hread, ht, letGo, tryAgain, Firing.failedTry]
  rfl

end Result

/-! ## Reservations (R77) -/

/-- A reservation whose record can be read, at a live home, is placed or busy. -/
theorem reserveNext_at {s : State} {f : Firing} {tk : Nat} {e : LockEl} (he : f.order[f.rsvd]? = some e)
    (hh : (s.pkg (f.die / 16)).lost.contains (s.homePkg e.addr) = false) (hl : s.lineFails e.addr = none)
    (hb : lockBehind s s.nextTag f.die (s.home e.addr) = false) :
    (s.reserveAt f tk e = none →
      reserveNext s f tk = s.plan (s.time.toNat + 64) (.reservationRetry f.key))
    ∧ (∀ u, s.reserveAt f tk e = some u → f.rsvd + 1 < f.order.length →
      reserveNext s f tk = (u.setFir { f with rsvd := f.rsvd + 1 }).planNow (.reservation f.key)) := by
  refine ⟨fun hr => ?_, fun u hr hn => ?_⟩
  · simp only [reserveNext, he, hh, hl, hb, hr]
    rfl
  · simp only [reserveNext, he, hh, hl, hb, hr, hn]
    rfl

theorem exec_reservation {s : State} {key tk : Nat} {f : Firing} (hf : s.fir? key = some f) (hs : f.stage = .reserving)
    (ht : f.ticket = some tk) {i : Instr} (hi : i ∈ [Instr.reservation key, Instr.reservationRetry key]) :
    exec i s = .next (reserveNext s f tk) := by
  simp only [List.mem_cons, List.not_mem_nil, or_false] at hi
  rcases hi with rfl | rfl
  · simp [exec, execReservation, hf, hs, ht]
  · simp [exec, execReservationRetry, hf, hs, ht]

theorem State.tryNow_ok {s : State} {f : Firing} {set : List LockEl} (h : s.exclSet (dieCore f.die) f = .ok set) :
    s.tryNow f = s.startTry f set := by
  simp [tryNow, h]

/-- A record that holds no reservation, or a younger one, takes a reservation. -/
theorem State.reserveAt_places {s : State} {t : Nat} {e : LockEl} (f : Firing)
    (h : lockRsv (s.num e.addr 8) = false
      ∨ (lockTicket (s.num e.addr 8) ≠ t ∧ olderTicket t (lockTicket (s.num e.addr 8)) = true)) :
    ∃ u, s.reserveAt f t e = some u ∧ s.marksRsv t e u := by
  cases hr : lockRsv (s.num e.addr 8) with
  | false => exact ⟨_, reserveAt_free f hr, .inl rfl⟩
  | true =>
    obtain hr' | ⟨ht, ho⟩ := h
    · simp [hr] at hr'
    · exact reserveAt_displaces f hr ht ho

theorem State.marksRsv_time {s u : State} {t : Nat} {e : LockEl} (h : s.marksRsv t e u) : u.time = s.time := by
  have hm : (s.markRsv t e).time = s.time := by rw [markRsv, s.memoryOnly_putRecord]
  rcases h with rfl | ⟨i, rfl⟩ <;> exact hm

/-! ## Rounds (R182) -/

/-- The DET firings of the round of f that wait for a pass or for their generation. -/
def State.roundOf (s : State) (f : Firing) : List Firing :=
  (s.firings.map (·.2)).filter (fun g => sameRound f g && g.head.det && g.head.bound && (g.inRound || g.stage == .pending))

/-- A fold that meets nothing to change changes nothing. -/
theorem foldl_ite_of_forall_not {α β : Type} (p : α → Bool) (g : β → α → β) (l : List α) (b : β) (h : ∀ a ∈ l, p a = false) :
    l.foldl (fun b a => if p a then g b a else b) b = b := by
  induction l with
  | nil => rfl
  | cons a l ih => simp [h a (by simp), ih (fun c hc => h c (by simp [hc]))]

theorem exec_roundResolve {s : State} {key : Nat} {f : Firing} (hf : s.fir? key = some f) (hs : f.stage = .between)
    (hg : f.granted = false) (hm : (s.roundOf f).any (fun g => g.granted) = false)
    (hp : ∀ g ∈ s.roundOf f, g.stage ≠ .pending)
    (hc : s.cores.any (fun e => match e.2.run with
      | some g => g.granted && sameRound f g
      | none => false) = false) :
    exec (.roundResolve key) s = .next (grantPass s (((s.firings.map (·.2)).filter (fun g => sameRound f g
      && g.head.det && g.head.bound && g.inRound && g.stage == .between && !g.granted)).foldr insertRound []) []) := by
  have hfold := foldl_ite_of_forall_not (fun g : Firing => g.stage == .pending)
    (fun (u : State) g => u.setFir { g with
      stage := .between, inRound := true, watched := false, arrived := u.time, age := u.time.toNat % 2 ^ 48 })
    (s.roundOf f) s (fun g hg => by simpa using hp g hg)
  unfold roundOf at hm hfold
  simp only [exec, execRoundResolve, hf, hs, hg, hm, hfold]
  exact (if_neg (by decide)).trans (if_neg (fun h => Bool.false_ne_true (hc.symm.trans ((Bool.false_or _).symm.trans h))))

/-- Settles O37: a try that succeeded leads to placement; after one that failed the firing goes on as State.tryAgain says; a
reservation is placed or busy as reserveAt finds its record. -/
theorem triesAndReservations : Obligations.TriesAndReservations := by
  unfold Obligations.TriesAndReservations
  refine ⟨?_, ?_, ?_, ?_, ?_⟩
  · intro s key f hf hk hs ho hd hh hl htk
    have hrun := exec_tryResult_failed hf hs ho hd hh hk hl
    subst hk
    refine ⟨fun ht => ?_, fun ht hn hg hlt htr => ?_, fun ht hn hle => ?_, fun ht hn hg hlt => ?_, fun ht n hn hr => ?_,
      fun ht n hn hr => ?_⟩
    · exact ⟨_, _, exec_tryResult_succeeded hf hs ho hd hh ht, KMap.find_set_self _ _ _, rfl, rfl, rfl, planned_planNow _ rfl⟩
    · have hmin : Nat.min (f.tries + 1) 255 = f.tries + 1 := Nat.min_eq_left htr
      have hp : f.failedTry.tries < ((s.letGo f).die f.die).patienceNow := by
        rw [letGo_patienceNow]
        exact Nat.lt_of_le_of_lt (Nat.min_le_left _ _) hlt
      rw [tryAgain_reinserts (f := f.failedTry) hn hp hg] at hrun
      exact ⟨_, _, hrun ht, KMap.find_set_self _ _ _, rfl, rfl, hmin, rfl, planned_planNow _ (letGo_time s f)⟩
    · have hp : ((s.letGo f).die f.die).patienceNow ≤ f.failedTry.tries := by
        rw [letGo_patienceNow]
        exact hle
      have hread : (s.letGo f).lineFails ((s.letGo f).ticketKey f.die f.ctx) = none := by
        rw [letGo_ticketKey, letGo_lineFails, htk]
      obtain ⟨n, hfir, hplan⟩ := startReservation_draws (s := s.letGo f) (f := f.failedTry) f.set hn hread
      rw [tryAgain_patient (f := f.failedTry) hn hp] at hrun
      exact ⟨_, _, n, hrun ht, hfir, rfl, rfl, rfl, rfl, planned_of_time (letGo_time s f) hplan⟩
    · have hp : f.failedTry.tries < ((s.letGo f).die f.die).patienceNow := by
        rw [letGo_patienceNow]
        exact hlt
      rw [tryAgain_granted (f := f.failedTry) hn hp hg, letGo_time] at hrun
      exact ⟨_, _, hrun ht, KMap.find_set_self _ _ _, rfl, rfl, mem_agenda_plan _ _ _⟩
    · rw [tryAgain_reserves (f := f.failedTry) hn hr] at hrun
      exact ⟨_, _, hrun ht, KMap.find_set_self _ _ _, rfl, rfl, planned_planNow _ (letGo_time s f)⟩
    · rw [tryAgain_ticketed (f := f.failedTry) hn hr, letGo_time] at hrun
      exact ⟨_, _, hrun ht, KMap.find_set_self _ _ _, rfl, rfl, mem_agenda_plan _ _ _⟩
  · intro s key tk f e hf hk hs ht he hn hh hl hb i hi
    have hrun := exec_reservation hf hs ht hi
    obtain ⟨hbusy, hplaced⟩ := reserveNext_at (tk := tk) he hh hl hb
    subst hk
    refine ⟨fun hr => ?_, fun hr hne hold => ?_⟩
    · obtain ⟨u, hu, hm⟩ := reserveAt_places f hr
      rw [hplaced u hu hn] at hrun
      exact ⟨_, _, hrun, KMap.find_set_self _ _ _, rfl, (marksRsv_mem hm).trans (putRecord_mem _ _ _),
        planned_planNow _ ((setFir_time u _).trans (marksRsv_time hm))⟩
    · rw [hrun, hbusy (reserveAt_busy f hr hne hold)]
  · intro s key elem f hf hk hs
    subst hk
    have hrun : exec (.displacementNotice f.key elem) s = .next ((({ s with
        agenda := s.agenda.filter (fun e => e.2 != Instr.ticketedTryRetry f.key) } : State).setFir { f with
          stage := .reserving, rsvd := Nat.min f.rsvd (f.order.findIdx (fun e => e.elem == elem)) }).planNow
            (.reservation f.key)) := by
      simp only [exec, execDisplacementNotice, hf, hs]
    exact ⟨_, _, hrun, KMap.find_set_self _ _ _, rfl, Nat.min_le_right _ _, planned_planNow _ rfl, rfl⟩
  · intro s key f set hf hs he
    refine ⟨fun ht => ?_, fun hg => ?_⟩
    · simp [exec, execTicketedTryRetry, hf, hs, ht, tryNow_ok he]
    · simp [exec, execRoundTryRetry, hf, hs, hg, tryNow_ok he]
  · intro s key f hf hs hg
    exact exec_roundResolve hf hs hg

end Sys2Proof.Machine
end

section
/-! SUPPORT. The pop of a die's dispatcher (R57 to R61, R183). -/

namespace Sys2Proof.Machine

open State

/-- The firing as a pop takes it: the ck of its first pop is kept, and it is spilled no more (R56, R375). -/
def Firing.popped (f : Firing) (now : Word) : Firing :=
  { f with firstPop := if f.firstPop = 0 then now else f.firstPop, spilled := false }

namespace State

/-- A pop ends: the bank it took from is refilled, and the die pops on while a context has a firing to take (R56, R57). -/
def popsOn (s : State) (d b : Nat) : State :=
  if ((s.refillBank d b).chooseCtx d).isSome then (s.refillBank d b).planNow (.pop d) else s.refillBank d b

/-- The patience a pop goes by is the register's (R81). -/
theorem countPop_patienceNow (s : State) (d x : Nat) (f : Firing) :
    ((s.countPop d x f).die d).patienceNow = (s.die d).patience := by
  simp only [countPop, die_setDie_self]

/-- The pop of a bound DET firing of a deterministic context is recorded in ctl.DETSTAT (R183). -/
def notePop (s : State) (x : Nat) (f : Firing) : State :=
  if s.det x && f.head.det then s.setCtx x { s.ctx x with detstat := (s.ctx x).detstat ||| 1 } else s

theorem notePop_die (s : State) (x : Nat) (f : Firing) (d : Nat) : (s.notePop x f).die d = s.die d := by
  unfold notePop
  split <;> rfl

end State

section Pop

variable {s u : State} {d x : Nat} {f : Firing}

theorem exec_pop_none (hx : s.chooseCtx d = none) : exec (.pop d) s = .next s := by
  simp only [exec, execPop, hx]

theorem exec_pop_empty (hx : s.chooseCtx d = some x) (hp : s.choosePop d x = (none, u)) : exec (.pop d) s = .next u := by
  simp only [exec, execPop, hx, hp]

theorem exec_pop_unbound (hx : s.chooseCtx d = some x) (hp : s.choosePop d x = (some f, u)) (hb : f.head.bound = false) :
    exec (.pop d) s = .next
      (((u.countPop d x f).acquired { f.popped u.time with set := [], elem := none }).popsOn d f.bank) := by
  simp only [exec, execPop, hx, hp, hb]
  rfl

theorem exec_pop_defective {e : Trap} (hx : s.chooseCtx d = some x) (hp : s.choosePop d x = (some f, u))
    (hb : f.head.bound = true) (he : (u.countPop d x f).exclSet (dieCore d) (f.popped u.time) = .error e) :
    exec (.pop d) s = .next (((u.countPop d x f).mapStop (f.popped u.time) e).popsOn d f.bank) := by
  have he' : (u.countPop d x f).exclSet (dieCore d) (f.popped (u.countPop d x f).time) = .error e := he
  unfold Firing.popped at he'
  simp only [exec, execPop, hx, hp, hb, he']
  rfl

/-- A bound firing reserves from the die's patience on or with a ticket, and tries before (R71, R75). -/
theorem exec_pop_bound {set : List LockEl} (hx : s.chooseCtx d = some x) (hp : s.choosePop d x = (some f, u))
    (hb : f.head.bound = true) (he : (u.countPop d x f).exclSet (dieCore d) (f.popped u.time) = .ok set) :
    exec (.pop d) s = .next
      ((if f.tries ≥ (u.die d).patience || f.ticket.isSome then
        ((u.countPop d x f).notePop x f).startReservation (f.popped u.time) set
      else ((u.countPop d x f).notePop x f).startTry (f.popped u.time) set).popsOn d f.bank) := by
  have he' : (u.countPop d x f).exclSet (dieCore d) (f.popped (u.countPop d x f).time) = .ok set := he
  rw [← countPop_patienceNow u d x f, ← notePop_die (u.countPop d x f) x f d]
  unfold Firing.popped at he'
  simp only [exec, execPop, hx, hp, hb, he']
  rfl

end Pop

/-- Settles O35: one equation for each way a pop can end. -/
theorem popAndRefill : Obligations.PopAndRefill := by
  unfold Obligations.PopAndRefill
  refine ⟨fun s d => exec_pop_none, fun s u d x => exec_pop_empty, fun s u d x f => exec_pop_unbound, ?_, fun s d b x => rfl⟩
  intro s u d x f hx hp hb
  exact ⟨fun set he => exec_pop_bound hx hp hb he, fun e he => exec_pop_defective hx hp hb he⟩

end Sys2Proof.Machine
end

section
/-! SUPPORT. The registers of a die that a write leaves (R59, R81, R373): the steps that a changed weight sets off, orders and saved
engine commands among them, change no register of any die. -/

namespace Sys2Proof.Machine

namespace State

/-! ## Steps that are planned -/

/-- Nothing but the agenda differs. -/
def plansOnly (s t : State) : Prop := t = { s with agenda := t.agenda }

theorem plansOnly_refl (s : State) : s.plansOnly s := rfl

theorem plansOnly_planNow (s : State) (i : Instr) : s.plansOnly (s.planNow i) := rfl

theorem plansOnly_trans {s t u : State} (h1 : s.plansOnly t) (h2 : t.plansOnly u) : s.plansOnly u := by
  unfold plansOnly at *
  rw [h2, h1]

theorem plansOnly_ite {s t u : State} {c : Prop} [Decidable c] (ht : s.plansOnly t) (hu : s.plansOnly u) :
    s.plansOnly (if c then t else u) := by
  split
  · exact ht
  · exact hu

theorem plansOnly_foldl {α : Type} (f : State → α → State) (h : ∀ (s : State) a, s.plansOnly (f s a)) (l : List α) (s : State) :
    s.plansOnly (l.foldl f s) := by
  induction l generalizing s with
  | nil => exact s.plansOnly_refl
  | cons a l ih => exact plansOnly_trans (h s a) (ih _)

/-- A step planned where a condition holds. -/
theorem plansOnly_planIf {s u : State} {p : Prop} [Decidable p] (i : Instr) (h : s.plansOnly u) :
    s.plansOnly (if p then u.planNow i else u) :=
  plansOnly_ite (plansOnly_trans h (u.plansOnly_planNow i)) h

theorem plansOnly_rePlace (s : State) (d : Nat) : s.plansOnly (s.rePlace d) :=
  plansOnly_foldl _ (fun u _ => plansOnly_planIf _ u.plansOnly_refl) _ _

theorem plansOnly_freed (s : State) (c : Nat) : s.plansOnly (s.freed c) := by
  have hplace : s.plansOnly ((s.planNow (.nextFiring c)).rePlace (dieOf c)) :=
    plansOnly_trans (s.plansOnly_planNow _) (plansOnly_rePlace _ _)
  unfold freed
  refine plansOnly_planIf _ (plansOnly_planIf _ (plansOnly_trans hplace ?_))
  exact plansOnly_foldl _ (fun u _ => plansOnly_planIf _ u.plansOnly_refl) _ _

theorem plansOnly_nextPass (s : State) (f : Firing) : s.plansOnly (s.nextPass f) :=
  plansOnly_ite s.plansOnly_refl
    (plansOnly_foldl _ (fun u _ => plansOnly_planIf _ u.plansOnly_refl) _ _)

theorem plansOnly_kick (s : State) (k q : Nat) : s.plansOnly (s.kick k q) := by
  unfold kick
  refine plansOnly_planIf _ (plansOnly_planIf _ ?_)
  repeat' split
  all_goals rfl

/-! ## What changes no die -/

theorem plansOnly_dies {s t : State} (h : s.plansOnly t) : t.dies = s.dies := by rw [h]

theorem plansOnly_cores {s t : State} (h : s.plansOnly t) : t.cores = s.cores := by rw [h]

theorem dies_foldl {α : Type} (f : State → α → State) (h : ∀ (s : State) a, (f s a).dies = s.dies) (l : List α) (s : State) :
    (l.foldl f s).dies = s.dies := by
  induction l generalizing s with
  | nil => rfl
  | cons a l ih => exact (ih _).trans (h s a)

theorem dies_ite {s t u : State} {c : Prop} [Decidable c] (ht : t.dies = s.dies) (hu : u.dies = s.dies) :
    (if c then t else u).dies = s.dies := by
  split
  · exact ht
  · exact hu

@[simp] theorem soil_dies (s : State) (key : Nat) (cls : BitVec 2) : (s.soil key cls).dies = s.dies := by rw [soil_eq]

@[simp] theorem writeHome_dies (s : State) (key : Nat) (data : List Byte) : (s.writeHome key data).dies = s.dies :=
  (dies_foldl _ (fun u _ => u.soil_dies _ _) _ _).trans (by rw [setBytes_eq])

@[simp] theorem publish_dies (s : State) (c x : Nat) (d : Desc) (i : BitVec 32) (h : Nat × Nat) :
    (s.publish c x d i h).dies = s.dies := by
  unfold publish
  split
  · rfl
  · exact s.writeHome_dies _ _

@[simp] theorem voidSlot_dies (s : State) (c x : Nat) (r : Resv) (st : BitVec 32) : (s.voidSlot c x r st).dies = s.dies := by
  unfold voidSlot
  refine dies_ite rfl ?_
  split
  · rfl
  · exact s.publish_dies _ _ _ _ _

theorem voidAll_dies (s : State) (f : Firing) : (s.voidAll f).dies = s.dies := dies_foldl _ (fun u _ => u.voidSlot_dies _ _ _ _) _ _

theorem advanceClm_dies (s : State) (k n : Nat) : (s.advanceClm k n).dies = s.dies := by
  induction n generalizing s with
  | zero => rfl
  | succ n ih => exact dies_ite ((ih _).trans (s.writeHome_dies _ _)) rfl

theorem advanceCidx_dies (s : State) (k n : Nat) : (s.advanceCidx k n).dies = s.dies := by
  induction n generalizing s with
  | zero => rfl
  | succ n ih => exact dies_ite ((ih _).trans (writeHome_dies _ _ _)) rfl

theorem writeRecord_dies {s t : State} {near core x : Nat} {ws : List Nat} (h : s.writeRecord near core x ws = some t) :
    t.dies = s.dies := by
  unfold writeRecord at h
  split at h
  · cases h
  · split at h
    · cases h
    · split at h
      · cases h
      · cases h
        simp [setPidx]

theorem flushNotices_dies (s : State) : s.flushNotices.dies = s.dies := by
  refine dies_foldl _ (fun u n => ?_) _ _
  split
  · next t h => exact (show _ = t.dies from rfl).trans (writeRecord_dies h)
  · rfl

theorem freeSlots_dies (s : State) (k : Nat) (is : List (BitVec 32)) : (s.freeSlots k is).dies = s.dies := by
  simp only [freeSlots, flushNotices_dies, advanceCidx_dies, advanceClm_dies]
  rfl

theorem freeClaims_dies (s : State) (c x : Nat) (cl : List Claim) : (s.freeClaims c x cl).dies = s.dies := by
  refine dies_foldl _ (fun u q => ?_) _ _
  split
  · rfl
  · exact u.freeSlots_dies _ _

theorem accountRun_dies (s : State) (f : Firing) : (s.accountRun f).dies = s.dies :=
  dies_ite (dies_ite rfl rfl) rfl

theorem refill_dies (s : State) (d b x n : Nat) : (s.refill d b x n).dies = s.dies := by
  induction n generalizing s with
  | zero => rfl
  | succ n ih =>
    refine dies_ite rfl ?_
    split
    · rfl
    · exact dies_ite (ih _) rfl

theorem refillBank_dies (s : State) (d b : Nat) : (s.refillBank d b).dies = s.dies :=
  dies_foldl _ (fun u _ => u.refill_dies _ _ _ _) _ _

theorem settleForks_dies (s : State) (c : Nat) : (s.settleForks c).dies = s.dies := by
  refine dies_foldl _ (fun u k => ?_) _ _
  repeat' split
  all_goals rfl

theorem setQueue_dies (s : State) (k q : Nat) (l : List EngCmd) : (s.setQueue k q l).dies = s.dies := rfl

/-! ## What keeps the registers of the dies -/

/-- ctl.CXWT and ctl.TRCTL of every die are as they were; the rest of a die may differ (R316). -/
def keepsDieRegs (s t : State) : Prop := ∀ d, (t.die d).cxwt = (s.die d).cxwt ∧ (t.die d).trctl = (s.die d).trctl

theorem keepsDieRegs_of_dies {s t : State} (h : t.dies = s.dies) : s.keepsDieRegs t := fun d => by
  simp only [die, h, and_self]

theorem keepsDieRegs_refl (s : State) : s.keepsDieRegs s := keepsDieRegs_of_dies rfl

theorem keepsDieRegs_trans {s t u : State} (h1 : s.keepsDieRegs t) (h2 : t.keepsDieRegs u) : s.keepsDieRegs u := fun d =>
  ⟨(h2 d).1.trans (h1 d).1, (h2 d).2.trans (h1 d).2⟩

theorem keepsDieRegs_ite {s t u : State} {c : Prop} [Decidable c] (ht : s.keepsDieRegs t) (hu : s.keepsDieRegs u) :
    s.keepsDieRegs (if c then t else u) := by
  split
  · exact ht
  · exact hu

theorem keepsDieRegs_foldl {α : Type} (f : State → α → State) (h : ∀ (s : State) a, s.keepsDieRegs (f s a)) (l : List α)
    (s : State) : s.keepsDieRegs (l.foldl f s) := by
  induction l generalizing s with
  | nil => exact s.keepsDieRegs_refl
  | cons a l ih => exact keepsDieRegs_trans (h s a) (ih _)

theorem keepsDieRegs_setDie (s : State) (k : Nat) (x : Die) (hw : x.cxwt = (s.die k).cxwt) (ht : x.trctl = (s.die k).trctl) :
    s.keepsDieRegs (s.setDie k x) := fun d => by
  by_cases h : d = k
  · subst h
    simpa using ⟨hw, ht⟩
  · simp [die_setDie_other _ _ _ _ h]

theorem keepsDieRegs_releaseLocks (s : State) (d x : Nat) (els : List LockEl) (mode : RelMode) :
    s.keepsDieRegs (s.releaseLocks d x els mode) := fun d' => by
  obtain ⟨l, h⟩ := (s.sendsReleases_releaseLocks d x els mode).2 d'
  simp [h]

theorem keepsDieRegs_releases (s : State) (f : Firing) (freeSlots : Bool) : s.keepsDieRegs (s.releases f freeSlots) := by
  let c := if f.placed then f.core else dieCore f.die
  let u := f.resv.foldl (fun s r => s.voidSlot c f.ctx r f.last) s
  let v := if freeSlots then u.freeClaims c f.ctx f.claims else u
  have hu : u.dies = s.dies := dies_foldl _ (fun u _ => u.voidSlot_dies _ _ _ _) _ _
  have hv : v.dies = s.dies := dies_ite ((u.freeClaims_dies _ _ _).trans hu) hu
  have hgot : s.keepsDieRegs (v.releaseLocks f.die f.ctx f.got .free) :=
    keepsDieRegs_trans (keepsDieRegs_of_dies hv) (v.keepsDieRegs_releaseLocks _ _ _ _)
  unfold releases
  dsimp only
  split
  · exact keepsDieRegs_ite hgot (keepsDieRegs_trans hgot (keepsDieRegs_releaseLocks _ _ _ _ _))
  · exact hgot

theorem keepsDieRegs_dryShare (s : State) (d x : Nat) : s.keepsDieRegs (s.dryShare d x) :=
  keepsDieRegs_ite (s.keepsDieRegs_setDie _ _ rfl rfl) s.keepsDieRegs_refl

theorem keepsDieRegs_abandon (s : State) (f : Firing) : s.keepsDieRegs (s.abandon f) := by
  let u := (s.accountRun f).releases f true
  have hu : s.keepsDieRegs u :=
    keepsDieRegs_trans (keepsDieRegs_of_dies (s.accountRun_dies f)) (keepsDieRegs_releases _ f true)
  have hpass : s.keepsDieRegs ((u.forget f.key).nextPass f) :=
    keepsDieRegs_trans (t := u.forget f.key) hu (keepsDieRegs_of_dies (plansOnly_dies (plansOnly_nextPass _ f)))
  have hkept : s.keepsDieRegs ((u.cores.filter (fun e => e.2.kept.any (fun k => k.1 == f.key))).foldl
      (fun s e => s.planNow (.nextFiring e.1)) ((u.forget f.key).nextPass f)) :=
    keepsDieRegs_trans hpass (keepsDieRegs_of_dies (dies_foldl _ (fun u (e : Nat × Core) => u.planNow_dies (.nextFiring e.1)) _ _))
  unfold abandon
  dsimp only
  refine keepsDieRegs_trans ?_ (keepsDieRegs_of_dies (plansOnly_dies (plansOnly_freed _ _)))
  have hready := keepsDieRegs_ite (c := (f.stage == .ready) = true) (keepsDieRegs_trans
    (keepsDieRegs_trans hkept (keepsDieRegs_of_dies (refillBank_dies _ f.die f.bank)))
    (keepsDieRegs_dryShare _ f.die f.ctx)) hkept
  exact keepsDieRegs_ite (keepsDieRegs_trans hready (keepsDieRegs_of_dies (settleForks_dies _ _))) hready

theorem reenter_dies (s : State) (f : Firing) : (s.reenter f).dies = s.dies := by
  unfold reenter
  split
  · rfl
  · refine dies_ite rfl ?_
    dsimp only
    split <;> rfl

end State

open State

/-- An order that takes effect changes no register of a die (R314, R406). -/
theorem keepsDieRegs_orderNow (s : State) (f : Firing) (k : Cont) : s.keepsDieRegs (orderNow s f k) := by
  cases k with
  | abandon => exact s.keepsDieRegs_abandon f
  | precise => exact keepsDieRegs_of_dies rfl
  | restart => exact keepsDieRegs_of_dies (dies_ite rfl (s.reenter_dies f))
  | replay => exact keepsDieRegs_of_dies (dies_ite (s.voidAll_dies f) (s.reenter_dies f))

namespace State

theorem keepsDieRegs_resumeCmds (s : State) (d x : Nat) : s.keepsDieRegs (s.resumeCmds d x) := by
  have hsaved : s.keepsDieRegs (s.setDie d { s.die d with savedCmds := (s.die d).savedCmds.filter (fun c => c.ctx != x) }) :=
    s.keepsDieRegs_setDie d _ rfl rfl
  refine keepsDieRegs_trans hsaved (keepsDieRegs_of_dies ?_)
  exact (dies_foldl _ (fun u _ => plansOnly_dies (u.plansOnly_kick _ _)) _ _).trans
    (dies_foldl _ (fun u (c : EngCmd) => u.setQueue_dies c.cas c.queue (c :: u.queue c.cas c.queue)) _ _)

/-- Contexts that take up what waited for their weight change no register of a die (R59, R407, R442). -/
theorem keepsDieRegs_weighted (s : State) (d : Nat) : s.keepsDieRegs (s.weighted d) := by
  unfold weighted
  refine keepsDieRegs_trans (keepsDieRegs_trans (t := s.planNow (.pop d)) (keepsDieRegs_of_dies rfl)
    (keepsDieRegs_foldl _ (fun u e => ?_) _ _)) (keepsDieRegs_foldl _ (fun u x => ?_) _ _)
  · split
    · exact keepsDieRegs_ite (keepsDieRegs_orderNow u _ _) u.keepsDieRegs_refl
    · exact u.keepsDieRegs_refl
  · exact keepsDieRegs_ite (u.keepsDieRegs_resumeCmds d x) u.keepsDieRegs_refl

theorem keepsDieRegs_noteFull (s : State) (d : Nat) : s.keepsDieRegs (s.noteFull d) := s.keepsDieRegs_setDie d _ rfl rfl

theorem keepsDieRegs_traceDev (s : State) (d ty x c pay : Nat) : s.keepsDieRegs (s.traceDev d ty x c pay) :=
  keepsDieRegs_ite (keepsDieRegs_ite (s.keepsDieRegs_setDie d _ rfl rfl) (s.keepsDieRegs_setDie d _ rfl rfl))
    s.keepsDieRegs_refl

end State

end Sys2Proof.Machine
end

section
/-! SUPPORT. Control registers (R315 to R318): which writes are accepted, and what each leaves to be read. -/

namespace Sys2Proof.Machine

open State

/-! ## What is accepted -/

theorem ctlWhen_ok {a : CtlAcc} {ok : Bool} {s t : State} (h : ctlWhen a ok s = .ok t) : ok = true ∧ t = s := by
  cases ok with
  | false => cases h
  | true => cases h; exact ⟨rfl, rfl⟩

theorem ctlWhen_accepts {a : CtlAcc} {ok : Bool} {s : State} : (∃ t, ctlWhen a ok s = .ok t) ↔ ok = true := by
  cases ok <;> simp [ctlWhen]

/-! ## Values -/

/-- A value that its low bits hold is read back from them. -/
theorem zeroExtend_extractLsb'_of_lt {n : Nat} {v : Word} (h : v.toNat < 2 ^ n) : (v.extractLsb' 0 n).zeroExtend 64 = v := by
  apply BitVec.eq_of_toNat_eq
  rw [BitVec.zeroExtend, BitVec.toNat_setWidth, BitVec.extractLsb'_toNat, Nat.shiftRight_zero, Nat.mod_eq_of_lt h,
    Nat.mod_eq_of_lt v.isLt]

/-- The bits of a word from bit n on are zero where it is below 2 ^ n. -/
theorem extractLsb'_high_eq_zero {n m : Nat} (v : Word) (h : n + m = 64) : (v.extractLsb' n m == 0) = decide (v.toNat < 2 ^ n) := by
  have hq : v.toNat / 2 ^ n < 2 ^ m := Nat.div_lt_of_lt_mul (by rw [← Nat.pow_add, h]; exact v.isLt)
  rw [Bool.eq_iff_iff, beq_iff_eq, decide_eq_true_iff, ← BitVec.toNat_inj, BitVec.extractLsb'_toNat, Nat.shiftRight_eq_div_pow,
    Nat.mod_eq_of_lt hq]
  exact Nat.div_eq_zero_iff_lt (Nat.two_pow_pos n)

theorem isPa_eq (v : Word) : isPa v = decide (v.toNat < 2 ^ 52) := extractLsb'_high_eq_zero v rfl

theorem isVa_eq (v : Word) : isVa v = decide (v.toNat < 2 ^ 56) := extractLsb'_high_eq_zero v rfl

/-! ## The weights of contexts (R59, R81) -/

/-- Bytes written to eight entries of a map, one after the other. -/
theorem KMap.get_foldl_set (m : KMap Byte) (k : Nat) (v : Nat → Byte) (n j : Nat) (hj : j < n) (d : Byte) :
    ((List.range n).foldl (fun m j => m.set (k + j) (v j)) m).get (k + j) d = v j := by
  induction n with
  | zero => omega
  | succ n ih =>
    rw [List.range_succ, List.foldl_append, List.foldl_cons, List.foldl_nil]
    by_cases h : j = n
    · subst h
      exact KMap.get_set_self _ _ _ _
    · rw [KMap.get_set_other _ _ _ _ _ (by omega)]
      exact ih (by omega)

/-- The bytes of a word, low first, are the word. -/
theorem ofNat_leNat_extractLsb' (v : Word) :
    BitVec.ofNat 64 (leNat ((List.range 8).map (fun j => v.extractLsb' (8 * j) 8))) = v := by
  apply BitVec.eq_of_toNat_eq
  have hv := v.isLt
  simp [leNat, List.range_succ, BitVec.extractLsb'_toNat, Nat.shiftRight_eq_div_pow]
  omega

/-! ## Registers that do more than hold the word written, as they read back -/

namespace State

variable {s t : State} {a : CtlAcc}

theorem readsBack_evsel {k : Nat} (h : s.ctlPut a (.evsel k) = .ok t) : t.ctlGet (.evsel k) a.inst a.ctx a.index = a.data := by
  obtain ⟨hok, rfl⟩ := ctlWhen_ok h
  have hlt : a.data.toNat < 2 ^ 16 := of_decide_eq_true (Bool.and_eq_true_iff.1 hok).1
  simp only [ctlGet, core_setCore_self, KMap.get_set_self]
  exact zeroExtend_extractLsb'_of_lt hlt

/-- ctl.SPOWN leaves its core under the context, with mask and debug registers 0 (R84, R294, R359). -/
theorem core_writeSpown (h : s.ctlPut a .spown = .ok t) : t.core a.inst = { s.core a.inst with
    spown := a.data.extractLsb' 0 6, mask := 0, dctl := 0, ibp := [], dwa := [], dwc := [], halted := false, reason := 0
    step := .none, haltReq := none, skipBp := false, stepCtx := 0 } := by
  obtain ⟨-, rfl⟩ := ctlWhen_ok h
  dsimp only
  generalize hu : (s.setCore a.inst { s.core a.inst with spown := a.data.extractLsb' 0 6, mask := 0 }).clearDebug a.inst = u
  have hcore : (u.freed a.inst).core a.inst = u.core a.inst := by rw [core, plansOnly_cores (u.plansOnly_freed a.inst), core]
  have hplan : ∀ (b : Bool) (i : Instr), (if b then u.freed a.inst else (u.freed a.inst).planNow i).core a.inst = u.core a.inst :=
    fun b i => by cases b <;> exact hcore
  rw [hplan, ← hu, clearDebug, core_setCore_self, core_setCore_self]

theorem readsBack_spown (h : s.ctlPut a .spown = .ok t) : t.ctlGet .spown a.inst a.ctx a.index = a.data := by
  obtain ⟨hok, -⟩ := ctlWhen_ok h
  have hlt : a.data.toNat < 2 ^ 6 := of_decide_eq_true (Bool.and_eq_true_iff.1 hok).1
  simp only [ctlGet, core_writeSpown h]
  exact zeroExtend_extractLsb'_of_lt hlt

/-! ### Registers of a cassette -/

@[simp] theorem cas_planNow (s : State) (i : Instr) (k : Nat) : (s.planNow i).cas k = s.cas k := rfl

theorem readsBack_l1co (h : s.ctlPut a .l1co = .ok t) : t.ctlGet .l1co a.inst a.ctx a.index = a.data := by
  obtain ⟨hok, rfl⟩ := ctlWhen_ok h
  simp only [ctlGet, cas_planNow, cas_setCas_self, Option.getD_some]
  exact zeroExtend_extractLsb'_of_lt (by simpa using hok)

theorem readsBack_wsarea (h : s.ctlPut a .wsarea = .ok t) : t.ctlGet .wsarea a.inst a.ctx a.index = a.data := by
  obtain ⟨hok, rfl⟩ := ctlWhen_ok h
  have hle : 1 ≤ a.data.toNat ∧ a.data.toNat ≤ 16 := by simpa using hok
  simp only [ctlGet, cas_planNow, cas_setCas_self, Option.getD_some]
  exact zeroExtend_extractLsb'_of_lt (by omega)

/-! ### Registers of a die -/

theorem readsBack_spawnq (h : s.ctlPut a .spawnq = .ok t) : t.ctlGet .spawnq a.inst a.ctx a.index = a.data := by
  obtain ⟨-, ht⟩ := ctlWhen_ok h
  have hdies : t.dies = (s.setDie (dieOf a.inst) { s.die (dieOf a.inst) with spawnq := a.data.toNat }).dies :=
    ht ▸ dies_foldl (fun (s : State) (e : Nat × Core) => s.settleForks e.1) (fun u e => u.settleForks_dies e.1) _ _
  have hdie : (t.die (dieOf a.inst)).spawnq = a.data.toNat := by rw [die, hdies, ← die, die_setDie_self]
  simp [ctlGet, hdie]

theorem readsBack_dspill (h : s.ctlPut a .dspill = .ok t) : t.ctlGet .dspill a.inst a.ctx a.index = a.data := by
  obtain ⟨hok, rfl⟩ := ctlWhen_ok h
  simp only [Bool.and_eq_true, beq_iff_eq, decide_eq_true_eq] at hok
  obtain ⟨⟨⟨hhigh, hmid⟩, hsize⟩, -⟩ := hok
  have hv : a.data.toNat / 2 ^ 24 % 4096 % 2 ^ 12 * 2 ^ 24 + a.data.toNat % 256 % 2 ^ 8 = a.data.toNat := by omega
  simp only [ctlGet, die_setDie_self, BitVec.toNat_ofNat, hv]
  simp

/-- The weights a write of ctl.CXWT leaves: its word's eight bytes (R59). -/
theorem cxwt_writeCxwt (h : s.ctlPut a .cxwt = .ok t) : (t.die (dieOf a.inst)).cxwt =
    (List.range 8).foldl (fun m j => m.set (8 * a.index + j) (a.data.extractLsb' (8 * j) 8)) (s.die (dieOf a.inst)).cxwt := by
  rw [← Except.ok.inj h, (keepsDieRegs_weighted _ _ _).1, die_setDie_self]

theorem readsBack_cxwt (h : s.ctlPut a .cxwt = .ok t) : t.ctlGet .cxwt a.inst a.ctx a.index = a.data := by
  simp only [ctlGet, cxwt_writeCxwt h]
  refine Eq.trans ?_ (ofNat_leNat_extractLsb' a.data)
  congr 2
  refine List.map_congr_left (fun j hj => ?_)
  exact KMap.get_foldl_set _ (8 * a.index) (fun j => a.data.extractLsb' (8 * j) 8) 8 j (List.mem_range.1 hj) 16

theorem readsBack_trctl (h : s.ctlPut a .trctl = .ok t) : t.ctlGet .trctl a.inst a.ctx a.index = a.data := by
  obtain ⟨-, rfl⟩ := ctlWhen_ok h
  dsimp only [ctlGet]
  split
  · rw [(keepsDieRegs_traceDev _ _ _ _ _ _ _).2, (keepsDieRegs_noteFull _ _ _).2, die_setDie_self, die_setDie_self]
  · rw [die_setDie_self]

/-! ### Registers of a context -/

/-- A register whose write has no rule but its range is its context's (R317). -/
theorem readsBack_plain {r : CtlReg} (h : s.writePlain a r = .ok t) (hx : a.ctx = a.inst) :
    t.ctlGet r a.inst a.ctx a.index = a.data := by
  rw [hx]
  cases r
  case xmapcnt => cases h; simp [ctlGet]
  case ticketw | xmapbase | ptroot | rgntab | rgncnt | dettab | detn | syshdr =>
    obtain ⟨-, rfl⟩ := ctlWhen_ok h
    simp [ctlGet]
  all_goals cases h

/-- Every accepted write reads back, but for one of ctl.EVCNTk and of ctl.DETSTAT (R315). -/
theorem ctlPut_readsBack {r : CtlReg} (h : s.ctlPut a r = .ok t) (hd : r ≠ .detstat) (he : ∀ k, r ≠ .evcnt k)
    (hx : r.kind = .ctx → a.ctx = a.inst) : t.ctlGet r a.inst a.ctx a.index = a.data := by
  cases r
  case spown => exact readsBack_spown h
  case evsel k => exact readsBack_evsel h
  case evcnt k => exact absurd rfl (he k)
  case l1co => exact readsBack_l1co h
  case wsarea => exact readsBack_wsarea h
  case cxwt => exact readsBack_cxwt h
  case dspill => exact readsBack_dspill h
  case spawnq => exact readsBack_spawnq h
  case trctl => exact readsBack_trctl h
  case detstat => exact absurd rfl hd
  case rctab | inbmin | inbcap | patience | preemptwin | grptab | trring =>
    obtain ⟨-, rfl⟩ := ctlWhen_ok h
    simp [ctlGet, KMap.get_set_self]
  case detctl | captab | capcnt | fltch =>
    obtain ⟨-, rfl⟩ := ctlWhen_ok h
    simp [ctlGet, hx rfl]
  case actfc | bktab | cxrun => cases h
  case ticketw | xmapbase | xmapcnt | ptroot | rgntab | rgncnt | dettab | detn | syshdr => exact readsBack_plain h (hx rfl)

/-- Ones clear the bits of ctl.DETSTAT (R189). -/
theorem detstat_clears (h : s.ctlPut a .detstat = .ok t) (hx : a.ctx = a.inst) :
    t.ctlGet .detstat a.inst a.ctx a.index = s.ctlGet .detstat a.inst a.ctx a.index &&& ~~~a.data := by
  obtain ⟨-, rfl⟩ := ctlWhen_ok h
  simp [ctlGet, hx]

end State

/-- Settles O48: read-back register by register, and each range as the condition of its write. -/
theorem controlRegisterWrites : Obligations.ControlRegisterWrites := by
  unfold Obligations.ControlRegisterWrites
  refine ⟨fun s t a r => ctlPut_readsBack, fun s t a => detstat_clears, fun s a => ?_⟩
  refine ⟨ctlWhen_accepts.trans ?patience, ctlWhen_accepts.trans ?preemptwin, ctlWhen_accepts.trans ?spawnq,
    ctlWhen_accepts.trans ?rgncnt, ctlWhen_accepts.trans ?detn, ctlWhen_accepts.trans ?capcnt, ctlWhen_accepts.trans ?l1co,
    ctlWhen_accepts.trans ?wsarea, ctlWhen_accepts.trans ?ptroot, ctlWhen_accepts.trans ?syshdr,
    ctlWhen_accepts.trans ?spown, fun t h => ?cleared, ?readOnly⟩
  case patience | preemptwin | spawnq | rgncnt | detn | capcnt | wsarea => exact decide_eq_true_iff
  case l1co => exact decide_eq_true_iff.trans Nat.lt_succ_iff
  case ptroot => rw [isPa_eq]; simp
  case syshdr => rw [isVa_eq]; simp
  case spown => simp
  case cleared => rw [core_writeSpown h]; exact ⟨rfl, rfl, rfl, rfl, rfl, rfl⟩
  case readOnly =>
    intro r hr
    simp only [List.mem_cons, List.not_mem_nil, or_false] at hr
    rcases hr with rfl | rfl | rfl <;> rfl

end Sys2Proof.Machine
end

section
/-! SUPPORT. The state after reset (R81, R106, R189, R316 to R318, R459): no unit is written out, so each has its own defaults. -/

namespace Sys2Proof.Machine

open State

namespace State

@[simp] theorem reset_core (c : Nat) : reset.core c = Core.reset := rfl
@[simp] theorem reset_cas (k : Nat) : reset.cas k = Cas.reset := rfl
@[simp] theorem reset_die (d : Nat) : reset.die d = Die.reset := rfl
@[simp] theorem reset_pkg (p : Nat) : reset.pkg p = Pkg.reset := rfl
@[simp] theorem reset_ctx (x : Nat) : reset.ctx x = Ctx.reset := rfl

/-- Nothing is written yet: a byte reads as one that memory does not list. -/
theorem reset_byte (k : Nat) : reset.byte k = unlisted [] k := rfl

/-- No firing counts in ctl.CXRUN after reset (R317). -/
theorem reset_counted (d x : Nat) : reset.counted d x = 0 := rfl

end State

/-- Before any change of ctl.L1CO a byte outside the CXL tier that is not written is zero (R82, R459). -/
theorem unlisted_nil_eq_zero {k : Nat} (h : k < cxlBase ∨ sliceBase ≤ k) : unlisted [] k = 0 := by
  unfold unlisted
  rcases h with h | h
  · exact if_pos h
  · have hc : ¬k < cxlBase := Nat.not_lt.2 (Nat.le_trans (by decide) h)
    rw [if_neg hc, if_neg (Nat.not_lt.2 h)]
    rfl

/-- A word of ctl.CXWT after reset: weight 16 for each context (R59, R81). -/
theorem reset_cxwt (c x i : Nat) : State.reset.ctlGet .cxwt c x i = 0x1010101010101010 := by
  show BitVec.ofNat 64 (leNat ((List.range 8).map (fun _ => (16 : Byte)))) = 0x1010101010101010
  decide

/-- The spill area after reset: 4 units from 0xBFC on (R318). -/
theorem reset_dspill (c x i : Nat) : State.reset.ctlGet .dspill c x i = 0xBFC000004 := by
  simp only [ctlGet, reset_die]
  decide

/-- Settles O55: memory as unlisted_nil_eq_zero, each register as its unit's defaults. -/
theorem resetValues : Obligations.ResetValues := by
  unfold Obligations.ResetValues
  refine ⟨fun p => ⟨rfl, rfl, rfl⟩, fun k hk => (reset_byte k).trans (unlisted_nil_eq_zero hk), fun c x i => ?_⟩
  refine ⟨fun n _ => ⟨rfl, rfl⟩, rfl, rfl, rfl, rfl, rfl, reset_cxwt c x i,
    reset_dspill c x i, rfl, rfl, ?_⟩
  intro r hr
  simp only [List.mem_cons, List.not_mem_nil, or_false] at hr
  obtain rfl | rfl | rfl | rfl | rfl | rfl | rfl | rfl | rfl | rfl | rfl | rfl | rfl | rfl | rfl | rfl | rfl | rfl | rfl := hr
  all_goals rfl

end Sys2Proof.Machine
end

section
/-! SUPPORT. Cache control and ordering (R259 to R263): the address of a memory operand, and how each form completes. -/

namespace Sys2Proof.Machine

/-- An instruction that issues and whose body meets no fault completes with the body's effect (R195). -/
theorem withGuard_completes {s t : State} {hd : Head} {body : State → Res State} (hi : s.issues hd)
    (hb : body s = .ok t) : withGuard s hd body = s.completes t := by
  obtain ⟨hr, hg⟩ := hi
  exact withGuard_ok hr hg hb

/-- A memory operand's address is the sum of its base and its offset (R199, R251). -/
theorem memEa_ok {s : State} {x : Mem} {a b : Word} (ha : s.src64 x.a = .ok a) (hb : s.src64 x.b = .ok b) :
    memEa s x = .ok (a + b).toNat := by
  simp only [memEa, State.addr, ha, hb]
  rfl

/-- An instruction with an address alone, whose operands can be read, completes with what it does at that address. -/
theorem withGuard_memEa {s t : State} {x : Mem} {ea : Nat} {body : Nat → State → Res State} (hi : s.issues x.hd)
    (ho : s.needOpnds [x.a, x.b] = .ok ()) (he : memEa s x = .ok ea) (hb : body ea s = .ok t) :
    withGuard s x.hd (fun s => do
      s.needOpnds [x.a, x.b]
      let ea ← memEa s x
      body ea s) = s.completes t := by
  refine withGuard_completes hi ?_
  simp only [ho, he, bind, Except.bind, hb]

theorem exec_fence {s : State} {x : Mem} (hi : s.issues x.hd) (hw : fenceWaits x s = false) :
    exec (.fence x) s = s.completes (if x.ord = .rel then s else s.acquire s.cur x.scope) :=
  (notYet_go hw).trans (withGuard_completes hi (by simp only [beq_iff_eq]))

theorem exec_lbf {s : State} {x : Mem} (hi : s.issues x.hd) (hw : lbfWaits s = false) :
    exec (.lbf x) s = s.completes (s.setCore s.cur { s.core s.cur with windows := [] }) :=
  (notYet_go hw).trans (withGuard_completes hi rfl)

/-- A cassette discards its copy of a line and any fill of it under way (R263). -/
def State.discardLine (s : State) (k line : Nat) : State :=
  { s.setCas k { s.cas k with
      lines := (s.cas k).lines.filter (fun l => l.line != line), streams := (s.cas k).streams.erase line } with
    agenda := s.agenda.filter (fun e => e.2 != .l1Fill k line) }

theorem State.discardLine_lines (s : State) (k line : Nat) :
    ((s.discardLine k line).cas k).lines = (s.cas k).lines.filter (fun l => l.line != line) :=
  congrArg Cas.lines (s.cas_setCas_self k _)

section
variable {s : State} {x : Mem} {ea : Nat} (hi : s.issues x.hd) (ho : s.needOpnds [x.a, x.b] = .ok ()) (he : memEa s x = .ok ea)
include hi ho he

theorem exec_cwb_window (hw : ea / 2 ^ 55 = 1) : exec (.cwb x) s = s.completes s := by
  show execCwb x s = _
  exact withGuard_memEa hi ho he (if_pos hw)

theorem exec_cwb_slice {c off : Nat} {w : Bool} (hl : s.whereAt s.cur s.cctx ea 1 .load = .ok (.slice c off w)) :
    exec (.cwb x) s = s.completes s := by
  by_cases hw : ea / 2 ^ 55 = 1
  · exact exec_cwb_window hi ho he hw
  · show execCwb x s = _
    refine withGuard_memEa hi ho he ((if_neg hw).trans ?_)
    rw [hl]; rfl

theorem exec_cwb_phys {q : Seg} {r : List Seg} (hl : s.whereAt s.cur s.cctx ea 1 .load = .ok (.phys (q :: r)))
    (hw : ea / 2 ^ 55 ≠ 1) : exec (.cwb x) s
      = s.completes (((s.noteLoc (casOf s.cur) (.phys [q])).countIssue s.cur).post
          (.wback s.cur s.cctx ea (q.key / 128) (s.core s.cur).issued) .lineWriteback) := by
  show execCwb x s = _
  refine withGuard_memEa hi ho he ((if_neg hw).trans ?_)
  rw [hl]; rfl

theorem exec_cinv_phys {q : Seg} {r : List Seg} (hl : s.whereAt s.cur s.cctx ea 1 .load = .ok (.phys (q :: r))) :
    exec (.cinv x) s = s.completes (s.discardLine (casOf s.cur) (q.key / 128)) := by
  show execCinv x s = _
  refine withGuard_memEa hi ho he ?_
  simp only [hl]
  rfl

theorem exec_pref_phys {q : Seg} {r : List Seg} (hl : s.whereAt s.cur s.cctx ea 1 .load = .ok (.phys (q :: r))) :
    let n := s.noteLoc (casOf s.cur) (.phys [q])
    exec (.pref x) s = s.completes (
      if q.cached ∧ x.ccls.toNat ≤ 1 ∧ (n.cas (casOf s.cur)).l1co ≠ 0 ∧ n.l1Line s.cur q.key = none
      then n.askFill (casOf s.cur) (q.key / 128) x.ccls
      else n) := by
  show execPref x s = _
  refine withGuard_memEa hi ho he ?_
  simp only [hl, Bool.and_eq_true, decide_eq_true_eq, bne_iff_ne, ne_eq, Option.isNone_iff_eq_none, and_assoc]

/-- Of an address that is not translated memory, cinv and pref do nothing (R259, R263). -/
theorem exec_cinv_pref_of_not_phys (hl : ∀ q r, s.whereAt s.cur s.cctx ea 1 .load ≠ .ok (.phys (q :: r))) :
    exec (.cinv x) s = s.completes s ∧ exec (.pref x) s = s.completes s := by
  constructor
  · show execCinv x s = _
    refine withGuard_memEa hi ho he ?_
    dsimp only
    split
    · next q r h => exact absurd h (hl q r)
    · rfl
  · show execPref x s = _
    refine withGuard_memEa hi ho he ?_
    dsimp only
    split
    · next q r h => exact absurd h (hl q r)
    · rfl

end

/-- Settles O19: each form completes as its exec lemma says. -/
theorem cacheControl : Obligations.CacheControl := by
  refine ⟨fun s x => exec_fence, fun s x => exec_lbf, fun s x a b hi ho ha hb => ?_⟩
  have he := memEa_ok ha hb
  refine ⟨fun q r hl => ⟨exec_cwb_phys hi ho he hl,
      ⟨_, exec_cinv_phys hi ho he hl, rfl, s.discardLine_lines _ _, rfl⟩, exec_pref_phys hi ho he hl⟩,
    fun e hl => exec_cinv_pref_of_not_phys hi ho he (by rw [hl]; nofun), exec_cwb_window hi ho he, fun c off w hl => ?slice⟩
  case slice =>
    obtain ⟨hcinv, hpref⟩ := exec_cinv_pref_of_not_phys hi ho he (by rw [hl]; nofun)
    exact ⟨hcinv, hpref, exec_cwb_slice hi ho he hl⟩

end Sys2Proof.Machine
end

section
/-! SUPPORT. The queues of the engines (R164, R304, R440, R442): the commands of a queue and the one performed after each
update, what a kick, a notice and a trace record leave of them, and what each step of a queue answers. -/

namespace Sys2Proof.Machine

namespace State

/-! ## The commands of a queue -/

@[simp] theorem queue_setQueue_self (s : State) (k q : Nat) (l : List EngCmd) : (s.setQueue k q l).queue k q = l := by
  simp [setQueue, queue, KMap.get_set_self]

theorem queue_setQueue_other (s : State) (k : Nat) {q r : Nat} (l : List EngCmd) (h : r ≠ q) :
    (s.setQueue k q l).queue k r = s.queue k r := by
  simp [setQueue, queue, KMap.get_set_other _ _ _ _ _ h]

theorem headCmd_eq_some {s : State} {k q : Nat} {c : EngCmd} :
    s.headCmd k q = some c ↔ (s.pkg (k / 4096)).st = 0x03 ∧ (s.queue k q).head? = some c := by
  simp [headCmd]

/-- The command a queue performs is replaced: the queue performs the new one. -/
theorem headCmd_setHead {s : State} {k q : Nat} {c : EngCmd} (e : EngCmd) (h : s.headCmd k q = some c) :
    (s.setHead k q e).headCmd k q = some e := by
  obtain ⟨hst, -⟩ := headCmd_eq_some.1 h
  exact headCmd_eq_some.2 ⟨hst, by simp [setHead]⟩

/-! ## What keeps the queues -/

/-- Cassettes, packages and time are the same, and so is every queue with the command it performs. -/
def keepsQueues (s t : State) : Prop := t.cass = s.cass ∧ t.pkgs = s.pkgs ∧ t.time = s.time

theorem keepsQueues_refl (s : State) : s.keepsQueues s := ⟨rfl, rfl, rfl⟩

theorem keepsQueues_trans {s t u : State} (h1 : s.keepsQueues t) (h2 : t.keepsQueues u) : s.keepsQueues u := by
  obtain ⟨hc, hp, ht⟩ := h1
  obtain ⟨hc', hp', ht'⟩ := h2
  exact ⟨hc'.trans hc, hp'.trans hp, ht'.trans ht⟩

theorem keepsQueues_plansOnly {s t : State} (h : s.plansOnly t) : s.keepsQueues t := by
  rw [h]
  exact ⟨rfl, rfl, rfl⟩

theorem keepsQueues_memoryOnly {s t : State} (h : s.memoryOnly t) : s.keepsQueues t := by
  rw [h]
  exact ⟨rfl, rfl, rfl⟩

theorem keepsQueues_queue {s t : State} (h : s.keepsQueues t) (k q : Nat) : t.queue k q = s.queue k q := by
  obtain ⟨hc, -, -⟩ := h
  simp only [queue, cas, hc]

theorem keepsQueues_headCmd {s t : State} (h : s.keepsQueues t) (k q : Nat) : t.headCmd k q = s.headCmd k q := by
  have hq := keepsQueues_queue h k q
  obtain ⟨-, hp, -⟩ := h
  have hp' : t.pkg (k / 4096) = s.pkg (k / 4096) := by simp only [pkg, hp]
  rw [headCmd, headCmd, hp', hq]

theorem keepsQueues_time {s t : State} (h : s.keepsQueues t) : t.time = s.time := by
  obtain ⟨-, -, ht⟩ := h
  exact ht

theorem plansOnly_mem {s t : State} (h : s.plansOnly t) : t.mem = s.mem := by rw [h]

theorem keepsQueues_kick (s : State) (k q : Nat) : s.keepsQueues (s.kick k q) := keepsQueues_plansOnly (s.plansOnly_kick k q)

@[simp] theorem kick_mem (s : State) (k q : Nat) : (s.kick k q).mem = s.mem := plansOnly_mem (s.plansOnly_kick k q)

@[simp] theorem kick_die (s : State) (k q d : Nat) : (s.kick k q).die d = s.die d := by
  simp only [die, plansOnly_dies (s.plansOnly_kick k q)]

@[simp] theorem headCmd_kick (s : State) (k q k' q' : Nat) : (s.kick k q).headCmd k' q' = s.headCmd k' q' :=
  keepsQueues_headCmd (s.keepsQueues_kick k q) k' q'

@[simp] theorem queue_kick (s : State) (k q k' q' : Nat) : (s.kick k q).queue k' q' = s.queue k' q' :=
  keepsQueues_queue (s.keepsQueues_kick k q) k' q'

theorem memoryOnly_foldl {α : Type} (f : State → α → State) (h : ∀ (s : State) a, s.memoryOnly (f s a)) (l : List α) (s : State) :
    s.memoryOnly (l.foldl f s) := by
  induction l generalizing s with
  | nil => rfl
  | cons a l ih => exact memoryOnly_trans (h s a) (ih _)

theorem memoryOnly_soil (s : State) (key : Nat) (cls : BitVec 2) : s.memoryOnly (s.soil key cls) := by
  unfold memoryOnly
  rw [soil_mem]
  exact s.soil_eq key cls

theorem memoryOnly_setBytes (s : State) (key : Nat) (data : List Byte) : s.memoryOnly (s.setBytes key data) := by
  unfold memoryOnly
  rw [setBytes_eq]

/-- A write at its home changes memory and the marks of its lines alone (R94). -/
theorem memoryOnly_writeHome (s : State) (key : Nat) (data : List Byte) : s.memoryOnly (s.writeHome key data) :=
  memoryOnly_trans (s.memoryOnly_setBytes key data) (memoryOnly_foldl _ (fun u _ => u.memoryOnly_soil _ _) _ _)

theorem keepsQueues_publish (s : State) (c x : Nat) (d : Desc) (i : BitVec 32) (h : Nat × Nat) :
    s.keepsQueues (s.publish c x d i h) := by
  unfold publish
  split
  · exact s.keepsQueues_refl
  · exact keepsQueues_trans (keepsQueues_memoryOnly (s.memoryOnly_writeHome _ _)) ⟨rfl, rfl, rfl⟩

theorem keepsQueues_writeRecord {s t : State} {near core x : Nat} {ws : List Nat} (h : s.writeRecord near core x ws = some t) :
    s.keepsQueues t := by
  unfold writeRecord at h
  split at h
  · cases h
  · split at h
    · cases h
    · split at h
      · cases h
      · cases h
        refine keepsQueues_trans (keepsQueues_memoryOnly ?_) (keepsQueues_publish _ _ _ _ _ _)
        exact memoryOnly_trans (memoryOnly_writeHome _ _ _) (memoryOnly_writeHome _ _ _)

/-- A notice is written into a fault channel or waits in its die; no queue changes (R401, R403). -/
theorem keepsQueues_notice (s : State) (near core x cls addr info pc hdr : Nat) :
    s.keepsQueues (s.notice near core x cls addr info pc hdr) := by
  unfold notice
  dsimp only
  split
  · exact s.keepsQueues_refl
  · split
    · exact ⟨rfl, rfl, rfl⟩
    · cases h : s.writeRecord near core x _ with
      | none => exact ⟨rfl, rfl, rfl⟩
      | some t => exact keepsQueues_writeRecord h

/-- Nothing but the cassettes differs. -/
def cassOnly (s t : State) : Prop := t = { s with cass := t.cass }

theorem cassOnly_foldl {α : Type} (f : State → α → State) (h : ∀ (s : State) a, s.cassOnly (f s a)) (l : List α) (s : State) :
    s.cassOnly (l.foldl f s) := by
  induction l generalizing s with
  | nil => rfl
  | cons a l ih =>
    have h1 := h s a
    have h2 := ih (f s a)
    unfold cassOnly at *
    rw [List.foldl_cons, h2, h1]

/-- What a command tells its sync word is a message and its step (R101, R102). -/
theorem tell_eq (s : State) (c : EngCmd) (arr bytes : Nat) : s.tell c arr bytes
    = { s with
        msgs := (s.tell c arr bytes).msgs, agenda := (s.tell c arr bytes).agenda, nextTag := (s.tell c arr bytes).nextTag } := by
  unfold tell
  split <;> rfl

/-- The record of a command that is done changes its die and what is planned (R372). -/
theorem traceDone_eq (s : State) (k : Nat) (c : EngCmd) : s.traceDone k c
    = { s with dies := (s.traceDone k c).dies, agenda := (s.traceDone k c).agenda } := by
  unfold traceDone traceDev
  dsimp only
  repeat' split
  all_goals rfl

/-! ## The steps planned for a queue -/

theorem mem_agenda_planIf {s : State} {p : Prop} [Decidable p] {e : Nat × Instr} (i : Instr) (h : e ∈ s.agenda) :
    e ∈ (if p then s.planNow i else s).agenda := by
  split
  · simp [h]
  · exact h

/-- A kick leaves every planned step that is not a step of its queue. -/
theorem mem_agenda_kick {s : State} {k q : Nat} {e : Nat × Instr} (h : e ∈ s.agenda) (hq : isQueueStep k q e.2 = false) :
    e ∈ (s.kick k q).agenda := by
  unfold kick
  refine mem_agenda_planIf _ (mem_agenda_planIf _ ?_)
  repeat' split
  all_goals simp [h, hq]

/-- The engine tries a held command again 65,536 ck later (R440). -/
theorem kick_plans_rewalk {s : State} {k q : Nat} {c : EngCmd} (h : s.headCmd k q = some c) (hh : c.held = true) :
    (s.time.toNat + 65536, Instr.engineRewalk k q) ∈ (s.kick k q).agenda := by
  unfold kick
  refine mem_agenda_planIf _ (mem_agenda_planIf _ ?_)
  have h' : headCmd { s with agenda := s.agenda.filter (fun e => !isQueueStep k q e.2) } k q = some c := h
  simp [h', hh]

/-! ## What is sent -/

/-- The messages are the same, and every planned step that is not a step of an engine's queue is still planned. -/
def keepsSent (s t : State) : Prop :=
  t.msgs = s.msgs ∧ ∀ e ∈ s.agenda, (∀ k q, isQueueStep k q e.2 = false) → e ∈ t.agenda

theorem keepsSent_refl (s : State) : s.keepsSent s := ⟨rfl, fun _ h _ => h⟩

theorem keepsSent_trans {s t u : State} (h1 : s.keepsSent t) (h2 : t.keepsSent u) : s.keepsSent u := by
  obtain ⟨hm, ha⟩ := h1
  obtain ⟨hm', ha'⟩ := h2
  exact ⟨hm'.trans hm, fun e he hq => ha' e (ha e he hq) hq⟩

theorem keepsSent_foldl {α : Type} (f : State → α → State) (h : ∀ (s : State) a, s.keepsSent (f s a)) (l : List α) (s : State) :
    s.keepsSent (l.foldl f s) := by
  induction l generalizing s with
  | nil => exact s.keepsSent_refl
  | cons a l ih => exact keepsSent_trans (h s a) (ih _)

theorem keepsSent_kick (s : State) (k q : Nat) : s.keepsSent (s.kick k q) :=
  ⟨by rw [s.plansOnly_kick k q], fun _ he hq => mem_agenda_kick he (hq k q)⟩

theorem keepsSent_traceDone (s : State) (k : Nat) (c : EngCmd) : s.keepsSent (s.traceDone k c) := by
  unfold traceDone traceDev
  dsimp only
  repeat' split
  · exact s.keepsSent_refl
  · exact ⟨rfl, fun e he _ => by simp [he]⟩
  · exact s.keepsSent_refl

theorem sent_post {s u : State} (m : Msg) (mk : Nat → Instr) (hn : u.nextTag = s.nextTag) (ht : u.time = s.time) :
    s.sent (u.post m mk) m mk := by
  unfold sent
  rw [← hn, ← ht]
  exact ⟨KMap.find_set_self _ _ _, by simp⟩

theorem sent_of_keepsSent {s t u : State} {m : Msg} {mk : Nat → Instr} (h : s.sent t m mk) (hk : t.keepsSent u)
    (hq : ∀ n k q, isQueueStep k q (mk n) = false) : s.sent u m mk := by
  obtain ⟨hm, ha⟩ := h
  obtain ⟨hm', ha'⟩ := hk
  exact ⟨by rw [msg?, hm']; exact hm, ha' _ ha (hq _)⟩

/-! ## Commands that arrive (R304, R345) -/

/-- A command enters a queue of its cassette, whose engine may take it up at once. -/
def enterQueue (s : State) (c : EngCmd) (q : Nat) : State :=
  let t := s.setQueue c.cas q (s.queue c.cas q ++ [{ c with queue := q }])
  if (s.queue c.cas q).isEmpty || (q = 0 && (t.earlyLoad c.cas).any (fun e => e.2.id == c.id)) then t.kick c.cas q else t

theorem plansOnly_enterQueue (s : State) (c : EngCmd) (q : Nat) :
    (s.setQueue c.cas q (s.queue c.cas q ++ [{ c with queue := q }])).plansOnly (s.enterQueue c q) :=
  plansOnly_ite (plansOnly_kick _ _ _) (plansOnly_refl _)

theorem queue_enterQueue (s : State) (c : EngCmd) (q : Nat) :
    (s.enterQueue c q).queue c.cas q = s.queue c.cas q ++ [{ c with queue := q }] :=
  (keepsQueues_queue (keepsQueues_plansOnly (s.plansOnly_enterQueue c q)) _ _).trans (s.queue_setQueue_self _ _ _)

/-- The answer to a command that its queues have taken or refused, with the trace record its arrival completes (R304, R372). -/
def replyCmd (s : State) (tag : Nat) (c : EngCmd) (refused : Bool) : State :=
  s.reply tag (c.cas * 8) c.core refused [] (some (7, c.eop * 2 ^ 56 + c.queue * 2 ^ 53 + (c.cas * 8) * 2 ^ 29))

/-- A qfence leaves the heads of queues. -/
def dropHeads (s : State) (k : Nat) (qs : List Nat) : State := qs.foldl (fun s q => s.setQueue k q ((s.queue k q).drop 1)) s

theorem queue_dropHeads_of_not_mem (s : State) (k : Nat) {qs : List Nat} {q : Nat} (h : q ∉ qs) :
    (s.dropHeads k qs).queue k q = s.queue k q := by
  induction qs generalizing s with
  | nil => rfl
  | cons r qs ih =>
    obtain ⟨hr, hqs⟩ : q ≠ r ∧ q ∉ qs := by simpa using h
    exact (ih _ hqs).trans (s.queue_setQueue_other k _ hr)

theorem queue_dropHeads (s : State) (k : Nat) {qs : List Nat} {q : Nat} (hn : qs.Nodup) (h : q ∈ qs) :
    (s.dropHeads k qs).queue k q = (s.queue k q).drop 1 := by
  induction qs generalizing s with
  | nil => cases h
  | cons r qs ih =>
    obtain ⟨hr, hqs⟩ := List.nodup_cons.1 hn
    rcases List.mem_cons.1 h with rfl | h
    · exact (queue_dropHeads_of_not_mem _ k hr).trans (s.queue_setQueue_self k q _)
    · have hne : q ≠ r := fun e => hr (e ▸ h)
      rw [← s.queue_setQueue_other k ((s.queue k r).drop 1) hne]
      exact ih _ hqs h

theorem cassOnly_dropHeads (s : State) (k : Nat) (qs : List Nat) : s.cassOnly (s.dropHeads k qs) :=
  cassOnly_foldl (fun s q => s.setQueue k q ((s.queue k q).drop 1)) (fun _ _ => rfl) qs s

/-- The queues of a cassette at whose head a qfence stands (R310). -/
def fencedQueues (s : State) (k : Nat) (c : EngCmd) : List Nat :=
  (List.range 5).filter (fun q => (s.headCmd k q).any (fun e => e.id == c.id))

theorem mem_fencedQueues {s : State} {k q : Nat} {c e : EngCmd} (hq : q < 5) (he : s.headCmd k q = some e) (hi : e.id = c.id) :
    q ∈ s.fencedQueues k c := by
  simp [fencedQueues, hq, he, hi]

theorem fencedQueues_nodup (s : State) (k : Nat) (c : EngCmd) : (s.fencedQueues k c).Nodup :=
  List.Pairwise.filter _ List.nodup_range

/-- A qfence is done: it leaves its queues, its sync word hears of it, and the queues go on (R304, R310). -/
def fenceDone (s : State) (k : Nat) (c : EngCmd) : State :=
  (s.fencedQueues k c).foldl (fun s q => s.kick k q)
    (((s.dropHeads k (s.fencedQueues k c)).tell c 1 0).traceDone k { c with queue := 0 })

theorem sent_fenceDone (s : State) (k : Nat) {c : EngCmd} (h : c.sync ≠ 0) :
    s.sent (s.fenceDone k c) (.sync (c.cas * 8) (c.sync / 2 ^ 31 % 2 ^ 24) (c.sync % 2 ^ 19) 1 0 none) .syncWordUpdate := by
  have ht : s.sent ((s.dropHeads k (s.fencedQueues k c)).tell c 1 0)
      (.sync (c.cas * 8) (c.sync / 2 ^ 31 % 2 ^ 24) (c.sync % 2 ^ 19) 1 0 none) .syncWordUpdate := by
    rw [tell, if_neg h]
    refine sent_post _ _ ?_ ?_ <;> rw [s.cassOnly_dropHeads k]
  refine sent_of_keepsSent ht (keepsSent_trans (keepsSent_traceDone _ k { c with queue := 0 }) ?_) (fun _ _ _ => rfl)
  exact keepsSent_foldl _ (fun u q => u.keepsSent_kick k q) _ _

/-- What a qfence tells and records, and the kicks of its queues, leave every queue and memory as they are. -/
theorem fenceDone_keeps (s : State) (k : Nat) (c : EngCmd) :
    (s.dropHeads k (s.fencedQueues k c)).keepsQueues (s.fenceDone k c)
      ∧ (s.fenceDone k c).mem = (s.dropHeads k (s.fencedQueues k c)).mem := by
  have hkicks : (((s.dropHeads k (s.fencedQueues k c)).tell c 1 0).traceDone k { c with queue := 0 }).plansOnly
      (s.fenceDone k c) :=
    plansOnly_foldl _ (fun u q => u.plansOnly_kick k q) _ _
  rw [hkicks, traceDone_eq, tell_eq]
  exact ⟨⟨rfl, rfl, rfl⟩, rfl⟩

theorem queue_fenceDone {s : State} {k q : Nat} {c : EngCmd} (h : q ∈ s.fencedQueues k c) :
    (s.fenceDone k c).queue k q = (s.queue k q).drop 1 := by
  obtain ⟨hkeeps, -⟩ := s.fenceDone_keeps k c
  exact (keepsQueues_queue hkeeps k q).trans (s.queue_dropHeads k (s.fencedQueues_nodup k c) h)

theorem fenceDone_mem (s : State) (k : Nat) (c : EngCmd) : (s.fenceDone k c).mem = s.mem := by
  obtain ⟨-, hmem⟩ := s.fenceDone_keeps k c
  rw [hmem, s.cassOnly_dropHeads k]

/-! ## Commands that are saved and resumed (R442) -/

/-- The commands of a context in a queue are saved with their progress, and its stop is answered. -/
def saveCmds (s : State) (k q x : Nat) : State :=
  let t := s.setCas k { s.cas k with stops := (s.cas k).stops.filter (fun e => e.1 != q) }
  let u := t.setQueue k q ((t.queue k q).filter (fun c => c.ctx != x))
  u.setDie (k / 256) { u.die (k / 256) with savedCmds := (u.die (k / 256)).savedCmds
    ++ ((t.queue k q).filter (fun c => c.ctx == x)).map (fun c => { c with held := false, act := [], queue := q }) }

/-- The stops of a cassette are not in its queues. -/
theorem queue_setCas_stops (s : State) (k q : Nat) (l : List (Nat × Nat)) :
    (s.setCas k { s.cas k with stops := l }).queue k q = s.queue k q := by
  simp only [queue, cas_setCas_self]

theorem queue_saveCmds (s : State) (k q x : Nat) :
    (s.saveCmds k q x).queue k q = (s.queue k q).filter (fun c => c.ctx != x) := by
  refine (queue_setQueue_self _ k q _).trans ?_
  rw [queue_setCas_stops]

theorem savedCmds_saveCmds (s : State) (k q x : Nat) : ((s.saveCmds k q x).die (k / 256)).savedCmds
    = (s.die (k / 256)).savedCmds
      ++ ((s.queue k q).filter (fun c => c.ctx == x)).map (fun c => { c with held := false, act := [], queue := q }) := by
  rw [saveCmds, die_setDie_self, queue_setCas_stops]
  rfl

/-- Commands that leave the saved ones change their die's saved commands, the queues of cassettes, and what is planned. -/
theorem resumeCmds_eq (s : State) (d x : Nat) : ∃ cs ag, s.resumeCmds d x
    = { s.setDie d { s.die d with savedCmds := (s.die d).savedCmds.filter (fun c => c.ctx != x) } with cass := cs, agenda := ag } := by
  have hkicks : ∀ (l : List EngCmd) (u : State), u.plansOnly (l.foldl (fun s c => s.kick c.cas c.queue) u) :=
    plansOnly_foldl _ (fun u c => u.plansOnly_kick c.cas c.queue)
  have hqueues : ∀ (l : List EngCmd) (u : State),
      u.cassOnly (l.foldl (fun s c => s.setQueue c.cas c.queue (c :: s.queue c.cas c.queue)) u) :=
    cassOnly_foldl _ (fun _ _ => rfl)
  unfold cassOnly at hqueues
  unfold plansOnly at hkicks
  unfold resumeCmds
  dsimp only
  rw [hkicks, hqueues]
  exact ⟨_, _, rfl⟩

end State

open State

section
variable {s : State} {tag mask : Nat} {c : EngCmd}

theorem exec_engineCommandArrival_stopped (hm : s.msg? tag = some (.eng c mask)) (hst : (s.pkg (c.cas / 4096)).st ≠ 0x03) :
    exec (.engineCommandArrival tag) s = .next s := by
  show execEngineCommandArrival tag s = _
  simp only [execEngineCommandArrival, hm, bne_iff_ne.2 hst, ↓reduceIte]

theorem exec_engineCommandArrival_refused (hm : s.msg? tag = some (.eng c mask)) (hst : (s.pkg (c.cas / 4096)).st = 0x03)
    (hr : releaseReady s tag c.core (spanScope c.core (c.cas * 8)) = true)
    (ha : (s.dropMsg tag).admits c.cas 1 ((maskQueues mask).map (· + 8)) = false) :
    exec (.engineCommandArrival tag) s = .next ((s.dropMsg tag).replyCmd tag c true) := by
  show execEngineCommandArrival tag s = _
  simp [execEngineCommandArrival, hm, hst, hr, ha, replyCmd]

theorem maskQueues_two_pow {q : Nat} (h : q < 5) : maskQueues (2 ^ q) = [q] := by
  revert q
  decide

theorem exec_engineCommandArrival_admitted {q : Nat} (hm : s.msg? tag = some (.eng c (2 ^ q))) (hq : q < 5)
    (hst : (s.pkg (c.cas / 4096)).st = 0x03) (hr : releaseReady s tag c.core (spanScope c.core (c.cas * 8)) = true)
    (ha : (s.dropMsg tag).admits c.cas 1 [q + 8] = true)
    (hs : (s.die (c.cas / 256)).savedCmds.any (fun p => p.cas == c.cas && p.queue == q && p.ctx == c.ctx) = false) :
    exec (.engineCommandArrival tag) s = .next (((s.dropMsg tag).enterQueue c q).replyCmd tag c false) := by
  have hs' : ((s.dropMsg tag).die (c.cas / 256)).savedCmds.any (fun p => p.cas == c.cas && p.queue == q && p.ctx == c.ctx)
      = false := hs
  show execEngineCommandArrival tag s = _
  simp only [execEngineCommandArrival, hm, hst, hr, maskQueues_two_pow hq, List.map_cons, List.map_nil, ha, List.foldl_cons,
    List.foldl_nil, hs']
  rfl

end

theorem exec_qfenceComplete {s : State} {k : Nat} {c : EngCmd} (h : s.readyFence k = some c) :
    exec (.qfenceComplete k) s = .next (s.fenceDone k c) := by
  show execQfenceComplete k s = _
  simp only [execQfenceComplete, h]
  rfl

section
variable {s : State} {k q : Nat} {c : EngCmd} (hc : s.headCmd k q = some c)
include hc

theorem exec_engineOperationFault {a : Nat} (hh : c.held = false) (ha : s.engTrouble k c = some a) :
    exec (.engineOperationFault k q) s = .next (s.holdCmd k q c a) := by
  show execEngineOperationFault k q s = _
  simp [execEngineOperationFault, hc, hh, ha]

theorem exec_engineRewalk_held {a : Nat} (hh : c.held = true) (ha : s.engTrouble k c = some a) :
    exec (.engineRewalk k q) s = .next (s.kick k q) := by
  show execEngineRewalk k q s = _
  simp [execEngineRewalk, hc, hh, ha]

theorem exec_engineRewalk_goes (hh : c.held = true) (ha : s.engTrouble k c = none) :
    exec (.engineRewalk k q) s = .next ((s.setHead k q { c with held := false }).kick k q) := by
  show execEngineRewalk k q s = _
  simp [execEngineRewalk, hc, hh, ha]

end

theorem exec_enginePreempt {s : State} {k q x : Nat} (hs : ((s.cas k).stops.filter (fun e => e.1 == q)).map (·.2) = [x])
    (hw : s.weight (k / 256) x = 0) : exec (.enginePreempt k q) s = .next ((s.saveCmds k q x).kick k q) := by
  show execEnginePreempt k q s = _
  have hw' : ((s.saveCmds k q x).kick k q).weight (k / 256) x = 0 := by
    rw [← hw, weight, kick_die, saveCmds, die_setDie_self, weight]
    rfl
  simp only [execEnginePreempt, hs, List.isEmpty_cons, List.foldl_cons, List.foldl_nil, List.contains_cons, List.contains_nil,
    Bool.or_false, Bool.false_eq_true, ↓reduceIte]
  exact congrArg Host.Outcome.next (if_pos hw')

theorem exec_engineResume {s : State} {d x : Nat} (hw : s.weight d x ≠ 0)
    (hs : (s.die d).savedCmds.any (fun c => c.ctx == x) = true) :
    exec (.engineResume d x) s = .next (s.resumeCmds d x) := by
  show execEngineResume d x s = _
  simp [execEngineResume, hw, hs]

/-- Settles O43: what each step of a queue answers, and what its state then holds, as the lemmas of the queue's operations say. -/
theorem engineQueuesAndHolds : Obligations.EngineQueuesAndHolds := by
  refine ⟨⟨fun s tag mask c hm hst => exec_engineCommandArrival_stopped hm hst, fun s tag q c hm hq hst hr ha hs => ?admitted,
      fun s tag mask c hm hst hr ha => ?refused, fun s k c hf => ?fence⟩,
    fun s k q c hc => ⟨fun hh a ha => ?fault, fun hh a ha => ?rewalk, fun hh ha => ?goes⟩, fun s k q x hs hw => ?save,
    fun s d x hw hs => ?resume⟩
  case admitted =>
    refine ⟨_, exec_engineCommandArrival_admitted hm hq hst hr ha hs, ?_, ?_, ?_⟩
    · exact queue_enterQueue (s.dropMsg tag) c q
    · exact (plansOnly_mem ((s.dropMsg tag).plansOnly_enterQueue c q) :)
    · refine sent_post _ _ ?_ ?_ <;> rw [(s.dropMsg tag).plansOnly_enterQueue c q] <;> rfl
  case refused =>
    exact ⟨_, exec_engineCommandArrival_refused hm hst hr ha, rfl, rfl, sent_post _ _ rfl rfl⟩
  case fence =>
    exact ⟨_, exec_qfenceComplete hf, fun q hq e he hi => queue_fenceDone (mem_fencedQueues hq he hi), sent_fenceDone s k,
      s.fenceDone_mem k c⟩
  case fault =>
    have hn : (s.notice (k * 8) c.core c.ctx Cls.engop a (c.w 0) 0 0).headCmd k q = some c :=
      (keepsQueues_headCmd (s.keepsQueues_notice ..) k q).trans hc
    have hset := headCmd_setHead { c with held := true } hn
    refine ⟨_, exec_engineOperationFault hc hh ha, (headCmd_kick ..).trans hset, ?_⟩
    rw [← keepsQueues_time (s.keepsQueues_notice (k * 8) c.core c.ctx Cls.engop a (c.w 0) 0 0)]
    exact kick_plans_rewalk hset rfl
  case rewalk =>
    exact ⟨_, exec_engineRewalk_held hc hh ha, (s.headCmd_kick k q k q).trans hc, kick_plans_rewalk hc hh, s.kick_mem k q⟩
  case goes =>
    exact ⟨_, exec_engineRewalk_goes hc hh ha, (headCmd_kick _ k q k q).trans (headCmd_setHead _ hc), kick_mem _ k q⟩
  case save =>
    refine ⟨_, exec_enginePreempt hs hw, (queue_kick _ k q k q).trans (s.queue_saveCmds k q x), ?_, kick_mem _ k q⟩
    rw [kick_die]
    exact s.savedCmds_saveCmds k q x
  case resume =>
    obtain ⟨cs, ag, he⟩ := s.resumeCmds_eq d x
    refine ⟨_, exec_engineResume hw hs, ?_, ?_⟩ <;> rw [he]
    · exact congrArg Die.savedCmds (s.die_setDie_self d _)
    · rfl

end Sys2Proof.Machine
end
